-- ==== Sys2Proof/Word.lean ====
section
/-! DEFINITION. The plain words of the model: bytes of the links, pose sequence numbers, and times in ticks. -/

namespace Sys2Proof

/-- A byte of a link; also a feed tag, which wraps after 255 (R57). -/
abbrev Byte := BitVec 8

/-- A pose sequence number, counted modulo 2048 (R105). -/
abbrev Seq := BitVec 11

/-- A time, in ticks of the 100 kHz timebase of R95 (10 µs). -/
abbrev Time := Nat

end Sys2Proof
end

