-- ==== Sys2Proof/Config.lean ====
section
/-! DEFINITION. What the manual leaves open: the order of two events that come together. -/

namespace Sys2Proof

/-- FREE VALUE (assumption 3). Where several events of the part's own stand due together, "either may be taken
first" (R54, R64, R85, R93, R121, R156 and others): the empty-queue step takes the one this constant picks.
Nothing constrains it. -/
opaque Config.freeChoice : Nat → Nat

end Sys2Proof
end

