-- ==== Sys2Proof/Syntax.lean ====
section
/-! DEFINITION. The commands and events of the LH-2: one constructor of `Instr` per row of spec/opcode_table.json.
Operands of a site command are its tag and its body fields as the frame carries them (R182, R184, R185). -/

namespace Sys2Proof

/-- The two cradles (R82). -/
inductive CradleId
  | cradle0 | cradle1
  deriving DecidableEq, Repr

/-- The two links (R169). -/
inductive Link
  | site | tracker
  deriving DecidableEq, Repr

/-- The cradle-count strap (R165). -/
inductive CradleCount
  | one | two
  deriving DecidableEq, Repr

/-- The travel strap (R133, R165). -/
inductive Travel
  | short | long
  deriving DecidableEq, Repr

/-- Where a brick with an open-time deadline is held (R99). -/
inductive GluedPlace
  | cradle (c : CradleId) | gripper
  deriving DecidableEq, Repr

/-- A slot record of LOAD SLOTS, field by field as its 16 bytes hold it (R185). -/
structure SlotRecord where
  course    : BitVec 8
  rotation  : BitVec 2
  kind      : BitVec 2
  adhesive  : BitVec 2
  attention : Bool
  alternate : Bool
  along     : BitVec 32
  lateral   : BitVec 16
  planned   : BitVec 16
  spare     : BitVec 48
  deriving DecidableEq, Repr

/-- The commands and events. A row of the table is the whole event; a site command's row is the arrival of its frame
and, where R173 lets the SLI take it, its taking in the same event (assumption 1). -/
inductive Instr
  /-- IDENTIFY (R166). -/
  | identify (tag : Byte)
  /-- RESET (R167, R176). -/
  | reset (tag : Byte)
  /-- READ STATUS (R179). -/
  | readStatus (tag page : Byte)
  /-- READ BANK (R21). -/
  | readBank (tag bank : Byte)
  /-- READ SLOT (R22). -/
  | readSlot (tag bank index : Byte)
  /-- SET DATUM (R25). -/
  | setDatum (tag entry : Byte) (ox oy oz : BitVec 32) (cx cy hz p : BitVec 16)
  /-- SET ZONE BOX (R41). -/
  | setZoneBox (tag : Byte) (xmin xmax ymin ymax zmin zmax : BitVec 32)
  /-- SET ZONE ROW (R43). -/
  | setZoneRow (tag row : Byte) (cells : BitVec 64)
  /-- OPEN BANK (R6). -/
  | openBank (tag bank datum walk : Byte) (w : BitVec 16)
  /-- LOAD SLOTS (R7, R8). -/
  | loadSlots (tag bank first count : Byte) (records : List SlotRecord)
  /-- CLOSE BANK (R9 to R11). -/
  | closeBank (tag bank : Byte)
  /-- DISCARD BANK (R12). -/
  | discardBank (tag bank : Byte)
  /-- SET NEXT BANK (R60). -/
  | setNextBank (tag bank : Byte)
  /-- SKIP SLOT (R18). -/
  | skipSlot (tag bank index : Byte)
  /-- SET PLACEMENT (R146). -/
  | setPlacement (tag lead window alternate count quality approach : Byte) (settle : BitVec 16)
  /-- SET FEED (R71). -/
  | setFeed (tag depth tolerance timeout : Byte)
  /-- SET ADHESIVE (R102). -/
  | setAdhesive (tag : Byte) (divisor : BitVec 16) (pitch : Byte) (openTime : BitVec 16)
  /-- SET SUPPLY MARK (R68). -/
  | setSupplyMark (tag threshold scope sense : Byte)
  /-- SET WATCH (R157). -/
  | setWatch (tag conditions : Byte)
  /-- CLEAR WATCH (R160). -/
  | clearWatch (tag conditions : Byte)
  /-- SET NOTICES (R178). -/
  | setNotices (tag : Byte) (enables : BitVec 16)
  /-- BRICK LOADED (R75). -/
  | brickLoaded (tag feedTag : Byte) (measured : BitVec 16)
  /-- END COURSE (R66). -/
  | endCourse (tag : Byte)
  /-- PURGE (R87). -/
  | purge (tag : Byte)
  /-- ABANDON (R143). -/
  | abandon (tag : Byte)
  /-- START (R152). -/
  | start (tag : Byte)
  /-- PAUSE (R153). -/
  | pause (tag : Byte)
  /-- RESUME (R154). -/
  | resume (tag : Byte)
  /-- STOW (R155). -/
  | stow (tag : Byte)
  /-- ENTER SETUP (R155). -/
  | enterSetup (tag : Byte)
  /-- CLEAR FAULT (R164). -/
  | clearFault (tag : Byte)
  /-- A command whose KIND names no command (R173). -/
  | unknownCommand (kind tag : Byte) (body : List Byte)
  /-- A frame completed by the site framer (R172). -/
  | commandFrameArrival (kind tag : Byte) (body : List Byte)
  /-- A frame completed by the tracker framer (R181). -/
  | poseFrameArrival (kind tag : Byte) (body : List Byte)
  /-- The end of a frame sent on the site link (R174, R176). -/
  | frameTransmissionEnd
  /-- Power-on reset with the straps and the HALT line as they stand (R165, R167). -/
  | powerOnReset (cradles : CradleCount) (travel : Travel) (halt : Bool)
  /-- Assertion of HALT (R161). -/
  | haltAssert
  /-- Deassertion of HALT (R161). -/
  | haltDeassert
  /-- Assertion of ARRIVE (R80). -/
  | arrive
  /-- Assertion of GRIPPED (R127 to R129). -/
  | pickCompletion
  /-- Deassertion of GRIPPED (R127). -/
  | grippedDeassert
  /-- Expiry of the grip timeout (R127). -/
  | gripTimeout
  /-- Expiry of the transit deadline of the entry with this feed tag (R78). -/
  | transitExpiry (feedTag : Byte)
  /-- The end of the tip of a cradle (R85). -/
  | tipCompletion (c : CradleId)
  /-- The pump counter passes 4095 (R95). -/
  | pumpCounterReload
  /-- The grant of the pump (R93). -/
  | grant
  /-- Expiry of an open-time deadline (R99). -/
  | openTimeExpiry (place : GluedPlace)
  /-- The end of an abandonment (R144). -/
  | abandonCompletion
  /-- Expiry of the placement timer (R140). -/
  | placementTimerExpiry
  /-- The end of the release dwell (R138). -/
  | releaseDwellEnd
  /-- Expiry of the pose expiry timer (R115). -/
  | poseTimerExpiry
  /-- A feed request (R54, R55). -/
  | feedRequest
  /-- A pick decision (R126). -/
  | pickDecision
  /-- A byte received on a link (R171). -/
  | receiveFramerByte (link : Link) (byte : Byte)
  deriving DecidableEq, Repr

end Sys2Proof
end

