-- ==== Sys2Proof/WellFormed.lean ====
section
/-! DEFINITION. Which terms of `Instr` are commands or events that the outside can make. -/

namespace Sys2Proof

/-- The KINDs of R182: those that name a command. -/
def commandKinds : List Nat :=
  [0x01, 0x02, 0x03, 0x04, 0x05, 0x08, 0x09, 0x0A, 0x10, 0x11, 0x12, 0x13, 0x14, 0x15, 0x18, 0x19, 0x1A, 0x1B, 0x1C,
   0x1D, 0x1E, 0x20, 0x21, 0x22, 0x23, 0x28, 0x29, 0x2A, 0x2B, 0x2C, 0x2D]

/-- A frame's BODY is 0..122 bytes (R169). -/
def bodyFits (body : List Byte) : Bool := body.length ≤ 122

/-- A KIND of the command space that names no command (R169, R173). -/
def namesNoCommand (kind : Byte) : Bool :=
  0x01 ≤ kind.toNat && kind.toNat ≤ 0x3F && !commandKinds.contains kind.toNat

/-- LOAD SLOTS carries at most 7 records, or its frame would not fit (R7, R182); a frame's body fits its frame (R169);
UNKNOWN_COMMAND carries a KIND that names no command (R173). Every other term is a command or an event. -/
def Instr.wellFormed : Instr → Bool
  | .loadSlots _ _ _ _ records => records.length ≤ 7
  | .unknownCommand kind _ body => namesNoCommand kind && bodyFits body
  | .commandFrameArrival _ _ body => bodyFits body
  | .poseFrameArrival _ _ body => bodyFits body
  | .identify _ => true
  | .reset _ => true
  | .readStatus _ _ => true
  | .readBank _ _ => true
  | .readSlot _ _ _ => true
  | .setDatum _ _ _ _ _ _ _ _ _ => true
  | .setZoneBox _ _ _ _ _ _ _ => true
  | .setZoneRow _ _ _ => true
  | .openBank _ _ _ _ _ => true
  | .closeBank _ _ => true
  | .discardBank _ _ => true
  | .setNextBank _ _ => true
  | .skipSlot _ _ _ => true
  | .setPlacement _ _ _ _ _ _ _ _ => true
  | .setFeed _ _ _ _ => true
  | .setAdhesive _ _ _ _ => true
  | .setSupplyMark _ _ _ _ => true
  | .setWatch _ _ => true
  | .clearWatch _ _ => true
  | .setNotices _ _ => true
  | .brickLoaded _ _ _ => true
  | .endCourse _ => true
  | .purge _ => true
  | .abandon _ => true
  | .start _ => true
  | .pause _ => true
  | .resume _ => true
  | .stow _ => true
  | .enterSetup _ => true
  | .clearFault _ => true
  | .frameTransmissionEnd => true
  | .powerOnReset _ _ _ => true
  | .haltAssert => true
  | .haltDeassert => true
  | .arrive => true
  | .pickCompletion => true
  | .grippedDeassert => true
  | .gripTimeout => true
  | .transitExpiry _ => true
  | .tipCompletion _ => true
  | .pumpCounterReload => true
  | .grant => true
  | .openTimeExpiry _ => true
  | .abandonCompletion => true
  | .placementTimerExpiry => true
  | .releaseDwellEnd => true
  | .poseTimerExpiry => true
  | .feedRequest => true
  | .pickDecision => true
  | .receiveFramerByte _ _ => true

end Sys2Proof
end

