-- ==== Sys2Proof/Decode.lean ====
section
/-! DEFINITION. The command that a word of spec/opcode_table.json's bits spells: no row of the table gives bits, so no
word spells one. -/

namespace Sys2Proof

/-- No row of the opcode table has fixed bits or fields: every word is refused. -/
def decodeTableWord (nbits w : Nat) : Option Instr :=
  match nbits, w with
  | _, _ => none

end Sys2Proof
end

