-- ==== Sys2Proof/Machine/State.lean ====
section
/-! DEFINITION. The state of the LH-2, block by block in the manual's order (00_scope.md, "Block overview"), as plain
data, and the state right after reset. -/

namespace Sys2Proof.Machine

/-! ## Named values -/

/-- The two banks (R1). -/
inductive BankId
  | bank0 | bank1
  deriving DecidableEq, Repr

/-- The part modes (R150). -/
inductive PartMode
  | setup | laying | paused | stowed | faulted
  deriving DecidableEq, Repr

/-- The bank states (R2). -/
inductive BankState
  | empty | loading | ready | active | spent
  deriving DecidableEq, Repr

/-- The walk modes (R50). -/
inductive WalkMode
  | forward | reverse | alternateF | alternateR
  deriving DecidableEq, Repr

/-- The slot kinds (R3). -/
inductive SlotKind
  | stretcher | header | cut
  deriving DecidableEq, Repr

/-- The adhesive patterns (R3). -/
inductive Pattern
  | none | single | double
  deriving DecidableEq, Repr

/-- The rotations of a slot, in degrees (R3). -/
inductive Rotation
  | deg0 | deg90 | deg180 | deg270
  deriving DecidableEq, Repr

/-- Why a slot is refused (R4). -/
inductive RefusalReason
  | zone | repeated
  deriving DecidableEq, Repr

/-- Why a brick is withdrawn, in the order of the REJECTED notice (R183). -/
inductive RejectReason
  | miscut | spoiled | abandoned | rollback | courseEnded | purged | zone
  deriving DecidableEq, Repr

/-- The fault causes (R149). -/
inductive FaultCause
  | halt | lostBrick | strayArrival | overrun | gripFail | releaseFail
  deriving DecidableEq, Repr

/-- The causes of a MODE notice (R150, R183). -/
inductive ModeCause
  | command | timeout | watch | fault
  deriving DecidableEq, Repr

/-- The watch conditions (R149, R157). -/
inductive WatchCondition
  | courseStart | cut | marked | bankSwitch | afterReject
  deriving DecidableEq, Repr

/-- The reset causes (R149). -/
inductive ResetCause
  | powerOn | command
  deriving DecidableEq, Repr

/-- The reasons of a HOLD notice (R183). -/
inductive HoldReason
  | approachTimeout | settleTimeout | pose
  deriving DecidableEq, Repr

/-- The pose states (R106). -/
inductive PoseState
  | none | tracking | coasting | lost | recovering
  deriving DecidableEq, Repr

/-- The placement states (R124). -/
inductive PlacementState
  | idle | picking | approach | settling | releasing | abandoning
  deriving DecidableEq, Repr

/-- The feed states (R53); derived, never held. -/
inductive FeedState
  | feeding | held | ended | waiting
  deriving DecidableEq, Repr

/-- The scopes of the supply mark (R68). -/
inductive SupplyScope
  | bank | course
  deriving DecidableEq, Repr

/-- The senses of the supply mark (R68). -/
inductive SupplySense
  | atOrBelow | atOrAbove
  deriving DecidableEq, Repr

/-- The states of a train entry (R74). -/
inductive TrainState
  | requested | inTransit
  deriving DecidableEq, Repr

/-- Where a pose sample comes from (R105). -/
inductive Origin
  | real | synthesized
  deriving DecidableEq, Repr

/-- The result codes (R175). -/
inductive ResultCode
  | ok | adjusted | queueFull | unknown | length | range | state | busy | order | invalidPlan
  deriving DecidableEq, Repr

/-- A point or a difference of points: X, Y, Z in 0.1 mm. -/
structure Vec3 where
  x : Int
  y : Int
  z : Int
  deriving DecidableEq, Repr

/-- The four fine-axis setpoints (R123). -/
structure Setpoints where
  x     : Int
  y     : Int
  z     : Int
  wrist : Int
  deriving DecidableEq, Repr

/-! ## Plan Store (chapter 1) -/

/-- The placement record of a LAID slot (R4, R20). -/
structure LayOutcome where
  sequence  : Seq
  setpoints : Setpoints
  lastStep  : Vec3
  deriving DecidableEq, Repr

/-- A slot's status, with the refusal reason of a REFUSED slot and the outcome of a LAID one (R4, R15). -/
inductive SlotStatus
  | pending | fed | laid (outcome : LayOutcome) | skipped | refused (reason : RefusalReason)
  deriving DecidableEq, Repr

/-- A slot: its loaded fields (R3) and the fields the controller keeps (R4). -/
structure Slot where
  course      : Nat
  along       : Int
  lateral     : Option Int
  rotation    : Rotation
  kind        : SlotKind
  planned     : Nat
  pattern     : Pattern
  attention   : Bool
  alternate   : Bool
  status      : SlotStatus
  rejectCount : Nat
  target      : Option Vec3
  deriving DecidableEq, Repr

/-- What OPEN BANK writes: present in every state but EMPTY (R1). -/
structure BankSetup where
  datum : Fin 4
  walk  : WalkMode
  width : Nat
  deriving DecidableEq, Repr

/-- A bank record (R1); its slot count is the length of its slot list. -/
structure Bank where
  state   : BankState
  setup   : Option BankSetup
  slots   : List Slot
  refusedAtClose : Nat
  deriving DecidableEq, Repr

/-- The Plan Store: both banks and the active order list, oldest first (R2). -/
structure PlanStore where
  bank0 : Bank
  bank1 : Bank
  order : List BankId
  deriving DecidableEq, Repr

/-! ## Datum Table (chapter 2) and Zone Unit (chapter 3) -/

/-- The contents of a SET datum entry (R24). -/
structure DatumEntry where
  ox : Int
  oy : Int
  oz : Int
  cx : Int
  cy : Int
  hz : Int
  p  : Int
  deriving DecidableEq, Repr

/-- The Datum Table: four entries, UNSET when absent (R24). -/
structure DatumTable where
  entries : Vector (Option DatumEntry) 4
  deriving DecidableEq, Repr

/-- The bounds of a SET zone box (R39). -/
structure ZoneBox where
  xmin : Int
  xmax : Int
  ymin : Int
  ymax : Int
  zmin : Int
  zmax : Int
  deriving DecidableEq, Repr

/-- The Zone Unit: the box, UNSET when absent (R39), and the cell map, row by row, column 0 in the most significant bit
as SET ZONE ROW sends it, 1 meaning permitted (R40, R182). -/
structure ZoneUnit where
  box   : Option ZoneBox
  cells : Vector (BitVec 64) 64
  deriving DecidableEq, Repr

/-! ## Feed Sequencer (chapter 4) -/

/-- The supply mark setting (R68); no threshold means OFF. -/
structure SupplyMark where
  threshold : Option Nat
  scope     : SupplyScope
  sense     : SupplySense
  deriving DecidableEq, Repr

/-- The Feed Sequencer (R52). -/
structure FeedSequencer where
  pointer    : BankId
  cursor     : Nat
  depth      : Nat
  tolerance  : Nat
  nextTag    : Byte
  bankNeeded : Bool
  mark       : SupplyMark
  condition  : Bool
  lastCount  : Option Nat
  deriving DecidableEq, Repr

/-! ## Train List and Cradle Unit (chapter 5) -/

/-- What every record of a brick holds: its place in train order (the model's own field, assumption 12), feed tag,
bank, slot and reject mark (R74, R82, R124). A brick is live when it has no mark. -/
structure Brick where
  serial : Nat
  tag    : Byte
  bank   : BankId
  slot   : Nat
  mark   : Option RejectReason
  deriving DecidableEq, Repr

/-- A train entry (R74). -/
structure TrainEntry where
  brick    : Brick
  planned  : Nat
  measured : Option Nat
  state    : TrainState
  deadline : Option Time
  lost     : Bool
  deriving DecidableEq, Repr

/-- The Train List, oldest first, with the transit timeout in seconds (R73) and the next serial number (assumption 12). -/
structure TrainList where
  entries    : List TrainEntry
  timeout    : Nat
  nextSerial : Nat
  deriving DecidableEq, Repr

/-- The brick record of a cradle (R82). -/
structure CradleBrick where
  brick   : Brick
  planned : Nat
  pattern : Pattern
  deriving DecidableEq, Repr

/-- A cradle record (R82): a brick in every state but EMPTY, an open-time deadline in READY after glue, and the end of
the tip in TIPPING (R85). -/
inductive Cradle
  | empty
  | held (b : CradleBrick)
  | gluing (b : CradleBrick)
  | ready (b : CradleBrick) (deadline : Option Time)
  | tipping (b : CradleBrick) (done : Time)
  deriving DecidableEq, Repr

/-- The Cradle Unit: both cradles (cradle 1 stays EMPTY where the strap says one) and CONVEYOR HOLD (R82, R86). -/
structure CradleUnit where
  cradle0 : Cradle
  cradle1 : Cradle
  hold    : Bool
  deriving DecidableEq, Repr

/-! ## Adhesive Unit (chapter 6) -/

/-- A glue operation: stroke count N, strokes completed, stroke period in ticks (R91, R94). -/
structure GlueOperation where
  strokes : Nat
  done    : Nat
  period  : Nat
  deriving DecidableEq, Repr

/-- The Adhesive Unit (R91) with the pump counter and the PUMP line (R95); the open time is in seconds. -/
structure AdhesiveUnit where
  owner     : Option CradleId
  operation : Option GlueOperation
  divisor   : Nat
  pitch     : Nat
  openTime  : Nat
  counter   : Nat
  pump      : Bool
  deriving DecidableEq, Repr

/-! ## Pose Filter (chapter 7) -/

/-- An accepted pose sample with its origin (R105). -/
structure Sample where
  sequence : Seq
  tip      : Vec3
  hc       : Int
  hs       : Int
  quality  : Nat
  origin   : Origin
  deriving DecidableEq, Repr

/-- The Pose Filter (R106); the expiry timer is its due time while it runs. -/
structure PoseFilter where
  state       : PoseState
  last        : Option Sample
  previous    : Option Sample
  velocity    : Vec3
  synthesized : Nat
  realRun     : Nat
  timer       : Option Time
  deriving DecidableEq, Repr

/-! ## Compensation Unit and Placement Sequencer (chapter 8) -/

/-- The seven values of SET PLACEMENT (R146): five for the Compensation Unit, two timeouts in s and ms for the
Placement Sequencer. -/
structure PlacementSettings where
  lead      : Nat
  window    : Nat
  alternate : Nat
  count     : Nat
  quality   : Nat
  approach  : Nat
  settle    : Nat
  deriving DecidableEq, Repr

/-- The saturation flags of the four axes (R123). -/
structure Saturation where
  x     : Bool
  y     : Bool
  z     : Bool
  wrist : Bool
  deriving DecidableEq, Repr

/-- The Compensation Unit (R123); `latched` holds the latched parameters and the latched timeouts (R124). -/
structure CompensationUnit where
  settings   : PlacementSettings
  latched    : Option PlacementSettings
  setpoints  : Setpoints
  lastStep   : Vec3
  saturation : Saturation
  counter    : Nat
  releaseSeq : Option Seq
  deriving DecidableEq, Repr

/-- The gripper brick record (R124). -/
structure GripperBrick where
  brick    : Brick
  rotation : Rotation
  deadline : Option Time
  deriving DecidableEq, Repr

/-- The step timer: one at a time, by state (R124), with its due time. -/
inductive StepTimer
  | stopped | grip (due : Time) | release (due : Time) | abandon (due : Time)
  deriving DecidableEq, Repr

/-- The Placement Sequencer (R124) with the GRIP line (R125) and the level of GRIPPED (R127). -/
structure PlacementSequencer where
  state         : PlacementState
  gripper       : Option GripperBrick
  pickCradle    : Option CradleId
  timer         : Option Time
  hasSettled    : Bool
  holdPaused    : Bool
  holdPose      : Bool
  stepTimer     : StepTimer
  quarterTurn   : Rotation
  abandonReason : Option RejectReason
  grip          : Bool
  gripped       : Bool
  deriving DecidableEq, Repr

/-! ## Mode Control (chapter 9) -/

/-- A fault record that is not empty (R149); member n of the further set is cause n. -/
structure FaultRecord where
  primary     : FaultCause
  further     : BitVec 6
  modeAtFault : PartMode
  deriving DecidableEq, Repr

/-- Mode Control (R149); member n of a watch set is condition n. -/
structure ModeControl where
  mode          : PartMode
  fault         : Option FaultRecord
  watchEnables  : BitVec 5
  watchStatus   : BitVec 5
  watchStopped  : Option Byte
  rejectSeen    : Bool
  bankSwitch0   : Bool
  bankSwitch1   : Bool
  halt          : Bool
  cradleCount   : CradleCount
  travel        : Travel
  resetCause    : ResetCause
  deriving DecidableEq, Repr

/-! ## Site and Tracker Link Interfaces (chapter 10) -/

/-- A frame as completed by a framer: KIND, TAG, BODY (R169). -/
structure Frame where
  kind : Byte
  tag  : Byte
  body : List Byte
  deriving DecidableEq, Repr

/-- A field of a reply or notice body: how many bytes it takes and the integer they spell, most significant byte first,
two's complement if negative (R184). -/
structure Field where
  bytes : Nat
  value : Int
  deriving DecidableEq, Repr

/-- A reply: its command's KIND and TAG, the result code and the fields after it (R174). -/
structure Reply where
  kind   : Byte
  tag    : Byte
  code   : ResultCode
  fields : List Field
  deriving DecidableEq, Repr

/-- The notices and what each carries (R183). -/
inductive Notice
  | ready (cause : ResetCause) (cradles : CradleCount) (travel : Travel) (mode : PartMode)
  | mode (new left : PartMode) (cause : ModeCause)
  | feed (tag : Byte) (bank : BankId) (slot : Nat) (kind : SlotKind) (planned : Nat) (rotation : Rotation)
  | nextTarget (tag : Byte) (bank : BankId) (slot : Nat) (target : Vec3) (rotation : Rotation)
  | placed (tag : Byte) (bank : BankId) (slot : Nat) (outcome : LayOutcome)
  | rejected (tag : Byte) (bank : BankId) (slot : Nat) (reason : RejectReason)
  | supply (count : Nat) (scope : SupplyScope)
  | bankNeeded (bank : BankId)
  | bankSpent (bank : BankId) (laid skipped refused : Nat)
  | watchStop (conditions : BitVec 5) (tag : Byte) (bank : BankId) (slot : Nat)
  | hold (reason : HoldReason) (tag : Byte) (bank : BankId) (slot : Nat)
  | poseLost (lastAccepted lastReal : Seq)
  | poseRestored (completing : Seq)
  | fault (reported primary : FaultCause) (further : BitVec 6)
  deriving DecidableEq, Repr

/-- What the site link transmitter sends: a reply or a notice (R174). -/
inductive Sent
  | reply (r : Reply)
  | notice (n : Notice)
  deriving DecidableEq, Repr

/-- A receive framer: the bytes of the frame it is taking, from SYNC on; none in HUNT (R171). -/
structure Framer where
  bytes : List Byte
  deriving DecidableEq, Repr

/-- The Site Link Interface and the two framers (R171 to R178, R187); member n of the enable set is the notice of row n
of R183. -/
structure LinkInterface where
  siteFramer    : Framer
  trackerFramer : Framer
  commands      : List Frame
  replies       : List Reply
  notices       : List Notice
  resetPending  : Bool
  enables       : BitVec 14
  dropped       : Bool
  sending       : Option Sent
  deriving DecidableEq, Repr

/-! ## The whole machine -/

/-- The model's clock: the time now, the time at which the deadlines stopped while FAULTED (R88, R98), and how many free
choices have been drawn (assumptions 2 and 3). -/
structure Clock where
  now       : Time
  stoppedAt : Option Time
  choices   : Nat
  deriving DecidableEq, Repr

/-- The whole state of the LH-2, and the queue of the commands and events that wait, first in first out. -/
structure State where
  plan     : PlanStore
  datum    : DatumTable
  zone     : ZoneUnit
  feed     : FeedSequencer
  train    : TrainList
  cradles  : CradleUnit
  adhesive : AdhesiveUnit
  pose     : PoseFilter
  comp     : CompensationUnit
  place    : PlacementSequencer
  mode     : ModeControl
  link     : LinkInterface
  clock    : Clock
  pending  : List Instr
  deriving DecidableEq, Repr

/-- No row of the table ends in a fault of the model: the part's own faults are state (R162), so nothing raises one
(assumption 30). Safe: there is nothing to stop on. -/
inductive Fault
  deriving DecidableEq, Repr

/-- Why a step can be refused. -/
inductive Refusal
  /-- Raised by `exec` for a row that has no meaning yet; no arm raises it now. Safe: the model stops. -/
  | notModelled (mnemonic : String)
  deriving DecidableEq, Repr

/-! ## Reset values -/

/-- An EMPTY bank (R1, R23). -/
def Bank.reset : Bank := { state := .empty, setup := none, slots := [], refusedAtClose := 0 }

/-- R23. -/
def PlanStore.reset : PlanStore := { bank0 := .reset, bank1 := .reset, order := [] }

/-- R38. -/
def DatumTable.reset : DatumTable := { entries := Vector.replicate 4 none }

/-- R49. -/
def ZoneUnit.reset : ZoneUnit := { box := none, cells := Vector.replicate 64 0#64 }

/-- R72. -/
def FeedSequencer.reset : FeedSequencer :=
  { pointer := .bank0, cursor := 0, depth := 6, tolerance := 20, nextTag := 0, bankNeeded := false,
    mark := { threshold := none, scope := .bank, sense := .atOrBelow }, condition := false, lastCount := none }

/-- R72, R90. -/
def TrainList.reset : TrainList := { entries := [], timeout := 30, nextSerial := 0 }

/-- R90. -/
def CradleUnit.reset : CradleUnit := { cradle0 := .empty, cradle1 := .empty, hold := false }

/-- R104; the pump counter's value is the model's (assumption 28). -/
def AdhesiveUnit.reset : AdhesiveUnit :=
  { owner := none, operation := none, divisor := 3596, pitch := 50, openTime := 240, counter := 0, pump := false }

/-- R122. -/
def PoseFilter.reset : PoseFilter :=
  { state := .none, last := none, previous := none, velocity := ⟨0, 0, 0⟩, synthesized := 0, realRun := 0, timer := none }

/-- R148. -/
def CompensationUnit.reset : CompensationUnit :=
  { settings := { lead := 2, window := 5, alternate := 10, count := 4, quality := 2, approach := 30, settle := 2000 },
    latched := none, setpoints := ⟨0, 0, 0, 0⟩, lastStep := ⟨0, 0, 0⟩, saturation := ⟨false, false, false, false⟩,
    counter := 0, releaseSeq := none }

/-- R148, with the level of GRIPPED as the line has it (assumption 8). -/
def PlacementSequencer.reset (gripped : Bool) : PlacementSequencer :=
  { state := .idle, gripper := none, pickCradle := none, timer := none, hasSettled := false, holdPaused := false,
    holdPose := true, stepTimer := .stopped, quarterTurn := .deg0, abandonReason := none, grip := false,
    gripped := gripped }

/-- R168, before a HALT that stands at the end of the reset is reported (R167). -/
def ModeControl.reset (cause : ResetCause) (cradles : CradleCount) (travel : Travel) (halt : Bool) : ModeControl :=
  { mode := .setup, fault := none, watchEnables := 0, watchStatus := 0, watchStopped := none, rejectSeen := false,
    bankSwitch0 := false, bankSwitch1 := false, halt := halt, cradleCount := cradles, travel := travel,
    resetCause := cause }

/-- R187, before READY is raised (R167). -/
def LinkInterface.reset : LinkInterface :=
  { siteFramer := ⟨[]⟩, trackerFramer := ⟨[]⟩, commands := [], replies := [], notices := [], resetPending := false,
    enables := BitVec.allOnes 14, dropped := false, sending := none }

/-- The values that every block's own table of reset values gives, with what comes from outside the tables: the reset
cause, the straps, the lines, the clock and the queue of waiting commands. -/
def State.resetValues (cause : ResetCause) (cradles : CradleCount) (travel : Travel) (halt gripped : Bool)
    (clock : Clock) (pending : List Instr) : State :=
  { plan := .reset, datum := .reset, zone := .reset, feed := .reset, train := .reset, cradles := .reset,
    adhesive := .reset, pose := .reset, comp := .reset, place := .reset gripped,
    mode := .reset cause cradles travel halt, link := .reset, clock := clock, pending := pending }

/-- The machine right after power-on reset, HALT deasserted, with two cradles and LONG travel (assumption 9): every block
at its reset values, and the READY notice that ends a reset (R167) taken by the free transmitter (R174, assumption 10). -/
def State.reset : State :=
  { State.resetValues .powerOn .two .long false false { now := 0, stoppedAt := none, choices := 0 } [] with
    link := { LinkInterface.reset with sending := some (.notice (.ready .powerOn .two .long .setup)) } }

end Sys2Proof.Machine
end

