-- ==== Sys2Proof/Machine/Operands.lean ====
section
/-! DEFINITION. Operand forms: the codes of the named values (R184), the fields of command bodies (R182), slot records
(R185), pose samples (R186), and the sized fields of reply and notice bodies (R184). -/

namespace Sys2Proof

/-! ## The straps and the cradles -/

def Travel.code : Travel → Nat
  | .short => 0 | .long => 1

/-- The cradle count strap's value, 1 or 2 (R165). -/
def CradleCount.number : CradleCount → Nat
  | .one => 1 | .two => 2

def CradleId.code : CradleId → Nat
  | .cradle0 => 0 | .cradle1 => 1

/-! ## Fields of command bodies: most significant byte first (R184) -/

def be16 (w : BitVec 16) : List Byte := [w.extractLsb' 8 8, w.extractLsb' 0 8]

def be32 (w : BitVec 32) : List Byte :=
  [w.extractLsb' 24 8, w.extractLsb' 16 8, w.extractLsb' 8 8, w.extractLsb' 0 8]

def be64 (w : BitVec 64) : List Byte := be32 (w.extractLsb' 32 32) ++ be32 (w.extractLsb' 0 32)

/-- The byte at an offset of a body. -/
def byteAt (body : List Byte) (i : Nat) : Byte := body.getD i 0

def wordAt (body : List Byte) (i : Nat) : BitVec 16 := byteAt body i ++ byteAt body (i + 1)

def longAt (body : List Byte) (i : Nat) : BitVec 32 := wordAt body i ++ wordAt body (i + 2)

def quadAt (body : List Byte) (i : Nat) : BitVec 64 := longAt body i ++ longAt body (i + 4)

/-! ## Slot records (R185) -/

/-- Byte 1 of a slot record: rotation, kind, pattern, attention flag, alternate-window flag, from bit 7 down. -/
def slotFlagsByte (rotation kind adhesive : BitVec 2) (attention alternate : Bool) : Byte :=
  rotation ++ kind ++ adhesive ++ BitVec.ofBool attention ++ BitVec.ofBool alternate

/-- The 16 bytes of a slot record. -/
def SlotRecord.toBytes (r : SlotRecord) : List Byte :=
  [r.course, slotFlagsByte r.rotation r.kind r.adhesive r.attention r.alternate] ++ be32 r.along ++ be16 r.lateral
    ++ be16 r.planned ++ be32 (r.spare.extractLsb' 16 32) ++ be16 (r.spare.extractLsb' 0 16)

/-- The slot record at an offset of a body. -/
def slotRecordAt (body : List Byte) (i : Nat) : SlotRecord :=
  let flags := byteAt body (i + 1)
  { course := byteAt body i
    rotation := flags.extractLsb' 6 2
    kind := flags.extractLsb' 4 2
    adhesive := flags.extractLsb' 2 2
    attention := flags.getLsbD 1
    alternate := flags.getLsbD 0
    along := longAt body (i + 2)
    lateral := wordAt body (i + 6)
    planned := wordAt body (i + 8)
    spare := longAt body (i + 10) ++ wordAt body (i + 14) }

/-- The `count` slot records of a body from an offset on. -/
def slotRecordsAt (body : List Byte) (i : Nat) : Nat → List SlotRecord
  | 0 => []
  | n + 1 => slotRecordAt body i :: slotRecordsAt body (i + 16) n

/-- The lateral offset of a record: absent when its bytes hold -32,768 (R185). -/
def SlotRecord.lateralOffset (r : SlotRecord) : Option Int :=
  if r.lateral = 0x8000#16 then none else some r.lateral.toInt

end Sys2Proof

namespace Sys2Proof.Machine

/-! ## Codes of the named values: from 0, in the order of the owning rule's table or list (R184) -/

def BankId.code : BankId → Nat
  | .bank0 => 0 | .bank1 => 1

/-- A bank number other than 0 or 1 names no bank (R6 and every bank command). -/
def BankId.ofByte (b : Byte) : Option BankId :=
  if b.toNat = 0 then some .bank0 else if b.toNat = 1 then some .bank1 else none

def BankId.other : BankId → BankId
  | .bank0 => .bank1 | .bank1 => .bank0

def PartMode.code : PartMode → Nat
  | .setup => 0 | .laying => 1 | .paused => 2 | .stowed => 3 | .faulted => 4

def BankState.code : BankState → Nat
  | .empty => 0 | .loading => 1 | .ready => 2 | .active => 3 | .spent => 4

def WalkMode.code : WalkMode → Nat
  | .forward => 0 | .reverse => 1 | .alternateF => 2 | .alternateR => 3

def WalkMode.ofByte (b : Byte) : Option WalkMode :=
  match b.toNat with
  | 0 => some .forward | 1 => some .reverse | 2 => some .alternateF | 3 => some .alternateR
  | _ => none

def SlotKind.code : SlotKind → Nat
  | .stretcher => 0 | .header => 1 | .cut => 2

def SlotKind.ofCode (c : BitVec 2) : Option SlotKind :=
  match c.toNat with
  | 0 => some .stretcher | 1 => some .header | 2 => some .cut
  | _ => none

def Pattern.code : Pattern → Nat
  | .none => 0 | .single => 1 | .double => 2

def Pattern.ofCode (c : BitVec 2) : Option Pattern :=
  match c.toNat with
  | 0 => some .none | 1 => some .single | 2 => some .double
  | _ => Option.none

/-- The bead count (R3). -/
def Pattern.beads : Pattern → Nat
  | .none => 0 | .single => 1 | .double => 2

def Rotation.code : Rotation → Nat
  | .deg0 => 0 | .deg90 => 1 | .deg180 => 2 | .deg270 => 3

/-- The rotation field cannot hold an out-of-range value (R8). -/
def Rotation.ofCode (c : BitVec 2) : Rotation :=
  match c.toNat with
  | 0 => .deg0 | 1 => .deg90 | 2 => .deg180
  | _ => .deg270

def RefusalReason.code : RefusalReason → Nat
  | .zone => 0 | .repeated => 1

def SlotStatus.code : SlotStatus → Nat
  | .pending => 0 | .fed => 1 | .laid _ => 2 | .skipped => 3 | .refused _ => 4

def RejectReason.code : RejectReason → Nat
  | .miscut => 0 | .spoiled => 1 | .abandoned => 2 | .rollback => 3 | .courseEnded => 4 | .purged => 5 | .zone => 6

def FaultCause.code : FaultCause → Nat
  | .halt => 0 | .lostBrick => 1 | .strayArrival => 2 | .overrun => 3 | .gripFail => 4 | .releaseFail => 5

def ModeCause.code : ModeCause → Nat
  | .command => 0 | .timeout => 1 | .watch => 2 | .fault => 3

def WatchCondition.code : WatchCondition → Nat
  | .courseStart => 0 | .cut => 1 | .marked => 2 | .bankSwitch => 3 | .afterReject => 4

def ResetCause.code : ResetCause → Nat
  | .powerOn => 0 | .command => 1

def HoldReason.code : HoldReason → Nat
  | .approachTimeout => 0 | .settleTimeout => 1 | .pose => 2

def PoseState.code : PoseState → Nat
  | .none => 0 | .tracking => 1 | .coasting => 2 | .lost => 3 | .recovering => 4

def PlacementState.code : PlacementState → Nat
  | .idle => 0 | .picking => 1 | .approach => 2 | .settling => 3 | .releasing => 4 | .abandoning => 5

def FeedState.code : FeedState → Nat
  | .feeding => 0 | .held => 1 | .ended => 2 | .waiting => 3

def SupplyScope.code : SupplyScope → Nat
  | .bank => 0 | .course => 1

def SupplyScope.ofByte (b : Byte) : Option SupplyScope :=
  match b.toNat with
  | 0 => some .bank | 1 => some .course
  | _ => none

def SupplySense.code : SupplySense → Nat
  | .atOrBelow => 0 | .atOrAbove => 1

def SupplySense.ofByte (b : Byte) : Option SupplySense :=
  match b.toNat with
  | 0 => some .atOrBelow | 1 => some .atOrAbove
  | _ => none

def Origin.code : Origin → Nat
  | .real => 0 | .synthesized => 1

/-- The state of a cradle record (R82). -/
def Cradle.code : Cradle → Nat
  | .empty => 0 | .held _ => 1 | .gluing _ => 2 | .ready _ _ => 3 | .tipping _ _ => 4

/-- The result codes (R175). -/
def ResultCode.byte : ResultCode → Byte
  | .ok => 0x00 | .adjusted => 0x01 | .queueFull => 0x10 | .unknown => 0x11 | .length => 0x12
  | .range => 0x20 | .state => 0x21 | .busy => 0x22 | .order => 0x23 | .invalidPlan => 0x24

def boolCode (b : Bool) : Nat := if b then 1 else 0

/-! ## Sets: member n is bit n (R184) -/

/-- The set of one member. -/
def setOf {w : Nat} (n : Nat) : BitVec w := BitVec.twoPow w n

/-- The set a byte carries, unless it names a code outside the five conditions (R157, R160). -/
def watchSetOfByte (b : Byte) : Option (BitVec 5) :=
  if b.toNat < 32 then some (b.setWidth 5) else none

/-- The set two bytes carry, unless it names a code outside the fourteen kinds (R178). -/
def noticeSetOfWord (w : BitVec 16) : Option (BitVec 14) :=
  if w.toNat < 16384 then some (w.setWidth 14) else none

/-! ## Fields of reply and notice bodies (R184; widths the manual does not give: assumption 13) -/

def fieldU8 (n : Nat) : Field := ⟨1, n⟩
def fieldU16 (n : Nat) : Field := ⟨2, n⟩
def fieldI16 (z : Int) : Field := ⟨2, z⟩
def fieldI32 (z : Int) : Field := ⟨4, z⟩
def fieldFlag (b : Bool) : Field := fieldU8 (boolCode b)
def fieldSeq (q : Seq) : Field := fieldU16 q.toNat

/-- X, Y, Z of a position: 4 bytes each. -/
def fieldsPosition (v : Vec3) : List Field := [fieldI32 v.x, fieldI32 v.y, fieldI32 v.z]

/-- X, Y, Z of a step or a velocity: 2 bytes each. -/
def fieldsStep (v : Vec3) : List Field := [fieldI16 v.x, fieldI16 v.y, fieldI16 v.z]

def fieldsSetpoints (p : Setpoints) : List Field :=
  [fieldI16 p.x, fieldI16 p.y, fieldI16 p.z, fieldI16 p.wrist]

/-- An optional group of fields: a presence byte, then the fields, which are 0 when absent (R184). That fields absent together
share one presence byte is the model's choice (assumption 38). -/
def fieldsOptional (present : Bool) (fields : List Field) : List Field :=
  fieldFlag present :: (if present then fields else fields.map fun f => ⟨f.bytes, 0⟩)

/-- A time left: 2 bytes in 0.1 s, 0xFFFF meaning none (R184). -/
def fieldTimeLeft (tenths : Option Nat) : Field :=
  match tenths with
  | some n => fieldU16 n
  | none => fieldU16 0xFFFF

/-- The bytes of an integer, most significant first, two's complement (R184). -/
def beBytes : Nat → Int → List Byte
  | 0, _ => []
  | n + 1, v => BitVec.ofInt 8 (v / 256 ^ n) :: beBytes n v

def Field.toBytes (f : Field) : List Byte := beBytes f.bytes f.value

end Sys2Proof.Machine

namespace Sys2Proof

open Machine in
/-- The slot a record makes, if no check of R8 fails on it, with the kept fields of R4. -/
def SlotRecord.toSlot (r : SlotRecord) : Option Slot :=
  match SlotKind.ofCode r.kind, Pattern.ofCode r.adhesive with
  | some kind, some pattern =>
    if 0 ≤ r.along.toInt ∧ r.along.toInt ≤ 400000 ∧
        (∀ b ∈ r.lateralOffset, -2000 ≤ b ∧ b ≤ 2000) ∧
        500 ≤ r.planned.toNat ∧ r.planned.toNat ≤ 3300 then
      some
        { course := r.course.toNat, along := r.along.toInt, lateral := r.lateralOffset
          rotation := Rotation.ofCode r.rotation, kind := kind, planned := r.planned.toNat, pattern := pattern
          attention := r.attention, alternate := r.alternate
          status := .pending, rejectCount := 0, target := none }
    else none
  | _, _ => none

end Sys2Proof

namespace Sys2Proof.Machine

/-- Byte 1 of a slot's record in a READ SLOT reply (R185). -/
def Slot.flagsCode (s : Slot) : Nat :=
  s.rotation.code * 64 + s.kind.code * 16 + s.pattern.code * 4 + boolCode s.attention * 2 + boolCode s.alternate

/-- A slot's loaded fields in slot-record form (R22, R185), spare bytes 0. -/
def Slot.recordFields (s : Slot) : List Field :=
  [fieldU8 s.course, fieldU8 s.flagsCode, fieldI32 s.along, fieldI16 (s.lateral.getD (-32768)), fieldU16 s.planned,
    fieldI32 0, fieldI16 0]

/-! ## Pose samples (R186) -/

/-- The sample in an 18-byte pose body; the Pose Filter gives it its origin (R105). -/
def poseSampleOf (body : List Byte) : Sample :=
  { sequence := (wordAt body 0).extractLsb' 0 11
    tip := ⟨(longAt body 2).toInt, (longAt body 6).toInt, (longAt body 10).toInt⟩
    hc := (wordAt body 14).toInt
    hs := (wordAt body 16).toInt
    quality := ((wordAt body 0).extractLsb' 14 2).toNat
    origin := .real }

/-! ## Clamping of settings (R68, R71, R102, R146) -/

/-- The nearest value of a range. -/
def clampNat (lo hi n : Nat) : Nat := max lo (min hi n)

/-- The nearest value of a symmetric range. -/
def clampInt (bound z : Int) : Int := max (-bound) (min bound z)

end Sys2Proof.Machine
end

