-- ==== Sys2Proof/Machine/Link.lean ====
section
/-! DEFINITION. Frames on the links: the CRC (R170), the receive framer (R171), the frames of replies and notices
(R169, R174, R183), and the frame of each site command (R182). -/

namespace Sys2Proof.Machine

/-! ## The CRC (R170) -/

/-- One of the eight steps of a byte: a shift towards the high end, and 0x1021 if a 1 was shifted out. -/
def crcShift (r : BitVec 16) : BitVec 16 :=
  if r.msb then (r <<< 1) ^^^ 0x1021#16 else r <<< 1

/-- A number of steps. -/
def crcShifts : Nat → BitVec 16 → BitVec 16
  | 0, r => r
  | n + 1, r => crcShifts n (crcShift r)

/-- One byte: combined into the high eight bits, then eight steps. -/
def crcByte (r : BitVec 16) (b : Byte) : BitVec 16 := crcShifts 8 (r ^^^ (b ++ 0#8))

/-- The register after some bytes, starting at 0xFFFF. -/
def crc (bytes : List Byte) : BitVec 16 := bytes.foldl crcByte 0xFFFF#16

/-! ## Frames (R169) -/

/-- The bytes of a frame: SYNC, LEN, KIND, TAG, BODY, CHECK. -/
def frameBytes (kind tag : Byte) (body : List Byte) : List Byte :=
  let counted := BitVec.ofNat 8 (body.length + 2) :: kind :: tag :: body
  0xC3#8 :: counted ++ be16 (crc counted)

/-! ## The receive framer (R171) -/

/-- The four states of a framer. -/
inductive FramerState
  | hunt | length | collect | check
  deriving DecidableEq, Repr

/-- The state the held bytes stand for: nothing, SYNC, SYNC and LEN with fewer than LEN bytes after it, or more. -/
def Framer.state (f : Framer) : FramerState :=
  match f.bytes with
  | [] => .hunt
  | [_] => .length
  | _ :: len :: rest => if rest.length < len.toNat then .collect else .check

/-- Scan bytes from HUNT: the frames they complete, oldest first, and the bytes of the frame being taken. A frame with a
bad LEN or a bad check is discarded, and hunting goes on from the byte after its SYNC. The first argument bounds the
recursion. -/
def scanBytes : Nat → List Byte → List Frame × List Byte
  | 0, _ => ([], [])
  | _ + 1, [] => ([], [])
  | _ + 1, [b] => ([], if b = 0xC3#8 then [b] else [])
  | fuel + 1, b :: len :: rest =>
    if b ≠ 0xC3#8 then scanBytes fuel (len :: rest)
    else if len.toNat < 2 ∨ 124 < len.toNat then scanBytes fuel (len :: rest)
    else if rest.length < len.toNat + 2 then ([], b :: len :: rest)
    else
      let counted := rest.take len.toNat
      if be16 (crc (len :: counted)) = (rest.drop len.toNat).take 2 then
        let more := scanBytes fuel (rest.drop (len.toNat + 2))
        (⟨byteAt counted 0, byteAt counted 1, counted.drop 2⟩ :: more.1, more.2)
      else scanBytes fuel (len :: rest)

/-- One byte received: the frames it completes and the framer after it. -/
def Framer.receive (f : Framer) (b : Byte) : List Frame × Framer :=
  let bytes := f.bytes ++ [b]
  let r := scanBytes (bytes.length + 1) bytes
  (r.1, ⟨r.2⟩)

/-! ## Replies and notices as frames -/

/-- The member number of a notice's kind in the enable set (R183). -/
def Notice.member : Notice → Nat
  | .ready _ _ _ _ => 0 | .mode _ _ _ => 1 | .feed _ _ _ _ _ _ => 2 | .nextTarget _ _ _ _ _ => 3 | .placed _ _ _ _ => 4
  | .rejected _ _ _ _ => 5 | .supply _ _ => 6 | .bankNeeded _ => 7 | .bankSpent _ _ _ _ => 8 | .watchStop _ _ _ _ => 9
  | .hold _ _ _ _ => 10 | .poseLost _ _ => 11 | .poseRestored _ => 12 | .fault _ _ _ => 13

/-- FAULT is made whatever the enable set holds (R177). -/
def Notice.isFault : Notice → Bool
  | .fault _ _ _ => true
  | _ => false

/-- The KIND of a notice (R183). -/
def Notice.kind (n : Notice) : Byte := BitVec.ofNat 8 (0x40 + n.member)

/-- The body fields of a notice, in the order of R183 (PLACED: R186). -/
def Notice.fields : Notice → List Field
  | .ready c k t m => [fieldU8 c.code, fieldU8 k.number, fieldU8 t.code, fieldU8 m.code]
  | .mode n l c => [fieldU8 n.code, fieldU8 l.code, fieldU8 c.code]
  | .feed t b i k p r =>
    [fieldU8 t.toNat, fieldU8 b.code, fieldU8 i, fieldU8 k.code, fieldU16 p, fieldU8 r.code]
  | .nextTarget t b i v r => [fieldU8 t.toNat, fieldU8 b.code, fieldU8 i] ++ fieldsPosition v ++ [fieldU8 r.code]
  | .placed t b i o =>
    [fieldU8 t.toNat, fieldU8 b.code, fieldU8 i, fieldSeq o.sequence] ++ fieldsSetpoints o.setpoints
      ++ fieldsStep o.lastStep
  | .rejected t b i r => [fieldU8 t.toNat, fieldU8 b.code, fieldU8 i, fieldU8 r.code]
  | .supply c s => [fieldU8 c, fieldU8 s.code]
  | .bankNeeded b => [fieldU8 b.code]
  | .bankSpent b l k r => [fieldU8 b.code, fieldU8 l, fieldU8 k, fieldU8 r]
  | .watchStop c t b i => [fieldU8 c.toNat, fieldU8 t.toNat, fieldU8 b.code, fieldU8 i]
  | .hold r t b i => [fieldU8 r.code, fieldU8 t.toNat, fieldU8 b.code, fieldU8 i]
  | .poseLost a r => [fieldSeq a, fieldSeq r]
  | .poseRestored q => [fieldSeq q]
  | .fault c p f => [fieldU8 c.code, fieldU8 p.code, fieldU8 f.toNat]

def fieldsBytes (fields : List Field) : List Byte := fields.flatMap Field.toBytes

/-- A reply body: the result code, then the fields (R174). -/
def Reply.body (r : Reply) : List Byte := r.code.byte :: fieldsBytes r.fields

/-- The bytes the transmitter sends: a reply has its command's KIND plus 0x80 and TAG, a notice TAG 0 (R169, R174, R177). -/
def Sent.toBytes : Sent → List Byte
  | .reply r => frameBytes (r.kind + 0x80#8) r.tag r.body
  | .notice n => frameBytes n.kind 0 (fieldsBytes n.fields)

/-! ## The frame of each site command (R182) -/

def Frame.identify (tag : Byte) : Frame := ⟨0x01, tag, []⟩
def Frame.reset (tag : Byte) : Frame := ⟨0x02, tag, []⟩
def Frame.readStatus (tag page : Byte) : Frame := ⟨0x03, tag, [page]⟩
def Frame.readBank (tag bank : Byte) : Frame := ⟨0x04, tag, [bank]⟩
def Frame.readSlot (tag bank index : Byte) : Frame := ⟨0x05, tag, [bank, index]⟩
def Frame.setDatum (tag entry : Byte) (ox oy oz : BitVec 32) (cx cy hz p : BitVec 16) : Frame :=
  ⟨0x08, tag, [entry] ++ be32 ox ++ be32 oy ++ be32 oz ++ be16 cx ++ be16 cy ++ be16 hz ++ be16 p⟩
def Frame.setZoneBox (tag : Byte) (xmin xmax ymin ymax zmin zmax : BitVec 32) : Frame :=
  ⟨0x09, tag, be32 xmin ++ be32 xmax ++ be32 ymin ++ be32 ymax ++ be32 zmin ++ be32 zmax⟩
def Frame.setZoneRow (tag row : Byte) (cells : BitVec 64) : Frame := ⟨0x0A, tag, [row] ++ be64 cells⟩
def Frame.openBank (tag bank datum walk : Byte) (w : BitVec 16) : Frame := ⟨0x10, tag, [bank, datum, walk] ++ be16 w⟩
def Frame.loadSlots (tag bank first count : Byte) (records : List SlotRecord) : Frame :=
  ⟨0x11, tag, [bank, first, count] ++ records.flatMap SlotRecord.toBytes⟩
def Frame.closeBank (tag bank : Byte) : Frame := ⟨0x12, tag, [bank]⟩
def Frame.discardBank (tag bank : Byte) : Frame := ⟨0x13, tag, [bank]⟩
def Frame.setNextBank (tag bank : Byte) : Frame := ⟨0x14, tag, [bank]⟩
def Frame.skipSlot (tag bank index : Byte) : Frame := ⟨0x15, tag, [bank, index]⟩
def Frame.setPlacement (tag lead window alternate count quality approach : Byte) (settle : BitVec 16) : Frame :=
  ⟨0x18, tag, [lead, window, alternate, count, quality, approach] ++ be16 settle⟩
def Frame.setFeed (tag depth tolerance timeout : Byte) : Frame := ⟨0x19, tag, [depth, tolerance, timeout]⟩
def Frame.setAdhesive (tag : Byte) (divisor : BitVec 16) (pitch : Byte) (openTime : BitVec 16) : Frame :=
  ⟨0x1A, tag, be16 divisor ++ [pitch] ++ be16 openTime⟩
def Frame.setSupplyMark (tag threshold scope sense : Byte) : Frame := ⟨0x1B, tag, [threshold, scope, sense]⟩
def Frame.setWatch (tag conditions : Byte) : Frame := ⟨0x1C, tag, [conditions]⟩
def Frame.clearWatch (tag conditions : Byte) : Frame := ⟨0x1D, tag, [conditions]⟩
def Frame.setNotices (tag : Byte) (enables : BitVec 16) : Frame := ⟨0x1E, tag, be16 enables⟩
def Frame.brickLoaded (tag feedTag : Byte) (measured : BitVec 16) : Frame := ⟨0x20, tag, [feedTag] ++ be16 measured⟩
def Frame.endCourse (tag : Byte) : Frame := ⟨0x21, tag, []⟩
def Frame.purge (tag : Byte) : Frame := ⟨0x22, tag, []⟩
def Frame.abandon (tag : Byte) : Frame := ⟨0x23, tag, []⟩
def Frame.start (tag : Byte) : Frame := ⟨0x28, tag, []⟩
def Frame.pause (tag : Byte) : Frame := ⟨0x29, tag, []⟩
def Frame.resume (tag : Byte) : Frame := ⟨0x2A, tag, []⟩
def Frame.stow (tag : Byte) : Frame := ⟨0x2B, tag, []⟩
def Frame.enterSetup (tag : Byte) : Frame := ⟨0x2C, tag, []⟩
def Frame.clearFault (tag : Byte) : Frame := ⟨0x2D, tag, []⟩

end Sys2Proof.Machine
end

