-- ==== Sys2Proof/Machine/Flags.lean ====
section
/-! DEFINITION. Conditions and figures derived from the state, never held apart from it: walk order, lay order, cursor
point, feed state, order blocks, live bricks, lay course, supply count, targets, the zone check, watch conditions,
sequence distance, settle judgements, times left. -/

namespace Sys2Proof.Machine

/-! ## Banks and slots -/

/-- The bank of a number (R1). -/
def PlanStore.bank (p : PlanStore) : BankId → Bank
  | .bank0 => p.bank0
  | .bank1 => p.bank1

def State.bank (s : State) (b : BankId) : Bank := s.plan.bank b

def State.slot? (s : State) (b : BankId) (i : Nat) : Option Slot := (s.bank b).slots[i]?

def SlotStatus.isPending : SlotStatus → Bool
  | .pending => true
  | _ => false

def SlotStatus.isFed : SlotStatus → Bool
  | .fed => true
  | _ => false

def SlotStatus.isLaid : SlotStatus → Bool
  | .laid _ => true
  | _ => false

def SlotStatus.isSkipped : SlotStatus → Bool
  | .skipped => true
  | _ => false

def SlotStatus.isRefused : SlotStatus → Bool
  | .refused _ => true
  | _ => false

/-- PENDING or FED: still to be laid (R14, R69). -/
def SlotStatus.isOpen (st : SlotStatus) : Bool := st.isPending || st.isFed

/-- FED or LAID: what blocks an earlier slot (R56). -/
def SlotStatus.isFedOrLaid (st : SlotStatus) : Bool := st.isFed || st.isLaid

/-- How many slots of a bank have a status of some kind (R14, R21). -/
def Bank.count (b : Bank) (p : SlotStatus → Bool) : Nat := b.slots.countP fun sl => p sl.status

/-! ## Walk order (R50) -/

/-- Indices with their courses, gathered into course runs: each course with its consecutive indices, ascending. -/
def courseRuns : List (Nat × Nat) → List (Nat × List Nat)
  | [] => []
  | (i, c) :: rest =>
    match courseRuns rest with
    | (c', is) :: more => if c = c' then (c, i :: is) :: more else (c, [i]) :: (c', is) :: more
    | [] => [(c, [i])]

/-- The course runs of a bank, in load order. -/
def Bank.runs (b : Bank) : List (Nat × List Nat) :=
  courseRuns ((List.range b.slots.length).zip (b.slots.map Slot.course))

/-- Whether a walk mode takes the run of a course descending, by the course's distance from the lowest course (R50). -/
def WalkMode.descends (m : WalkMode) (distance : Nat) : Bool :=
  match m with
  | .forward => false
  | .reverse => true
  | .alternateF => distance % 2 = 1
  | .alternateR => distance % 2 = 0

/-- c₀: the course of the slot at index 0 (R50). -/
def Bank.lowestCourse (b : Bank) : Nat := (b.slots.head?.map Slot.course).getD 0

/-- The course runs in walk order, each with its indices in walk order (R50). -/
def Bank.walkRuns (b : Bank) : List (Nat × List Nat) :=
  match b.setup with
  | none => []
  | some su =>
    b.runs.map fun r => (r.1, if su.walk.descends (r.1 - b.lowestCourse) then r.2.reverse else r.2)

/-- The walk order: load indices in the order in which the bank is laid (R50). -/
def Bank.walkOrder (b : Bank) : List Nat := b.walkRuns.flatMap Prod.snd

/-- The walk position of the slot at a load index (R50). -/
def Bank.walkPosition (b : Bank) (i : Nat) : Option Nat := b.walkOrder.idxOf? i

/-- The slot at a walk position. -/
def Bank.slotAt (b : Bank) (p : Nat) : Option Slot := b.walkOrder[p]? >>= fun i => b.slots[i]?

/-- The first PENDING slot at or after a walk position, by its walk position. -/
def Bank.firstPending (b : Bank) (from_ : Nat) : Option Nat :=
  ((b.walkOrder.drop from_).findIdx? fun i => (b.slots[i]?.map fun sl => sl.status.isPending).getD false).map (from_ + ·)

/-- Whether a load index stands at the first walk position of its course's run (R157, COURSE START). -/
def Bank.startsCourse (b : Bank) (i : Nat) : Bool := b.walkRuns.any fun r => r.2.head? = some i

/-! ## Bricks in flight -/

/-- Where a brick's record is held (R188, "The brick path"). -/
inductive BrickPlace
  | gripper | cradle (c : CradleId) | train
  deriving DecidableEq, Repr

def CradleUnit.cradle (u : CradleUnit) : CradleId → Cradle
  | .cradle0 => u.cradle0
  | .cradle1 => u.cradle1

def State.cradle (s : State) (c : CradleId) : Cradle := s.cradles.cradle c

/-- With a count of 1, cradle 0 alone is in use (R82). -/
def CradleCount.uses : CradleCount → CradleId → Bool
  | _, .cradle0 => true
  | .one, .cradle1 => false
  | .two, .cradle1 => true

/-- The cradles in use (R82). -/
def State.cradlesInUse (s : State) : List CradleId :=
  [CradleId.cradle0, CradleId.cradle1].filter fun c => CradleCount.uses s.mode.cradleCount c

/-- The brick record of a cradle: absent in EMPTY (R82). -/
def Cradle.brick? : Cradle → Option CradleBrick
  | .empty => none
  | .held b => some b
  | .gluing b => some b
  | .ready b _ => some b
  | .tipping b _ => some b

def Cradle.isEmpty : Cradle → Bool
  | .empty => true
  | _ => false

/-- The open-time deadline of a cradle's brick (R82, R99). -/
def Cradle.deadline? : Cradle → Option Time
  | .ready _ d => d
  | _ => none

/-- A brick is live when its record carries no reject mark (00_scope.md, "Live"). -/
def Brick.live (b : Brick) : Bool := b.mark.isNone

/-- A brick with its place, put into its place in train order (R51: "made earlier"). -/
def insertInOrder (x : Brick × BrickPlace) : List (Brick × BrickPlace) → List (Brick × BrickPlace)
  | [] => [x]
  | y :: rest => if x.1.serial ≤ y.1.serial then x :: y :: rest else y :: insertInOrder x rest

/-- Every brick record with its place, in train order. -/
def State.bricks (s : State) : List (Brick × BrickPlace) :=
  let gripper := s.place.gripper.toList.map fun g => (g.brick, BrickPlace.gripper)
  let cradles := s.cradlesInUse.filterMap fun c => (s.cradle c).brick?.map fun b => (b.brick, BrickPlace.cradle c)
  let train := s.train.entries.map fun e => (e.brick, BrickPlace.train)
  (gripper ++ cradles ++ train).foldr insertInOrder []

/-- The live bricks in train order. -/
def State.liveBricks (s : State) : List (Brick × BrickPlace) := s.bricks.filter fun x => x.1.live

/-- The oldest live brick, wherever it is held (R51). -/
def State.oldestLive (s : State) : Option (Brick × BrickPlace) := s.liveBricks.head?

/-- A brick is being held by the gripper within or near reach: APPROACH or SETTLING (R139, R141, R142). -/
def PlacementState.holdsBrick : PlacementState → Bool
  | .approach => true
  | .settling => true
  | _ => false

/-! ## Lay order, cursor point, feed state (R51, R53, R56) -/

/-- The banks with a place in the lay order, in that order (R51). -/
def State.layBanks (s : State) : List BankId :=
  s.plan.order ++ (if (s.bank s.feed.pointer).state = .ready then [s.feed.pointer] else [])

/-- Whether the slot at a walk position of a bank lies before the cursor point (R51). -/
def State.beforeCursor (s : State) (b : BankId) (p : Nat) : Bool :=
  match s.layBanks.idxOf? b, s.layBanks.idxOf? s.feed.pointer with
  | none, _ => false
  | some _, none => true
  | some i, some j => i < j || (i = j && p < s.feed.cursor)

/-- Whether the PENDING slot at a walk position of a bank is order-blocked (R56). -/
def State.orderBlocked (s : State) (b : BankId) (p : Nat) : Bool :=
  let bank := s.bank b
  ((bank.walkOrder.drop (p + 1)).any fun i => (bank.slots[i]?.map fun sl => sl.status.isFedOrLaid).getD false) ||
  (match s.plan.order with
    | first :: second :: _ => first = b && (s.bank second).slots.any fun sl => sl.status.isFedOrLaid
    | _ => false)

/-- The feed state (R53). -/
def State.feedState (s : State) : FeedState :=
  let bank := s.bank s.feed.pointer
  match bank.state with
  | .empty => .waiting
  | .loading => .waiting
  | .spent => .waiting
  | .ready => .feeding
  | .active =>
    if s.feed.cursor < bank.slots.length then
      match bank.firstPending s.feed.cursor with
      | some p => if s.orderBlocked s.feed.pointer p then .held else .feeding
      | none => .feeding
    else .ended

/-- A brick with this feed tag is in the train, a cradle or the gripper (R54). -/
def State.tagInFlight (s : State) (t : Byte) : Bool := s.bricks.any fun x => x.1.tag = t

/-- The conditions of a feed request (R54). -/
def State.feedRequestDue (s : State) : Bool :=
  s.mode.mode = .laying && s.feedState = .feeding && s.train.entries.length < s.feed.depth &&
    !s.tagInFlight s.feed.nextTag

/-- The conditions of BANK NEEDED (R59). -/
def State.bankNeededDue (s : State) : Bool :=
  s.mode.mode = .laying && s.feedState = .waiting && !s.feed.bankNeeded

/-- The condition under which an ACTIVE bank becomes SPENT (R14). -/
def State.spentDue (s : State) (b : BankId) : Bool :=
  (s.bank b).state = .active && (s.bank b).count SlotStatus.isOpen = 0 &&
    (b ≠ s.feed.pointer || (s.bank b).slots.length ≤ s.feed.cursor)

/-! ## Lay course and supply (R51, R69) -/

/-- The lay course: a course of one bank, or none (R51). -/
def State.layCourse (s : State) : Option (BankId × Nat) :=
  match s.oldestLive with
  | some x => (s.slot? x.1.bank x.1.slot).map fun sl => (x.1.bank, sl.course)
  | none =>
    let bank := s.bank s.feed.pointer
    if bank.state = .ready ∨ bank.state = .active then
      (bank.slotAt s.feed.cursor).map fun sl => (s.feed.pointer, sl.course)
    else none

/-- The lay bank: the head of the active order list (R2). -/
def State.layBank (s : State) : Option BankId := s.plan.order.head?

/-- The supply count over the scope, or none (R69). -/
def State.supplyCount (s : State) : Option Nat :=
  match s.feed.mark.scope with
  | .bank => s.layBank.map fun b => (s.bank b).count SlotStatus.isOpen
  | .course => s.layCourse.map fun bc => (s.bank bc.1).slots.countP fun sl => sl.course = bc.2 && sl.status.isOpen

/-- The supply condition for a count (R69): false under OFF and with no count. -/
def SupplyMark.holds (m : SupplyMark) (count : Option Nat) : Bool :=
  match m.threshold, count with
  | some t, some n => (match m.sense with | .atOrBelow => n ≤ t | .atOrAbove => t ≤ n)
  | _, _ => false

/-! ## Rounding and targets (R29, R30, R110) -/

/-- Division rounded half away from zero; the half is taken exactly. -/
def roundDiv (d : Int) (n : Int) : Int :=
  if 0 ≤ n then (2 * n + d) / (2 * d) else -((2 * (-n) + d) / (2 * d))

/-- "round" of R29: the division by 16384 rounded half away from zero. -/
def roundQ14 (n : Int) : Int := roundDiv 16384 n

/-- The heading norm check of R26 and R107. -/
def headingNormOk (c s : Int) : Bool := (c * c + s * s - 268435456).natAbs ≤ 5368709

/-- The target of a slot on a datum entry (R30). -/
def targetOn (d : DatumEntry) (sl : Slot) : Vec3 :=
  let a := sl.along
  let b := sl.lateral.getD 0
  ⟨d.ox + roundQ14 (a * d.cx - b * d.cy), d.oy + roundQ14 (a * d.cy + b * d.cx), d.oz + d.hz + sl.course * d.p⟩

/-- The contents of the datum entry a bank names, if the bank names one and it is SET (R24). -/
def State.datumOf (s : State) (b : BankId) : Option DatumEntry :=
  (s.bank b).setup >>= fun su => s.datum.entries[su.datum]

/-! ## The zone check (R40, R44) -/

/-- Whether the cell of a row and column is permitted (R40). -/
def ZoneUnit.permitted (z : ZoneUnit) (row col : Nat) : Bool := (z.cells[row]?.map fun r => r.getMsbD col).getD false

/-- Tests 2 to 5 of R44 for a SET box. -/
def ZoneUnit.admitsIn (z : ZoneUnit) (b : ZoneBox) (t : Vec3) : Bool :=
  let col := (t.x - b.xmin) / 10000
  let row := (t.y - b.ymin) / 10000
  t.x.natAbs ≤ 1000000 && t.y.natAbs ≤ 1000000 && t.z.natAbs ≤ 100000 &&
    b.xmin ≤ t.x && t.x ≤ b.xmax && b.ymin ≤ t.y && t.y ≤ b.ymax && b.zmin ≤ t.z && t.z ≤ b.zmax &&
    col < 64 && row < 64 && z.permitted row.toNat col.toNat

/-- The zone check of one target (R44). -/
def ZoneUnit.admits (z : ZoneUnit) (t : Vec3) : Bool :=
  match z.box with
  | none => false
  | some b => z.admitsIn b t

/-- How many cells of a row are permitted (R43, R48). -/
def permittedIn (row : BitVec 64) : Nat := (List.range 64).countP fun c => row.getMsbD c

def ZoneUnit.permittedCells (z : ZoneUnit) : Nat := (z.cells.toList.map permittedIn).sum

/-! ## Extents and the checks of CLOSE BANK (R10) -/

/-- The along-course extent e of a slot in a bank of brick width W (R10). -/
def Slot.extent (sl : Slot) (width : Nat) : Int :=
  match sl.rotation with
  | .deg0 => sl.planned
  | .deg180 => sl.planned
  | .deg90 => width
  | .deg270 => width

/-- Check 4 (course order): the load index of the first slot whose course is less than the one before it. -/
def courseOrderFault : Nat → List Slot → Option Nat
  | i, a :: b :: rest => if b.course < a.course then some (i + 1) else courseOrderFault (i + 1) (b :: rest)
  | _, _ => none

/-- What check 5 finds wrong with a pair (R10). -/
inductive PairFault
  | alongOrder | overlap
  deriving DecidableEq, Repr

/-- Check 5 on a pair of consecutive slots of one course (R10). -/
def pairFault (width : Nat) (a b : Slot) : Option PairFault :=
  if b.course ≠ a.course then none
  else if b.along ≤ a.along then some .alongOrder
  else if 2 * a.along + a.extent width ≤ 2 * b.along - b.extent width then none
  else some .overlap

/-- Check 5 (along order and footprint): the first failing pair's later index and what is wrong with it. -/
def footprintFault (width : Nat) : Nat → List Slot → Option (Nat × PairFault)
  | i, a :: b :: rest =>
    match pairFault width a b with
    | some f => some (i + 1, f)
    | none => footprintFault width (i + 1) (b :: rest)
  | _, _ => none

/-! ## Watches (R157) -/

/-- The conditions a brick's slot and Mode Control's flags meet (R157). -/
def State.watchConditions (s : State) (b : Brick) : BitVec 5 :=
  let bank := s.bank b.bank
  let flag (p : Bool) (c : WatchCondition) : BitVec 5 := if p then setOf c.code else 0
  let slot (p : Slot → Bool) : Bool := (s.slot? b.bank b.slot).any p
  let switched := match b.bank with
    | .bank0 => s.mode.bankSwitch0
    | .bank1 => s.mode.bankSwitch1
  flag (bank.startsCourse b.slot) .courseStart ||| flag (slot fun sl => sl.kind = .cut) .cut |||
    flag (slot fun sl => sl.attention) .marked ||| flag switched .bankSwitch |||
    flag s.mode.rejectSeen .afterReject

/-! ## The pump and the pick (R93, R126) -/

/-- The cradles that wait for the pump: HELD with a live brick (R93). -/
def Cradle.waitsForPump : Cradle → Bool
  | .held b => b.brick.live
  | _ => false

/-- The cradle the grant goes to: the HELD one whose live brick is oldest in train order (R93). -/
def State.grantee (s : State) : Option CradleId :=
  s.liveBricks.findSome? fun x =>
    match x.2 with
    | .cradle c => if (s.cradle c).waitsForPump then some c else none
    | _ => none

/-- The conditions of a grant (R93). -/
def State.grantDue (s : State) : Bool :=
  s.mode.mode = .laying && s.adhesive.owner.isNone && s.grantee.isSome

/-- The cradle that holds the oldest live brick in READY (R126). -/
def State.pickCandidate (s : State) : Option (Brick × CradleId) :=
  match s.oldestLive with
  | some (b, .cradle c) => (match s.cradle c with | .ready _ _ => some (b, c) | _ => none)
  | _ => none

/-- The conditions of a pick decision (R126). -/
def State.pickDue (s : State) : Bool :=
  s.mode.mode = .laying && s.place.state = .idle && s.pickCandidate.isSome

/-- The cradle an arrival goes to: EMPTY, and cradle 0 of two (R81). -/
def State.emptyCradle (s : State) : Option CradleId := s.cradlesInUse.find? fun c => (s.cradle c).isEmpty

/-- An entry IN TRANSIT and not lost (R80). -/
def TrainEntry.onBoom (e : TrainEntry) : Bool := e.state = .inTransit && !e.lost

/-- The oldest REQUESTED entry (R75). -/
def TrainList.oldestRequested (t : TrainList) : Option TrainEntry := t.entries.find? fun e => e.state = .requested

/-! ## Pose samples (R107, R108) -/

/-- What R107 screens out: quality 0, a bad heading norm, a tip out of range. -/
def Sample.passesScreening (p : Sample) : Bool :=
  p.quality ≠ 0 && headingNormOk p.hc p.hs && p.tip.x.natAbs ≤ 1000000 && p.tip.y.natAbs ≤ 1000000 &&
    p.tip.z.natAbs ≤ 1000000

/-- The classes of a sequence distance (R108). -/
inductive SampleClass
  | stale | step (d : Nat) | restart
  deriving DecidableEq, Repr

/-- The sequence distance modulo 2048 (R108). -/
def sequenceDistance (new last : Seq) : Nat := (new - last).toNat

/-- The class of a sequence distance (R108). -/
def classOfDistance (d : Nat) : SampleClass :=
  if d = 0 ∨ 1024 ≤ d then .stale else if d ≤ 8 then .step d else .restart

/-- One component of the velocity of a step sample (R110). -/
def velocityComponent (new last : Int) (d : Nat) : Int := clampInt 2000 (roundDiv d (new - last))

/-- The velocity of a step sample (R110). -/
def velocityOver (new last : Vec3) (d : Nat) : Vec3 :=
  ⟨velocityComponent new.x last.x d, velocityComponent new.y last.y d, velocityComponent new.z last.z d⟩

/-- The pose states in which the POSE hold is carried (R113, R120). -/
def PoseState.carriesHold : PoseState → Bool
  | .none => true
  | .tracking => false
  | .coasting => false
  | .lost => true
  | .recovering => true

/-! ## Compensation (R131 to R134) -/

/-- The four demands before the clamp. -/
structure Demands where
  x     : Int
  y     : Int
  z     : Int
  wrist : Int
  deriving DecidableEq, Repr

/-- The site error (R131): the target minus the prediction, tip + Lp · v. -/
def siteError (target tip v : Vec3) (lead : Nat) : Vec3 :=
  ⟨target.x - (tip.x + lead * v.x), target.y - (tip.y + lead * v.y), target.z - (tip.z + lead * v.z)⟩

/-- The demands of a sample's heading and a datum heading on a site error (R132). -/
def demandsOf (e : Vec3) (hc hs cx cy : Int) : Demands :=
  { x := roundQ14 (e.x * hc + e.y * hs)
    y := roundQ14 (-(e.x * hs) + e.y * hc)
    z := e.z
    wrist := -roundQ14 (hs * cx - hc * cy) }

/-- The travel of X and of Y (R133). -/
def travelXY : Travel → Int
  | .short => 400
  | .long => 600

/-- The travel of Z (R133). -/
def travelZ : Travel → Int
  | .short => 300
  | .long => 400

/-- The travel of the wrist (R133). -/
def travelWrist : Int := 1430

/-- The setpoints of some demands (R133). -/
def setpointsOf (t : Travel) (d : Demands) : Setpoints :=
  ⟨clampInt (travelXY t) d.x, clampInt (travelXY t) d.y, clampInt (travelZ t) d.z, clampInt travelWrist d.wrist⟩

/-- A demand outside its travel saturates its axis; one exactly at the end does not (R133). -/
def outside (travel demand : Int) : Bool := travel < demand || demand < -travel

/-- The saturation flags of some demands (R133). -/
def saturationOf (t : Travel) (d : Demands) : Saturation :=
  ⟨outside (travelXY t) d.x, outside (travelXY t) d.y, outside (travelZ t) d.z, outside travelWrist d.wrist⟩

/-- The sample is saturated when any axis is (R133). -/
def Saturation.any (s : Saturation) : Bool := s.x || s.y || s.z || s.wrist

/-- The qualifying judgement (R134). -/
def qualifies (p : Sample) (minQuality window : Nat) (sat : Saturation) (lastStep : Vec3) : Bool :=
  p.origin = .real && minQuality ≤ p.quality && !sat.any && lastStep.x.natAbs ≤ window && lastStep.y.natAbs ≤ window &&
    lastStep.z.natAbs ≤ window

/-- The settle counter after a compensated sample: the first matching line of R135. -/
def settleCounterAfter (saturated restart : Bool) (origin : Origin) (qualifying : Bool) (k counter : Nat) : Nat :=
  if saturated then 0
  else if restart then 0
  else if origin = .synthesized then counter
  else if !qualifying then 0
  else min (counter + 1) k

/-- The placement state after a compensated sample in APPROACH or SETTLING (R136). -/
def stateAfterSample (st : PlacementState) (origin : Origin) (saturated : Bool) : PlacementState :=
  match st with
  | .approach => if origin = .real && !saturated then .settling else .approach
  | .settling => if saturated then .approach else .settling
  | other => other

/-! ## Modes (R151) and times left (R179) -/

def State.faulted (s : State) : Bool := s.mode.mode = .faulted

/-- The time by which deadlines are measured: now, or the time at which they stopped (R103, R179). -/
def State.deadlineClock (s : State) : Time := s.clock.stoppedAt.getD s.clock.now

/-- The time left to a deadline in 0.1 s, rounded up (R179); a 0.1 s is 10,000 ticks. -/
def tenthsLeft (clock deadline : Time) : Nat := (deadline - clock + 9999) / 10000

end Sys2Proof.Machine
end

