-- ==== Sys2Proof/Machine/Ops.lean ====
section
/-! DEFINITION. The named operations every event is built from: the clock, notices and replies, the setters of slots,
cradles and train entries, the supply mark, banks becoming SPENT, the feed cursor, rejects and rollback, mode changes,
faults. -/

namespace Sys2Proof.Machine

/-! ## Times of the manual, in ticks of 10 µs (R95) -/

/-- Ticks in a second: the timebase is 100 kHz (R95). -/
def ticksPerSecond : Nat := 100000

/-- Ticks in a millisecond. -/
def ticksPerMs : Nat := 100

/-- The tip takes 400 ms (R85). -/
def tipTicks : Nat := 400 * ticksPerMs

/-- The grip timeout is 500 ms (R127). -/
def gripTicks : Nat := 500 * ticksPerMs

/-- The release dwell is 150 ms (R138). -/
def releaseTicks : Nat := 150 * ticksPerMs

/-- The abandon time is 1,500 ms (R144). -/
def abandonTicks : Nat := 1500 * ticksPerMs

/-- The expiry timer measures 3 ms (R114). -/
def poseTicks : Nat := 3 * ticksPerMs

/-- The pump counter passes 4095 at 4096 (R95). -/
def pumpTop : Nat := 4096

/-! ## The clock -/

/-- The pump counter counts while a glue operation runs; a running operation stands stopped in FAULTED (R91, R95, R98). -/
def State.pumpRuns (s : State) : Bool := s.adhesive.operation.isSome && !s.faulted

/-- Let the clock run on to a time; nothing if it is past. The pump counter counts with it up to the value at which its
reload is due (assumptions 4 and 28). -/
def State.runTo (s : State) (t : Time) : State :=
  { s with
    clock := { s.clock with now := max s.clock.now t }
    adhesive := { s.adhesive with
      counter := if s.pumpRuns then min pumpTop (s.adhesive.counter + (t - s.clock.now)) else s.adhesive.counter } }

/-! ## Notices (R177) -/

/-- A notice raised: not made if its kind is not enabled, FAULT apart; dropped, with the flag set, if 16 wait; otherwise
appended. -/
def State.raise (s : State) (n : Notice) : State :=
  if n.isFault || s.link.enables.getLsbD n.member then
    if s.link.notices.length < 16 then
      { s with link := { s.link with notices := s.link.notices ++ [n] } }
    else { s with link := { s.link with dropped := true } }
  else s

/-- Mode Control learns of a reject (R159): the watch-stopped brick, and the reject-seen flag for the reasons that set it. -/
def State.learnReject (s : State) (tag : Byte) (r : RejectReason) : State :=
  let sets := match r with
    | .miscut => true | .spoiled => true | .abandoned => true | .rollback => true | .zone => true
    | .courseEnded => false | .purged => false
  { s with mode := { s.mode with
      watchStopped := if s.mode.watchStopped = some tag then none else s.mode.watchStopped
      rejectSeen := s.mode.rejectSeen || sets } }

/-- A REJECTED notice is due: Mode Control learns of the reject in the same event, and the notice is raised (R159, R177). -/
def State.raiseRejected (s : State) (b : Brick) (r : RejectReason) : State :=
  (s.learnReject b.tag r).raise (.rejected b.tag b.bank b.slot r)

/-! ## Setters of records -/

def PlanStore.setBank (p : PlanStore) (b : BankId) (x : Bank) : PlanStore :=
  match b with
  | .bank0 => { p with bank0 := x }
  | .bank1 => { p with bank1 := x }

def State.setBank (s : State) (b : BankId) (x : Bank) : State := { s with plan := s.plan.setBank b x }

/-- Write a slot record. -/
def State.setSlot (s : State) (b : BankId) (i : Nat) (x : Slot) : State :=
  s.setBank b { s.bank b with slots := (s.bank b).slots.set i x }

def State.setOrder (s : State) (o : List BankId) : State := { s with plan := { s.plan with order := o } }

/-- CONVEYOR HOLD is asserted whenever no cradle in use is EMPTY or the mode is FAULTED (R86). -/
def State.evalHold (s : State) : State :=
  { s with cradles := { s.cradles with hold := s.emptyCradle.isNone || s.faulted } }

/-- A cradle changes; CONVEYOR HOLD is re-evaluated at each change (R86). -/
def State.setCradle (s : State) (c : CradleId) (x : Cradle) : State :=
  State.evalHold
    (match c with
      | .cradle0 => { s with cradles := { s.cradles with cradle0 := x } }
      | .cradle1 => { s with cradles := { s.cradles with cradle1 := x } })

def State.setEntries (s : State) (es : List TrainEntry) : State := { s with train := { s.train with entries := es } }

/-- The bank-switch flag of a bank (R149). -/
def State.setBankSwitch (s : State) (b : BankId) (x : Bool) : State :=
  match b with
  | .bank0 => { s with mode := { s.mode with bankSwitch0 := x } }
  | .bank1 => { s with mode := { s.mode with bankSwitch1 := x } }

/-- The setpoints go to 0 on all four outputs (R125). -/
def State.centre (s : State) : State := { s with comp := { s.comp with setpoints := ⟨0, 0, 0, 0⟩ } }

/-! ## The supply mark (R70) -/

/-- Re-evaluate the supply condition; a turn from false to true raises SUPPLY. -/
def State.evalSupply (s : State) : State :=
  let count := s.supplyCount
  let holds := s.feed.mark.holds count
  let s' := { s with feed := { s.feed with condition := holds, lastCount := count } }
  if holds && !s.feed.condition then s'.raise (.supply (count.getD 0) s.feed.mark.scope) else s'

/-! ## Banks becoming SPENT, the walk end, BANK NEEDED (R14, R58, R59) -/

/-- BANK NEEDED, once, where R59's three conditions hold. -/
def State.needBank (s : State) : State :=
  if s.bankNeededDue then
    ({ s with feed := { s.feed with bankNeeded := true } }).raise (.bankNeeded s.feed.pointer)
  else s

/-- An ACTIVE bank becomes SPENT (R14): out of the active order list, its bank-switch flag cleared (R159), BANK SPENT
raised, the supply mark re-evaluated (R70). That BANK SPENT stands before a SUPPLY of the same change is the model's choice
(assumption 18). -/
def State.spend (s : State) (b : BankId) : State :=
  let bank := s.bank b
  ((((s.setBank b { bank with state := .spent }).setOrder (s.plan.order.erase b)).setBankSwitch b false).raise
    (.bankSpent b (bank.count SlotStatus.isLaid) (bank.count SlotStatus.isSkipped) (bank.count SlotStatus.isRefused))).evalSupply

/-- The spent test on one bank, without its consequences for an ENDED walk. -/
def State.testSpent (s : State) (b : BankId) : State := if s.spentDue b then s.spend b else s

/-- The pointer and cursor are written and the move is reported (R52, R70). A move of the pointer clears the bank-needed
flag (R58, R62). -/
def State.placeCursor (s : State) (b : BankId) (c : Nat) : State :=
  State.evalSupply
    { s with feed := { s.feed with
        pointer := b, cursor := c, bankNeeded := if b = s.feed.pointer then s.feed.bankNeeded else false } }

/-- A move of the pointer or cursor reported to the Plan Store, which tests the bank the pointer does not name (R14, R52).
The bank it names is tested where the cursor passes its last walk position (State.walkEnd). The supply mark is re-evaluated
(R70) before the spent test; the rules give no order of the two (assumption 16). -/
def State.moveCursor (s : State) (b : BankId) (c : Nat) : State := (s.placeCursor b c).testSpent b.other

/-- The walk-end step (R58), the cursor having passed the last walk position of the feed bank. The other bank is judged by
the active order list as it stands before the spent test (assumption 17). BANK SPENT of the bank the pointer leaves stands
before BANK NEEDED, the model's choice (assumption 18). -/
def State.walkEnd (s : State) : State :=
  let other := s.feed.pointer.other
  State.needBank
    (match (s.bank other).state with
      | .ready => s.moveCursor other 0
      | .active => if s.plan.order.head? = some other then s.testSpent s.feed.pointer else s.moveCursor other 0
      | .empty => s.moveCursor other 0
      | .loading => s.moveCursor other 0
      | .spent => s.moveCursor other 0)

/-- The cursor moves within the feed bank; passing its last walk position brings the walk-end step (R57, R58, R67). -/
def State.advanceCursor (s : State) (c : Nat) : State :=
  if (s.bank s.feed.pointer).slots.length ≤ c then (s.placeCursor s.feed.pointer c).walkEnd
  else s.moveCursor s.feed.pointer c

/-- The spent test on a bank at a status change (R14). Where an ENDED walk waited for the bank, the walk-end step is taken
again in that event (R58). -/
def State.spendIfDue (s : State) (b : BankId) : State :=
  if s.spentDue b then
    let ended : Bool := s.feedState = .ended && b ≠ s.feed.pointer
    if ended then (s.spend b).walkEnd else (s.spend b).needBank
  else s

/-! ## Slot status (R15 to R17, R61, R62) -/

/-- The Plan Store records a status: the supply mark is re-evaluated (R70) and the bank is tested (R14). -/
def State.recordStatus (s : State) (b : BankId) (i : Nat) (st : SlotStatus) : State :=
  match s.slot? b i with
  | some sl => ((s.setSlot b i { sl with status := st }).evalSupply).spendIfDue b
  | none => s

/-- The walk position of a slot that lies before the cursor point (R61). -/
def State.returnPoint (s : State) (b : BankId) (i : Nat) : Option Nat :=
  ((s.bank b).walkPosition i).filter (s.beforeCursor b)

/-- The cursor return (R61, R62): where the slot lies before the cursor point, the pointer moves to its bank and the
cursor to its walk position, and the move is tested (R14). -/
def State.cursorReturn (s : State) (b : BankId) (i : Nat) : State :=
  match s.returnPoint b i with
  | some p => s.moveCursor b p
  | none => s

/-- The cursor return of a slot that a flush returns (R61, R62). The Plan Store's spent test of the move (R14, R52)
is no part of the flush: it is made once, after it (State.testMove, assumption 34). -/
def State.cursorReturnInFlush (s : State) (b : BankId) (i : Nat) : State :=
  match s.returnPoint b i with
  | some p => s.placeCursor b p
  | none => s

/-- The Feed Sequencer reports its move to the Plan Store (R52), which makes the spent test (R14) on the bank that the pointer
does not name: nothing where pointer and cursor stand as in the state before. -/
def State.testMove (s before : State) : State :=
  if s.feed.pointer = before.feed.pointer ∧ s.feed.cursor = before.feed.cursor then s else s.testSpent s.feed.pointer.other

/-- A brick-specific reason counts against the slot (R5, R63). -/
def RejectReason.brickSpecific : RejectReason → Bool
  | .miscut => true
  | .spoiled => true
  | .abandoned => true
  | .rollback => false
  | .courseEnded => false
  | .purged => false
  | .zone => false

/-- What a reject makes of a FED slot: its reject count and status (R5, R16, R17). -/
def Slot.afterReject (sl : Slot) (r : RejectReason) : Slot :=
  match r with
  | .miscut => if sl.rejectCount + 1 < 3 then { sl with rejectCount := sl.rejectCount + 1, status := .pending }
      else { sl with rejectCount := sl.rejectCount + 1, status := .refused .repeated }
  | .spoiled => if sl.rejectCount + 1 < 3 then { sl with rejectCount := sl.rejectCount + 1, status := .pending }
      else { sl with rejectCount := sl.rejectCount + 1, status := .refused .repeated }
  | .abandoned => if sl.rejectCount + 1 < 3 then { sl with rejectCount := sl.rejectCount + 1, status := .pending }
      else { sl with rejectCount := sl.rejectCount + 1, status := .refused .repeated }
  | .rollback => { sl with status := .pending }
  | .purged => { sl with status := .pending }
  | .courseEnded => { sl with status := .skipped }
  | .zone => { sl with status := .refused .zone }

/-- The Plan Store records a reject of a FED slot; for a slot no longer FED it changes nothing (R17). -/
def State.recordReject (s : State) (b : BankId) (i : Nat) (r : RejectReason) : State :=
  match s.slot? b i with
  | some sl => if sl.status.isFed then ((s.setSlot b i (sl.afterReject r)).evalSupply).spendIfDue b else s
  | none => s

/-- Whether a reject takes a slot from FED back to PENDING. -/
def State.rejectReturns (s : State) (b : BankId) (i : Nat) (r : RejectReason) : Bool :=
  match s.slot? b i with
  | some sl => sl.status.isFed && (sl.afterReject r).status.isPending
  | none => false

/-- A reject without a rollback is reported: recorded, and a return to PENDING brings the cursor return (R61). -/
def State.reportReject (s : State) (b : Brick) (r : RejectReason) : State :=
  let s' := s.recordReject b.bank b.slot r
  if s.rejectReturns b.bank b.slot r then s'.cursorReturn b.bank b.slot else s'

/-! ## Rejects in the train and the cradles (R79, R84) -/

/-- A reject for ROLLBACK, COURSE ENDED or PURGED reaches the train entry of a brick (R79). -/
def State.rejectInTrain (s : State) (b : Brick) (r : RejectReason) : State :=
  match s.train.entries.find? fun e => e.brick = b with
  | some e =>
    if !b.live then s
    else
      match e.state with
      | .requested =>
        ((s.setEntries (s.train.entries.filter fun x => x.brick.serial ≠ b.serial)).raiseRejected b r).reportReject b r
      | .inTransit =>
        ((s.setEntries (s.train.entries.map fun x =>
            if x.brick.serial = b.serial then { x with brick := { x.brick with mark := some r } } else x)).raiseRejected
          b r).reportReject b r
  | none => s

/-- A cradle brick with a mark written; a mark once written is not replaced (R82). -/
def CradleBrick.marked (b : CradleBrick) (r : RejectReason) : CradleBrick :=
  { b with brick := { b.brick with mark := some (b.brick.mark.getD r) } }

/-- The cradle goes to TIPPING with its brick marked; the tip takes 400 ms from now (R84, R85). -/
def State.tip (s : State) (c : CradleId) (b : CradleBrick) (r : RejectReason) : State :=
  s.setCradle c (.tipping (b.marked r) (s.clock.now + tipTicks))

/-- A reject for ROLLBACK, COURSE ENDED or PURGED reaches the brick of a cradle (R84). -/
def State.rejectInCradle (s : State) (c : CradleId) (r : RejectReason) : State :=
  match s.cradle c with
  | .empty => s
  | .tipping _ _ => s
  | .held b => if b.brick.live then ((s.tip c b r).raiseRejected b.brick r).reportReject b.brick r else s
  | .gluing b =>
    if b.brick.live then ((s.setCradle c (.gluing (b.marked r))).raiseRejected b.brick r).reportReject b.brick r else s
  | .ready b _ =>
    if !b.brick.live then s
    else if s.place.pickCradle = some c then (s.setCradle c (.ready (b.marked r) none)).reportReject b.brick r
    else ((s.tip c b r).raiseRejected b.brick r).reportReject b.brick r

/-- A reject reaches a brick in the train or a cradle. -/
def State.rejectOnPath (s : State) (x : Brick × BrickPlace) (r : RejectReason) : State :=
  match x.2 with
  | .gripper => s
  | .cradle c => s.rejectInCradle c r
  | .train => s.rejectInTrain x.1 r

/-- Step 1 of a rollback (R64): every live brick younger than the rejected one is rejected with reason ROLLBACK, in train
order. -/
def State.rollback (s : State) (serial : Nat) : State :=
  (s.liveBricks.filter fun x => serial < x.1.serial).foldl (fun s x => s.rejectOnPath x .rollback) s

/-- A brick-specific reject is reported (R63): recorded; then, outside FAULTED, where the slot is PENDING a rollback to it,
which ends with the cursor return of the slot itself (R64). In FAULTED no rollback, and the return of R61 alone
(assumption 21). -/
def State.reportBrickReject (s : State) (b : Brick) (r : RejectReason) : State :=
  let s' := s.recordReject b.bank b.slot r
  if s.rejectReturns b.bank b.slot r then
    if s.faulted then s'.cursorReturn b.bank b.slot
    else (s'.rollback b.serial).cursorReturn b.bank b.slot
  else s'

/-! ## Abandonment (R142) -/

/-- The entry to ABANDONING from APPROACH or SETTLING. -/
def State.enterAbandoning (s : State) (g : GripperBrick) (r : RejectReason) : State :=
  let s' := { s.centre with place := { s.place with
      gripper := some { g with brick := { g.brick with mark := some r }, deadline := none }
      abandonReason := some r
      timer := none
      state := .abandoning
      stepTimer := .abandon (s.clock.now + abandonTicks) } }
  if r.brickSpecific then s'.reportBrickReject g.brick r else s'.reportReject g.brick r

/-- A reject or an open-time expiry reaches the gripper's brick (R142): abandoned from APPROACH or SETTLING, no effect
otherwise. -/
def State.rejectInGripper (s : State) (r : RejectReason) : State :=
  match s.place.gripper with
  | some g => if s.place.state.holdsBrick then s.enterAbandoning g r else s
  | none => s

/-- A reject for COURSE ENDED or PURGED reaches a live brick wherever it is (R66, R87). -/
def State.withdraw (s : State) (x : Brick × BrickPlace) (r : RejectReason) : State :=
  match x.2 with
  | .gripper => s.rejectInGripper r
  | .cradle c => s.rejectInCradle c r
  | .train => s.rejectInTrain x.1 r

/-- A brick in RELEASING is not withdrawn (R66, R87, R142). -/
def State.withdrawable (s : State) (x : Brick × BrickPlace) : Bool :=
  match x.2 with
  | .gripper => s.place.state.holdsBrick
  | .cradle _ => true
  | .train => true

/-! ## Mode changes (R150) -/

/-- The mode changes, with its MODE notice; the hold reason PAUSED enters and leaves with the mode, and entry to PAUSED
stops the placement timer (R139, R141, R150). -/
def State.changeMode (s : State) (m : PartMode) (cause : ModeCause) : State :=
  ({ s with
      mode := { s.mode with mode := m }
      place := { s.place with
        holdPaused := decide (m = PartMode.paused)
        timer := if m = PartMode.paused then none else s.place.timer } }).raise (.mode m s.mode.mode cause)

/-- The placement timer at RESUME with a brick in APPROACH or SETTLING: the settle timeout if the has-settled flag is set,
the approach timeout if not, both as latched (R139, R154). -/
def State.restartPlacementTimer (s : State) : State :=
  if s.place.state.holdsBrick then
    { s with place := { s.place with
        timer := s.comp.latched.map fun l =>
          s.clock.now + (if s.place.hasSettled then l.settle * ticksPerMs else l.approach * ticksPerSecond) } }
  else s

/-! ## Faults (R98, R145, R162, R163) -/

/-- A running glue operation is stopped at the entry to FAULTED, and its live brick spoiled (R98). -/
def State.stopGlue (s : State) : State :=
  let s' := { s with adhesive := { s.adhesive with pump := false } }
  match s.adhesive.owner with
  | some c =>
    (match s.cradle c with
      | .gluing b =>
        if b.brick.live then
          ((s'.setCradle c (.gluing (b.marked .spoiled))).raiseRejected b.brick .spoiled).reportBrickReject b.brick .spoiled
        else s'
      | _ => s')
  | none => s'

/-- The Placement Sequencer's timers stop at the entry to FAULTED (R139, R145); everything else it holds stays. -/
def State.freezePlacement (s : State) : State :=
  { s with place := { s.place with timer := none, stepTimer := .stopped } }

/-- A fault cause is reported (R162). Not FAULTED: it becomes the primary cause and the part enters FAULTED (R163). FAULTED:
it joins the further set. -/
def State.reportCause (s : State) (c : FaultCause) : State :=
  if s.faulted then
    match s.mode.fault with
    | some f =>
      let further := f.further ||| setOf c.code
      ({ s with mode := { s.mode with fault := some { f with further := further } } }).raise
        (.fault c f.primary further)
    | none => s
  else
    let recorded := { s with
      mode := { s.mode with fault := some { primary := c, further := 0, modeAtFault := s.mode.mode } }
      clock := { s.clock with stoppedAt := some s.clock.now } }
    (((recorded.changeMode .faulted .fault).raise (.fault c c 0)).evalHold).stopGlue.freezePlacement

/-! ## Answers of the owning blocks (R174) -/

/-- What an owner's rule gives for the reply: the result code and the fields after it. -/
structure Answer where
  code   : ResultCode
  fields : List Field
  deriving DecidableEq, Repr

/-- OK with its fields. -/
def Answer.ok (fields : List Field) : Answer := ⟨.ok, fields⟩

/-- A refusal with the fields the owning rule names for it. -/
def Answer.refuse (code : ResultCode) (fields : List Field) : Answer := ⟨code, fields⟩

/-! ## The site link transmitter (R174) -/

/-- Whenever the transmitter is free it begins a frame: the head of the reply list, or else the head of the notice
queue. -/
def State.beginFrame (s : State) : State :=
  match s.link.sending with
  | some _ => s
  | none =>
    match s.link.replies, s.link.notices with
    | r :: rest, _ => { s with link := { s.link with replies := rest, sending := some (.reply r) } }
    | [], n :: rest => { s with link := { s.link with notices := rest, sending := some (.notice n) } }
    | [], [] => s

end Sys2Proof.Machine
end

