-- ==== Sys2Proof/Machine/Plan.lean ====
section
/-! DEFINITION. The Plan Store's commands (chapter 1): OPEN BANK, LOAD SLOTS, CLOSE BANK, DISCARD BANK, SKIP SLOT, READ
BANK, READ SLOT; and the flush of the Target Unit (R36). -/

namespace Sys2Proof.Machine

/-! ## OPEN BANK (R6) -/

/-- The bank opened: emptied, its setup written, LOADING; the cursor goes to 0 if the pointer names it. -/
def State.openBank (s : State) (b : BankId) (setup : BankSetup) : State :=
  let s' := s.setBank b { state := .loading, setup := some setup, slots := [], refusedAtClose := 0 }
  if s.feed.pointer = b then s'.placeCursor b 0 else s'

/-- OPEN BANK (R6). -/
def State.takeOpenBank (s : State) (bank datum walk : Byte) (w : BitVec 16) : State × Answer :=
  if s.faulted then (s, .refuse .state [])
  else
    match BankId.ofByte bank, WalkMode.ofByte walk with
    | some b, some m =>
      if h : datum.toNat < 4 then
        if w.toNat < 600 ∨ 1500 < w.toNat then (s, .refuse .range [])
        else
          match (s.bank b).state with
          | .empty => (s.openBank b { datum := ⟨datum.toNat, h⟩, walk := m, width := w.toNat }, .ok [])
          | .spent => (s.openBank b { datum := ⟨datum.toNat, h⟩, walk := m, width := w.toNat }, .ok [])
          | .loading => (s, .refuse .busy [fieldU8 (s.bank b).state.code])
          | .ready => (s, .refuse .busy [fieldU8 (s.bank b).state.code])
          | .active => (s, .refuse .busy [fieldU8 (s.bank b).state.code])
      else (s, .refuse .range [])
    | _, _ => (s, .refuse .range [])

/-! ## LOAD SLOTS (R7, R8) -/

/-- The slots of some records, or the place of the first record that fails a check of R8. -/
def slotsOfRecords : Nat → List SlotRecord → Except Nat (List Slot)
  | _, [] => .ok []
  | i, r :: rest =>
    match r.toSlot with
    | none => .error i
    | some sl =>
      match slotsOfRecords (i + 1) rest with
      | .error j => .error j
      | .ok sls => .ok (sl :: sls)

/-- LOAD SLOTS (R7, R8). -/
def State.takeLoadSlots (s : State) (bank first : Byte) (records : List SlotRecord) : State × Answer :=
  if s.faulted then (s, .refuse .state [])
  else
    match BankId.ofByte bank with
    | none => (s, .refuse .range [])
    | some b =>
      let count := (s.bank b).slots.length
      if records.length < 1 ∨ 7 < records.length then (s, .refuse .range [])
      else if (s.bank b).state ≠ .loading then (s, .refuse .state [])
      else if first.toNat ≠ count then (s, .refuse .order [fieldU8 count])
      else if 96 < count + records.length then (s, .refuse .range [fieldU8 count])
      else
        match slotsOfRecords first.toNat records with
        | .error i => (s, .refuse .range [fieldU8 i])
        | .ok sls =>
          (s.setBank b { s.bank b with slots := (s.bank b).slots ++ sls }, .ok [fieldU8 (count + records.length)])

/-! ## CLOSE BANK (R9 to R11) -/

/-- An INVALID PLAN reply: the check, coded EMPTY 0, NO DATUM 1, COURSE ORDER 2, ALONG ORDER 3, OVERLAP 4, and the
index (R9). -/
def invalidPlan (check index : Nat) : Answer := .refuse .invalidPlan [fieldU8 check, fieldU8 index]

/-- Step 1 of R11 (R33): every slot's target is computed and written as its cached target. -/
def Bank.withTargets (b : Bank) (d : DatumEntry) : Bank :=
  { b with slots := b.slots.map fun sl => { sl with target := some (targetOn d sl) } }

/-- A slot whose cached target the Zone Unit does not let through (R44, R45). -/
def State.zoneFails (s : State) (sl : Slot) : Bool := !(sl.target.map s.zone.admits).getD false

/-- Step 2 of R11 (R45): a slot that fails the zone check is recorded REFUSED (ZONE). -/
def State.refuseAtClose (b : BankId) (s : State) (i : Nat) : State :=
  match s.slot? b i with
  | some sl => if s.zoneFails sl then s.recordStatus b i (.refused .zone) else s
  | none => s

/-- A validated bank completed: targets, zone checks in load order, the refused-at-close count, READY (R11). -/
def State.completeBank (s : State) (b : BankId) (d : DatumEntry) : State :=
  let targeted := s.setBank b ((s.bank b).withTargets d)
  let checked := (List.range (s.bank b).slots.length).foldl (State.refuseAtClose b) targeted
  checked.setBank b { checked.bank b with
    state := .ready
    refusedAtClose := (checked.bank b).count SlotStatus.isRefused }

/-- The validation checks 1 to 5 in their order, with the refusal of check 3 (R9, R10). -/
def State.closeFault (s : State) (b : BankId) : Option Answer :=
  let bank := s.bank b
  if bank.slots.length = 0 then some (invalidPlan 0 0)
  else if (s.datumOf b).isNone then some (invalidPlan 1 0)
  else if s.zone.box.isNone then some (.refuse .state [])
  else
    match courseOrderFault 0 bank.slots with
    | some i => some (invalidPlan 2 i)
    | none =>
      match footprintFault ((bank.setup.map BankSetup.width).getD 0) 0 bank.slots with
      | some (i, .alongOrder) => some (invalidPlan 3 i)
      | some (i, .overlap) => some (invalidPlan 4 i)
      | none => none

/-- CLOSE BANK (R9 to R11). -/
def State.takeCloseBank (s : State) (bank : Byte) : State × Answer :=
  if s.faulted then (s, .refuse .state [])
  else
    match BankId.ofByte bank with
    | none => (s, .refuse .range [])
    | some b =>
      if (s.bank b).state ≠ .loading then (s, .refuse .state [])
      else
        match s.closeFault b, s.datumOf b with
        | some a, _ => (s, a)
        | none, none => (s, invalidPlan 1 0)
        | none, some d =>
          let s' := s.completeBank b d
          (s', .ok [fieldU8 (s'.bank b).slots.length, fieldU8 (s'.bank b).refusedAtClose])

/-! ## DISCARD BANK (R12) -/

/-- DISCARD BANK (R12). A pointed READY bank discarded before its activation may bring BANK NEEDED (R59). -/
def State.takeDiscardBank (s : State) (bank : Byte) : State × Answer :=
  if s.faulted then (s, .refuse .state [])
  else
    match BankId.ofByte bank with
    | none => (s, .refuse .range [])
    | some b =>
      match (s.bank b).state with
      | .active => (s, .refuse .busy [])
      | .empty => (s, .ok [])
      | .loading => ((s.setBank b .reset).needBank, .ok [])
      | .ready => ((s.setBank b .reset).needBank, .ok [])
      | .spent => ((s.setBank b .reset).needBank, .ok [])

/-! ## SKIP SLOT (R18) -/

/-- SKIP SLOT (R18, R65). -/
def State.takeSkipSlot (s : State) (bank index : Byte) : State × Answer :=
  if s.faulted then (s, .refuse .state [])
  else
    match BankId.ofByte bank with
    | none => (s, .refuse .range [])
    | some b =>
      match s.slot? b index.toNat with
      | none => (s, .refuse .range [])
      | some sl =>
        if (s.bank b).state = .loading then (s, .refuse .state [])
        else
          match sl.status with
          | .pending => (s.recordStatus b index.toNat .skipped, .ok [])
          | .fed => (s, .refuse .busy [])
          | .laid _ => (s, .refuse .state [])
          | .skipped => (s, .refuse .state [])
          | .refused _ => (s, .refuse .state [])

/-! ## Reading the plan (R21, R22) -/

/-- The place of a bank in the active order list: first, second, or not listed (R21, assumption 14). -/
def State.placeInOrder (s : State) (b : BankId) : Nat := (s.plan.order.idxOf? b).getD 2

/-- The datum entry, walk mode and width, absent together in EMPTY (R21). -/
def Bank.setupFields (b : Bank) : List Field :=
  match b.setup with
  | some su => fieldsOptional true [fieldU8 su.datum, fieldU8 su.walk.code, fieldU16 su.width]
  | none => fieldsOptional false [fieldU8 0, fieldU8 0, fieldU16 0]

/-- The fields of READ BANK (R21). -/
def State.readBankFields (s : State) (b : BankId) : List Field :=
  let bank := s.bank b
  [fieldU8 b.code, fieldU8 bank.state.code] ++ bank.setupFields ++
    [fieldU8 bank.slots.length, fieldU8 bank.refusedAtClose,
      fieldU8 (bank.count SlotStatus.isPending), fieldU8 (bank.count SlotStatus.isFed),
      fieldU8 (bank.count SlotStatus.isLaid), fieldU8 (bank.count SlotStatus.isSkipped),
      fieldU8 (bank.count SlotStatus.isRefused), fieldFlag (decide (s.feed.pointer = b)), fieldU8 (s.placeInOrder b)]

/-- READ BANK (R21). -/
def State.takeReadBank (s : State) (bank : Byte) : State × Answer :=
  match BankId.ofByte bank with
  | none => (s, .refuse .range [])
  | some b => (s, .ok (s.readBankFields b))

/-- A placement record as reply fields (R20, R22). -/
def LayOutcome.fields (o : LayOutcome) : List Field :=
  fieldSeq o.sequence :: (fieldsSetpoints o.setpoints ++ fieldsStep o.lastStep)

/-- The refusal reason, present when REFUSED (R22). -/
def SlotStatus.reasonFields : SlotStatus → List Field
  | .refused r => fieldsOptional true [fieldU8 r.code]
  | _ => fieldsOptional false [fieldU8 0]

/-- The outcome, present when LAID (R22), under one presence byte (assumption 38). -/
def SlotStatus.outcomeFields : SlotStatus → List Field
  | .laid o => fieldsOptional true o.fields
  | _ => fieldsOptional false (LayOutcome.fields ⟨0, ⟨0, 0, 0, 0⟩, ⟨0, 0, 0⟩⟩)

/-- The walk position, absent in LOADING (R22). -/
def Bank.walkPositionFields (b : Bank) (i : Nat) : List Field :=
  match b.state, b.walkPosition i with
  | .loading, _ => fieldsOptional false [fieldU8 0]
  | _, some p => fieldsOptional true [fieldU8 p]
  | _, none => fieldsOptional false [fieldU8 0]

/-- An optional position (R22), under one presence byte (assumption 38). -/
def targetFields : Option Vec3 → List Field
  | some t => fieldsOptional true (fieldsPosition t)
  | none => fieldsOptional false (fieldsPosition ⟨0, 0, 0⟩)

/-- The fields of READ SLOT (R22). -/
def State.readSlotFields (s : State) (b : BankId) (i : Nat) (sl : Slot) : List Field :=
  [fieldU8 b.code, fieldU8 i, fieldU8 (s.bank b).state.code] ++ sl.recordFields ++ [fieldU8 sl.status.code] ++
    sl.status.reasonFields ++ [fieldU8 sl.rejectCount] ++ (s.bank b).walkPositionFields i ++ targetFields sl.target ++
    sl.status.outcomeFields

/-- READ SLOT (R22). -/
def State.takeReadSlot (s : State) (bank index : Byte) : State × Answer :=
  match BankId.ofByte bank with
  | none => (s, .refuse .range [])
  | some b =>
    match s.slot? b index.toNat with
    | none => (s, .refuse .range [])
    | some sl => (s, .ok (s.readSlotFields b index.toNat sl))

/-! ## The flush (R36, R37) -/

/-- A flush as it goes: the state, the cached targets removed and the slots returned. -/
structure FlushResult where
  state    : State
  removed  : Nat
  returned : Nat
  deriving DecidableEq, Repr

/-- The flush of one slot, by its status (R36). -/
def FlushResult.slot (b : BankId) (f : FlushResult) (i : Nat) : FlushResult :=
  match f.state.slot? b i with
  | none => f
  | some sl =>
    match sl.status with
    | .pending =>
      if sl.target.isSome then ⟨f.state.setSlot b i { sl with target := none }, f.removed + 1, f.returned⟩ else f
    | .refused .zone =>
      ⟨((f.state.setSlot b i { sl with target := none }).recordStatus b i .pending).cursorReturnInFlush b i, f.removed + 1,
        f.returned + 1⟩
    | .refused .repeated => f
    | .fed => f
    | .laid _ => f
    | .skipped => f

/-- The flush of one bank, slot by slot in load order (R36). -/
def FlushResult.bank (f : FlushResult) (b : BankId) : FlushResult :=
  (List.range (f.state.bank b).slots.length).foldl (FlushResult.slot b) f

/-- The flush of a bank that meets a condition. -/
def FlushResult.bankIf (p : BankId → Bool) (f : FlushResult) (b : BankId) : FlushResult :=
  if p b then f.bank b else f

/-- The flush of the banks that meet a condition, which is judged before any of them is flushed; bank 0 first (R37,
assumption 24). It leaves every bank's state and the active order list as they were (R36, State.flush_moves). -/
def State.flush (s : State) (p : BankId → Bool) : FlushResult :=
  [BankId.bank0, BankId.bank1].foldl (FlushResult.bankIf p) ⟨s, 0, 0⟩

end Sys2Proof.Machine
end

