-- ==== Sys2Proof/Machine/Feed.lean ====
section
/-! DEFINITION. The Feed Sequencer (chapter 4): feed requests, END COURSE, SET NEXT BANK, SET FEED, SET SUPPLY MARK. -/

namespace Sys2Proof.Machine

/-! ## Feed requests (R54 to R57) -/

/-- Activation of a READY feed bank (R13, step 1 of R55): ACTIVE, at the tail of the active order list, its bank-switch flag
set (R159), the bank-needed flag clear, the cursor at walk position 0. -/
def State.activate (s : State) (b : BankId) : State :=
  let active := ((s.setBank b { s.bank b with state := .active }).setOrder (s.plan.order ++ [b])).setBankSwitch b true
  State.placeCursor { active with feed := { active.feed with bankNeeded := false } } b 0

/-- Step 1 of R55. -/
def State.activateIfReady (s : State) : State :=
  match (s.bank s.feed.pointer).state with
  | .ready => s.activate s.feed.pointer
  | .empty => s
  | .loading => s
  | .active => s
  | .spent => s

/-- The target of a slot for its feed: the cached one, or one computed and written (R34). -/
def State.supplyTarget (s : State) (b : BankId) (i : Nat) (sl : Slot) : State :=
  match sl.target, s.datumOf b with
  | some _, _ => s
  | none, some d => s.setSlot b i { sl with target := some (targetOn d sl) }
  | none, none => s

/-- The train entry of a fed slot (R57, R74). -/
def State.newEntry (s : State) (b : BankId) (i : Nat) (sl : Slot) : TrainEntry :=
  { brick := { serial := s.train.nextSerial, tag := s.feed.nextTag, bank := b, slot := i, mark := none }
    planned := sl.planned, measured := none, state := .requested, deadline := none, lost := false }

/-- The entry of R57 for the slot at a walk position: train entry, slot FED, FEED, next tag, next walk position. -/
def State.feedEntry (s : State) (b : BankId) (p i : Nat) (sl : Slot) : State :=
  let tag := s.feed.nextTag
  let appended := { s with train := { s.train with
      entries := s.train.entries ++ [s.newEntry b i sl], nextSerial := s.train.nextSerial + 1 } }
  let fed := (appended.recordStatus b i .fed).raise (.feed tag b i sl.kind sl.planned sl.rotation)
  State.advanceCursor { fed with feed := { fed.feed with nextTag := tag + 1 } } (p + 1)

/-- The walk position of the cursor is moved if it is not there already. -/
def State.cursorTo (s : State) (c : Nat) : State := if s.feed.cursor = c then s else s.moveCursor s.feed.pointer c

/-- The steps of R55; the first argument bounds the returns to steps 1 and 2. -/
def State.feedSteps : Nat → State → State
  | 0, s => s
  | fuel + 1, s =>
    let s1 := s.activateIfReady
    let b := s1.feed.pointer
    match (s1.bank b).firstPending s1.feed.cursor with
    | none =>
      let s2 := s1.advanceCursor (s1.bank b).slots.length
      if s2.feedState = .feeding then State.feedSteps fuel s2 else s2
    | some p =>
      let s2 := s1.cursorTo p
      if s2.orderBlocked b p then s2
      else
        match (s2.bank b).walkOrder[p]? with
        | none => s2
        | some i =>
          match s2.slot? b i with
          | none => s2
          | some sl =>
            let s3 := s2.supplyTarget b i sl
            match s3.slot? b i with
            | none => s3
            | some target =>
              if s3.zoneFails target then
                State.feedSteps fuel ((s3.recordStatus b i (.refused .zone)).moveCursor b (p + 1))
              else s3.feedEntry b p i target

/-- A feed request (R54, R55): nothing where its conditions do not hold. Every round of R55 passes a slot or a bank, so the
slots of both banks and four rounds more are enough. -/
def State.feedRequest (s : State) : State :=
  if s.feedRequestDue then s.feedSteps (s.plan.bank0.slots.length + s.plan.bank1.slots.length + 4) else s

/-! ## END COURSE (R66, R67) -/

/-- END COURSE as it goes: the state, the slots made SKIPPED and the bricks rejected. -/
structure CourseResult where
  state    : State
  skipped  : Nat
  rejected : Nat
  deriving DecidableEq, Repr

/-- The live brick of a slot (R15). -/
def State.brickFor (s : State) (b : BankId) (i : Nat) : Option (Brick × BrickPlace) :=
  s.liveBricks.find? fun x => x.1.bank = b && x.1.slot = i

/-- END COURSE on one slot of the course (R66). -/
def CourseResult.slot (b : BankId) (f : CourseResult) (i : Nat) : CourseResult :=
  match f.state.slot? b i with
  | none => f
  | some sl =>
    match sl.status with
    | .pending => ⟨f.state.recordStatus b i .skipped, f.skipped + 1, f.rejected⟩
    | .fed =>
      (match f.state.brickFor b i with
        | some x =>
          if f.state.withdrawable x then ⟨f.state.withdraw x .courseEnded, f.skipped + 1, f.rejected + 1⟩ else f
        | none => f)
    | .laid _ => f
    | .skipped => f
    | .refused _ => f

/-- The load indices of a course of a bank in walk order (R50). -/
def Bank.courseRun (b : Bank) (course : Nat) : List Nat :=
  ((b.walkRuns.find? fun r => r.1 = course).map Prod.snd).getD []

/-- The cursor placed after END COURSE (R67). -/
def State.leaveCourse (s : State) (b : BankId) (run : List Nat) : State :=
  let bank := s.bank b
  if s.feed.pointer = b ∧ (bank.state = .ready ∨ bank.state = .active) ∧
      (bank.walkOrder[s.feed.cursor]?.any fun i => run.contains i) then
    match run.getLast? >>= bank.walkPosition with
    | some last => s.advanceCursor (last + 1)
    | none => s
  else s

/-- END COURSE (R66, R67). -/
def State.takeEndCourse (s : State) : State × Answer :=
  if s.mode.mode = .setup ∨ s.mode.mode = .faulted then (s, .refuse .state [])
  else
    match s.layCourse with
    | none => (s, .refuse .state [])
    | some (b, course) =>
      let run := (s.bank b).courseRun course
      let f := run.foldl (CourseResult.slot b) ⟨s, 0, 0⟩
      (f.state.leaveCourse b run, .ok [fieldU8 b.code, fieldU8 course, fieldU8 f.skipped, fieldU8 f.rejected])

/-! ## Settings (R60, R68, R71) -/

/-- SET NEXT BANK (R60). -/
def State.takeSetNextBank (s : State) (bank : Byte) : State × Answer :=
  match BankId.ofByte bank with
  | none => (s, .refuse .range [])
  | some b =>
    if s.mode.mode ≠ .setup ∨ s.plan.bank0.state = .active ∨ s.plan.bank1.state = .active then (s, .refuse .state [])
    else
      let moved := State.placeCursor { s with feed := { s.feed with bankNeeded := false } } b 0
      (moved, .ok [fieldU8 moved.feedState.code])

/-- SET FEED (R71). -/
def State.takeSetFeed (s : State) (depth tolerance timeout : Byte) : State × Answer :=
  if s.faulted then (s, .refuse .state [])
  else
    let d := clampNat 1 12 depth.toNat
    let l := clampNat 0 100 tolerance.toNat
    let t := clampNat 5 120 timeout.toNat
    let s' := { s with
      feed := { s.feed with depth := d, tolerance := l }
      train := { s.train with timeout := t } }
    if d = depth.toNat ∧ l = tolerance.toNat ∧ t = timeout.toNat then (s', .ok [])
    else (s', ⟨.adjusted, [fieldU8 d, fieldU8 l, fieldU8 t]⟩)

/-- The threshold a SET SUPPLY MARK takes: 0xFF is OFF, and a value above 96 is clamped (R68, R182). -/
def thresholdOf (t : Byte) : Option Nat := if t = 0xFF#8 then none else some (clampNat 0 96 t.toNat)

/-- SET SUPPLY MARK (R68, R70). -/
def State.takeSetSupplyMark (s : State) (threshold scope sense : Byte) : State × Answer :=
  if s.faulted then (s, .refuse .state [])
  else
    match SupplyScope.ofByte scope, SupplySense.ofByte sense with
    | some sc, some se =>
      let s' := State.evalSupply
        { s with feed := { s.feed with mark := { threshold := thresholdOf threshold, scope := sc, sense := se } } }
      if threshold ≠ 0xFF#8 ∧ 96 < threshold.toNat then (s', ⟨.adjusted, [fieldU8 96]⟩) else (s', .ok [])
    | _, _ => (s, .refuse .range [])

end Sys2Proof.Machine
end

