-- ==== Sys2Proof/Machine/Placement.lean ====
section
/-! DEFINITION. The Compensation Unit and the Placement Sequencer (chapter 8): the pick, compensated samples, release,
placement timer, abandonment, SET PLACEMENT, and the watch check of the pick decision (R158). -/

namespace Sys2Proof.Machine

/-! ## The watch check (R158) -/

/-- Every watch check clears the reject-seen flag and the bank-switch flag of the brick's bank (R158). -/
def State.clearWatchFlags (s : State) (b : BankId) : State :=
  ({ s with mode := { s.mode with rejectSeen := false } }).setBankSwitch b false

/-- The watch stop (R158): status, stopped brick, PAUSED, WATCH STOP. -/
def State.watchStop (s : State) (b : Brick) (conditions : BitVec 5) : State :=
  let stopped := { s with mode := { s.mode with
      watchStatus := s.mode.watchStatus ||| conditions, watchStopped := some b.tag } }
  (stopped.changeMode .paused .watch).raise (.watchStop conditions b.tag b.bank b.slot)

/-! ## The pick (R126 to R129) -/

/-- The zone re-check of a brick's cached target passes (R47). -/
def State.zoneAdmits (s : State) (b : Brick) : Bool :=
  match s.slot? b.bank b.slot with
  | some sl => !s.zoneFails sl
  | none => false

/-- A brick that fails the zone re-check: tipped, its slot REFUSED (ZONE), REJECTED (R47, assumption 19). -/
def State.refusePick (s : State) (b : Brick) (c : CradleId) : State :=
  match (s.cradle c).brick? with
  | some cb => ((s.tip c cb .zone).recordReject b.bank b.slot .zone).raiseRejected b .zone
  | none => s

/-- The rotation of a brick, read from its slot (R127). -/
def State.rotationOf (s : State) (b : Brick) : Rotation := ((s.slot? b.bank b.slot).map Slot.rotation).getD .deg0

/-- The entry to PICKING (R127). -/
def State.startPick (s : State) (b : Brick) (c : CradleId) : State :=
  State.centre
    { s with place := { s.place with
        state := .picking, pickCradle := some c, grip := true, quarterTurn := s.rotationOf b
        stepTimer := .grip (s.clock.now + gripTicks) } }

/-- Steps 2 and 3 of the pick decision (R126). -/
def State.recheckAndPick (s : State) (b : Brick) (c : CradleId) : State :=
  if s.zoneAdmits b then s.startPick b c else s.refusePick b c

/-- The pick decision for a brick (R126): watch check, zone re-check, pick. -/
def State.decidePick (s : State) (b : Brick) (c : CradleId) : State :=
  let cleared := s.clearWatchFlags b.bank
  let conditions := s.watchConditions b &&& s.mode.watchEnables
  if s.mode.watchStopped = some b.tag then
    State.recheckAndPick { cleared with mode := { cleared.mode with watchStopped := none } } b c
  else if conditions ≠ 0#5 then cleared.watchStop b conditions
  else cleared.recheckAndPick b c

/-- PICK DECISION (R126): nothing where its conditions do not hold. -/
def State.pickDecision (s : State) : State :=
  if s.pickDue then
    match s.pickCandidate with
    | some (b, c) => s.decidePick b c
    | none => s
  else s

/-- The gripper record of a brick taken from its cradle, with its open-time deadline (R128). -/
def State.gripperBrickOf (s : State) (c : CradleId) (b : CradleBrick) : GripperBrick :=
  { brick := b.brick, rotation := s.place.quarterTurn, deadline := (s.cradle c).deadline? }

/-- Steps 1 and 2 of the pick completion (R128, R129): the step timer stopped, the brick in the gripper, the cradle EMPTY. -/
def State.takeFromCradle (s : State) (c : CradleId) (b : CradleBrick) : State :=
  State.setCradle
    { s with place := { s.place with
        stepTimer := .stopped, gripper := some (s.gripperBrickOf c b), pickCradle := none } }
    c .empty

/-- The parameters and timeouts are latched, and the placement starts from nothing (step 3 of R128). -/
def State.latch (s : State) : State :=
  { s with
    comp := { s.comp with
      latched := some s.comp.settings, counter := 0, lastStep := ⟨0, 0, 0⟩
      saturation := ⟨false, false, false, false⟩, releaseSeq := none }
    place := { s.place with hasSettled := false } }

/-- Steps 5 and 6 of R128: APPROACH, and in LAYING the placement timer with the approach timeout (R139). -/
def State.enterApproach (s : State) : State :=
  { s with place := { s.place with
      state := .approach
      timer := if s.mode.mode = .laying then some (s.clock.now + s.comp.settings.approach * ticksPerSecond) else none } }

/-- The HOLD notice with reason POSE for a brick held (R128, R141). -/
def State.raisePoseHold (s : State) (b : Brick) : State := s.raise (.hold .pose b.tag b.bank b.slot)

/-- NEXT TARGET (R128, step 4). -/
def State.raiseNextTarget (s : State) (b : Brick) (r : Rotation) : State :=
  s.raise (.nextTarget b.tag b.bank b.slot (((s.slot? b.bank b.slot).bind Slot.target).getD ⟨0, 0, 0⟩) r)

/-- The pick completion of a live brick (R128). -/
def State.completePick (s : State) (c : CradleId) (b : CradleBrick) : State :=
  let placed := (((s.takeFromCradle c b).latch).raiseNextTarget b.brick (s.rotationOf b.brick)).enterApproach
  if s.place.holdPose then placed.raisePoseHold b.brick else placed

/-- The pick completion of a marked brick (R129): ABANDONING with the mark as the abandon reason (R144). -/
def State.abandonPick (s : State) (c : CradleId) (b : CradleBrick) (r : RejectReason) : State :=
  let taken := (s.takeFromCradle c b).centre
  { taken with place := { taken.place with
      state := .abandoning, abandonReason := some r
      gripper := taken.place.gripper.map fun g => { g with deadline := none }
      stepTimer := .abandon (s.clock.now + abandonTicks) } }

/-- An assertion of GRIPPED as R127 judges it: in PICKING the pick completes; no effect in any other state, nor in FAULTED. -/
def State.grippedAsserted (s : State) : State :=
  let s' := { s with place := { s.place with gripped := true } }
  if s.faulted then s'
  else if s.place.state ≠ .picking then s'
  else
    match s.place.pickCradle with
    | none => s'
    | some c =>
      match (s.cradle c).brick? with
      | none => s'
      | some b =>
        match b.brick.mark with
        | none => s'.completePick c b
        | some r => s'.abandonPick c b r

/-- A deassertion of GRIPPED as R127 judges it: GRIP FAIL in APPROACH and SETTLING; no effect otherwise. -/
def State.grippedDeasserted (s : State) : State :=
  let s' := { s with place := { s.place with gripped := false } }
  if s.faulted then s' else if s.place.state.holdsBrick then s'.reportCause .gripFail else s'

/-- GRIP TIMEOUT (R127): the clock runs to it, and GRIP FAIL is reported; nothing where it does not run. -/
def State.gripTimeout (s : State) : State :=
  if s.faulted then s
  else
    match s.place.stepTimer with
    | .grip due => (s.runTo due).reportCause .gripFail
    | .stopped => s
    | .release _ => s
    | .abandon _ => s

/-! ## Compensated samples (R130 to R137) -/

/-- What a compensated sample works on (R130): the latched parameters, the slot's target, its alternate-window flag, and the
heading of the datum entry of the brick's bank. -/
structure CompensationInput where
  latched   : PlacementSettings
  target    : Vec3
  alternate : Bool
  cx        : Int
  cy        : Int
  deriving DecidableEq, Repr

/-- The inputs for the brick in the gripper (R130). -/
def State.compensationInput (s : State) : Option CompensationInput :=
  match s.comp.latched, s.place.gripper with
  | some l, some g =>
    (match s.slot? g.brick.bank g.brick.slot, s.datumOf g.brick.bank with
      | some sl, some d =>
        sl.target.map fun t => { latched := l, target := t, alternate := sl.alternate, cx := d.cx, cy := d.cy }
      | _, _ => none)
  | _, _ => none

/-- The conditions of R130: APPROACH or SETTLING, in LAYING or PAUSED. -/
def State.compensates (s : State) : Bool :=
  s.place.state.holdsBrick && (s.mode.mode = .laying || s.mode.mode = .paused)

/-- The demands of a sample with the velocity handed with it (R131, R132). -/
def CompensationInput.demands (i : CompensationInput) (p : Sample) (v : Vec3) : Demands :=
  demandsOf (siteError i.target p.tip v i.latched.lead) p.hc p.hs i.cx i.cy

/-- The new setpoints minus those they replace, for X, Y and Z (R133). -/
def stepBetween (new old : Setpoints) : Vec3 := ⟨new.x - old.x, new.y - old.y, new.z - old.z⟩

/-- The setpoints, last step and saturation flags written (R133). -/
def State.writeSetpoints (s : State) (d : Demands) : State :=
  let new := setpointsOf s.mode.travel d
  { s with comp := { s.comp with
      setpoints := new, lastStep := stepBetween new s.comp.setpoints, saturation := saturationOf s.mode.travel d } }

/-- The state judgement (R136); the first entry to SETTLING sets the has-settled flag and, in LAYING, restarts the timer with
the settle timeout. -/
def State.judgeState (s : State) (l : PlacementSettings) (origin : Origin) (saturated : Bool) : State :=
  let next := stateAfterSample s.place.state origin saturated
  let first : Bool := decide (next = .settling) && !s.place.hasSettled
  { s with place := { s.place with
      state := next
      hasSettled := s.place.hasSettled || first
      timer := if first && decide (s.mode.mode = .laying) then some (s.clock.now + l.settle * ticksPerMs)
        else s.place.timer } }

/-- The window of a slot: the latched alternate window where its flag is set (R134). -/
def CompensationInput.window (i : CompensationInput) : Nat :=
  if i.alternate then i.latched.alternate else i.latched.window

/-- The settle counter update (R135). -/
def State.updateCounter (s : State) (i : CompensationInput) (p : Sample) (restart : Bool) : State :=
  let qualifying := qualifies p i.latched.quality i.window s.comp.saturation s.comp.lastStep
  { s with comp := { s.comp with
      counter := settleCounterAfter s.comp.saturation.any restart p.origin qualifying i.latched.count s.comp.counter } }

/-- The release decision (R138): RELEASING with GRIP open, the placement timer stopped, the deadline removed, the dwell
started. -/
def State.release (s : State) (q : Seq) : State :=
  { s with
    comp := { s.comp with releaseSeq := some q }
    place := { s.place with
      state := .releasing, grip := false, timer := none
      gripper := s.place.gripper.map fun g => { g with deadline := none }
      stepTimer := .release (s.clock.now + releaseTicks) } }

/-- The conditions of a release (R137). The sample on which release is decided is always a real one (assumption 33). -/
def State.releaseDue (s : State) (l : PlacementSettings) (origin : Origin) : Bool :=
  origin = .real && s.place.state = .settling && s.comp.counter = l.count && s.mode.mode = .laying &&
    !s.place.holdPaused && !s.place.holdPose

/-- One compensated sample, in the order of R130. -/
def State.compensateWith (s : State) (i : CompensationInput) (p : Sample) (v : Vec3) (restart : Bool) : State :=
  let written := s.writeSetpoints (i.demands p v)
  let judged := written.judgeState i.latched p.origin written.comp.saturation.any
  let counted := judged.updateCounter i p restart
  if counted.releaseDue i.latched p.origin then counted.release p.sequence else counted

/-- A sample handed on by the Pose Filter (R120, R130). -/
def State.compensate (s : State) (p : Sample) (v : Vec3) (restart : Bool) : State :=
  if s.compensates then
    match s.compensationInput with
    | some i => s.compensateWith i p v restart
    | none => s
  else s

/-! ## The end of a placement (R138, R140, R143, R144) -/

/-- The Placement Sequencer returns to IDLE: the gripper record and the abandon reason removed, the setpoints 0 (R138,
R144). -/
def State.returnToIdle (s : State) : State :=
  State.centre
    { s with place := { s.place with
        state := .idle, gripper := none, abandonReason := none, stepTimer := .stopped, timer := none } }

/-- The outcome of a release (R20, R138). -/
def CompensationUnit.outcome (c : CompensationUnit) : LayOutcome :=
  { sequence := c.releaseSeq.getD 0, setpoints := c.setpoints, lastStep := c.lastStep }

/-- The brick is down (R138): PLACED, the slot LAID, IDLE. -/
def State.layBrick (s : State) (g : GripperBrick) : State :=
  let o := s.comp.outcome
  (((s.raise (.placed g.brick.tag g.brick.bank g.brick.slot o)).recordStatus g.brick.bank g.brick.slot
    (.laid o))).returnToIdle

/-- RELEASE DWELL END (R138): the clock runs to it and GRIPPED is judged; nothing where the dwell does not run. -/
def State.releaseDwellEnd (s : State) : State :=
  if s.faulted then s
  else
    match s.place.stepTimer, s.place.gripper with
    | .release due, some g =>
      if s.place.gripped then (s.runTo due).reportCause .releaseFail else (s.runTo due).layBrick g
    | _, _ => s

/-- PLACEMENT TIMER EXPIRY (R140): the clock runs to it; nothing where the timer does not run. -/
def State.placementTimerExpiry (s : State) : State :=
  if s.faulted then s
  else
    match s.place.timer, s.place.gripper with
    | some due, some g =>
      let reason := if s.place.hasSettled then HoldReason.settleTimeout else HoldReason.approachTimeout
      ((s.runTo due).changeMode .paused .timeout).raise (.hold reason g.brick.tag g.brick.bank g.brick.slot)
    | _, _ => s

/-- ABANDON COMPLETION (R144): the clock runs to it; nothing where the abandon time does not run. -/
def State.abandonCompletion (s : State) : State :=
  if s.faulted then s
  else
    match s.place.stepTimer, s.place.gripper, s.place.abandonReason with
    | .abandon due, some g, some r =>
      let run := s.runTo due
      (State.raiseRejected { run with place := { run.place with grip := false } } g.brick r).returnToIdle
    | _, _, _ => s

/-- ABANDON (R143). -/
def State.takeAbandon (s : State) : State × Answer :=
  if s.mode.mode ≠ .paused then (s, .refuse .state [])
  else if !s.place.state.holdsBrick then (s, .refuse .state [fieldU8 s.place.state.code])
  else
    match s.place.gripper with
    | some g =>
      (s.enterAbandoning g .abandoned, .ok [fieldU8 g.brick.tag.toNat, fieldU8 g.brick.bank.code, fieldU8 g.brick.slot])
    | none => (s, .refuse .state [fieldU8 s.place.state.code])

/-! ## SET PLACEMENT (R146) -/

/-- The seven values a SET PLACEMENT carries. -/
def settingsOf (lead window alternate count quality approach : Byte) (settle : BitVec 16) : PlacementSettings :=
  { lead := lead.toNat, window := window.toNat, alternate := alternate.toNat, count := count.toNat
    quality := quality.toNat, approach := approach.toNat, settle := settle.toNat }

/-- The seven values each clamped to its range (R146). -/
def PlacementSettings.clamped (p : PlacementSettings) : PlacementSettings :=
  { lead := clampNat 0 7 p.lead, window := clampNat 1 100 p.window, alternate := clampNat 1 100 p.alternate
    count := clampNat 1 15 p.count, quality := clampNat 1 3 p.quality, approach := clampNat 5 120 p.approach
    settle := clampNat 200 10000 p.settle }

/-- The seven values as reply fields (R146, R180). -/
def PlacementSettings.fields (p : PlacementSettings) : List Field :=
  [fieldU8 p.lead, fieldU8 p.window, fieldU8 p.alternate, fieldU8 p.count, fieldU8 p.quality, fieldU8 p.approach,
    fieldU16 p.settle]

/-- SET PLACEMENT (R146). -/
def State.takeSetPlacement (s : State) (p : PlacementSettings) : State × Answer :=
  if s.faulted then (s, .refuse .state [])
  else
    let s' := { s with comp := { s.comp with settings := p.clamped } }
    (s', ⟨if p.clamped = p then .ok else .adjusted, p.clamped.fields⟩)

end Sys2Proof.Machine
end

