-- ==== Sys2Proof/Machine/Pose.lean ====
section
/-! DEFINITION. The Pose Filter (chapter 7): pose samples and the expiry timer. -/

namespace Sys2Proof.Machine

/-- The entry to the POSE hold (R135, R141): outside FAULTED the settle counter becomes 0, and a brick held in APPROACH or
SETTLING gets its HOLD notice (assumption 32). -/
def State.enterPoseHold (s : State) : State :=
  let held := { s with place := { s.place with holdPose := true } }
  if s.faulted then held
  else
    let reset := { held with comp := { held.comp with counter := 0 } }
    match s.place.gripper with
    | some g => if s.place.state.holdsBrick then reset.raisePoseHold g.brick else reset
    | none => reset

/-- A change of pose state reported (R120): the POSE hold enters or lifts with it. -/
def State.reportPose (s : State) : State :=
  if s.pose.state.carriesHold then
    if s.place.holdPose then s else s.enterPoseHold
  else { s with place := { s.place with holdPose := false } }

/-- The sample records take an accepted sample (R106). -/
def PoseFilter.take (f : PoseFilter) (p : Sample) : PoseFilter := { f with last := some p, previous := f.last }

/-- The expiry timer is started or restarted: 3 ms from now (R114). -/
def State.poseDue (s : State) : Time := s.clock.now + poseTicks

/-- The first sample in NONE (R112). -/
def State.acceptFirst (s : State) (p : Sample) : State :=
  let taken := { s.pose.take p with velocity := ⟨0, 0, 0⟩, state := .tracking, timer := some s.poseDue }
  (State.reportPose { s with pose := taken }).compensate p ⟨0, 0, 0⟩ true

/-- The first sample in LOST (R118). -/
def State.acceptInLost (s : State) (p : Sample) : State :=
  State.reportPose
    { s with pose := { s.pose.take p with
        velocity := ⟨0, 0, 0⟩, synthesized := 0, realRun := 0, state := .recovering } }

/-- A step or restart sample in TRACKING or COASTING (R109, R111). -/
def State.acceptTracking (s : State) (p : Sample) (v : Vec3) (restart : Bool) : State :=
  let taken := { s.pose.take p with
    velocity := v, synthesized := 0, realRun := 0, state := .tracking, timer := some s.poseDue }
  (State.reportPose { s with pose := taken }).compensate p v restart

/-- A sample in RECOVERING that does not complete the run (R119). -/
def State.acceptRecovering (s : State) (p : Sample) (v : Vec3) (run : Nat) : State :=
  { s with pose := { s.pose.take p with velocity := v, synthesized := 0, realRun := run } }

/-- The step sample that completes the run of eight (R119): TRACKING, POSE RESTORED, and the sample handed on. -/
def State.restorePose (s : State) (p : Sample) (v : Vec3) : State :=
  let taken := { s.pose.take p with
    velocity := v, synthesized := 0, realRun := 0, state := .tracking, timer := some s.poseDue }
  ((State.raise { s with pose := taken } (.poseRestored p.sequence)).reportPose).compensate p v false

/-- A sample that passes screening in TRACKING or COASTING, by its class (R108). -/
def State.judgeTracking (s : State) (last p : Sample) : State :=
  match classOfDistance (sequenceDistance p.sequence last.sequence) with
  | .stale => s
  | .step d => s.acceptTracking p (velocityOver p.tip last.tip d) false
  | .restart => s.acceptTracking p ⟨0, 0, 0⟩ true

/-- A sample that passes screening in RECOVERING, by its class (R119). -/
def State.judgeRecovering (s : State) (last p : Sample) : State :=
  match classOfDistance (sequenceDistance p.sequence last.sequence) with
  | .stale => s
  | .restart => s.acceptRecovering p ⟨0, 0, 0⟩ 0
  | .step d =>
    if d ≠ 1 then s.acceptRecovering p (velocityOver p.tip last.tip d) 0
    else if s.pose.realRun + 1 < 8 then s.acceptRecovering p (velocityOver p.tip last.tip d) (s.pose.realRun + 1)
    else s.restorePose p (velocityOver p.tip last.tip d)

/-- A pose sample arrives (R107): screened, then judged by the pose state. -/
def State.poseSample (s : State) (p : Sample) : State :=
  if p.passesScreening then
    match s.pose.state, s.pose.last with
    | .none, _ => s.acceptFirst p
    | .lost, _ => s.acceptInLost p
    | .tracking, some last => s.judgeTracking last p
    | .coasting, some last => s.judgeTracking last p
    | .recovering, some last => s.judgeRecovering last p
    | .tracking, none => s
    | .coasting, none => s
    | .recovering, none => s
  else s

/-- A frame completed by the tracker framer (R181): KIND 0x60 with 18 body bytes is a pose sample, any other is
discarded. -/
def State.poseFrame (s : State) (f : Frame) : State :=
  if f.kind = 0x60#8 ∧ f.body.length = 18 then s.poseSample (poseSampleOf f.body) else s

/-! ## The expiry timer (R115 to R117) -/

/-- The synthesized sample (R116). -/
def synthesize (last : Sample) (v : Vec3) : Sample :=
  { last with
    sequence := last.sequence + 1
    tip := ⟨last.tip.x + v.x, last.tip.y + v.y, last.tip.z + v.z⟩
    origin := .synthesized }

/-- A synthesized sample is made and accepted (R116). -/
def State.acceptSynthesized (s : State) (last : Sample) : State :=
  let p := synthesize last s.pose.velocity
  let taken := { s.pose.take p with
    synthesized := s.pose.synthesized + 1, state := .coasting, timer := some s.poseDue }
  (State.reportPose { s with pose := taken }).compensate p s.pose.velocity false

/-- The pose is lost (R117): LOST, the timer stopped, POSE LOST with the last sequence and the one 4 before it. -/
def State.losePose (s : State) (last : Sample) : State :=
  (State.raise { s with pose := { s.pose with state := .lost, timer := none } }
    (.poseLost last.sequence (last.sequence - 4))).reportPose

/-- POSE TIMER EXPIRY (R115): the clock runs to it; nothing where the timer does not run. -/
def State.poseTimerExpiry (s : State) : State :=
  match s.pose.timer, s.pose.last with
  | some due, some last =>
    let run := s.runTo due
    if s.pose.synthesized < 4 then run.acceptSynthesized last else run.losePose last
  | _, _ => s

end Sys2Proof.Machine
end

