-- ==== Sys2Proof/Machine/Site.lean ====
section
/-! DEFINITION. The edits of the site geometry: SET DATUM (chapter 2), SET ZONE BOX and SET ZONE ROW (chapter 3). -/

namespace Sys2Proof.Machine

/-! ## SET DATUM (R25 to R27) -/

/-- The fields of SET DATUM a RANGE reply names: ENTRY 0, ORIGIN 1, HEADING 2, BASE HEIGHT 3, PITCH 4 (R25). -/
inductive DatumField
  | entry | origin | heading | baseHeight | pitch
  deriving DecidableEq, Repr

def DatumField.code : DatumField → Nat
  | .entry => 0 | .origin => 1 | .heading => 2 | .baseHeight => 3 | .pitch => 4

/-- The contents a SET DATUM carries (R24, R182). -/
def datumEntryOf (ox oy oz : BitVec 32) (cx cy hz p : BitVec 16) : DatumEntry :=
  { ox := ox.toInt, oy := oy.toInt, oz := oz.toInt, cx := cx.toInt, cy := cy.toInt, hz := hz.toNat, p := p.toNat }

/-- The first field that fails a check of R26. -/
def DatumEntry.rangeFault (d : DatumEntry) : Option DatumField :=
  if 1000000 < d.ox.natAbs ∨ 1000000 < d.oy.natAbs ∨ 100000 < d.oz.natAbs then some .origin
  else if !headingNormOk d.cx d.cy then some .heading
  else if d.hz < 0 ∨ 50000 < d.hz then some .baseHeight
  else if d.p < 1 ∨ 2000 < d.p then some .pitch
  else none

/-- A bank names a datum entry (R1). -/
def Bank.names (b : Bank) (e : Fin 4) : Bool := (b.setup.map fun su => decide (su.datum = e)).getD false

/-- The ACTIVE bank of the lower number that names an entry (R25). -/
def State.activeNaming (s : State) (e : Fin 4) : Option BankId :=
  [BankId.bank0, BankId.bank1].find? fun b => (s.bank b).state = .active && (s.bank b).names e

/-- SET DATUM (R25 to R27), the flush and then the spent test of its move (R14, R36, assumption 34). -/
def State.takeSetDatum (s : State) (entry : Byte) (d : DatumEntry) : State × Answer :=
  if h : entry.toNat < 4 then
    let e : Fin 4 := ⟨entry.toNat, h⟩
    match s.activeNaming e with
    | some b => (s, .refuse .state [fieldU8 b.code])
    | none =>
      match d.rangeFault with
      | some f => (s, .refuse .range [fieldU8 f.code])
      | none =>
        let written := { s with datum := { entries := s.datum.entries.set e (some d) } }
        let f := written.flush fun b => (s.bank b).state = .ready && (s.bank b).names e
        (f.state.testMove written, .ok [fieldU8 entry.toNat, fieldU8 f.removed, fieldU8 f.returned])
  else (s, .refuse .range [fieldU8 DatumField.entry.code])

/-! ## The zone edits (R41 to R43) -/

/-- Zone edits are accepted in SETUP and STOWED alone (R41, R43). -/
def State.zoneEditable (s : State) : Bool := s.mode.mode = .setup || s.mode.mode = .stowed

/-- The flush of a zone edit: every bank in READY or ACTIVE (R37). -/
def State.zoneFlush (s : State) : FlushResult :=
  s.flush fun b => (s.bank b).state = .ready || (s.bank b).state = .active

/-- An axis of a zone box fails: a bound out of range, or the minimum above the maximum (R41). -/
def axisFails (bound lo hi : Int) : Bool := bound < lo.natAbs || bound < hi.natAbs || hi < lo

/-- The bounds a SET ZONE BOX carries (R182). -/
def zoneBoxOf (xmin xmax ymin ymax zmin zmax : BitVec 32) : ZoneBox :=
  { xmin := xmin.toInt, xmax := xmax.toInt, ymin := ymin.toInt, ymax := ymax.toInt, zmin := zmin.toInt
    zmax := zmax.toInt }

/-- The axis a RANGE reply names: X 0, Y 1, Z 2 (R41, assumption 14). -/
def ZoneBox.axisFault (b : ZoneBox) : Option Nat :=
  if axisFails 1000000 b.xmin b.xmax then some 0
  else if axisFails 1000000 b.ymin b.ymax then some 1
  else if axisFails 100000 b.zmin b.zmax then some 2
  else none

/-- SET ZONE BOX (R41, R42), the flush and then the spent test of its move (R14, R36, assumption 34). -/
def State.takeSetZoneBox (s : State) (b : ZoneBox) : State × Answer :=
  if !s.zoneEditable then (s, .refuse .state [fieldU8 s.mode.mode.code])
  else
    match b.axisFault with
    | some axis => (s, .refuse .range [fieldU8 axis])
    | none =>
      let written := { s with zone := { s.zone with box := some b } }
      let f := written.zoneFlush
      (f.state.testMove written, .ok [fieldU8 f.removed, fieldU8 f.returned])

/-- SET ZONE ROW (R43), the flush and then the spent test of its move (R14, R36, assumption 34); its one RANGE field ROW is coded 0 (assumption 14). -/
def State.takeSetZoneRow (s : State) (row : Byte) (cells : BitVec 64) : State × Answer :=
  if !s.zoneEditable then (s, .refuse .state [fieldU8 s.mode.mode.code])
  else if h : row.toNat < 64 then
    let written := { s with zone := { s.zone with cells := s.zone.cells.set row.toNat cells } }
    let f := written.zoneFlush
    (f.state.testMove written, .ok [fieldU8 row.toNat, fieldU8 (permittedIn cells), fieldU8 f.removed, fieldU8 f.returned])
  else (s, .refuse .range [fieldU8 0])

end Sys2Proof.Machine
end

