-- ==== Sys2Proof/Machine/Mode.lean ====
section
/-! DEFINITION. Mode Control (chapter 9): the mode commands, watches, HALT, CLEAR FAULT, IDENTIFY, and the resets. -/

namespace Sys2Proof.Machine

/-! ## Mode commands (R152 to R155) -/

/-- A refused mode command: its reply carries the present mode (section 9.3). -/
def State.refuseMode (s : State) : Answer := .refuse .state [fieldU8 s.mode.mode.code]

/-- START (R152), with the BANK NEEDED that entry to LAYING may bring (R59). -/
def State.takeStart (s : State) : State × Answer :=
  if s.mode.mode = .setup ∨ s.mode.mode = .stowed then ((s.changeMode .laying .command).needBank, .ok [])
  else (s, s.refuseMode)

/-- PAUSE (R153). -/
def State.takePause (s : State) : State × Answer :=
  if s.mode.mode = .laying then (s.changeMode .paused .command, .ok [])
  else if s.mode.mode = .paused then (s, .ok [])
  else (s, s.refuseMode)

/-- RESUME (R154), with the BANK NEEDED that entry to LAYING may bring (R59). -/
def State.takeResume (s : State) : State × Answer :=
  if s.mode.mode = .paused then (((s.changeMode .laying .command).restartPlacementTimer).needBank, .ok [])
  else (s, s.refuseMode)

/-- STOW (R155). Its BUSY reply carries the present mode, as the reply of every refused mode command does (section 9.3), and
the placement state (R155), in that order (assumption 15). -/
def State.takeStow (s : State) : State × Answer :=
  if s.mode.mode = .laying ∨ s.mode.mode = .paused then
    if s.place.state = .idle then (s.changeMode .stowed .command, .ok [])
    else (s, .refuse .busy [fieldU8 s.mode.mode.code, fieldU8 s.place.state.code])
  else (s, s.refuseMode)

/-- ENTER SETUP (R155). -/
def State.takeEnterSetup (s : State) : State × Answer :=
  if s.mode.mode = .stowed then (s.changeMode .setup .command, .ok []) else (s, s.refuseMode)

/-! ## Watches (R157, R160) -/

/-- SET WATCH (R157). -/
def State.takeSetWatch (s : State) (conditions : Byte) : State × Answer :=
  if s.faulted then (s, .refuse .state [])
  else
    match watchSetOfByte conditions with
    | none => (s, .refuse .range [])
    | some w => ({ s with mode := { s.mode with watchEnables := w } }, .ok [])

/-- CLEAR WATCH (R160). -/
def State.takeClearWatch (s : State) (conditions : Byte) : State × Answer :=
  match watchSetOfByte conditions with
  | none => (s, .refuse .range [])
  | some w =>
    let left := s.mode.watchStatus &&& ~~~w
    ({ s with mode := { s.mode with watchStatus := left } }, .ok [fieldU8 left.toNat])

/-! ## HALT (R161) -/

/-- The HALT line asserted (R161). -/
def State.haltAsserted (s : State) : State :=
  State.reportCause { s with mode := { s.mode with halt := true } } .halt

/-- The HALT line deasserted (R161). -/
def State.haltDeasserted (s : State) : State := { s with mode := { s.mode with halt := false } }

/-! ## The fault record and CLEAR FAULT (R164) -/

/-- The fault record as reply fields: primary cause, further set, mode at fault (R164, R180), the first and the last with a presence
byte each (assumption 38). -/
def faultFields : Option FaultRecord → List Field
  | some f =>
    fieldsOptional true [fieldU8 f.primary.code] ++ [fieldU8 f.further.toNat] ++
      fieldsOptional true [fieldU8 f.modeAtFault.code]
  | none => fieldsOptional false [fieldU8 0] ++ [fieldU8 0] ++ fieldsOptional false [fieldU8 0]

/-- Step 1 of CLEAR FAULT: the brick path, the glue operation, the gripper and the placement are cleared (R88, R98, R145,
R164). -/
def State.clearBricks (s : State) : State :=
  { s with
    train := { s.train with entries := [] }
    cradles := { s.cradles with cradle0 := .empty, cradle1 := .empty }
    adhesive := { s.adhesive with owner := none, operation := none, pump := false }
    comp := { s.comp with
      setpoints := ⟨0, 0, 0, 0⟩, lastStep := ⟨0, 0, 0⟩, saturation := ⟨false, false, false, false⟩, counter := 0
      releaseSeq := none }
    place := { s.place with
      state := .idle, gripper := none, pickCradle := none, timer := none, hasSettled := false, stepTimer := .stopped
      abandonReason := none, grip := false } }

/-- The load indices of the FED slots of a bank, in load order: the order in which CLEAR FAULT returns them is the model's
choice (R164, assumption 24). -/
def State.fedSlots (s : State) (b : BankId) : List Nat :=
  (List.range (s.bank b).slots.length).filter fun i => ((s.slot? b i).map fun sl => sl.status.isFed).getD false

/-- A FED slot returned to PENDING: recorded, and reported to the Feed Sequencer (R19, R61). -/
def State.returnSlot (b : BankId) (s : State) (i : Nat) : State := (s.recordStatus b i .pending).cursorReturn b i

/-- Step 2 of CLEAR FAULT: every FED slot returns to PENDING, bank 0 first and each bank in load order
(R164, assumption 24). -/
def State.returnFedSlots (s : State) : State :=
  (s.fedSlots .bank1).foldl (State.returnSlot .bank1) ((s.fedSlots .bank0).foldl (State.returnSlot .bank0) s)

/-- Step 3 of CLEAR FAULT: the cursor goes to the earliest PENDING slot of the lay bank (R164), and the move is tested
(R14). -/
def State.cursorToLayBank (s : State) : State :=
  match s.layBank with
  | some b =>
    (match (s.bank b).firstPending 0 with
      | some p => s.moveCursor b p
      | none => s)
  | none => s

/-- Steps 4 to 6 of CLEAR FAULT: watch-stopped brick, fault record, STOWED, CONVEYOR HOLD (R164). -/
def State.leaveFaulted (s : State) : State :=
  (State.changeMode
    { s with
      mode := { s.mode with watchStopped := none, fault := none }
      clock := { s.clock with stoppedAt := none } }
    .stowed .command).evalHold

/-- The primary cause cleared, as a reply field. -/
def primaryField : Option FaultRecord → Field
  | some f => fieldU8 f.primary.code
  | none => fieldU8 0

/-- CLEAR FAULT (R164). It is read as no mode command of section 9.3: its STATE reply outside FAULTED carries no field
(assumption 15). -/
def State.takeClearFault (s : State) : State × Answer :=
  if !s.faulted then (s, .refuse .state [])
  else if s.mode.halt then (s, .refuse .state (faultFields s.mode.fault ++ [fieldFlag s.mode.halt]))
  else
    (s.clearBricks.returnFedSlots.cursorToLayBank.leaveFaulted,
      .ok [primaryField s.mode.fault, fieldU8 ((s.fedSlots .bank0).length + (s.fedSlots .bank1).length)])

/-! ## IDENTIFY and RESET (R166, R167) -/

/-- IDENTIFY (R166). -/
def State.takeIdentify (s : State) : State × Answer :=
  (s, .ok [fieldU16 0x4C02, fieldU8 4, fieldU8 s.mode.cradleCount.number, fieldU8 s.mode.travel.code,
    fieldU8 s.mode.resetCause.code])

/-- RESET (R167, R176): a RESET is pending from its taking; it takes effect when its reply has been sent. -/
def State.takeReset (s : State) : State × Answer :=
  ({ s with link := { s.link with resetPending := true } }, .ok [])

/-- A reset takes effect (R167): every block at its reset values, then READY, then cause HALT where HALT stands asserted. The
lines, the clock and the queue of waiting events stay (assumption 31). -/
def State.resetWith (s : State) (cause : ResetCause) (cradles : CradleCount) (travel : Travel) (halt : Bool) : State :=
  let fresh := State.resetValues cause cradles travel halt s.place.gripped { s.clock with stoppedAt := none } s.pending
  let ready := fresh.raise (.ready cause cradles travel .setup)
  if halt then ready.reportCause .halt else ready

end Sys2Proof.Machine
end

