-- ==== Sys2Proof/Machine/Status.lean ====
section
/-! DEFINITION. READ STATUS (R179, R180) and SET NOTICES (R178). -/

namespace Sys2Proof.Machine

/-! ## SET NOTICES (R178) -/

/-- The set in force as a reply shows it, FAULT always enabled (R178, assumption 27). -/
def LinkInterface.enablesShown (l : LinkInterface) : BitVec 14 := l.enables ||| setOf 13

/-- SET NOTICES (R178). -/
def State.takeSetNotices (s : State) (enables : BitVec 16) : State × Answer :=
  if s.faulted then (s, .refuse .state [])
  else
    match noticeSetOfWord enables with
    | none => (s, .refuse .range [])
    | some w =>
      let s' := { s with link := { s.link with enables := w } }
      (s', .ok [fieldU16 s'.link.enablesShown.toNat])

/-! ## Page 0: part (R180) -/

/-- An optional byte. -/
def optionalU8 : Option Nat → List Field
  | some n => fieldsOptional true [fieldU8 n]
  | none => fieldsOptional false [fieldU8 0]

/-- The order-blocked slot the cursor stands on, in HELD (R53, R180). -/
def State.heldSlot (s : State) : Option (BankId × Nat) :=
  if s.feedState = .held then
    ((s.bank s.feed.pointer).firstPending s.feed.cursor >>= fun p => (s.bank s.feed.pointer).walkOrder[p]?).map
      fun i => (s.feed.pointer, i)
  else none

/-- Bank and index, present in HELD (R180), under one presence byte (assumption 38). -/
def State.heldFields (s : State) : List Field :=
  match s.heldSlot with
  | some (b, i) => fieldsOptional true [fieldU8 b.code, fieldU8 i]
  | none => fieldsOptional false [fieldU8 0, fieldU8 0]

/-- Page 0 (R180). -/
def State.partPage (s : State) : List Field :=
  [fieldU8 s.mode.mode.code] ++ faultFields s.mode.fault ++
    [fieldFlag s.mode.halt, fieldU8 s.mode.watchEnables.toNat, fieldU8 s.mode.watchStatus.toNat] ++
    optionalU8 (s.mode.watchStopped.map BitVec.toNat) ++
    [fieldU8 s.mode.cradleCount.number, fieldU8 s.mode.travel.code, fieldU8 s.mode.resetCause.code,
      fieldU16 s.link.enablesShown.toNat, fieldU8 s.link.notices.length, fieldFlag s.zone.box.isSome,
      fieldU16 s.zone.permittedCells, fieldU8 s.feedState.code, fieldU8 s.feed.pointer.code, fieldU8 s.feed.cursor] ++
    s.heldFields ++
    [fieldU8 s.feed.nextTag.toNat, fieldFlag s.feed.bankNeeded, fieldU8 s.feed.depth, fieldU8 s.feed.tolerance,
      fieldU8 s.train.timeout, fieldU8 (s.feed.mark.threshold.getD 0xFF), fieldU8 s.feed.mark.scope.code,
      fieldU8 s.feed.mark.sense.code, fieldFlag s.feed.condition] ++
    optionalU8 s.feed.lastCount

/-! ## Page 1: brick path (R89, R103, R180) -/

/-- The time left to a deadline, or none (R179). -/
def State.timeLeftTo (s : State) (deadline : Option Time) : Field :=
  fieldTimeLeft (deadline.map (tenthsLeft s.deadlineClock))

/-- The earliest of the transit deadlines (R180). -/
def TrainList.earliestDeadline (t : TrainList) : Option Time := (t.entries.filterMap TrainEntry.deadline).min?

/-- The entries in IN TRANSIT. -/
def TrainList.inTransit (t : TrainList) : List TrainEntry := t.entries.filter fun e => e.state = .inTransit

/-- A cradle on page 1 (R180). One presence byte stands for the tag, bank and slot of its brick (assumption 38). -/
def State.cradleFields (s : State) (c : CradleId) : List Field :=
  let cradle := s.cradle c
  (match cradle.brick? with
    | some b =>
      [fieldU8 cradle.code] ++
        fieldsOptional true [fieldU8 b.brick.tag.toNat, fieldU8 b.brick.bank.code, fieldU8 b.brick.slot] ++
        [fieldFlag (!b.brick.live)]
    | none =>
      [fieldU8 cradle.code] ++ fieldsOptional false [fieldU8 0, fieldU8 0, fieldU8 0] ++ [fieldFlag false]) ++
    [s.timeLeftTo cradle.deadline?]

/-- The glue operation's stroke count and strokes completed, or absent (R180), under one presence byte (assumption 38). -/
def AdhesiveUnit.operationFields (a : AdhesiveUnit) : List Field :=
  match a.operation with
  | some op => fieldsOptional true [fieldU16 op.strokes, fieldU16 op.done]
  | none => fieldsOptional false [fieldU16 0, fieldU16 0]

/-- The pump owner: cradle 0, cradle 1, none (R91, R184). -/
def AdhesiveUnit.ownerCode (a : AdhesiveUnit) : Nat :=
  match a.owner with
  | some c => c.code
  | none => 2

/-- Page 1 (R180). -/
def State.brickPathPage (s : State) : List Field :=
  [fieldU8 s.train.entries.length, fieldU8 s.train.inTransit.length,
      fieldU8 (s.train.inTransit.countP fun e => !e.brick.live)] ++
    optionalU8 (s.train.oldestRequested.map fun e => e.brick.tag.toNat) ++
    [s.timeLeftTo s.train.earliestDeadline] ++
    s.cradlesInUse.flatMap s.cradleFields ++
    [fieldFlag s.cradles.hold, fieldU8 s.adhesive.ownerCode] ++ s.adhesive.operationFields ++
    [fieldFlag (s.adhesive.operation.isSome && s.faulted), fieldU16 s.adhesive.divisor, fieldU8 s.adhesive.pitch,
      fieldU16 s.adhesive.openTime, s.timeLeftTo (s.place.gripper.bind GripperBrick.deadline)]

/-! ## Page 2: pose (R180) -/

/-- A sample's fields (R180). -/
def Sample.fields (p : Sample) : List Field :=
  [fieldSeq p.sequence] ++ fieldsPosition p.tip ++ [fieldI16 p.hc, fieldI16 p.hs, fieldU8 p.quality, fieldU8 p.origin.code]

/-- An optional sample (R180), under one presence byte (assumption 38). -/
def sampleFields : Option Sample → List Field
  | some p => fieldsOptional true p.fields
  | none => fieldsOptional false (Sample.fields ⟨0, ⟨0, 0, 0⟩, 0, 0, 0, .real⟩)

/-- Page 2 (R180). -/
def State.posePage (s : State) : List Field :=
  [fieldU8 s.pose.state.code] ++ sampleFields s.pose.last ++ sampleFields s.pose.previous ++ fieldsStep s.pose.velocity ++
    [fieldU8 s.pose.synthesized, fieldU8 s.pose.realRun]

/-! ## Page 3: placement (R147, R180) -/

/-- The gripper brick's tag, bank, slot and mark, or absent (R180), under one presence byte, with one more for the mark
(assumption 38). -/
def gripperFields : Option GripperBrick → List Field
  | some g =>
    fieldsOptional true
      ([fieldU8 g.brick.tag.toNat, fieldU8 g.brick.bank.code, fieldU8 g.brick.slot] ++
        optionalU8 (g.brick.mark.map RejectReason.code))
  | none => fieldsOptional false ([fieldU8 0, fieldU8 0, fieldU8 0] ++ optionalU8 none)

/-- The hold reasons as a set: PAUSED 0, POSE 1 (R124, R184). -/
def PlacementSequencer.holdSet (p : PlacementSequencer) : Nat := boolCode p.holdPaused + 2 * boolCode p.holdPose

/-- The latched parameters and timeouts, or absent (R180), under one presence byte (assumption 38). -/
def latchedFields : Option PlacementSettings → List Field
  | some l => fieldsOptional true l.fields
  | none => fieldsOptional false (PlacementSettings.fields ⟨0, 0, 0, 0, 0, 0, 0⟩)

/-- The frozen pick cradle, which READ STATUS shows in FAULTED (R145); its place is the model's (assumption 36). -/
def State.frozenPickFields (s : State) : List Field :=
  if s.faulted then optionalU8 (s.place.pickCradle.map CradleId.code) else []

/-- Page 3 (R180), and in FAULTED the pick cradle after the fields that R180 lists (R145, assumption 36). Latched K has a presence
byte, since the latched parameters may be absent (assumption 37). -/
def State.placementPage (s : State) : List Field :=
  [fieldU8 s.place.state.code] ++ gripperFields s.place.gripper ++
    [fieldU8 s.place.holdSet, fieldFlag s.place.hasSettled, s.timeLeftTo s.place.timer, fieldU8 s.comp.counter] ++
    optionalU8 (s.comp.latched.map PlacementSettings.count) ++ fieldsSetpoints s.comp.setpoints ++
    fieldsStep s.comp.lastStep ++
    [fieldFlag s.comp.saturation.x, fieldFlag s.comp.saturation.y, fieldFlag s.comp.saturation.z,
      fieldFlag s.comp.saturation.wrist] ++
    (match s.comp.releaseSeq with
      | some q => fieldsOptional true [fieldSeq q]
      | none => fieldsOptional false [fieldU16 0]) ++
    [fieldU8 s.place.quarterTurn.code] ++ latchedFields s.comp.latched ++ s.comp.settings.fields ++ s.frozenPickFields

/-! ## READ STATUS (R179) -/

/-- The contents of a page, if the page number names one (R179). -/
def State.statusPage (s : State) (page : Byte) : Option (List Field) :=
  match page.toNat with
  | 0 => some s.partPage
  | 1 => some s.brickPathPage
  | 2 => some s.posePage
  | 3 => some s.placementPage
  | _ => none

/-- READ STATUS (R179): the notices-dropped flag, the page, and the flag cleared. -/
def State.takeReadStatus (s : State) (page : Byte) : State × Answer :=
  match s.statusPage page with
  | none => (s, .refuse .range [])
  | some fields =>
    ({ s with link := { s.link with dropped := false } }, .ok (fieldFlag s.link.dropped :: fields))

end Sys2Proof.Machine
end

