-- ==== Sys2Proof/Machine/Adhesive.lean ====
section
/-! DEFINITION. The Adhesive Unit (chapter 6): grants, the pump counter, glue completions, open-time expiries, SET
ADHESIVE. -/

namespace Sys2Proof.Machine

/-! ## Grants (R93, R94) -/

/-- The stroke count N = ceil(L · B / S) (R94). -/
def strokeCount (planned beads pitch : Nat) : Nat := (planned * beads + pitch - 1) / pitch

/-- The stroke period 2 · (4096 − D), in ticks (R94). -/
def strokePeriod (divisor : Nat) : Nat := 2 * (pumpTop - divisor)

/-- The operation a grant makes for a brick (R94). -/
def State.newOperation (s : State) (b : CradleBrick) : GlueOperation :=
  { strokes := strokeCount b.planned b.pattern.beads s.adhesive.pitch, done := 0
    period := strokePeriod s.adhesive.divisor }

/-- The grant of the pump to a HELD cradle: owner, operation, GLUING, the counter loaded and PUMP deasserted (R93, R95). -/
def State.grantTo (s : State) (c : CradleId) : State :=
  match s.cradle c with
  | .held b =>
    State.setCradle
      { s with adhesive := { s.adhesive with
          owner := some c, operation := some (s.newOperation b), counter := s.adhesive.divisor, pump := false } }
      c (.gluing b)
  | .empty => s
  | .gluing _ => s
  | .ready _ _ => s
  | .tipping _ _ => s

/-- A grant is judged (R93): nothing where its conditions do not hold. -/
def State.judgeGrant (s : State) : State :=
  if s.grantDue then
    match s.grantee with
    | some c => s.grantTo c
    | none => s
  else s

/-! ## The pump counter and the glue completion (R95, R96) -/

/-- Steps 1 and 2 of the glue completion: the pump is freed, and the cradle goes to READY with its open-time deadline, or to
TIPPING with a marked brick (R96). -/
def State.freePump (s : State) (c : CradleId) : State :=
  let freed := { s with adhesive := { s.adhesive with owner := none, operation := none, pump := false } }
  match s.cradle c with
  | .gluing b =>
    if b.brick.live then
      freed.setCradle c (.ready b (some (s.clock.now + s.adhesive.openTime * ticksPerSecond)))
    else freed.setCradle c (.tipping b (s.clock.now + tipTicks))
  | .empty => freed
  | .held _ => freed
  | .ready _ _ => freed
  | .tipping _ _ => freed

/-- The glue completion (R96): the pump freed, and a grant judged. -/
def State.completeGlue (s : State) : State :=
  match s.adhesive.owner with
  | some c => (s.freePump c).judgeGrant
  | none => s

/-- The counter passes 4095: it is reloaded, PUMP changes level, and a reload that deasserts PUMP ends a stroke (R95). -/
def State.reload (s : State) (op : GlueOperation) : State :=
  let counter := pumpTop - op.period / 2
  if s.adhesive.pump then
    let s' := { s with adhesive := { s.adhesive with
        counter := counter, pump := false, operation := some { op with done := op.done + 1 } } }
    if op.strokes ≤ op.done + 1 then s'.completeGlue else s'
  else { s with adhesive := { s.adhesive with counter := counter, pump := true } }

/-- PUMP COUNTER RELOAD (R95): the clock runs to the reload of a running operation; nothing with none running. -/
def State.pumpReload (s : State) : State :=
  if s.faulted then s
  else
    match s.adhesive.operation with
    | some op => (s.runTo (s.clock.now + (pumpTop - s.adhesive.counter))).reload op
    | none => s

/-! ## Open time (R99 to R101) -/

/-- The expiry of a READY cradle's deadline (R100), or of the pick cradle's (R101). -/
def State.spoilInCradle (s : State) (c : CradleId) (b : CradleBrick) : State :=
  if s.place.pickCradle = some c then
    (s.setCradle c (.ready (b.marked .spoiled) none)).reportBrickReject b.brick .spoiled
  else ((s.tip c b .spoiled).raiseRejected b.brick .spoiled).reportBrickReject b.brick .spoiled

/-- OPEN TIME EXPIRY where the brick is held (R99): the clock runs to the deadline; nothing where no deadline runs. -/
def State.openTimeExpiry (s : State) (place : GluedPlace) : State :=
  if s.faulted then s
  else
    match place with
    | .cradle c =>
      (match s.cradle c with
        | .ready b (some d) => (s.runTo d).spoilInCradle c b
        | .ready _ none => s
        | .empty => s
        | .held _ => s
        | .gluing _ => s
        | .tipping _ _ => s)
    | .gripper =>
      match s.place.gripper with
      | some g =>
        (match g.deadline with
          | some d => if s.place.state.holdsBrick then (s.runTo d).enterAbandoning g .spoiled else s
          | none => s)
      | none => s

/-! ## SET ADHESIVE (R102) -/

/-- SET ADHESIVE (R102). -/
def State.takeSetAdhesive (s : State) (divisor : BitVec 16) (pitch : Byte) (openTime : BitVec 16) : State × Answer :=
  if s.faulted then (s, .refuse .state [])
  else
    let d := clampNat 0 4000 divisor.toNat
    let p := clampNat 10 200 pitch.toNat
    let o := clampNat 10 900 openTime.toNat
    let s' := { s with adhesive := { s.adhesive with divisor := d, pitch := p, openTime := o } }
    let taken := [fieldU16 d, fieldU8 p, fieldU16 o]
    if d = divisor.toNat ∧ p = pitch.toNat ∧ o = openTime.toNat then (s', .ok taken) else (s', ⟨.adjusted, taken⟩)

end Sys2Proof.Machine
end

