-- ==== Sys2Proof/Machine/Train.lean ====
section
/-! DEFINITION. The Train List and the Cradle Unit (chapter 5): BRICK LOADED, transit expiry, arrivals, tips, PURGE. -/

namespace Sys2Proof.Machine

/-! ## BRICK LOADED (R75 to R77) -/

/-- The deadline of an entry just ahead that is IN TRANSIT and not lost (R77); 0 where there is none. -/
def deadlineAhead : Option TrainEntry → Time
  | some e => if e.onBoom then e.deadline.getD 0 else 0
  | none => 0

/-- The oldest REQUESTED entry enters IN TRANSIT: measured length, state, deadline (R75, R77). The first argument is the entry
just ahead of the list. -/
def loadOldest (measured : Nat) (due : Time) : Option TrainEntry → List TrainEntry → List TrainEntry
  | _, [] => []
  | ahead, e :: rest =>
    match e.state with
    | .requested =>
      { e with measured := some measured, state := .inTransit, deadline := some (max due (deadlineAhead ahead)) } :: rest
    | .inTransit => e :: loadOldest measured due (some e) rest

/-- A train entry is reject-marked; a mark once present is not replaced (R74). -/
def markEntry (serial : Nat) (r : RejectReason) (es : List TrainEntry) : List TrainEntry :=
  es.map fun e =>
    if e.brick.serial = serial then { e with brick := { e.brick with mark := some (e.brick.mark.getD r) } } else e

/-- MISCUT (R76): mark, notice, report, and the rollback where R63 gives one. -/
def State.miscut (s : State) (b : Brick) : State :=
  ((s.setEntries (markEntry b.serial .miscut s.train.entries)).raiseRejected b .miscut).reportBrickReject b .miscut

/-- The deviation, measured length minus planned length (R75). -/
def deviation (measured planned : Nat) : Int := (measured : Int) - planned

/-- BRICK LOADED (R75 to R77). -/
def State.takeBrickLoaded (s : State) (feedTag : Byte) (measured : BitVec 16) : State × Answer :=
  if s.faulted then (s, .refuse .state [])
  else
    match s.train.oldestRequested with
    | none => (s, .refuse .order (fieldsOptional false [fieldU8 0]))
    | some e =>
      if e.brick.tag ≠ feedTag then (s, .refuse .order (fieldsOptional true [fieldU8 e.brick.tag.toNat]))
      else
        let due := s.clock.now + s.train.timeout * ticksPerSecond
        let loaded := s.setEntries (loadOldest measured.toNat due none s.train.entries)
        let dev := deviation measured.toNat e.planned
        if dev.natAbs ≤ s.feed.tolerance then
          (loaded, .ok [fieldU8 feedTag.toNat, fieldU8 0, fieldI32 dev])
        else (loaded.miscut e.brick, .ok [fieldU8 feedTag.toNat, fieldU8 1, fieldI32 dev])

/-! ## Transit expiry (R78) -/

/-- The entry with a feed tag whose transit deadline runs. -/
def TrainList.inTransitTagged (t : TrainList) (tag : Byte) : Option TrainEntry :=
  t.entries.find? fun e => e.brick.tag = tag && e.state = .inTransit && e.deadline.isSome

/-- An entry is lost: its deadline is removed (R78). -/
def loseEntry (serial : Nat) (es : List TrainEntry) : List TrainEntry :=
  es.map fun e => if e.brick.serial = serial then { e with deadline := none, lost := true } else e

/-- TRANSIT EXPIRY (R78): the clock runs to the deadline; nothing where no such deadline runs. -/
def State.transitExpiry (s : State) (tag : Byte) : State :=
  if s.faulted then s
  else
    match s.train.inTransitTagged tag with
    | some e =>
      let s' := s.runTo (e.deadline.getD 0)
      (s'.setEntries (loseEntry e.brick.serial s'.train.entries)).reportCause .lostBrick
    | none => s

/-! ## Arrival (R80, R81, R92) -/

/-- The brick record of a cradle, written from a train entry and its slot's adhesive pattern (R81). The
pattern of a brick whose slot no longer exists is NONE, the model's choice (assumption 35). -/
def State.cradleBrickOf (s : State) (e : TrainEntry) : CradleBrick :=
  { brick := e.brick, planned := e.planned
    pattern := ((s.slot? e.brick.bank e.brick.slot).map Slot.pattern).getD .none }

/-- The offer of a live brick in HELD (R92): a NONE brick becomes READY at once, any other waits and a grant is judged. -/
def State.offer (s : State) (c : CradleId) (b : CradleBrick) : State :=
  match b.pattern with
  | .none => s.setCradle c (.ready b none)
  | .single => s.judgeGrant
  | .double => s.judgeGrant

/-- The routed arrival (R81): the oldest entry on the boom passes into a cradle. -/
def State.routeArrival (s : State) (c : CradleId) (e : TrainEntry) : State :=
  let b := s.cradleBrickOf e
  let left := s.setEntries (s.train.entries.filter fun x => x.brick.serial ≠ e.brick.serial)
  if e.brick.live then (left.setCradle c (.held b)).offer c b
  else left.setCradle c (.tipping b (s.clock.now + tipTicks))

/-- An arrival (R80): overrun, stray, or routed. -/
def State.arrival (s : State) : State :=
  if s.cradles.hold then s.reportCause .overrun
  else
    match s.train.entries.find? TrainEntry.onBoom, s.emptyCradle with
    | none, _ => s.reportCause .strayArrival
    | some e, some c => s.routeArrival c e
    | some _, none => s

/-! ## Tips (R85) -/

/-- TIP COMPLETION (R85): the clock runs to the end of the tip; nothing where no tip runs. -/
def State.tipCompletion (s : State) (c : CradleId) : State :=
  if s.faulted then s
  else
    match s.cradle c with
    | .tipping _ done => (s.runTo done).setCradle c .empty
    | .empty => s
    | .held _ => s
    | .gluing _ => s
    | .ready _ _ => s

/-! ## PURGE (R87) -/

/-- PURGE (R87): every live brick that can be withdrawn, in train order. -/
def State.takePurge (s : State) : State × Answer :=
  if s.mode.mode = .paused ∨ s.mode.mode = .stowed then
    let bricks := s.liveBricks.filter s.withdrawable
    (bricks.foldl (fun s x => s.withdraw x .purged) s, .ok [fieldU8 bricks.length])
  else (s, .refuse .state [fieldU8 s.mode.mode.code])

end Sys2Proof.Machine
end

