-- ==== Sys2Proof/Machine/Sli.lean ====
section
/-! DEFINITION. The Site Link Interface (chapter 10): admission, taking, replies, the end of a transmission; and the
receive framers. -/

namespace Sys2Proof.Machine

/-! ## The owner of each command (R173, R182) -/

/-- The owner's rule where the body length suits the kind; LENGTH where it does not (R173). -/
def Frame.sized (f : Frame) (n : Nat) (own : State → State × Answer) (s : State) : State × Answer :=
  if f.body.length = n then own s else (s, .refuse .length [])

/-- LOAD SLOTS as a frame carries it: its length depends on the count in the third byte (R173, R182). -/
def State.takeLoadSlotsFrame (body : List Byte) (s : State) : State × Answer :=
  let count := (byteAt body 2).toNat
  if body.length < 3 ∨ body.length ≠ 3 + 16 * count then (s, .refuse .length [])
  else s.takeLoadSlots (byteAt body 0) (byteAt body 1) (slotRecordsAt body 3 count)

/-- A command handed to its owning block by its KIND, its fields read from the body (R173, R182). -/
def State.perform (f : Frame) (s : State) : State × Answer :=
  let u8 (i : Nat) : Byte := byteAt f.body i
  let u16 (i : Nat) : BitVec 16 := wordAt f.body i
  let u32 (i : Nat) : BitVec 32 := longAt f.body i
  match f.kind.toNat with
  | 0x01 => f.sized 0 State.takeIdentify s
  | 0x02 => f.sized 0 State.takeReset s
  | 0x03 => f.sized 1 (fun s => s.takeReadStatus (u8 0)) s
  | 0x04 => f.sized 1 (fun s => s.takeReadBank (u8 0)) s
  | 0x05 => f.sized 2 (fun s => s.takeReadSlot (u8 0) (u8 1)) s
  | 0x08 => f.sized 21
      (fun s => s.takeSetDatum (u8 0) (datumEntryOf (u32 1) (u32 5) (u32 9) (u16 13) (u16 15) (u16 17) (u16 19))) s
  | 0x09 => f.sized 24
      (fun s => s.takeSetZoneBox (zoneBoxOf (u32 0) (u32 4) (u32 8) (u32 12) (u32 16) (u32 20))) s
  | 0x0A => f.sized 9 (fun s => s.takeSetZoneRow (u8 0) (quadAt f.body 1)) s
  | 0x10 => f.sized 5 (fun s => s.takeOpenBank (u8 0) (u8 1) (u8 2) (u16 3)) s
  | 0x11 => s.takeLoadSlotsFrame f.body
  | 0x12 => f.sized 1 (fun s => s.takeCloseBank (u8 0)) s
  | 0x13 => f.sized 1 (fun s => s.takeDiscardBank (u8 0)) s
  | 0x14 => f.sized 1 (fun s => s.takeSetNextBank (u8 0)) s
  | 0x15 => f.sized 2 (fun s => s.takeSkipSlot (u8 0) (u8 1)) s
  | 0x18 => f.sized 8
      (fun s => s.takeSetPlacement (settingsOf (u8 0) (u8 1) (u8 2) (u8 3) (u8 4) (u8 5) (u16 6))) s
  | 0x19 => f.sized 3 (fun s => s.takeSetFeed (u8 0) (u8 1) (u8 2)) s
  | 0x1A => f.sized 5 (fun s => s.takeSetAdhesive (u16 0) (u8 2) (u16 3)) s
  | 0x1B => f.sized 3 (fun s => s.takeSetSupplyMark (u8 0) (u8 1) (u8 2)) s
  | 0x1C => f.sized 1 (fun s => s.takeSetWatch (u8 0)) s
  | 0x1D => f.sized 1 (fun s => s.takeClearWatch (u8 0)) s
  | 0x1E => f.sized 2 (fun s => s.takeSetNotices (u16 0)) s
  | 0x20 => f.sized 3 (fun s => s.takeBrickLoaded (u8 0) (u16 1)) s
  | 0x21 => f.sized 0 State.takeEndCourse s
  | 0x22 => f.sized 0 State.takePurge s
  | 0x23 => f.sized 0 State.takeAbandon s
  | 0x28 => f.sized 0 State.takeStart s
  | 0x29 => f.sized 0 State.takePause s
  | 0x2A => f.sized 0 State.takeResume s
  | 0x2B => f.sized 0 State.takeStow s
  | 0x2C => f.sized 0 State.takeEnterSetup s
  | 0x2D => f.sized 0 State.takeClearFault s
  | _ => (s, .refuse .unknown [])

/-! ## Replies and takings (R172 to R174) -/

/-- A reply appended to the reply list, with the KIND and TAG of its command (R174). -/
def State.appendReply (s : State) (kind tag : Byte) (a : Answer) : State :=
  { s with link := { s.link with
      replies := s.link.replies ++ [{ kind := kind, tag := tag, code := a.code, fields := a.fields }] } }

/-- The reply that an owner's rule makes after its effects (R173). -/
def State.answer (kind tag : Byte) (r : State × Answer) : State := r.1.appendReply kind tag r.2

/-- A command may be taken: a queued one, the reply list empty, no RESET pending (R173). -/
def State.mayTake (s : State) : Bool := s.link.replies.isEmpty && !s.link.resetPending

/-- Commands are taken while they may be, each whole, the transmitter beginning a frame whenever it is free (R173, R174). The
first argument bounds the takings. -/
def State.settle : Nat → State → State
  | 0, s => s.beginFrame
  | fuel + 1, s =>
    let s' := s.beginFrame
    match s'.link.commands with
    | [] => s'
    | f :: rest =>
      if s'.mayTake then
        State.settle fuel (State.answer f.kind f.tag (State.perform f { s' with link := { s'.link with commands := rest } }))
      else s'

/-- Takings after an event that may free one: no more than the queue holds (R172). -/
def State.settleLink (s : State) : State := s.settle s.link.commands.length

/-- A KIND of the command space (R169, R172). -/
def isCommandKind (kind : Byte) : Bool := 0x01 ≤ kind.toNat && kind.toNat ≤ 0x3F

/-- The admission of a frame (R172, R176): discarded, answered QUEUE FULL, or appended to the command queue. -/
def State.admitFrame (s : State) (f : Frame) : State :=
  if s.link.resetPending then s
  else if !isCommandKind f.kind then s
  else if 16 ≤ s.link.replies.length then s
  else if 4 ≤ s.link.commands.length then s.appendReply f.kind f.tag (.refuse .queueFull [])
  else { s with link := { s.link with commands := s.link.commands ++ [f] } }

/-- A frame completed by the site framer arrives (R172), and is taken where R173 lets it be. -/
def State.arriveFrame (s : State) (f : Frame) : State := (s.admitFrame f).settleLink

/-- A command that arrives where nothing waits is taken in the same event by its owner's rule; anywhere else its frame is
admitted like any other (R172, R173, assumption 1). -/
def State.submit (s : State) (f : Frame) (own : State → State × Answer) : State :=
  if s.link.resetPending then s.beginFrame
  else if s.link.commands.isEmpty && s.link.replies.isEmpty then
    (State.answer f.kind f.tag (own s.beginFrame)).beginFrame
  else s.arriveFrame f

/-! ## The end of a transmission (R174, R176) -/

/-- The frame being sent is a reply. -/
def LinkInterface.sendingReply (l : LinkInterface) : Bool :=
  match l.sending with
  | some (.reply _) => true
  | some (.notice _) => false
  | none => false

/-- The reset of a pending RESET takes effect: the end of the RESET reply, the last in the reply list (R176). -/
def State.resetFalls (s : State) : Bool := s.link.resetPending && s.link.sendingReply && s.link.replies.isEmpty

/-- The end of a frame sent on the site link: the reset takes effect, or the next reply or notice begins and commands are taken
(R174, R176). Nothing where nothing was being sent. -/
def State.transmissionEnd (s : State) : State :=
  if s.link.sending.isNone then s
  else if s.resetFalls then
    (s.resetWith .command s.mode.cradleCount s.mode.travel s.mode.halt).beginFrame
  else State.settleLink { s with link := { s.link with sending := none } }

/-! ## The receive framers (R171) -/

/-- The frames a byte completes are handed on in the event of the byte: to the SLI (R172) or the TLI (R181). -/
def State.receiveByte (s : State) (link : Link) (b : Byte) : State :=
  match link with
  | .site =>
    let r := s.link.siteFramer.receive b
    r.1.foldl State.arriveFrame { s with link := { s.link with siteFramer := r.2 } }
  | .tracker =>
    let r := s.link.trackerFramer.receive b
    (r.1.foldl State.poseFrame { s with link := { s.link with trackerFramer := r.2 } }).beginFrame

end Sys2Proof.Machine
end

