-- ==== Sys2Proof/Machine/Commands.lean ====
section
/-! DEFINITION. The meanings of the site command rows: each is the arrival of its frame, taken at once by its owner where
nothing waits (R172, R173, assumption 1). -/

namespace Sys2Proof.Machine

/-- What every meaning answers: no row ends in a fault or a refusal (assumption 30). -/
abbrev Result := Host.Outcome State Fault Refusal

/-- IDENTIFY (R166). -/
def execIdentify (tag : Byte) (s : State) : Result :=
  .next (s.submit (Frame.identify tag) State.takeIdentify)

/-- RESET (R167, R176). -/
def execReset (tag : Byte) (s : State) : Result :=
  .next (s.submit (Frame.reset tag) State.takeReset)

/-- READ STATUS (R179). -/
def execReadStatus (tag page : Byte) (s : State) : Result :=
  .next (s.submit (Frame.readStatus tag page) (fun s => s.takeReadStatus page))

/-- READ BANK (R21). -/
def execReadBank (tag bank : Byte) (s : State) : Result :=
  .next (s.submit (Frame.readBank tag bank) (fun s => s.takeReadBank bank))

/-- READ SLOT (R22). -/
def execReadSlot (tag bank index : Byte) (s : State) : Result :=
  .next (s.submit (Frame.readSlot tag bank index) (fun s => s.takeReadSlot bank index))

/-- SET DATUM (R25 to R27). -/
def execSetDatum (tag entry : Byte) (ox oy oz : BitVec 32) (cx cy hz p : BitVec 16) (s : State) : Result :=
  .next (s.submit (Frame.setDatum tag entry ox oy oz cx cy hz p) (fun s => s.takeSetDatum entry (datumEntryOf ox oy oz cx cy hz p)))

/-- SET ZONE BOX (R41, R42). -/
def execSetZoneBox (tag : Byte) (xmin xmax ymin ymax zmin zmax : BitVec 32) (s : State) : Result :=
  .next (s.submit (Frame.setZoneBox tag xmin xmax ymin ymax zmin zmax) (fun s => s.takeSetZoneBox (zoneBoxOf xmin xmax ymin ymax zmin zmax)))

/-- SET ZONE ROW (R43). -/
def execSetZoneRow (tag row : Byte) (cells : BitVec 64) (s : State) : Result :=
  .next (s.submit (Frame.setZoneRow tag row cells) (fun s => s.takeSetZoneRow row cells))

/-- OPEN BANK (R6). -/
def execOpenBank (tag bank datum walk : Byte) (w : BitVec 16) (s : State) : Result :=
  .next (s.submit (Frame.openBank tag bank datum walk w) (fun s => s.takeOpenBank bank datum walk w))

/-- LOAD SLOTS (R7, R8; LENGTH by R173 where the records do not number the count). -/
def execLoadSlots (tag bank first count : Byte) (records : List SlotRecord) (s : State) : Result :=
  .next (s.submit (Frame.loadSlots tag bank first count records) (fun s =>
    if records.length = count.toNat then s.takeLoadSlots bank first records else (s, .refuse .length [])))

/-- CLOSE BANK (R9 to R11). -/
def execCloseBank (tag bank : Byte) (s : State) : Result :=
  .next (s.submit (Frame.closeBank tag bank) (fun s => s.takeCloseBank bank))

/-- DISCARD BANK (R12). -/
def execDiscardBank (tag bank : Byte) (s : State) : Result :=
  .next (s.submit (Frame.discardBank tag bank) (fun s => s.takeDiscardBank bank))

/-- SET NEXT BANK (R60). -/
def execSetNextBank (tag bank : Byte) (s : State) : Result :=
  .next (s.submit (Frame.setNextBank tag bank) (fun s => s.takeSetNextBank bank))

/-- SKIP SLOT (R18). -/
def execSkipSlot (tag bank index : Byte) (s : State) : Result :=
  .next (s.submit (Frame.skipSlot tag bank index) (fun s => s.takeSkipSlot bank index))

/-- SET PLACEMENT (R146). -/
def execSetPlacement (tag lead window alternate count quality approach : Byte) (settle : BitVec 16) (s : State) : Result :=
  .next (s.submit (Frame.setPlacement tag lead window alternate count quality approach settle) (fun s =>
    s.takeSetPlacement (settingsOf lead window alternate count quality approach settle)))

/-- SET FEED (R71). -/
def execSetFeed (tag depth tolerance timeout : Byte) (s : State) : Result :=
  .next (s.submit (Frame.setFeed tag depth tolerance timeout) (fun s => s.takeSetFeed depth tolerance timeout))

/-- SET ADHESIVE (R102). -/
def execSetAdhesive (tag : Byte) (divisor : BitVec 16) (pitch : Byte) (openTime : BitVec 16) (s : State) : Result :=
  .next (s.submit (Frame.setAdhesive tag divisor pitch openTime) (fun s => s.takeSetAdhesive divisor pitch openTime))

/-- SET SUPPLY MARK (R68). -/
def execSetSupplyMark (tag threshold scope sense : Byte) (s : State) : Result :=
  .next (s.submit (Frame.setSupplyMark tag threshold scope sense) (fun s => s.takeSetSupplyMark threshold scope sense))

/-- SET WATCH (R157). -/
def execSetWatch (tag conditions : Byte) (s : State) : Result :=
  .next (s.submit (Frame.setWatch tag conditions) (fun s => s.takeSetWatch conditions))

/-- CLEAR WATCH (R160). -/
def execClearWatch (tag conditions : Byte) (s : State) : Result :=
  .next (s.submit (Frame.clearWatch tag conditions) (fun s => s.takeClearWatch conditions))

/-- SET NOTICES (R178). -/
def execSetNotices (tag : Byte) (enables : BitVec 16) (s : State) : Result :=
  .next (s.submit (Frame.setNotices tag enables) (fun s => s.takeSetNotices enables))

/-- BRICK LOADED (R75 to R77). -/
def execBrickLoaded (tag feedTag : Byte) (measured : BitVec 16) (s : State) : Result :=
  .next (s.submit (Frame.brickLoaded tag feedTag measured) (fun s => s.takeBrickLoaded feedTag measured))

/-- END COURSE (R66, R67). -/
def execEndCourse (tag : Byte) (s : State) : Result :=
  .next (s.submit (Frame.endCourse tag) State.takeEndCourse)

/-- PURGE (R87). -/
def execPurge (tag : Byte) (s : State) : Result :=
  .next (s.submit (Frame.purge tag) State.takePurge)

/-- ABANDON (R143). -/
def execAbandon (tag : Byte) (s : State) : Result :=
  .next (s.submit (Frame.abandon tag) State.takeAbandon)

/-- START (R152). -/
def execStart (tag : Byte) (s : State) : Result :=
  .next (s.submit (Frame.start tag) State.takeStart)

/-- PAUSE (R153). -/
def execPause (tag : Byte) (s : State) : Result :=
  .next (s.submit (Frame.pause tag) State.takePause)

/-- RESUME (R154). -/
def execResume (tag : Byte) (s : State) : Result :=
  .next (s.submit (Frame.resume tag) State.takeResume)

/-- STOW (R155). -/
def execStow (tag : Byte) (s : State) : Result :=
  .next (s.submit (Frame.stow tag) State.takeStow)

/-- ENTER SETUP (R155). -/
def execEnterSetup (tag : Byte) (s : State) : Result :=
  .next (s.submit (Frame.enterSetup tag) State.takeEnterSetup)

/-- CLEAR FAULT (R164). -/
def execClearFault (tag : Byte) (s : State) : Result :=
  .next (s.submit (Frame.clearFault tag) State.takeClearFault)

/-- UNKNOWN_COMMAND (R173): the arrival of a frame whose KIND names no command; its taking answers UNKNOWN. -/
def execUnknownCommand (kind tag : Byte) (body : List Byte) (s : State) : Result :=
  .next (s.arriveFrame ⟨kind, tag, body⟩)

end Sys2Proof.Machine
end

