-- ==== Sys2Proof/Machine/Events.lean ====
section
/-! DEFINITION. The meanings of the event rows: the block's rule, and then the transmitter begins a frame if it is free
(R174). -/

namespace Sys2Proof.Machine

/-- COMMAND_FRAME_ARRIVAL: a frame completed by the site framer (R172). -/
def execCommandFrameArrival (kind tag : Byte) (body : List Byte) (s : State) : Result := .next (s.arriveFrame ⟨kind, tag, body⟩)

/-- POSE_FRAME_ARRIVAL: a frame completed by the tracker framer (R181). -/
def execPoseFrameArrival (kind tag : Byte) (body : List Byte) (s : State) : Result := .next ((s.poseFrame ⟨kind, tag, body⟩).beginFrame)

/-- FRAME_TRANSMISSION_END (R174, R176). -/
def execFrameTransmissionEnd (s : State) : Result := .next (s.transmissionEnd)

/-- POWER_ON_RESET: the straps and the HALT line as they stand (R165, R167). -/
def execPowerOnReset (cradles : CradleCount) (travel : Travel) (halt : Bool) (s : State) : Result := .next ((s.resetWith .powerOn cradles travel halt).beginFrame)

/-- HALT_ASSERT (R161). -/
def execHaltAssert (s : State) : Result := .next (s.haltAsserted.beginFrame)

/-- HALT_DEASSERT (R161). -/
def execHaltDeassert (s : State) : Result := .next (s.haltDeasserted)

/-- ARRIVE (R80). -/
def execArrive (s : State) : Result := .next (s.arrival.beginFrame)

/-- PICK_COMPLETION: GRIPPED asserted (R127 to R129). -/
def execPickCompletion (s : State) : Result := .next (s.grippedAsserted.beginFrame)

/-- GRIPPED_DEASSERT (R127). -/
def execGrippedDeassert (s : State) : Result := .next (s.grippedDeasserted.beginFrame)

/-- GRIP_TIMEOUT (R127). -/
def execGripTimeout (s : State) : Result := .next (s.gripTimeout.beginFrame)

/-- TRANSIT_EXPIRY (R78). -/
def execTransitExpiry (feedTag : Byte) (s : State) : Result := .next ((s.transitExpiry feedTag).beginFrame)

/-- TIP_COMPLETION (R85). -/
def execTipCompletion (c : CradleId) (s : State) : Result := .next (s.tipCompletion c)

/-- PUMP_COUNTER_RELOAD (R95, R96). -/
def execPumpCounterReload (s : State) : Result := .next (s.pumpReload)

/-- GRANT (R93). -/
def execGrant (s : State) : Result := .next (s.judgeGrant)

/-- OPEN_TIME_EXPIRY (R99 to R101). -/
def execOpenTimeExpiry (place : GluedPlace) (s : State) : Result := .next ((s.openTimeExpiry place).beginFrame)

/-- ABANDON_COMPLETION (R144). -/
def execAbandonCompletion (s : State) : Result := .next (s.abandonCompletion.beginFrame)

/-- PLACEMENT_TIMER_EXPIRY (R140). -/
def execPlacementTimerExpiry (s : State) : Result := .next (s.placementTimerExpiry.beginFrame)

/-- RELEASE_DWELL_END (R138). -/
def execReleaseDwellEnd (s : State) : Result := .next (s.releaseDwellEnd.beginFrame)

/-- POSE_TIMER_EXPIRY (R115 to R117). -/
def execPoseTimerExpiry (s : State) : Result := .next (s.poseTimerExpiry.beginFrame)

/-- FEED_REQUEST (R54 to R58). -/
def execFeedRequest (s : State) : Result := .next (s.feedRequest.beginFrame)

/-- PICK_DECISION (R126, R127, R158, R47). -/
def execPickDecision (s : State) : Result := .next (s.pickDecision.beginFrame)

/-- RECEIVE_FRAMER_BYTE (R171). -/
def execReceiveFramerByte (link : Link) (byte : Byte) (s : State) : Result := .next (s.receiveByte link byte)

end Sys2Proof.Machine
end

