-- ==== Sys2Proof/Machine/Dispatch.lean ====
section
/-! DEFINITION. One arm per row of spec/opcode_table.json: each a direct call of the row's meaning. -/

namespace Sys2Proof.Machine

def exec (i : Instr) (s : State) : Host.Outcome State Fault Refusal :=
  match i with
  | .identify tag => Sys2Proof.Machine.execIdentify tag s
  | .reset tag => Sys2Proof.Machine.execReset tag s
  | .readStatus tag page => Sys2Proof.Machine.execReadStatus tag page s
  | .readBank tag bank => Sys2Proof.Machine.execReadBank tag bank s
  | .readSlot tag bank index => Sys2Proof.Machine.execReadSlot tag bank index s
  | .setDatum tag entry ox oy oz cx cy hz p => Sys2Proof.Machine.execSetDatum tag entry ox oy oz cx cy hz p s
  | .setZoneBox tag xmin xmax ymin ymax zmin zmax => Sys2Proof.Machine.execSetZoneBox tag xmin xmax ymin ymax zmin zmax s
  | .setZoneRow tag row cells => Sys2Proof.Machine.execSetZoneRow tag row cells s
  | .openBank tag bank datum walk w => Sys2Proof.Machine.execOpenBank tag bank datum walk w s
  | .loadSlots tag bank first count records => Sys2Proof.Machine.execLoadSlots tag bank first count records s
  | .closeBank tag bank => Sys2Proof.Machine.execCloseBank tag bank s
  | .discardBank tag bank => Sys2Proof.Machine.execDiscardBank tag bank s
  | .setNextBank tag bank => Sys2Proof.Machine.execSetNextBank tag bank s
  | .skipSlot tag bank index => Sys2Proof.Machine.execSkipSlot tag bank index s
  | .setPlacement tag lead window alternate count quality approach settle => Sys2Proof.Machine.execSetPlacement tag lead window alternate count quality approach settle s
  | .setFeed tag depth tolerance timeout => Sys2Proof.Machine.execSetFeed tag depth tolerance timeout s
  | .setAdhesive tag divisor pitch openTime => Sys2Proof.Machine.execSetAdhesive tag divisor pitch openTime s
  | .setSupplyMark tag threshold scope sense => Sys2Proof.Machine.execSetSupplyMark tag threshold scope sense s
  | .setWatch tag conditions => Sys2Proof.Machine.execSetWatch tag conditions s
  | .clearWatch tag conditions => Sys2Proof.Machine.execClearWatch tag conditions s
  | .setNotices tag enables => Sys2Proof.Machine.execSetNotices tag enables s
  | .brickLoaded tag feedTag measured => Sys2Proof.Machine.execBrickLoaded tag feedTag measured s
  | .endCourse tag => Sys2Proof.Machine.execEndCourse tag s
  | .purge tag => Sys2Proof.Machine.execPurge tag s
  | .abandon tag => Sys2Proof.Machine.execAbandon tag s
  | .start tag => Sys2Proof.Machine.execStart tag s
  | .pause tag => Sys2Proof.Machine.execPause tag s
  | .resume tag => Sys2Proof.Machine.execResume tag s
  | .stow tag => Sys2Proof.Machine.execStow tag s
  | .enterSetup tag => Sys2Proof.Machine.execEnterSetup tag s
  | .clearFault tag => Sys2Proof.Machine.execClearFault tag s
  | .unknownCommand kind tag body => Sys2Proof.Machine.execUnknownCommand kind tag body s
  | .commandFrameArrival kind tag body => Sys2Proof.Machine.execCommandFrameArrival kind tag body s
  | .poseFrameArrival kind tag body => Sys2Proof.Machine.execPoseFrameArrival kind tag body s
  | .frameTransmissionEnd => Sys2Proof.Machine.execFrameTransmissionEnd s
  | .powerOnReset cradles travel halt => Sys2Proof.Machine.execPowerOnReset cradles travel halt s
  | .haltAssert => Sys2Proof.Machine.execHaltAssert s
  | .haltDeassert => Sys2Proof.Machine.execHaltDeassert s
  | .arrive => Sys2Proof.Machine.execArrive s
  | .pickCompletion => Sys2Proof.Machine.execPickCompletion s
  | .grippedDeassert => Sys2Proof.Machine.execGrippedDeassert s
  | .gripTimeout => Sys2Proof.Machine.execGripTimeout s
  | .transitExpiry feedTag => Sys2Proof.Machine.execTransitExpiry feedTag s
  | .tipCompletion c => Sys2Proof.Machine.execTipCompletion c s
  | .pumpCounterReload => Sys2Proof.Machine.execPumpCounterReload s
  | .grant => Sys2Proof.Machine.execGrant s
  | .openTimeExpiry place => Sys2Proof.Machine.execOpenTimeExpiry place s
  | .abandonCompletion => Sys2Proof.Machine.execAbandonCompletion s
  | .placementTimerExpiry => Sys2Proof.Machine.execPlacementTimerExpiry s
  | .releaseDwellEnd => Sys2Proof.Machine.execReleaseDwellEnd s
  | .poseTimerExpiry => Sys2Proof.Machine.execPoseTimerExpiry s
  | .feedRequest => Sys2Proof.Machine.execFeedRequest s
  | .pickDecision => Sys2Proof.Machine.execPickDecision s
  | .receiveFramerByte link byte => Sys2Proof.Machine.execReceiveFramerByte link byte s

end Sys2Proof.Machine
end

