-- ==== Sys2Proof/Machine/Step.lean ====
section
/-! DEFINITION. One step: the front of the queue, or, with nothing waiting, an event of the part's own that stands due, or a
tick of the 10 µs timebase (assumptions 2 and 3). -/

namespace Sys2Proof.Machine

/-- A time has come. -/
def State.reached (s : State) (due : Time) : Bool := due ≤ s.clock.now

/-- An optional time has come. -/
def State.reachedSome (s : State) (due : Option Time) : Bool := due.any s.reached

/-- An event where it stands due. -/
def dueEvent (due : Bool) (i : Instr) : List Instr := if due then [i] else []

/-- The expiry of the step timer that has come (R124). -/
def State.dueStepTimer (s : State) : List Instr :=
  match s.place.stepTimer with
  | .stopped => []
  | .grip due => dueEvent (s.reached due) .gripTimeout
  | .release due => dueEvent (s.reached due) .releaseDwellEnd
  | .abandon due => dueEvent (s.reached due) .abandonCompletion

/-- The events of a cradle that have come: the end of a tip (R85), an open-time expiry (R99). -/
def State.dueInCradle (s : State) (c : CradleId) : List Instr :=
  match s.cradle c with
  | .tipping _ done => dueEvent (s.reached done) (.tipCompletion c)
  | .ready _ deadline => dueEvent (s.reachedSome deadline) (.openTimeExpiry (.cradle c))
  | .empty => []
  | .held _ => []
  | .gluing _ => []

/-- The transit deadlines that have come (R78). -/
def State.dueInTransit (s : State) : List Instr :=
  (s.train.entries.filter fun e => s.reachedSome e.deadline).map fun e => .transitExpiry e.brick.tag

/-- The deadlines and timers that stop in FAULTED (R145, R163). -/
def State.dueOutsideFaulted (s : State) : List Instr :=
  if s.faulted then []
  else
    s.dueInTransit ++ s.dueInCradle .cradle0 ++ s.dueInCradle .cradle1 ++
      dueEvent (s.reachedSome (s.place.gripper.bind GripperBrick.deadline)) (.openTimeExpiry .gripper) ++
      dueEvent (s.reachedSome s.place.timer) .placementTimerExpiry ++ s.dueStepTimer

/-- Every event of the part's own that stands due: timers, the pump counter, and the events that blocks make whenever their
conditions hold (R54, R93, R126). -/
def State.ownEvents (s : State) : List Instr :=
  dueEvent (s.reachedSome s.pose.timer) .poseTimerExpiry ++
    dueEvent (s.pumpRuns && pumpTop ≤ s.adhesive.counter) .pumpCounterReload ++ s.dueOutsideFaulted ++
    dueEvent s.grantDue .grant ++ dueEvent s.feedRequestDue .feedRequest ++ dueEvent s.pickDue .pickDecision

/-- A tick of the timebase: 10 µs pass. -/
def State.tick (s : State) : State := s.runTo (s.clock.now + 1)

/-- The state with one free choice drawn. -/
def State.drawChoice (s : State) : State := { s with clock := { s.clock with choices := s.clock.choices + 1 } }

/-- With nothing waiting: the one own event due; a free choice among several; a tick where none is due. -/
def State.idle (s : State) : Host.Outcome State Fault Refusal :=
  match s.ownEvents with
  | [] => .next s.tick
  | [i] => exec i s
  | i :: j :: rest =>
    exec (((i :: j :: rest)[Config.freeChoice s.clock.choices % (rest.length + 2)]?).getD i) s.drawChoice

/-- One step of the machine. -/
def step (s : State) : Host.Outcome State Fault Refusal :=
  match s.pending with
  | i :: rest => exec i { s with pending := rest }
  | [] => s.idle

/-- The command a table word spells, put at the front of the queue; nothing where the word spells none. -/
def State.withFetchWord (s : State) (nbits w : Nat) : State :=
  match decodeTableWord nbits w with
  | some i => { s with pending := i :: s.pending }
  | none => s

end Sys2Proof.Machine
end

