-- ==== Sys2Proof/Safety.lean ====
section
/-! DEFINITION. The invariants of the machine and the conditions the statements are made under. -/

namespace Sys2Proof.Machine

/-! ## Conditions of the link -/

/-- Nothing waits on the site link: no command, no reply, no RESET pending, and a free transmitter has no notice to send. A
command row is then taken at once (R173). -/
def State.linkIdle (s : State) : Prop :=
  s.link.commands = [] ∧ s.link.replies = [] ∧ s.link.resetPending = false ∧
    (s.link.sending = none → s.link.notices = [])

/-- The state after a reply with these contents has been made and, the transmitter being free, begun (R174). -/
def State.replied (s : State) (kind tag : Byte) (code : ResultCode) (fields : List Field) : State :=
  (s.appendReply kind tag ⟨code, fields⟩).beginFrame

/-! ## What a run of notices leaves, and which of them the plan and the walk bring -/

/-- The link after some notices have been raised, one after the other (R177). -/
def State.raisedLink (s : State) (ns : List Notice) : LinkInterface := (ns.foldl State.raise s).link

/-- The notices that changes of the plan and moves of the walk bring: SUPPLY, BANK NEEDED, BANK SPENT (R14, R59, R70). -/
def Notice.ofPlan : Notice → Bool
  | .supply _ _ => true
  | .bankNeeded _ => true
  | .bankSpent _ _ _ _ => true
  | _ => false

/-- The BANK SPENT notice of a bank, with its three counts (R14). -/
def State.spentNotice (s : State) (b : BankId) : Notice :=
  .bankSpent b ((s.bank b).count SlotStatus.isLaid) ((s.bank b).count SlotStatus.isSkipped)
    ((s.bank b).count SlotStatus.isRefused)

/-- Some notices are of the plan and the walk, and BANK SPENT is among them for every bank that has become SPENT. -/
def State.planNotices (s t : State) (ns : List Notice) : Prop :=
  (∀ n ∈ ns, n.ofPlan = true) ∧
    ∀ b, (s.bank b).state = .active → (t.bank b).state = .spent → t.spentNotice b ∈ ns

/-! ## Which brick, which event, which course the spec means (R51, R54, R126) -/

/-- The live brick is held in that place: a train entry, a cradle in use, or the gripper. -/
def State.heldLive (s : State) (x : Brick × BrickPlace) : Prop :=
  x.1.mark = none ∧
  match x.2 with
  | .train => ∃ e ∈ s.train.entries, e.brick = x.1
  | .cradle c => c ∈ s.cradlesInUse ∧ ∃ cb, (s.cradle c).brick? = some cb ∧ cb.brick = x.1
  | .gripper => ∃ g, s.place.gripper = some g ∧ g.brick = x.1

/-- The oldest live brick: the one whose train entry was made first (R51). -/
def State.isOldest (s : State) (x : Brick × BrickPlace) : Prop :=
  s.heldLive x ∧ ∀ y, s.heldLive y → y ≠ x → x.1.serial < y.1.serial

/-- The three conditions of a pick decision (R126): LAYING, IDLE, and the oldest live brick in a cradle in READY. -/
def State.mayPick (s : State) (b : Brick) (c : CradleId) : Prop :=
  s.mode.mode = .laying ∧ s.place.state = .idle ∧ s.isOldest (b, .cradle c) ∧ ∃ cb due, s.cradle c = .ready cb due

/-- The four conditions of a feed request (R54). -/
def State.mayFeed (s : State) : Prop :=
  s.mode.mode = .laying ∧ s.feedState = .feeding ∧ s.train.entries.length < s.feed.depth ∧
    (∀ e ∈ s.train.entries, e.brick.tag ≠ s.feed.nextTag) ∧
    (∀ c ∈ s.cradlesInUse, ∀ cb, (s.cradle c).brick? = some cb → cb.brick.tag ≠ s.feed.nextTag) ∧
    ∀ g, s.place.gripper = some g → g.brick.tag ≠ s.feed.nextTag

/-- The lay course (R51): of the oldest live brick, or, with no live brick, of the slot at the cursor point. -/
def State.isLayCourse (s : State) (b : BankId) (course : Nat) : Prop :=
  (∃ x sl, s.isOldest x ∧ x.1.bank = b ∧ s.slot? b x.1.slot = some sl ∧ sl.course = course) ∨
  (∀ x, ¬ s.heldLive x) ∧ s.feed.pointer = b ∧ ((s.bank b).state = .ready ∨ (s.bank b).state = .active) ∧
    ∃ i sl, (s.bank b).walkOrder[s.feed.cursor]? = some i ∧ s.slot? b i = some sl ∧ sl.course = course

/-- There is no lay course (R51): no live brick, and no slot at the cursor point of a READY or ACTIVE feed bank. -/
def State.lacksLayCourse (s : State) : Prop :=
  (∀ x, ¬ s.heldLive x) ∧ (((s.bank s.feed.pointer).state = .ready ∨ (s.bank s.feed.pointer).state = .active) →
    (s.bank s.feed.pointer).walkOrder[s.feed.cursor]? = none)

/-! ## Slots kept -/

/-- With this slot skipped the ACTIVE bank holds nothing to be laid, and is off the feed or past its walk: it becomes SPENT
(R14). -/
def State.lastOpen (s : State) (b : BankId) (i : Nat) : Prop :=
  (s.bank b).state = .active ∧ (∀ j sl, j ≠ i → s.slot? b j = some sl → sl.status ≠ .pending ∧ sl.status ≠ .fed) ∧
    (b ≠ s.feed.pointer ∨ (s.bank b).slots.length ≤ s.feed.cursor)

/-- Every slot of every bank is as it was. -/
def State.slotsKept (s t : State) : Prop := ∀ b i, t.slot? b i = s.slot? b i

/-- Every slot but one is as it was. -/
def State.slotsKeptBut (s t : State) (b : BankId) (i : Nat) : Prop :=
  ∀ c j, (c ≠ b ∨ j ≠ i) → t.slot? c j = s.slot? c j

/-! ## Where returns to PENDING leave pointer and cursor (R61, R62) -/

/-- The pointer and the cursor placed. -/
def State.cursorAt (s : State) (b : BankId) (p : Nat) : State :=
  { s with feed := { s.feed with pointer := b, cursor := p } }

/-- Where the return of some slots to PENDING leaves pointer and cursor (R61, R62): as they were where none of the slots lies
before the cursor point, and otherwise on the one of them that no other precedes in lay order. A move of the pointer clears the
bank-needed flag. -/
def State.returnedTo (s t : State) (returned : BankId → Nat → Prop) : Prop :=
  ((∀ b i p, returned b i → (s.bank b).walkPosition i = some p → s.beforeCursor b p = false) →
    t.feed.pointer = s.feed.pointer ∧ t.feed.cursor = s.feed.cursor) ∧
  (∀ b i p, returned b i → (s.bank b).walkPosition i = some p → s.beforeCursor b p = true →
    (∀ c j q, returned c j → (s.bank c).walkPosition j = some q → (s.cursorAt b p).beforeCursor c q = false) →
    t.feed.pointer = b ∧ t.feed.cursor = p) ∧
  t.feed.bankNeeded = if t.feed.pointer = s.feed.pointer then s.feed.bankNeeded else false

/-! ## What a reset leaves, what the entry to FAULTED leaves, what a flush leaves -/

/-- The values every block has after either reset (R23, R38, R49, R72, R90, R104, R122, R148, R168), the HALT level and the
straps as they stand. -/
def State.holdsResetValues (u : State) (cause : ResetCause) (cradles : CradleCount) (travel : Travel) (halt : Bool) :
    Prop :=
  u.plan = { bank0 := ⟨.empty, none, [], 0⟩, bank1 := ⟨.empty, none, [], 0⟩, order := [] } ∧
  u.datum.entries = Vector.replicate 4 none ∧
  u.zone.box = none ∧ u.zone.cells = Vector.replicate 64 0#64 ∧
  u.feed = { pointer := .bank0, cursor := 0, depth := 6, tolerance := 20, nextTag := 0, bankNeeded := false
             mark := { threshold := none, scope := .bank, sense := .atOrBelow }, condition := false
             lastCount := none } ∧
  u.feedState = .waiting ∧
  u.train.entries = [] ∧ u.train.timeout = 30 ∧
  u.cradles = { cradle0 := .empty, cradle1 := .empty, hold := halt } ∧
  u.adhesive.owner = none ∧ u.adhesive.operation = none ∧ u.adhesive.pump = false ∧ u.adhesive.divisor = 3596 ∧
  u.adhesive.pitch = 50 ∧ u.adhesive.openTime = 240 ∧
  u.pose = { state := .none, last := none, previous := none, velocity := ⟨0, 0, 0⟩, synthesized := 0, realRun := 0
             timer := none } ∧
  u.comp = { settings := ⟨2, 5, 10, 4, 2, 30, 2000⟩, latched := none, setpoints := ⟨0, 0, 0, 0⟩
             lastStep := ⟨0, 0, 0⟩, saturation := ⟨false, false, false, false⟩, counter := 0, releaseSeq := none } ∧
  u.place.state = .idle ∧ u.place.gripper = none ∧ u.place.pickCradle = none ∧ u.place.timer = none ∧
  u.place.stepTimer = .stopped ∧ u.place.hasSettled = false ∧ u.place.abandonReason = none ∧
  u.place.quarterTurn = .deg0 ∧ u.place.grip = false ∧ u.place.holdPaused = false ∧ u.place.holdPose = true ∧
  u.mode = { mode := if halt then .faulted else .setup
             fault := if halt then some { primary := .halt, further := 0, modeAtFault := .setup } else none
             watchEnables := 0, watchStatus := 0, watchStopped := none, rejectSeen := false, bankSwitch0 := false
             bankSwitch1 := false, halt := halt, cradleCount := cradles, travel := travel, resetCause := cause }

/-- The link after a reset: READY is the first frame sent, and under HALT the MODE and FAULT notices follow (R167, R187). -/
def State.announcesReset (u : State) (cause : ResetCause) (cradles : CradleCount) (travel : Travel) (halt : Bool) : Prop :=
  u.link = { siteFramer := ⟨[]⟩, trackerFramer := ⟨[]⟩, commands := [], replies := []
             notices := if halt then [.mode .faulted .setup .fault, .fault .halt .halt 0] else []
             resetPending := false, enables := BitVec.allOnes 14, dropped := false
             sending := some (.notice (.ready cause cradles travel .setup)) }

/-- The cradle after the stop of a running glue operation (R98): the live brick of the pump owner is marked SPOILED. -/
def State.glueStopped (s : State) (c : CradleId) : Cradle :=
  match s.cradle c with
  | .gluing b => if s.adhesive.owner = some c ∧ b.brick.live then .gluing (b.marked .spoiled) else .gluing b
  | other => other

/-- The live brick that the pump owner glues: the entry to FAULTED spoils it (R98). -/
def State.gluedLive (s : State) (b : CradleBrick) : Prop :=
  ∃ c, s.adhesive.owner = some c ∧ s.cradle c = .gluing b ∧ b.brick.mark = none

/-- The notices at the entry to FAULTED (R98, R150, R162, R177): MODE, FAULT, and for a live brick that was being glued REJECTED
with SPOILED and what the return of its slot brings. -/
def State.announcesFault (s t : State) (c : FaultCause) : Prop :=
  (∀ b, s.gluedLive b → ∃ plan, s.planNotices t plan ∧
    t.link = s.raisedLink (.mode .faulted s.mode.mode .fault :: .fault c c 0 ::
      .rejected b.brick.tag b.brick.bank b.brick.slot .spoiled :: plan)) ∧
  ((∀ b, ¬ s.gluedLive b) → t.link = s.raisedLink [.mode .faulted s.mode.mode .fault, .fault c c 0])

/-- What the entry to FAULTED makes of the plan and the walk (R17, R61, R98): the FED slot of a live brick that was being glued has
one more reject and is PENDING, with its cursor return and no rollback (assumption 21), or REFUSED (REPEATED); every other slot
stays, and with no such brick the whole of both blocks. -/
def State.spoilsGlued (s t : State) : Prop :=
  (∀ b, s.gluedLive b → s.slotsKeptBut t b.brick.bank b.brick.slot ∧
    ∀ sl, s.slot? b.brick.bank b.brick.slot = some sl →
      (sl.status = .fed →
        t.slot? b.brick.bank b.brick.slot = some { sl with
          rejectCount := sl.rejectCount + 1
          status := if sl.rejectCount + 1 < 3 then .pending else .refused .repeated } ∧
        (sl.rejectCount + 1 < 3 → s.returnedTo t fun c i => c = b.brick.bank ∧ i = b.brick.slot)) ∧
      (sl.status ≠ .fed → t.plan = s.plan ∧ t.feed = s.feed)) ∧
  ((∀ b, ¬ s.gluedLive b) → t.plan = s.plan ∧ t.feed = s.feed)

/-- The entry to FAULTED for a cause (R145, R162, R163): the record, CONVEYOR HOLD, PUMP and the timers; what stays as it
was. -/
def State.entersFaulted (s t : State) (c : FaultCause) : Prop :=
  t.mode.mode = .faulted ∧ t.mode.fault = some { primary := c, further := 0, modeAtFault := s.mode.mode } ∧
  t.cradles.hold = true ∧ (∀ c, t.cradle c = s.glueStopped c) ∧
  t.adhesive = { s.adhesive with pump := false } ∧
  t.place = { s.place with holdPaused := false, timer := none, stepTimer := .stopped } ∧
  t.clock = { s.clock with stoppedAt := some s.clock.now } ∧
  t.comp = s.comp ∧ t.pose = s.pose ∧ t.train = s.train ∧ t.datum = s.datum ∧ t.zone = s.zone ∧ t.pending = s.pending ∧
  t.mode.watchEnables = s.mode.watchEnables ∧ t.mode.watchStatus = s.mode.watchStatus ∧ t.mode.halt = s.mode.halt ∧
  t.mode.cradleCount = s.mode.cradleCount ∧ t.mode.travel = s.mode.travel ∧ t.mode.resetCause = s.mode.resetCause ∧
  s.spoilsGlued t ∧ s.announcesFault t c

/-- What a flush makes of a slot (R36). -/
def Slot.flushed (sl : Slot) : Slot :=
  match sl.status with
  | .pending => { sl with target := none }
  | .refused .zone => { sl with status := .pending, target := none }
  | .refused .repeated => sl
  | .fed => sl
  | .laid _ => sl
  | .skipped => sl

/-- A flush removes a cached target: of a PENDING slot that holds one, and of a REFUSED (ZONE) slot (R36). -/
def Slot.flushRemoves (sl : Slot) : Bool :=
  match sl.status with
  | .pending => sl.target.isSome
  | .refused .zone => true
  | .refused .repeated => false
  | .fed => false
  | .laid _ => false
  | .skipped => false

/-- A flush returns a REFUSED (ZONE) slot to PENDING (R36). -/
def Slot.flushReturns (sl : Slot) : Bool := decide (sl.status = .refused .zone)

/-- The number of slots of a bank that meet a condition, 0 for a bank left out: what a flush counts there (R37). -/
def State.countIn (s : State) (b : BankId) (flushed : Bool) (p : Slot → Bool) : Nat :=
  if flushed then (s.bank b).slots.countP p else 0

/-- A move of pointer or cursor leaves behind an ACTIVE bank that holds no PENDING and no FED slot (R14). -/
def State.leavesBehind (s t : State) (b : BankId) : Prop :=
  (t.feed.pointer ≠ s.feed.pointer ∨ t.feed.cursor ≠ s.feed.cursor) ∧ t.feed.pointer = b.other ∧
    (s.bank b).state = .active ∧ (t.bank b).count SlotStatus.isOpen = 0

/-- What the flush of the banks that meet a condition and the report of its move leave (R36, R37): their slots flushed, every
other slot as it was, pointer and cursor where the returns leave them (R62), and the numbers of the cached targets removed and of
the slots returned. Every bank's state and the active order list stay (R36), but that the report of the move makes a bank which it
leaves behind with nothing to be laid SPENT (R14, R52, assumption 34). -/
def State.flushedBy (s t : State) (p : BankId → Bool) (removed returned : Nat) : Prop :=
  (∀ (b : BankId) (i : Nat) (sl : Slot), s.slot? b i = some sl → t.slot? b i = some (if p b then sl.flushed else sl)) ∧
  (∀ b, (s.leavesBehind t b → (t.bank b).state = .spent ∧ t.plan.order = s.plan.order.erase b) ∧
    (¬ s.leavesBehind t b → (t.bank b).state = (s.bank b).state)) ∧
  ((∀ b, ¬ s.leavesBehind t b) → t.plan.order = s.plan.order) ∧
  s.returnedTo t (fun b i => p b = true ∧ ∃ sl, s.slot? b i = some sl ∧ sl.status = .refused .zone) ∧
  (∃ plan, s.planNotices t plan ∧ t.link = s.raisedLink plan) ∧
  removed = s.countIn .bank0 (p .bank0) Slot.flushRemoves + s.countIn .bank1 (p .bank1) Slot.flushRemoves ∧
  returned = s.countIn .bank0 (p .bank0) Slot.flushReturns + s.countIn .bank1 (p .bank1) Slot.flushReturns

/-- An ACTIVE bank with no slot still to be laid: where the pointer does not name it, the next move spends it (R14). -/
def State.awaitsSpent (s : State) (b : BankId) : Bool :=
  decide ((s.bank b).state = .active) && decide ((s.bank b).count SlotStatus.isOpen = 0)

/-! ## How the pages of READ STATUS show an item (R179, R184) -/

/-- A level or a flag: a byte, 1 when asserted or set (assumption 14). -/
def shownFlag (b : Bool) : Field := ⟨1, if b then 1 else 0⟩

/-- A byte that may be absent: the presence byte, then the byte, 0 when absent. -/
def shownByte : Option Nat → List Field
  | some n => [⟨1, 1⟩, ⟨1, n⟩]
  | none => [⟨1, 0⟩, ⟨1, 0⟩]

/-- A time left: in 0.1 s of 10,000 ticks, rounded up, with 0xFFFF for none; in FAULTED as it stood at the stop. -/
def State.shownTime (s : State) : Option Time → Field
  | some due => ⟨2, ((due - s.clock.stoppedAt.getD s.clock.now + 9999) / 10000 : Nat)⟩
  | none => ⟨2, 0xFFFF⟩

/-- A sample that may be absent: sequence, tip, heading, quality and origin. -/
def shownSample : Option Sample → List Field
  | some p => [⟨1, 1⟩, ⟨2, p.sequence.toNat⟩, ⟨4, p.tip.x⟩, ⟨4, p.tip.y⟩, ⟨4, p.tip.z⟩, ⟨2, p.hc⟩, ⟨2, p.hs⟩,
      ⟨1, p.quality⟩, ⟨1, p.origin.code⟩]
  | none => [⟨1, 0⟩, ⟨2, 0⟩, ⟨4, 0⟩, ⟨4, 0⟩, ⟨4, 0⟩, ⟨2, 0⟩, ⟨2, 0⟩, ⟨1, 0⟩, ⟨1, 0⟩]

/-- The seven placement settings: lead, window, alternate window, count, quality, approach timeout, settle timeout. -/
def shownSettings (p : PlacementSettings) : List Field :=
  [⟨1, p.lead⟩, ⟨1, p.window⟩, ⟨1, p.alternate⟩, ⟨1, p.count⟩, ⟨1, p.quality⟩, ⟨1, p.approach⟩, ⟨2, p.settle⟩]

/-! ## What a withdrawal leaves -/

/-- The brick with a reject mark. -/
def CradleBrick.withMark (b : CradleBrick) (r : RejectReason) : CradleBrick :=
  { b with brick := { b.brick with mark := some r } }

/-- What the withdrawal of a live brick leaves of its record, by the place that holds it: a REQUESTED entry cancelled, one IN
TRANSIT marked (R79); a cradle brick marked and tipped, or marked in GLUING and in the pick cradle (R84); the gripper's
brick ABANDONING (R142). -/
def State.withdrawn (s t : State) (x : Brick × BrickPlace) (r : RejectReason) : Prop :=
  match x.2 with
  | .train => ∀ e ∈ s.train.entries, e.brick = x.1 →
      (e.state = .requested → ∀ y ∈ t.train.entries, y.brick.serial ≠ x.1.serial) ∧
      (e.state = .inTransit → { e with brick := { e.brick with mark := some r } } ∈ t.train.entries)
  | .cradle c =>
      (∀ b, s.cradle c = .held b → t.cradle c = .tipping (b.withMark r) (s.clock.now + 40000)) ∧
      (∀ b, s.cradle c = .gluing b → t.cradle c = .gluing (b.withMark r)) ∧
      (∀ b d, s.cradle c = .ready b d → s.place.pickCradle ≠ some c →
        t.cradle c = .tipping (b.withMark r) (s.clock.now + 40000)) ∧
      (∀ b d, s.cradle c = .ready b d → s.place.pickCradle = some c → t.cradle c = .ready (b.withMark r) none)
  | .gripper => ∀ g, s.place.gripper = some g →
      t.place = { s.place with
        gripper := some { g with brick := { g.brick with mark := some r }, deadline := none }
        abandonReason := some r, timer := none, state := .abandoning
        stepTimer := .abandon (s.clock.now + 150000) } ∧
      t.comp = { s.comp with setpoints := ⟨0, 0, 0, 0⟩ }

/-! ## What follows a brick-specific reject (R63, R64) -/

/-- The live bricks of the train and the cradles that are younger than a brick, in train order: those its rollback rejects
(R64). -/
def State.younger (s : State) (b : Brick) : List (Brick × BrickPlace) :=
  s.liveBricks.filter fun x => decide (b.serial < x.1.serial) && decide (x.2 ≠ .gripper)

/-- Whether a withdrawal of a brick raises REJECTED in the same event: in the train and in a cradle (R79, R84), the pick cradle
apart, whose brick is rejected when its abandonment ends (R129, R144). -/
def State.rejectedAtOnce (s : State) (x : Brick × BrickPlace) : Bool :=
  match x.2 with
  | .train => true
  | .cradle c =>
    (match s.cradle c with
      | .ready _ _ => decide (s.place.pickCradle ≠ some c)
      | _ => true)
  | .gripper => false

/-- What the rollback to the slot of a rejected brick leaves (R62, R64): every younger live brick of the train and the cradles
withdrawn with its FED slot PENDING, every older live brick as it was, and, where the slot lies before the cursor point and the
younger bricks' slots lie behind it in lay order, pointer and cursor on the slot. -/
def State.rolledBack (s t : State) (b : Brick) : Prop :=
  (∀ x ∈ s.younger b, s.withdrawn t x .rollback ∧
    ∀ y, (x.1.bank ≠ b.bank ∨ x.1.slot ≠ b.slot) → s.slot? x.1.bank x.1.slot = some y → y.status = .fed →
      t.slot? x.1.bank x.1.slot = some { y with status := .pending }) ∧
  (∀ x ∈ s.liveBricks, x.1.serial < b.serial → x ∈ t.liveBricks) ∧
  ∀ p, (s.bank b.bank).walkPosition b.slot = some p → s.beforeCursor b.bank p = true → (s.bank b.bank).state = .active →
    s.plan.order ∈ [[b.bank], [b.bank, b.bank.other], [b.bank.other, b.bank]] →
    (∀ x ∈ s.liveBricks, b.serial < x.1.serial →
      x.1.bank = b.bank ∧ (∃ q, (s.bank b.bank).walkPosition x.1.slot = some q ∧ p < q) ∨
      x.1.bank = b.bank.other ∧ s.plan.order.head? = some b.bank) →
    t.feed.pointer = b.bank ∧ t.feed.cursor = p

/-- What follows a brick-specific reject outside FAULTED that brings its slot to a reject count (R17, R63, R64): below 3 the slot
is PENDING and the rollback is made; at 3 it is REFUSED (REPEATED) and every other live brick stays. The notices: the ones
given, then a REJECTED with ROLLBACK for each younger brick, in train order, among those of the plan and the walk. -/
def State.followsReject (s t : State) (b : Brick) (count : Nat) (first : List Notice) : Prop :=
  (count < 3 → s.rolledBack t b) ∧
  (3 ≤ count → ∀ x ∈ s.liveBricks, x.1.serial ≠ b.serial → x ∈ t.liveBricks) ∧
  ∃ rest, t.link = s.raisedLink (first ++ rest) ∧
    (rest.filter fun n => !n.ofPlan) =
      if count < 3 then
        ((s.younger b).filter s.rejectedAtOnce).map fun x => .rejected x.1.tag x.1.bank x.1.slot .rollback
      else []

/-! ## Where a walk end leaves pointer, cursor and feed state (R58, R59) -/

/-- What the walk-end step leaves in LAYING where the feed bank b still holds a PENDING or FED slot, by the state of the other bank
and the head of the active order list; c is the cursor past the last walk position. -/
def State.walkEndsBy (t : State) (b : BankId) (c : Nat) (other : BankState) (head : Option BankId) : Prop :=
  (other = .ready → t.feed.pointer = b.other ∧ t.feed.cursor = 0 ∧ (t.bank b.other).state = .ready ∧
    t.feedState = .feeding ∧ t.feed.bankNeeded = false) ∧
  (other = .active → head = some b.other → t.feed.pointer = b ∧ t.feed.cursor = c ∧ t.feedState = .ended) ∧
  (other = .active → head ≠ some b.other →
    t.feed.pointer = b.other ∧ t.feed.cursor = 0 ∧ t.feed.bankNeeded = false) ∧
  (other ≠ .ready → other ≠ .active →
    t.feed.pointer = b.other ∧ t.feed.cursor = 0 ∧ t.feedState = .waiting ∧ t.feed.bankNeeded = true)

/-! ## Samples handed on, and where they steer the fine axes (R109, R111, R112, R119, R120, R131 to R133) -/

/-- A real sample that the Pose Filter hands on, with its velocity and whether it is a restart: the first one in NONE, a step or
restart sample in TRACKING or COASTING, and in RECOVERING the step of distance 1 that completes the run of eight. -/
def State.handsOn (s : State) (p : Sample) (v : Vec3) (restart : Bool) : Prop :=
  p.passesScreening = true ∧
  (s.pose.state = .none ∧ v = ⟨0, 0, 0⟩ ∧ restart = true ∨
    (s.pose.state = .tracking ∨ s.pose.state = .coasting) ∧
      (∃ last d, s.pose.last = some last ∧ d = (p.sequence - last.sequence).toNat ∧ 1 ≤ d ∧ d < 1024 ∧
        v = (if d ≤ 8 then velocityOver p.tip last.tip d else ⟨0, 0, 0⟩) ∧ restart = decide (8 < d)) ∨
    s.pose.state = .recovering ∧
      (∃ last, s.pose.last = some last ∧ (p.sequence - last.sequence).toNat = 1 ∧ 7 ≤ s.pose.realRun ∧
        v = velocityOver p.tip last.tip 1 ∧ restart = false))

/-- The setpoints, the last step and the saturation flags of a compensated sample with tip, velocity and heading (R131 to
R133). -/
def State.steeredTo (s t : State) (target : Vec3) (da : DatumEntry) (l : PlacementSettings) (tip v : Vec3) (hc hs : Int) :
    Prop :=
  ∃ (e : Vec3) (dx dy wrist tx tz : Int),
    e = ⟨target.x - (tip.x + l.lead * v.x), target.y - (tip.y + l.lead * v.y), target.z - (tip.z + l.lead * v.z)⟩ ∧
    dx = roundQ14 (e.x * hc + e.y * hs) ∧ dy = roundQ14 (-(e.x * hs) + e.y * hc) ∧
    wrist = -roundQ14 (hs * da.cx - hc * da.cy) ∧
    tx = (if s.mode.travel = .short then 400 else 600) ∧ tz = (if s.mode.travel = .short then 300 else 400) ∧
    t.comp.setpoints = ⟨max (-tx) (min tx dx), max (-tx) (min tx dy), max (-tz) (min tz e.z),
      max (-1430) (min 1430 wrist)⟩ ∧
    t.comp.saturation = ⟨decide (tx < dx ∨ dx < -tx), decide (tx < dy ∨ dy < -tx), decide (tz < e.z ∨ e.z < -tz),
      decide (1430 < wrist ∨ wrist < -1430)⟩ ∧
    t.comp.lastStep = ⟨t.comp.setpoints.x - s.comp.setpoints.x, t.comp.setpoints.y - s.comp.setpoints.y,
      t.comp.setpoints.z - s.comp.setpoints.z⟩

/-- The brick in the gripper is compensated: APPROACH or SETTLING, in LAYING or PAUSED (R130). -/
def State.isSteered (s : State) : Prop :=
  (s.mode.mode = .laying ∨ s.mode.mode = .paused) ∧ (s.place.state = .approach ∨ s.place.state = .settling)

/-- What the Compensation Unit reads for the brick in the gripper (R130): its slot, the slot's target, the datum entry of its bank
and the latched parameters. -/
def State.steersBy (s : State) (g : GripperBrick) (sl : Slot) (target : Vec3) (da : DatumEntry) (l : PlacementSettings) : Prop :=
  s.place.gripper = some g ∧ s.slot? g.brick.bank g.brick.slot = some sl ∧ sl.target = some target ∧
    s.datumOf g.brick.bank = some da ∧ s.comp.latched = some l

/-! ## Invariants -/

/-- The collections of the SLI stay within their sizes (R172, R174, R177). -/
def State.linkBounded (s : State) : Prop :=
  s.link.commands.length ≤ 4 ∧ s.link.replies.length ≤ 16 ∧ s.link.notices.length ≤ 16

/-- Between events a free transmitter has nothing to send (R174), and no command waits that could be taken (R173). -/
def State.linkSettled (s : State) : Prop :=
  (s.link.sending = none → s.link.replies = [] ∧ s.link.notices = []) ∧
    (s.link.commands = [] ∨ s.link.replies ≠ [] ∨ s.link.resetPending = true)

/-- CONVEYOR HOLD is asserted exactly when no cradle in use is EMPTY or the mode is FAULTED (R86). -/
def State.conveyorHeld (s : State) : Prop := s.cradles.hold = (s.emptyCradle.isNone || s.faulted)

/-- The hold reasons are carried as the mode and the pose state give them (R141). -/
def State.holdsCarried (s : State) : Prop :=
  s.place.holdPaused = decide (s.mode.mode = PartMode.paused) ∧ s.place.holdPose = s.pose.state.carriesHold

/-- The fault record is present exactly in FAULTED (R149, R162, R164), and so is the time at which the deadlines stopped. -/
def State.faultRecorded (s : State) : Prop :=
  s.mode.fault.isSome = s.faulted ∧ s.clock.stoppedAt.isSome = s.faulted

/-- Every setpoint lies within the travel of its axis (R125, R133). -/
def State.withinTravel (s : State) : Prop :=
  s.comp.setpoints.x.natAbs ≤ (travelXY s.mode.travel).natAbs ∧ s.comp.setpoints.y.natAbs ≤ (travelXY s.mode.travel).natAbs ∧
    s.comp.setpoints.z.natAbs ≤ (travelZ s.mode.travel).natAbs ∧ s.comp.setpoints.wrist.natAbs ≤ travelWrist.natAbs

/-- The glue operation is present exactly while the pump owner is a cradle (R91). -/
def State.pumpOwned (s : State) : Prop := s.adhesive.operation.isSome = s.adhesive.owner.isSome

/-- The synthesized run count never exceeds 4, and the real run count stays below 8 (R106, R115, R119). -/
def State.runsBounded (s : State) : Prop := s.pose.synthesized ≤ 4 ∧ s.pose.realRun < 8

/-- A brick in SETTLING has entered it: the has-settled flag is set (R124, R136). -/
def State.settledMarked (s : State) : Prop := s.place.state = .settling → s.place.hasSettled = true

/-- Train order tells the train entries apart, each made once (R51, R73), and a brick in TIPPING is reject-marked (R85). -/
def State.bricksApart (s : State) : Prop :=
  (s.train.entries.map fun e => e.brick.serial).Nodup ∧
    (∀ e ∈ s.train.entries, e.brick.serial < s.train.nextSerial) ∧
    ∀ c b done, s.cradle c = .tipping b done → b.brick.mark ≠ none

/-- The invariants of the links, the holds, the faults, the setpoints, the pump, the pose runs, the has-settled flag and the
brick path together. -/
def State.Inv (s : State) : Prop :=
  s.linkBounded ∧ s.linkSettled ∧ s.conveyorHeld ∧ s.holdsCarried ∧ s.faultRecorded ∧ s.withinTravel ∧ s.pumpOwned ∧
    s.runsBounded ∧ s.settledMarked ∧ s.bricksApart

end Sys2Proof.Machine
end

