-- ==== Sys2Proof/Certificates/Slice0/Obligations.lean ====
section
/-! DEFINITION. The statements for the provers, from the numbered rules of spec/. Every statement about a command or an event
says that `exec` answers a next state, and which. -/

section

open Sys2Proof Sys2Proof.Machine

/-! ## The step and the resets -/

/-- A step takes the front of the queue and runs it on the state with the queue's rest. -/
def Obligations.StepRunsTheFrontOfTheQueue : Prop :=
  ∀ (s : State) (c : Instr) (rest : List Instr),
    step { s with pending := c :: rest } = exec c { s with pending := rest }

/-- With nothing waiting (assumptions 2 and 3): a tick of 10 µs where nothing of the part's own is due, the one event where one
is due, and one of them where several are. How the tick counts the pump counter is assumption 28's. -/
def Obligations.IdleStepTicksOrTakesADueEvent : Prop :=
  ∀ s : State, s.pending = [] →
    (s.ownEvents = [] →
      step s = .next
        { s with
          clock := { s.clock with now := s.clock.now + 1 }
          adhesive := { s.adhesive with
            counter := if s.pumpRuns then min 4096 (s.adhesive.counter + 1) else s.adhesive.counter } }) ∧
    (∀ i, s.ownEvents = [i] → step s = exec i s) ∧
    (1 < s.ownEvents.length →
      ∃ i ∈ s.ownEvents, step s = exec i { s with clock := { s.clock with choices := s.clock.choices + 1 } })

/-- R23, R38, R49, R72, R104, R122, R148, R168: what either reset leaves, HALT deasserted or asserted, straps sampled at power-on
and kept by RESET. The model's reset state is what a power-on reset makes of it, with the straps and the line of
assumption 9. -/
def Obligations.BothResetsSetTheSameValues : Prop :=
  (∀ (s : State) (k : CradleCount) (t : Travel) (h : Bool), ∃ u, exec (.powerOnReset k t h) s = .next u ∧
    u.holdsResetValues .powerOn k t h ∧ u.announcesReset .powerOn k t h ∧ u.pending = s.pending ∧
    u.clock.now = s.clock.now) ∧
  (∀ (s : State) (r : Reply), s.link.resetPending = true → s.link.sending = some (.reply r) → s.link.replies = [] →
    ∃ u, exec .frameTransmissionEnd s = .next u ∧
      u.holdsResetValues .command s.mode.cradleCount s.mode.travel s.mode.halt ∧
      u.announcesReset .command s.mode.cradleCount s.mode.travel s.mode.halt ∧ u.pending = s.pending ∧
      u.clock.now = s.clock.now) ∧
  exec (.powerOnReset .two .long false) State.reset = .next State.reset ∧ State.reset.pending = []

/-- R166: IDENTIFY. -/
def Obligations.IdentifyCarriesPartRevisionStrapsAndCause : Prop :=
  ∀ (s : State) (tag : Byte), s.linkIdle →
    exec (.identify tag) s = .next (s.replied 0x01 tag .ok
      [⟨2, 0x4C02⟩, ⟨1, 4⟩, ⟨1, if s.mode.cradleCount = .one then 1 else 2⟩, ⟨1, if s.mode.travel = .short then 0 else 1⟩,
        ⟨1, if s.mode.resetCause = .powerOn then 0 else 1⟩])

/-- R176: RESET is answered OK at its taking and a RESET is pending; while it is, an arriving command frame is discarded. -/
def Obligations.ResetIsAnsweredAndPending : Prop :=
  (∀ (s : State) (tag : Byte), s.linkIdle →
    exec (.reset tag) s = .next
      (({ s with link := { s.link with resetPending := true } } : State).replied 0x02 tag .ok [])) ∧
  (∀ (s : State) (k tag : Byte) (body : List Byte), s.link.resetPending = true → s.link.sending.isSome = true →
    exec (.commandFrameArrival k tag body) s = .next s)

/-! ## Reading back -/

/-- R179, R180: READ STATUS carries the notices-dropped flag and the page, item by item in R180's order, and clears the flag; a
page outside 0..3 is RANGE. Widths the manual does not give are assumption 13's, and codes it does not order assumption 14's; that
page 3 ends in FAULTED with the pick cradle (R145) is assumption 36's, its presence byte before latched K assumption 37's, and one presence byte before
fields that are absent together assumption 38's. -/
def Obligations.ReadStatusCopiesThePageAndClearsTheFlag : Prop :=
  ∀ (s : State) (tag page : Byte), s.linkIdle →
    (3 < page.toNat → exec (.readStatus tag page) s = .next (s.replied 0x03 tag .range [])) ∧
    (page.toNat ≤ 3 → ∃ fields : List Field,
      exec (.readStatus tag page) s = .next
        (({ s with link := { s.link with dropped := false } } : State).replied 0x03 tag .ok
          (shownFlag s.link.dropped :: fields)) ∧
      (page.toNat = 0 → ∃ (enables : BitVec 14) (held : List Field),
        (∀ n, n < 14 → enables.getLsbD n = (s.link.enables.getLsbD n || decide (n = 13))) ∧
        (∀ p i, s.feedState = .held → (s.bank s.feed.pointer).firstPending s.feed.cursor = some p →
          (s.bank s.feed.pointer).walkOrder[p]? = some i → held = [⟨1, 1⟩, ⟨1, s.feed.pointer.code⟩, ⟨1, i⟩]) ∧
        (s.feedState ≠ .held → held = [⟨1, 0⟩, ⟨1, 0⟩, ⟨1, 0⟩]) ∧
        fields = [⟨1, s.mode.mode.code⟩] ++
          (match s.mode.fault with
            | some f => [⟨1, 1⟩, ⟨1, f.primary.code⟩, ⟨1, f.further.toNat⟩, ⟨1, 1⟩, ⟨1, f.modeAtFault.code⟩]
            | none => [⟨1, 0⟩, ⟨1, 0⟩, ⟨1, 0⟩, ⟨1, 0⟩, ⟨1, 0⟩]) ++
          [shownFlag s.mode.halt, ⟨1, s.mode.watchEnables.toNat⟩, ⟨1, s.mode.watchStatus.toNat⟩] ++
          shownByte (s.mode.watchStopped.map fun tag => tag.toNat) ++
          [⟨1, if s.mode.cradleCount = .one then 1 else 2⟩, ⟨1, if s.mode.travel = .short then 0 else 1⟩,
            ⟨1, if s.mode.resetCause = .powerOn then 0 else 1⟩, ⟨2, enables.toNat⟩, ⟨1, s.link.notices.length⟩,
            shownFlag s.zone.box.isSome,
            ⟨2, (s.zone.cells.toList.map fun row => (List.range 64).countP fun c => row.getMsbD c).sum⟩,
            ⟨1, s.feedState.code⟩, ⟨1, s.feed.pointer.code⟩, ⟨1, s.feed.cursor⟩] ++ held ++
          [⟨1, s.feed.nextTag.toNat⟩, shownFlag s.feed.bankNeeded, ⟨1, s.feed.depth⟩, ⟨1, s.feed.tolerance⟩,
            ⟨1, s.train.timeout⟩, ⟨1, s.feed.mark.threshold.getD 0xFF⟩, ⟨1, s.feed.mark.scope.code⟩,
            ⟨1, s.feed.mark.sense.code⟩, shownFlag s.feed.condition] ++ shownByte s.feed.lastCount) ∧
      (page.toNat = 1 → ∃ (requested earliest : Option TrainEntry),
        requested = s.train.entries.find? (fun e => decide (e.state = .requested)) ∧
        (earliest = none → ∀ e ∈ s.train.entries, e.deadline = none) ∧
        (∀ x, earliest = some x → x ∈ s.train.entries ∧ x.deadline.isSome = true ∧
          ∀ e ∈ s.train.entries, ∀ d, e.deadline = some d → x.deadline.getD 0 ≤ d) ∧
        fields = [⟨1, s.train.entries.length⟩, ⟨1, s.train.entries.countP fun e => decide (e.state = .inTransit)⟩,
            ⟨1, s.train.entries.countP fun e => decide (e.state = .inTransit) && e.brick.mark.isSome⟩] ++
          shownByte (requested.map fun e => e.brick.tag.toNat) ++ [s.shownTime (earliest.bind TrainEntry.deadline)] ++
          s.cradlesInUse.flatMap (fun c => [⟨1, (s.cradle c).code⟩] ++
            (match (s.cradle c).brick? with
              | some b => [⟨1, 1⟩, ⟨1, b.brick.tag.toNat⟩, ⟨1, b.brick.bank.code⟩, ⟨1, b.brick.slot⟩,
                  shownFlag b.brick.mark.isSome]
              | none => [⟨1, 0⟩, ⟨1, 0⟩, ⟨1, 0⟩, ⟨1, 0⟩, ⟨1, 0⟩]) ++ [s.shownTime (s.cradle c).deadline?]) ++
          [shownFlag s.cradles.hold, ⟨1, (s.adhesive.owner.map CradleId.code).getD 2⟩] ++
          (match s.adhesive.operation with
            | some op => [⟨1, 1⟩, ⟨2, op.strokes⟩, ⟨2, op.done⟩]
            | none => [⟨1, 0⟩, ⟨2, 0⟩, ⟨2, 0⟩]) ++
          [shownFlag (s.adhesive.operation.isSome && decide (s.mode.mode = .faulted)), ⟨2, s.adhesive.divisor⟩,
            ⟨1, s.adhesive.pitch⟩, ⟨2, s.adhesive.openTime⟩, s.shownTime (s.place.gripper.bind GripperBrick.deadline)]) ∧
      (page.toNat = 2 →
        fields = [⟨1, s.pose.state.code⟩] ++ shownSample s.pose.last ++ shownSample s.pose.previous ++
          [⟨2, s.pose.velocity.x⟩, ⟨2, s.pose.velocity.y⟩, ⟨2, s.pose.velocity.z⟩, ⟨1, s.pose.synthesized⟩,
            ⟨1, s.pose.realRun⟩]) ∧
      (page.toNat = 3 →
        fields = [⟨1, s.place.state.code⟩] ++
          (match s.place.gripper with
            | some g => [⟨1, 1⟩, ⟨1, g.brick.tag.toNat⟩, ⟨1, g.brick.bank.code⟩, ⟨1, g.brick.slot⟩] ++
                shownByte (g.brick.mark.map RejectReason.code)
            | none => [⟨1, 0⟩, ⟨1, 0⟩, ⟨1, 0⟩, ⟨1, 0⟩, ⟨1, 0⟩, ⟨1, 0⟩]) ++
          [⟨1, (if s.place.holdPaused then 1 else 0) + (if s.place.holdPose then 2 else 0)⟩, shownFlag s.place.hasSettled,
            s.shownTime s.place.timer, ⟨1, s.comp.counter⟩] ++ shownByte (s.comp.latched.map PlacementSettings.count) ++
          [⟨2, s.comp.setpoints.x⟩, ⟨2, s.comp.setpoints.y⟩, ⟨2, s.comp.setpoints.z⟩, ⟨2, s.comp.setpoints.wrist⟩,
            ⟨2, s.comp.lastStep.x⟩, ⟨2, s.comp.lastStep.y⟩, ⟨2, s.comp.lastStep.z⟩, shownFlag s.comp.saturation.x,
            shownFlag s.comp.saturation.y, shownFlag s.comp.saturation.z, shownFlag s.comp.saturation.wrist] ++
          (match s.comp.releaseSeq with
            | some q => [⟨1, 1⟩, ⟨2, q.toNat⟩]
            | none => [⟨1, 0⟩, ⟨2, 0⟩]) ++
          [⟨1, s.place.quarterTurn.code⟩] ++
          (match s.comp.latched with
            | some l => ⟨1, 1⟩ :: shownSettings l
            | none => ⟨1, 0⟩ :: shownSettings ⟨0, 0, 0, 0, 0, 0, 0⟩) ++ shownSettings s.comp.settings ++
          (if s.mode.mode = .faulted then shownByte (s.place.pickCradle.map CradleId.code) else [])))

/-- R21: READ BANK; a bank number other than 0 or 1 is RANGE, and no state changes. The widths of the reply's fields are assumption
13's, the code of the place in the active order list assumption 14's. -/
def Obligations.ReadBankCarriesTheBankRecord : Prop :=
  ∀ (s : State) (tag bank : Byte), s.linkIdle →
    (1 < bank.toNat → exec (.readBank tag bank) s = .next (s.replied 0x04 tag .range [])) ∧
    (∀ b : BankId, bank.toNat = b.code → ∃ setup : List Field,
      exec (.readBank tag bank) s = .next (s.replied 0x04 tag .ok
        ([⟨1, b.code⟩, ⟨1, (s.bank b).state.code⟩] ++ setup ++
          [⟨1, (s.bank b).slots.length⟩, ⟨1, (s.bank b).refusedAtClose⟩,
            ⟨1, (s.bank b).count SlotStatus.isPending⟩, ⟨1, (s.bank b).count SlotStatus.isFed⟩,
            ⟨1, (s.bank b).count SlotStatus.isLaid⟩, ⟨1, (s.bank b).count SlotStatus.isSkipped⟩,
            ⟨1, (s.bank b).count SlotStatus.isRefused⟩, ⟨1, if s.feed.pointer = b then 1 else 0⟩,
            ⟨1, s.placeInOrder b⟩])) ∧
      (∀ su, (s.bank b).setup = some su →
        setup = [⟨1, 1⟩, ⟨1, su.datum.val⟩, ⟨1, su.walk.code⟩, ⟨2, su.width⟩]) ∧
      ((s.bank b).setup = none → setup = [⟨1, 0⟩, ⟨1, 0⟩, ⟨1, 0⟩, ⟨2, 0⟩]))

/-- R22: READ SLOT; an index at or beyond the slot count is RANGE, and no state changes. Widths the manual does not give are
assumption 13's, and one presence byte before each group of fields assumption 38's. -/
def Obligations.ReadSlotCarriesTheSlotRecord : Prop :=
  ∀ (s : State) (tag bank index : Byte), s.linkIdle →
    (1 < bank.toNat → exec (.readSlot tag bank index) s = .next (s.replied 0x05 tag .range [])) ∧
    (∀ b : BankId, bank.toNat = b.code →
      ((s.bank b).slots.length ≤ index.toNat →
        exec (.readSlot tag bank index) s = .next (s.replied 0x05 tag .range [])) ∧
      (∀ sl, (s.bank b).slots[index.toNat]? = some sl → ∃ position : List Field,
        exec (.readSlot tag bank index) s = .next (s.replied 0x05 tag .ok
          ([⟨1, b.code⟩, ⟨1, index.toNat⟩, ⟨1, (s.bank b).state.code⟩] ++
            [⟨1, sl.course⟩, ⟨1, sl.flagsCode⟩, ⟨4, sl.along⟩, ⟨2, sl.lateral.getD (-32768)⟩, ⟨2, sl.planned⟩, ⟨4, 0⟩,
              ⟨2, 0⟩] ++
            [⟨1, sl.status.code⟩] ++ sl.status.reasonFields ++ [⟨1, sl.rejectCount⟩] ++ position ++
            targetFields sl.target ++ sl.status.outcomeFields)) ∧
        ((s.bank b).state = .loading → position = [⟨1, 0⟩, ⟨1, 0⟩]) ∧
        ((s.bank b).state ≠ .loading → ∀ p, (s.bank b).walkPosition index.toNat = some p →
          position = [⟨1, 1⟩, ⟨1, p⟩])))

/-! ## Building a bank -/

/-- R6: OPEN BANK, refused and accepted. -/
def Obligations.OpenBankEmptiesAndBeginsLoading : Prop :=
  ∀ (s : State) (tag bank datum walk : Byte) (w : BitVec 16), s.linkIdle → s.mode.mode ≠ .faulted →
    ((1 < bank.toNat ∨ 3 < datum.toNat ∨ 3 < walk.toNat ∨ w.toNat < 600 ∨ 1500 < w.toNat) →
      exec (.openBank tag bank datum walk w) s = .next (s.replied 0x10 tag .range [])) ∧
    (∀ (b : BankId) (m : WalkMode) (d : Fin 4), bank.toNat = b.code → walk.toNat = m.code → datum.toNat = d.val →
      600 ≤ w.toNat → w.toNat ≤ 1500 →
      (((s.bank b).state = .loading ∨ (s.bank b).state = .ready ∨ (s.bank b).state = .active) →
        exec (.openBank tag bank datum walk w) s = .next (s.replied 0x10 tag .busy [⟨1, (s.bank b).state.code⟩])) ∧
      (((s.bank b).state = .empty ∨ (s.bank b).state = .spent) → ∃ t : State,
        exec (.openBank tag bank datum walk w) s = .next (t.replied 0x10 tag .ok []) ∧
        t.bank b = { state := .loading, setup := some { datum := d, walk := m, width := w.toNat }, slots := []
                     refusedAtClose := 0 } ∧
        t.bank b.other = s.bank b.other ∧ t.plan.order = s.plan.order ∧ t.feed.pointer = s.feed.pointer ∧
        (s.feed.pointer = b → t.feed.cursor = 0) ∧ (s.feed.pointer ≠ b → t.feed = s.feed) ∧
        t.mode = s.mode ∧ t.train = s.train ∧ t.cradles = s.cradles ∧ t.place = s.place ∧ t.pose = s.pose ∧
        t.datum = s.datum ∧ t.zone = s.zone ∧ t.comp = s.comp ∧ t.adhesive = s.adhesive))

/-- R7 and R8: LOAD SLOTS appends its records, or takes none. -/
def Obligations.LoadSlotsAppendsAllOrNone : Prop :=
  ∀ (s : State) (tag bank first count : Byte) (records : List SlotRecord) (b : BankId),
    s.linkIdle → s.mode.mode ≠ .faulted → records.length = count.toNat → bank.toNat = b.code →
    ((records.length < 1 ∨ 7 < records.length) →
      exec (.loadSlots tag bank first count records) s = .next (s.replied 0x11 tag .range [])) ∧
    (1 ≤ records.length → records.length ≤ 7 →
      ((s.bank b).state ≠ .loading →
        exec (.loadSlots tag bank first count records) s = .next (s.replied 0x11 tag .state [])) ∧
      ((s.bank b).state = .loading →
        (first.toNat ≠ (s.bank b).slots.length →
          exec (.loadSlots tag bank first count records) s =
            .next (s.replied 0x11 tag .order [⟨1, (s.bank b).slots.length⟩])) ∧
        (first.toNat = (s.bank b).slots.length →
          (96 < (s.bank b).slots.length + records.length →
            exec (.loadSlots tag bank first count records) s =
              .next (s.replied 0x11 tag .range [⟨1, (s.bank b).slots.length⟩])) ∧
          ((s.bank b).slots.length + records.length ≤ 96 →
            (∀ sls : List Slot, records.map SlotRecord.toSlot = sls.map some →
              exec (.loadSlots tag bank first count records) s = .next
                ((s.setBank b { s.bank b with slots := (s.bank b).slots ++ sls }).replied 0x11 tag .ok
                  [⟨1, (s.bank b).slots.length + records.length⟩])) ∧
            (∀ (k : Nat) (r : SlotRecord), records[k]? = some r → r.toSlot = none → (∀ j < k, ∀ q : SlotRecord, records[j]? = some q → q.toSlot ≠ none) →
              exec (.loadSlots tag bank first count records) s =
                .next (s.replied 0x11 tag .range [⟨1, first.toNat + k⟩]))))))

/-- R8: what a record must hold to become a slot, and the slot it becomes, with the kept fields of R4. -/
def Obligations.ARecordBecomesASlotWithinItsRanges : Prop :=
  ∀ r : SlotRecord,
    (r.toSlot.isSome = true ↔
      (0 ≤ r.along.toInt ∧ r.along.toInt ≤ 400000) ∧
      (r.lateral ≠ 0x8000#16 → -2000 ≤ r.lateral.toInt ∧ r.lateral.toInt ≤ 2000) ∧
      (500 ≤ r.planned.toNat ∧ r.planned.toNat ≤ 3300) ∧ r.kind ≠ 3#2 ∧ r.adhesive ≠ 3#2) ∧
    (∀ sl, r.toSlot = some sl →
      sl.course = r.course.toNat ∧ sl.along = r.along.toInt ∧ sl.planned = r.planned.toNat ∧
      sl.lateral = (if r.lateral = 0x8000#16 then none else some r.lateral.toInt) ∧
      sl.rotation.code = r.rotation.toNat ∧ sl.kind.code = r.kind.toNat ∧ sl.pattern.code = r.adhesive.toNat ∧
      sl.attention = r.attention ∧ sl.alternate = r.alternate ∧
      sl.status = .pending ∧ sl.rejectCount = 0 ∧ sl.target = none)

/-- R9 to R11, R30, R33, R45: CLOSE BANK refused, and a bank that passes the five checks of R10: READY, with every target computed
and checked. -/
def Obligations.CloseBankValidatesAndMakesReady : Prop :=
  ∀ (s : State) (tag bank : Byte) (b : BankId), s.linkIdle → s.mode.mode ≠ .faulted → bank.toNat = b.code →
    ((s.bank b).state ≠ .loading → exec (.closeBank tag bank) s = .next (s.replied 0x12 tag .state [])) ∧
    ((s.bank b).state = .loading →
      ((s.bank b).slots = [] → exec (.closeBank tag bank) s = .next (s.replied 0x12 tag .invalidPlan [⟨1, 0⟩, ⟨1, 0⟩])) ∧
      ((s.bank b).slots ≠ [] →
        (s.datumOf b = none →
          exec (.closeBank tag bank) s = .next (s.replied 0x12 tag .invalidPlan [⟨1, 1⟩, ⟨1, 0⟩])) ∧
        (∀ d, s.datumOf b = some d →
          (s.zone.box = none → exec (.closeBank tag bank) s = .next (s.replied 0x12 tag .state [])) ∧
          (∀ su : BankSetup, (s.bank b).setup = some su → s.zone.box ≠ none →
            (∀ (i : Nat) (x y : Slot), s.slot? b i = some x → s.slot? b (i + 1) = some y →
              x.course ≤ y.course ∧
              (y.course = x.course → x.along < y.along ∧
                2 * x.along + (if x.rotation = .deg0 ∨ x.rotation = .deg180 then (x.planned : Int) else su.width) ≤
                  2 * y.along - (if y.rotation = .deg0 ∨ y.rotation = .deg180 then (y.planned : Int) else su.width))) →
            ∃ t : State,
            exec (.closeBank tag bank) s = .next
              (t.replied 0x12 tag .ok [⟨1, (s.bank b).slots.length⟩, ⟨1, (t.bank b).refusedAtClose⟩]) ∧
            (t.bank b).state = .ready ∧ (t.bank b).slots.length = (s.bank b).slots.length ∧
            (t.bank b).setup = (s.bank b).setup ∧
            (t.bank b).refusedAtClose = (t.bank b).count SlotStatus.isRefused ∧
            (∀ (i : Nat) (sl : Slot), s.slot? b i = some sl → sl.status = .pending →
              t.slot? b i = some { sl with
                target := some
                  ⟨d.ox + roundQ14 (sl.along * d.cx - sl.lateral.getD 0 * d.cy),
                    d.oy + roundQ14 (sl.along * d.cy + sl.lateral.getD 0 * d.cx), d.oz + d.hz + sl.course * d.p⟩
                status := if s.zone.admits
                    ⟨d.ox + roundQ14 (sl.along * d.cx - sl.lateral.getD 0 * d.cy),
                      d.oy + roundQ14 (sl.along * d.cy + sl.lateral.getD 0 * d.cx), d.oz + d.hz + sl.course * d.p⟩
                  then .pending else .refused .zone }) ∧
            t.bank b.other = s.bank b.other ∧ t.plan.order = s.plan.order ∧ t.datum = s.datum ∧ t.zone = s.zone ∧
            t.mode = s.mode ∧ t.train = s.train ∧ t.cradles = s.cradles ∧ t.place = s.place ∧ t.pose = s.pose ∧
            t.comp = s.comp ∧ t.adhesive = s.adhesive ∧ t.feed.pointer = s.feed.pointer ∧
            t.feed.cursor = s.feed.cursor))))

/-- R10: the two checks over pairs of slots, course order over the whole bank before along order and footprint. -/
def Obligations.CloseBankComparesConsecutiveSlots : Prop :=
  ∀ (s : State) (tag bank : Byte) (b : BankId) (su : BankSetup) (d : DatumEntry), s.linkIdle → s.mode.mode ≠ .faulted →
    bank.toNat = b.code → (s.bank b).state = .loading → (s.bank b).setup = some su → s.datumOf b = some d →
    s.zone.box.isSome = true →
    (∀ (i : Nat) (x y : Slot), s.slot? b i = some x → s.slot? b (i + 1) = some y →
      ((y.course < x.course ∧ (∀ j, j < i → ∀ x' y', s.slot? b j = some x' → s.slot? b (j + 1) = some y' →
            x'.course ≤ y'.course) →
          exec (.closeBank tag bank) s = .next (s.replied 0x12 tag .invalidPlan [⟨1, 2⟩, ⟨1, i + 1⟩])) ∧
        ((∀ j x' y', s.slot? b j = some x' → s.slot? b (j + 1) = some y' → x'.course ≤ y'.course) →
          (∀ j, j < i → ∀ x' y', s.slot? b j = some x' → s.slot? b (j + 1) = some y' → pairFault su.width x' y' = none) →
          (y.course = x.course ∧ y.along ≤ x.along →
            exec (.closeBank tag bank) s = .next (s.replied 0x12 tag .invalidPlan [⟨1, 3⟩, ⟨1, i + 1⟩])) ∧
          (y.course = x.course ∧ x.along < y.along ∧
              2 * y.along - (if y.rotation = .deg0 ∨ y.rotation = .deg180 then (y.planned : Int) else su.width) <
                2 * x.along + (if x.rotation = .deg0 ∨ x.rotation = .deg180 then (x.planned : Int) else su.width) →
            exec (.closeBank tag bank) s = .next (s.replied 0x12 tag .invalidPlan [⟨1, 4⟩, ⟨1, i + 1⟩])))))

/-- R12: DISCARD BANK, refused BUSY on an ACTIVE bank, a no-op on an EMPTY one, EMPTY afterwards in every other state. -/
def Obligations.DiscardBankEmptiesTheBank : Prop :=
  ∀ (s : State) (tag bank : Byte) (b : BankId), s.linkIdle → s.mode.mode ≠ .faulted → bank.toNat = b.code →
    ((s.bank b).state = .active → exec (.discardBank tag bank) s = .next (s.replied 0x13 tag .busy [])) ∧
    ((s.bank b).state = .empty → exec (.discardBank tag bank) s = .next (s.replied 0x13 tag .ok [])) ∧
    ((s.bank b).state ≠ .active → (s.bank b).state ≠ .empty → ∃ u : State,
      u = s.setBank b ⟨.empty, none, [], 0⟩ ∧
      (¬(s.mode.mode = .laying ∧ u.feedState = .waiting ∧ s.feed.bankNeeded = false) →
        exec (.discardBank tag bank) s = .next (u.replied 0x13 tag .ok [])) ∧
      (s.mode.mode = .laying ∧ u.feedState = .waiting ∧ s.feed.bankNeeded = false →
        exec (.discardBank tag bank) s = .next
          ((({ u with feed := { u.feed with bankNeeded := true } } : State).raise
            (.bankNeeded s.feed.pointer)).replied 0x13 tag .ok [])))

/-- R14, R18, R58, R65: SKIP SLOT by the status of the slot. Pointer, cursor, bank states and the active order list stay, but that an
ACTIVE bank left with nothing to be laid, off the feed or past its walk, becomes SPENT, and an ENDED walk that waited for it goes on. -/
def Obligations.SkipSlotWithdrawsOnlyPendingSlots : Prop :=
  ∀ (s : State) (tag bank index : Byte) (b : BankId), s.linkIdle → s.mode.mode ≠ .faulted → bank.toNat = b.code →
    ((s.bank b).slots.length ≤ index.toNat →
      exec (.skipSlot tag bank index) s = .next (s.replied 0x15 tag .range [])) ∧
    (∀ sl, s.slot? b index.toNat = some sl →
      ((s.bank b).state = .loading → exec (.skipSlot tag bank index) s = .next (s.replied 0x15 tag .state [])) ∧
      ((s.bank b).state ≠ .loading →
        (sl.status = .fed → exec (.skipSlot tag bank index) s = .next (s.replied 0x15 tag .busy [])) ∧
        (sl.status ≠ .fed → sl.status ≠ .pending →
          exec (.skipSlot tag bank index) s = .next (s.replied 0x15 tag .state [])) ∧
        (sl.status = .pending → ∃ t : State, exec (.skipSlot tag bank index) s = .next (t.replied 0x15 tag .ok []) ∧
          t.slot? b index.toNat = some { sl with status := .skipped } ∧ s.slotsKeptBut t b index.toNat ∧
          (¬ s.lastOpen b index.toNat →
            t.feed.pointer = s.feed.pointer ∧ t.feed.cursor = s.feed.cursor ∧ t.feed.bankNeeded = s.feed.bankNeeded ∧
            (∀ c, (t.bank c).state = (s.bank c).state) ∧ t.plan.order = s.plan.order ∧ t.mode = s.mode) ∧
          (s.lastOpen b index.toNat → (t.bank b).state = .spent ∧
            (¬ (b ≠ s.feed.pointer ∧ s.feedState = .ended) →
              t.feed.pointer = s.feed.pointer ∧ t.feed.cursor = s.feed.cursor ∧
              (t.bank b.other).state = (s.bank b.other).state ∧ t.plan.order = s.plan.order.erase b) ∧
            (b ≠ s.feed.pointer → s.feedState = .ended →
              t.feed.pointer = b ∧ t.feed.cursor = 0 ∧ t.feedState = .waiting ∧
              (t.feed.bankNeeded = true ↔ s.mode.mode = .laying) ∧
              ((s.bank b.other).count SlotStatus.isOpen ≠ 0 →
                (t.bank b.other).state = .active ∧ t.plan.order = s.plan.order.erase b))) ∧
          (∃ plan, s.planNotices t plan ∧ t.link = s.raisedLink plan) ∧
          t.datum = s.datum ∧ t.zone = s.zone ∧ t.train = s.train ∧ t.cradles = s.cradles ∧ t.adhesive = s.adhesive ∧
          t.pose = s.pose ∧ t.comp = s.comp ∧ t.place = s.place ∧ t.mode.mode = s.mode.mode ∧
          t.clock = s.clock)))

/-! ## Datum and zone -/

/-- R25, R26, R27: SET DATUM refused and accepted; with no READY bank naming the entry nothing is flushed. -/
def Obligations.SetDatumJudgesAndWritesTheEntry : Prop :=
  ∀ (s : State) (tag entry : Byte) (ox oy oz : BitVec 32) (cx cy hz p : BitVec 16), s.linkIdle →
    (3 < entry.toNat →
      exec (.setDatum tag entry ox oy oz cx cy hz p) s = .next (s.replied 0x08 tag .range [⟨1, 0⟩])) ∧
    (∀ e : Fin 4, entry.toNat = e.val →
      (∀ b, (s.bank b).state = .active → (s.bank b).names e = true →
        (b = .bank0 ∨ (s.bank .bank0).state ≠ .active ∨ (s.bank .bank0).names e = false) →
        exec (.setDatum tag entry ox oy oz cx cy hz p) s = .next (s.replied 0x08 tag .state [⟨1, b.code⟩])) ∧
      ((∀ b, (s.bank b).state = .active → (s.bank b).names e = false) →
        (1000000 < ox.toInt.natAbs ∨ 1000000 < oy.toInt.natAbs ∨ 100000 < oz.toInt.natAbs →
          exec (.setDatum tag entry ox oy oz cx cy hz p) s = .next (s.replied 0x08 tag .range [⟨1, 1⟩])) ∧
        (ox.toInt.natAbs ≤ 1000000 → oy.toInt.natAbs ≤ 1000000 → oz.toInt.natAbs ≤ 100000 →
          (5368709 < (cx.toInt * cx.toInt + cy.toInt * cy.toInt - 268435456).natAbs →
            exec (.setDatum tag entry ox oy oz cx cy hz p) s = .next (s.replied 0x08 tag .range [⟨1, 2⟩])) ∧
          ((cx.toInt * cx.toInt + cy.toInt * cy.toInt - 268435456).natAbs ≤ 5368709 →
            (50000 < hz.toNat →
              exec (.setDatum tag entry ox oy oz cx cy hz p) s = .next (s.replied 0x08 tag .range [⟨1, 3⟩])) ∧
            (hz.toNat ≤ 50000 → (p.toNat < 1 ∨ 2000 < p.toNat) →
              exec (.setDatum tag entry ox oy oz cx cy hz p) s = .next (s.replied 0x08 tag .range [⟨1, 4⟩])) ∧
            (hz.toNat ≤ 50000 → 1 ≤ p.toNat → p.toNat ≤ 2000 →
              (∀ b, (s.bank b).state = .ready → (s.bank b).names e = false) →
              exec (.setDatum tag entry ox oy oz cx cy hz p) s = .next
                (({ s with datum := ⟨s.datum.entries.set e
                      (some ⟨ox.toInt, oy.toInt, oz.toInt, cx.toInt, cy.toInt, hz.toNat, p.toNat⟩)⟩ } : State).replied
                  0x08 tag .ok [⟨1, entry.toNat⟩, ⟨1, 0⟩, ⟨1, 0⟩]))))))

/-- R36, R37, R61, R62: an accepted SET DATUM flushes every READY bank that names the entry and leaves every slot of any other bank;
pointer and cursor go to the earliest returned slot before the cursor point, and the reply counts the cached targets removed and the
slots returned. That the spent test of the move (R14) is made once, after all the returns, is assumption 34's. -/
def Obligations.SetDatumFlushesTheReadyBanksThatNameTheEntry : Prop :=
  ∀ (s : State) (tag entry : Byte) (ox oy oz : BitVec 32) (cx cy hz p : BitVec 16) (e : Fin 4), s.linkIdle →
    entry.toNat = e.val → (∀ b, (s.bank b).state = .active → (s.bank b).names e = false) →
    ox.toInt.natAbs ≤ 1000000 → oy.toInt.natAbs ≤ 1000000 → oz.toInt.natAbs ≤ 100000 →
    (cx.toInt * cx.toInt + cy.toInt * cy.toInt - 268435456).natAbs ≤ 5368709 → hz.toNat ≤ 50000 → 1 ≤ p.toNat →
    p.toNat ≤ 2000 →
    ∃ (t : State) (removed returned : Nat),
      exec (.setDatum tag entry ox oy oz cx cy hz p) s =
        .next (t.replied 0x08 tag .ok [⟨1, entry.toNat⟩, ⟨1, removed⟩, ⟨1, returned⟩]) ∧
      s.flushedBy t (fun b => decide ((s.bank b).state = .ready) && (s.bank b).names e) removed returned ∧
      t.datum.entries = s.datum.entries.set e
        (some ⟨ox.toInt, oy.toInt, oz.toInt, cx.toInt, cy.toInt, hz.toNat, p.toNat⟩) ∧
      t.zone = s.zone ∧ t.train = s.train ∧ t.cradles = s.cradles ∧ t.adhesive = s.adhesive ∧ t.pose = s.pose ∧
      t.comp = s.comp ∧ t.place = s.place ∧ t.mode.mode = s.mode.mode ∧ t.mode.fault = s.mode.fault

/-- R41, R42, R36, R37: SET ZONE BOX refused outside SETUP and STOWED and on a bad axis, and written: every READY and ACTIVE bank
is flushed, pointer and cursor go to the earliest returned slot before the cursor point (R62), and the reply counts the cached targets
removed and the slots returned. That the spent test of the move (R14) is made once, after all the returns, is assumption 34's. -/
def Obligations.SetZoneBoxJudgesTheAxesAndWritesTheBox : Prop :=
  ∀ (s : State) (tag : Byte) (x0 x1 y0 y1 z0 z1 : BitVec 32), s.linkIdle →
    (s.mode.mode ≠ .setup → s.mode.mode ≠ .stowed →
      exec (.setZoneBox tag x0 x1 y0 y1 z0 z1) s = .next (s.replied 0x09 tag .state [⟨1, s.mode.mode.code⟩])) ∧
    ((s.mode.mode = .setup ∨ s.mode.mode = .stowed) →
      ((1000000 < x0.toInt.natAbs ∨ 1000000 < x1.toInt.natAbs ∨ x1.toInt < x0.toInt) →
        exec (.setZoneBox tag x0 x1 y0 y1 z0 z1) s = .next (s.replied 0x09 tag .range [⟨1, 0⟩])) ∧
      (x0.toInt.natAbs ≤ 1000000 → x1.toInt.natAbs ≤ 1000000 → x0.toInt ≤ x1.toInt →
        ((1000000 < y0.toInt.natAbs ∨ 1000000 < y1.toInt.natAbs ∨ y1.toInt < y0.toInt) →
          exec (.setZoneBox tag x0 x1 y0 y1 z0 z1) s = .next (s.replied 0x09 tag .range [⟨1, 1⟩])) ∧
        (y0.toInt.natAbs ≤ 1000000 → y1.toInt.natAbs ≤ 1000000 → y0.toInt ≤ y1.toInt →
          ((100000 < z0.toInt.natAbs ∨ 100000 < z1.toInt.natAbs ∨ z1.toInt < z0.toInt) →
            exec (.setZoneBox tag x0 x1 y0 y1 z0 z1) s = .next (s.replied 0x09 tag .range [⟨1, 2⟩])) ∧
          (z0.toInt.natAbs ≤ 100000 → z1.toInt.natAbs ≤ 100000 → z0.toInt ≤ z1.toInt →
            ∃ (t : State) (removed returned : Nat),
              exec (.setZoneBox tag x0 x1 y0 y1 z0 z1) s =
                .next (t.replied 0x09 tag .ok [⟨1, removed⟩, ⟨1, returned⟩]) ∧
              t.zone.box = some ⟨x0.toInt, x1.toInt, y0.toInt, y1.toInt, z0.toInt, z1.toInt⟩ ∧
              t.zone.cells = s.zone.cells ∧ s.flushedBy t (fun b => decide ((s.bank b).state = .ready ∨ (s.bank b).state = .active)) removed returned ∧
              t.datum = s.datum ∧ t.train = s.train ∧
              t.cradles = s.cradles ∧ t.adhesive = s.adhesive ∧ t.pose = s.pose ∧ t.comp = s.comp ∧ t.place = s.place ∧
              t.mode.mode = s.mode.mode ∧
              ((∀ b, (s.bank b).state ≠ .ready ∧ (s.bank b).state ≠ .active) →
                removed = 0 ∧ returned = 0 ∧ t.plan = s.plan ∧ t.feed = s.feed)))))

/-- R43, R36, R37: SET ZONE ROW writes one row of the cell map, leaving the other 63 rows; every READY and ACTIVE bank is flushed,
pointer and cursor go to the earliest returned slot before the cursor point (R62), and the reply counts the cached targets removed and
the slots returned. That the spent test of the move (R14) is made once, after all the returns, is assumption 34's. -/
def Obligations.SetZoneRowWritesOneRow : Prop :=
  ∀ (s : State) (tag row : Byte) (cells : BitVec 64), s.linkIdle →
    (s.mode.mode ≠ .setup → s.mode.mode ≠ .stowed →
      exec (.setZoneRow tag row cells) s = .next (s.replied 0x0A tag .state [⟨1, s.mode.mode.code⟩])) ∧
    ((s.mode.mode = .setup ∨ s.mode.mode = .stowed) →
      (63 < row.toNat → exec (.setZoneRow tag row cells) s = .next (s.replied 0x0A tag .range [⟨1, 0⟩])) ∧
      (row.toNat ≤ 63 → ∃ (t : State) (permitted removed returned : Nat),
        exec (.setZoneRow tag row cells) s =
          .next (t.replied 0x0A tag .ok [⟨1, row.toNat⟩, ⟨1, permitted⟩, ⟨1, removed⟩, ⟨1, returned⟩]) ∧
        permitted = (List.range 64).countP (fun c => cells.getMsbD c) ∧
        t.zone.cells[row.toNat]? = some cells ∧
        (∀ r : Nat, r ≠ row.toNat → t.zone.cells[r]? = s.zone.cells[r]?) ∧ t.zone.box = s.zone.box ∧
        s.flushedBy t (fun b => decide ((s.bank b).state = .ready ∨ (s.bank b).state = .active)) removed returned ∧
              t.datum = s.datum ∧ t.train = s.train ∧ t.cradles = s.cradles ∧
        t.adhesive = s.adhesive ∧ t.pose = s.pose ∧ t.comp = s.comp ∧ t.place = s.place ∧ t.mode.mode = s.mode.mode))

/-- R44: the zone check, test by test. -/
def Obligations.ZoneCheckMakesFiveTests : Prop :=
  ∀ (z : ZoneUnit) (t : Vec3),
    (z.box = none → z.admits t = false) ∧
    (∀ b, z.box = some b →
      (z.admits t = true ↔
        t.x.natAbs ≤ 1000000 ∧ t.y.natAbs ≤ 1000000 ∧ t.z.natAbs ≤ 100000 ∧
        (b.xmin ≤ t.x ∧ t.x ≤ b.xmax) ∧ (b.ymin ≤ t.y ∧ t.y ≤ b.ymax) ∧ (b.zmin ≤ t.z ∧ t.z ≤ b.zmax) ∧
        ∃ row col : Nat, row < 64 ∧ col < 64 ∧
          (b.xmin + 10000 * col ≤ t.x ∧ t.x < b.xmin + 10000 * (col + 1)) ∧
          (b.ymin + 10000 * row ≤ t.y ∧ t.y < b.ymin + 10000 * (row + 1)) ∧
          ∃ cells, z.cells[row]? = some cells ∧ cells.getMsbD col = true))

/-- R29, R110: the division by 16384 rounded half away from zero; and a velocity component, the difference over the distance
rounded so and clamped to ±2,000. -/
def Obligations.RoundingIsHalfAwayFromZero : Prop :=
  (∀ n : Int, 0 ≤ n → 16384 * roundQ14 n ≤ n + 8192 ∧ n + 8192 < 16384 * (roundQ14 n + 1)) ∧
  (∀ n : Int, roundQ14 (-n) = -roundQ14 n) ∧
  (∀ (new last : Int) (d : Nat), 1 ≤ d → d ≤ 8 →
    (last ≤ new → ∃ q : Int, 2 * d * q ≤ 2 * (new - last) + d ∧ 2 * (new - last) + d < 2 * d * (q + 1) ∧
      velocityComponent new last d = min 2000 q) ∧
    velocityComponent last new d = -velocityComponent new last d)

/-! ## Settings -/

/-- R60: SET NEXT BANK. -/
def Obligations.SetNextBankPlacesThePointer : Prop :=
  ∀ (s : State) (tag bank : Byte), s.linkIdle →
    (1 < bank.toNat → exec (.setNextBank tag bank) s = .next (s.replied 0x14 tag .range [])) ∧
    (∀ b : BankId, bank.toNat = b.code →
      ((s.mode.mode ≠ .setup ∨ ∃ b', (s.bank b').state = .active) →
        exec (.setNextBank tag bank) s = .next (s.replied 0x14 tag .state [])) ∧
      (s.mode.mode = .setup → (∀ b', (s.bank b').state ≠ .active) → ∃ t : State,
        exec (.setNextBank tag bank) s = .next (t.replied 0x14 tag .ok [⟨1, t.feedState.code⟩]) ∧
        t.feed.pointer = b ∧ t.feed.cursor = 0 ∧ t.feed.bankNeeded = false ∧ t.feed.depth = s.feed.depth ∧
        t.feed.tolerance = s.feed.tolerance ∧ t.feed.nextTag = s.feed.nextTag ∧ t.feed.mark = s.feed.mark ∧
        t.plan = s.plan ∧ t.mode = s.mode ∧ t.train = s.train ∧ t.cradles = s.cradles ∧ t.adhesive = s.adhesive ∧
        t.pose = s.pose ∧ t.comp = s.comp ∧ t.place = s.place ∧ t.datum = s.datum ∧ t.zone = s.zone ∧ t.clock = s.clock ∧
        ∃ plan, s.planNotices t plan ∧ t.link = s.raisedLink plan))

/-- R71, R102, R146: the settings take each field clamped to its nearest bound, and answer OK or ADJUSTED. The widths of the reply's
fields are assumption 13's; that an OK reply to SET FEED carries none is assumption 15's. -/
def Obligations.SettingsAreClampedAndTaken : Prop :=
  ∀ (s : State) (tag : Byte), s.linkIdle → s.mode.mode ≠ .faulted →
    (∀ a b c : Byte, ∃ d l u : Nat,
      d = max 1 (min 12 a.toNat) ∧ l = max 0 (min 100 b.toNat) ∧ u = max 5 (min 120 c.toNat) ∧
      exec (.setFeed tag a b c) s = .next
        (({ s with feed := { s.feed with depth := d, tolerance := l }, train := { s.train with timeout := u } } :
          State).replied 0x19 tag (if d = a.toNat ∧ l = b.toNat ∧ u = c.toNat then .ok else .adjusted)
          (if d = a.toNat ∧ l = b.toNat ∧ u = c.toNat then [] else [⟨1, d⟩, ⟨1, l⟩, ⟨1, u⟩]))) ∧
    (∀ (a c : BitVec 16) (b : Byte), ∃ d p o : Nat,
      d = max 0 (min 4000 a.toNat) ∧ p = max 10 (min 200 b.toNat) ∧ o = max 10 (min 900 c.toNat) ∧
      exec (.setAdhesive tag a b c) s = .next
        (({ s with adhesive := { s.adhesive with divisor := d, pitch := p, openTime := o } } : State).replied 0x1A tag
          (if d = a.toNat ∧ p = b.toNat ∧ o = c.toNat then .ok else .adjusted) [⟨2, d⟩, ⟨1, p⟩, ⟨2, o⟩])) ∧
    (∀ (l w w' k q a : Byte) (u : BitVec 16), ∃ v : PlacementSettings,
      v = ⟨max 0 (min 7 l.toNat), max 1 (min 100 w.toNat), max 1 (min 100 w'.toNat), max 1 (min 15 k.toNat),
        max 1 (min 3 q.toNat), max 5 (min 120 a.toNat), max 200 (min 10000 u.toNat)⟩ ∧
      exec (.setPlacement tag l w w' k q a u) s = .next
        (({ s with comp := { s.comp with settings := v } } : State).replied 0x18 tag
          (if v = ⟨l.toNat, w.toNat, w'.toNat, k.toNat, q.toNat, a.toNat, u.toNat⟩ then .ok else .adjusted)
          [⟨1, v.lead⟩, ⟨1, v.window⟩, ⟨1, v.alternate⟩, ⟨1, v.count⟩, ⟨1, v.quality⟩, ⟨1, v.approach⟩, ⟨2, v.settle⟩]))

/-- R68 to R70: SET SUPPLY MARK writes the setting and re-evaluates the condition in the same event. That an OK reply carries no
field is assumption 15's; that the last count is kept up to date under threshold OFF as well is assumption 23's. -/
def Obligations.SetSupplyMarkWritesAndReevaluates : Prop :=
  ∀ (s : State) (tag threshold scope sense : Byte), s.linkIdle → s.mode.mode ≠ .faulted →
    ((1 < scope.toNat ∨ 1 < sense.toNat) →
      exec (.setSupplyMark tag threshold scope sense) s = .next (s.replied 0x1B tag .range [])) ∧
    (∀ (sc : SupplyScope) (se : SupplySense), scope.toNat = sc.code → sense.toNat = se.code →
      ∃ (mark : SupplyMark) (count : Option Nat) (holds : Bool) (t : State),
        mark = { threshold := if threshold = 0xFF#8 then none else some (min 96 threshold.toNat)
                 scope := sc, sense := se } ∧
        count = (match sc with
          | .bank => s.plan.order.head?.map fun b => (s.bank b).count SlotStatus.isOpen
          | .course => s.layCourse.map fun bc =>
              (s.bank bc.1).slots.countP fun sl => sl.course = bc.2 && sl.status.isOpen) ∧
        (holds = true ↔ ∃ u n, mark.threshold = some u ∧ count = some n ∧ (if se = .atOrBelow then n ≤ u else u ≤ n)) ∧
        t = { s with feed := { s.feed with mark := mark, condition := holds, lastCount := count } } ∧
        exec (.setSupplyMark tag threshold scope sense) s = .next
          ((if holds && !s.feed.condition then t.raise (.supply (count.getD 0) sc) else t).replied 0x1B tag
            (if threshold ≠ 0xFF#8 ∧ 96 < threshold.toNat then .adjusted else .ok)
            (if threshold ≠ 0xFF#8 ∧ 96 < threshold.toNat then [⟨1, 96⟩] else [])))

/-- R157, R160: SET WATCH replaces the enable set, CLEAR WATCH removes conditions from the status; a code outside the five is
RANGE. -/
def Obligations.WatchSetsAreReplacedAndCleared : Prop :=
  ∀ (s : State) (tag c : Byte), s.linkIdle →
    (31 < c.toNat → exec (.clearWatch tag c) s = .next (s.replied 0x1D tag .range []) ∧
      (s.mode.mode ≠ .faulted → exec (.setWatch tag c) s = .next (s.replied 0x1C tag .range []))) ∧
    (c.toNat ≤ 31 →
      (s.mode.mode ≠ .faulted → ∃ w : BitVec 5, w.toNat = c.toNat ∧
        exec (.setWatch tag c) s = .next
          (({ s with mode := { s.mode with watchEnables := w } } : State).replied 0x1C tag .ok [])) ∧
      (∃ w : BitVec 5, (∀ n, w.getLsbD n = (s.mode.watchStatus.getLsbD n && !c.getLsbD n)) ∧
        exec (.clearWatch tag c) s = .next
          (({ s with mode := { s.mode with watchStatus := w } } : State).replied 0x1D tag .ok [⟨1, w.toNat⟩])))

/-- R178: SET NOTICES replaces the enable set; its reply shows FAULT enabled (assumption 27). R177: a notice raised is not made
where the member of its kind (R183) is not enabled, FAULT apart; dropped, with the flag set, where 16 wait; and otherwise appended
at the tail. -/
def Obligations.SetNoticesReplacesTheEnableSet : Prop :=
  (∀ (s : State) (tag : Byte) (e : BitVec 16), s.linkIdle → s.mode.mode ≠ .faulted →
    (16383 < e.toNat → exec (.setNotices tag e) s = .next (s.replied 0x1E tag .range [])) ∧
    (e.toNat ≤ 16383 → ∃ w shown : BitVec 14, w.toNat = e.toNat ∧
      (∀ n, n < 14 → shown.getLsbD n = (w.getLsbD n || decide (n = 13))) ∧
      exec (.setNotices tag e) s = .next
        (({ s with link := { s.link with enables := w } } : State).replied 0x1E tag .ok [⟨2, shown.toNat⟩]))) ∧
  (∀ (s : State) (n : Notice),
    (n.member ≠ 13 → s.link.enables.getLsbD n.member = false → s.raise n = s) ∧
    ((n.member = 13 ∨ s.link.enables.getLsbD n.member = true) →
      (16 ≤ s.link.notices.length → s.raise n = { s with link := { s.link with dropped := true } }) ∧
      (s.link.notices.length < 16 → s.raise n = { s with link := { s.link with notices := s.link.notices ++ [n] } }))) ∧
  (∀ (rc : ResetCause) (cc : CradleCount) (tr : Travel) (m m' : PartMode) (mc : ModeCause) (tag : Byte) (b : BankId)
      (i n l k f : Nat) (sk : SlotKind) (r : Rotation) (v : Vec3) (o : LayOutcome) (rr : RejectReason) (sc : SupplyScope)
      (w : BitVec 5) (hr : HoldReason) (p q : Seq) (fc fp : FaultCause) (fs : BitVec 6),
    (Notice.ready rc cc tr m).member = 0 ∧ (Notice.mode m m' mc).member = 1 ∧ (Notice.feed tag b i sk n r).member = 2 ∧
    (Notice.nextTarget tag b i v r).member = 3 ∧ (Notice.placed tag b i o).member = 4 ∧
    (Notice.rejected tag b i rr).member = 5 ∧ (Notice.supply n sc).member = 6 ∧ (Notice.bankNeeded b).member = 7 ∧
    (Notice.bankSpent b l k f).member = 8 ∧ (Notice.watchStop w tag b i).member = 9 ∧
    (Notice.hold hr tag b i).member = 10 ∧ (Notice.poseLost p q).member = 11 ∧ (Notice.poseRestored p).member = 12 ∧
    (Notice.fault fc fp fs).member = 13)

/-- The commands that the table of section 9.2 marks STATE in FAULTED, by their owners' rules: each answers STATE and changes
nothing. Outside FAULTED a bank number other than 0 or 1 is RANGE to every command of the Plan Store (R7, R9, R12, R18). -/
def Obligations.CommandsAreRefusedInFaultedAndForNoBank : Prop :=
  (∀ (s : State) (tag bank first count index : Byte) (rs : List SlotRecord), s.linkIdle → s.mode.mode ≠ .faulted →
    1 < bank.toNat →
    (rs.length = count.toNat →
      exec (.loadSlots tag bank first count rs) s = .next (s.replied 0x11 tag .range [])) ∧
    exec (.closeBank tag bank) s = .next (s.replied 0x12 tag .range []) ∧
    exec (.discardBank tag bank) s = .next (s.replied 0x13 tag .range []) ∧
    exec (.skipSlot tag bank index) s = .next (s.replied 0x15 tag .range [])) ∧
  (∀ (s : State) (tag a b c d e f : Byte) (w v : BitVec 16) (rs : List SlotRecord), s.linkIdle → s.mode.mode = .faulted →
    exec (.openBank tag a b c w) s = .next (s.replied 0x10 tag .state []) ∧
    (rs.length = c.toNat → exec (.loadSlots tag a b c rs) s = .next (s.replied 0x11 tag .state [])) ∧
    exec (.closeBank tag a) s = .next (s.replied 0x12 tag .state []) ∧
    exec (.discardBank tag a) s = .next (s.replied 0x13 tag .state []) ∧
    exec (.skipSlot tag a b) s = .next (s.replied 0x15 tag .state []) ∧
    exec (.setPlacement tag a b c d e f w) s = .next (s.replied 0x18 tag .state []) ∧
    exec (.setFeed tag a b c) s = .next (s.replied 0x19 tag .state []) ∧
    exec (.setAdhesive tag w a v) s = .next (s.replied 0x1A tag .state []) ∧
    exec (.setSupplyMark tag a b c) s = .next (s.replied 0x1B tag .state []) ∧
    exec (.setWatch tag a) s = .next (s.replied 0x1C tag .state []) ∧
    exec (.setNotices tag w) s = .next (s.replied 0x1E tag .state []) ∧
    exec (.brickLoaded tag a w) s = .next (s.replied 0x20 tag .state []) ∧
    exec (.endCourse tag) s = .next (s.replied 0x21 tag .state []) ∧
    exec (.purge tag) s = .next (s.replied 0x22 tag .state [⟨1, 4⟩]) ∧
    exec (.abandon tag) s = .next (s.replied 0x23 tag .state []) ∧
    exec (.start tag) s = .next (s.replied 0x28 tag .state [⟨1, 4⟩]) ∧
    exec (.pause tag) s = .next (s.replied 0x29 tag .state [⟨1, 4⟩]) ∧
    exec (.resume tag) s = .next (s.replied 0x2A tag .state [⟨1, 4⟩]) ∧
    exec (.stow tag) s = .next (s.replied 0x2B tag .state [⟨1, 4⟩]) ∧
    exec (.enterSetup tag) s = .next (s.replied 0x2C tag .state [⟨1, 4⟩]))

/-! ## The brick path -/

/-- R75, R76, R77: BRICK LOADED refused ORDER, and a brick within tolerance entering IN TRANSIT with its deadline. -/
def Obligations.BrickLoadedEntersTransit : Prop :=
  ∀ (s : State) (tag feedTag : Byte) (m : BitVec 16), s.linkIdle → s.mode.mode ≠ .faulted →
    ((∀ x ∈ s.train.entries, x.state = .inTransit) →
      exec (.brickLoaded tag feedTag m) s = .next (s.replied 0x20 tag .order [⟨1, 0⟩, ⟨1, 0⟩])) ∧
    (∀ (older younger : List TrainEntry) (e : TrainEntry), s.train.entries = older ++ e :: younger →
      (∀ x ∈ older, x.state = .inTransit) → e.state = .requested →
      (e.brick.tag ≠ feedTag →
        exec (.brickLoaded tag feedTag m) s = .next (s.replied 0x20 tag .order [⟨1, 1⟩, ⟨1, e.brick.tag.toNat⟩])) ∧
      (e.brick.tag = feedTag → ((m.toNat : Int) - e.planned).natAbs ≤ s.feed.tolerance → ∃ ahead : Nat,
        (older = [] → ahead = 0) ∧
        (∀ x, older.getLast? = some x → ahead = if x.lost then 0 else x.deadline.getD 0) ∧
        exec (.brickLoaded tag feedTag m) s = .next
          (({ s with train := { s.train with
              entries := older ++ { e with
                measured := some m.toNat, state := .inTransit
                deadline := some (max (s.clock.now + s.train.timeout * 100000) ahead) } :: younger } } : State).replied
            0x20 tag .ok [⟨1, feedTag.toNat⟩, ⟨1, 0⟩, ⟨4, (m.toNat : Int) - e.planned⟩])))

/-- R5, R17, R61 to R64, R76: a brick beyond tolerance is MISCUT: its entry marked, its slot's reject count raised, the slot PENDING or
REFUSED (REPEATED). PENDING brings the rollback: every younger live brick of the train and the cradles rejected as ROLLBACK, its FED
slot PENDING, every older one as it was, and, where the younger bricks' slots lie behind it in lay order, pointer and cursor on the
rejected slot. REFUSED brings none. REJECTED (MISCUT) is raised first, then REJECTED (ROLLBACK) for each younger brick in train
order. -/
def Obligations.MiscutMarksTheEntryAndCountsAgainstTheSlot : Prop :=
  ∀ (s : State) (tag : Byte) (m : BitVec 16) (older younger : List TrainEntry) (e : TrainEntry) (b : BankId) (i : Nat)
    (sl : Slot), s.linkIdle → s.mode.mode ≠ .faulted → s.train.entries = older ++ e :: younger →
    (∀ x ∈ older, x.state = .inTransit) → e.state = .requested → e.brick.mark = none →
    e.brick.bank = b → e.brick.slot = i → s.slot? b i = some sl → sl.status = .fed →
    s.feed.tolerance < ((m.toNat : Int) - e.planned).natAbs → ∃ t : State,
      exec (.brickLoaded tag e.brick.tag m) s = .next
        (t.replied 0x20 tag .ok [⟨1, e.brick.tag.toNat⟩, ⟨1, 1⟩, ⟨4, (m.toNat : Int) - e.planned⟩]) ∧
      t.slot? b i = some { sl with
        rejectCount := sl.rejectCount + 1
        status := if sl.rejectCount + 1 < 3 then .pending else .refused .repeated } ∧
      (∃ x ∈ t.train.entries, x.brick.serial = e.brick.serial ∧ x.brick.mark = some .miscut ∧ x.state = .inTransit ∧
        x.measured = some m.toNat) ∧
      (s.bricksApart → s.followsReject t e.brick (sl.rejectCount + 1) [.rejected e.brick.tag b i .miscut]) ∧
      t.mode.rejectSeen = true ∧ t.mode.mode = s.mode.mode ∧ t.place = s.place ∧ t.comp = s.comp ∧ t.pose = s.pose ∧
      t.adhesive = s.adhesive ∧ t.datum = s.datum ∧ t.zone = s.zone ∧ t.clock = s.clock

/-- R51, R58, R66, R67: END COURSE refused without a lay course, in SETUP and in FAULTED; accepted, every PENDING slot of the course
becomes SKIPPED, and so does every FED one whose live brick (R15) is not in RELEASING: that brick is cancelled, marked, tipped or
abandoned as COURSE ENDED, every live brick of another course stays, a REJECTED is raised in walk order for each brick that is not in
the gripper or the pick cradle, and the reply carries the numbers of these changes. A cursor within the course is placed behind it, with the walk-end step where the course is the last; any other cursor stays, but that an ENDED
walk goes on where the lay bank becomes SPENT. -/
def Obligations.EndCourseSkipsTheLayCourse : Prop :=
  ∀ (s : State) (tag : Byte), s.linkIdle →
    ((s.mode.mode = .setup ∨ s.mode.mode = .faulted ∨ s.lacksLayCourse) →
      exec (.endCourse tag) s = .next (s.replied 0x21 tag .state [])) ∧
    (∀ (b : BankId) (c : Nat) (run : List Nat), s.mode.mode ≠ .setup → s.mode.mode ≠ .faulted → s.isLayCourse b c →
      run = (s.bank b).courseRun c → ∃ (t : State) (skipped rejected : Nat),
        exec (.endCourse tag) s = .next
          (t.replied 0x21 tag .ok [⟨1, b.code⟩, ⟨1, c⟩, ⟨1, skipped⟩, ⟨1, rejected⟩]) ∧
        (∀ i ∈ run, ∀ sl, s.slot? b i = some sl → sl.status = .pending → t.slot? b i = some { sl with status := .skipped }) ∧
        (s.bricksApart →
          (∀ x ∈ s.liveBricks, ∀ sl, x.1.bank = b → x.1.slot ∈ run → s.slot? b x.1.slot = some sl → sl.status = .fed →
            (∀ y ∈ s.liveBricks, y.1.bank = b → y.1.slot = x.1.slot → y = x) →
            (s.withdrawable x = true →
              s.withdrawn t x .courseEnded ∧ t.slot? b x.1.slot = some { sl with status := .skipped }) ∧
            (s.withdrawable x = false → t.slot? b x.1.slot = some sl)) ∧
          (∀ x ∈ s.liveBricks, (x.1.bank ≠ b ∨ x.1.slot ∉ run) → x ∈ t.liveBricks) ∧
          skipped = run.countP (fun i => decide (t.slot? b i ≠ s.slot? b i)) ∧
          rejected = run.countP (fun i => decide (t.slot? b i ≠ s.slot? b i) && (s.slot? b i).any (·.status.isFed)) ∧
          ((∀ x ∈ s.liveBricks, ∀ y ∈ s.liveBricks, x.1.bank = b → y.1.bank = b → x.1.slot = y.1.slot → x = y) →
            ∃ notices, t.link = s.raisedLink notices ∧ (notices.filter fun n => !n.ofPlan) =
              (run.filterMap fun i => s.liveBricks.find? fun x => x.1.bank = b && x.1.slot = i &&
                (s.slot? b i).any (·.status.isFed) && s.withdrawable x && s.rejectedAtOnce x).map fun x =>
                  .rejected x.1.tag x.1.bank x.1.slot .courseEnded)) ∧
        (∀ (b' : BankId) (i : Nat) (sl : Slot), s.slot? b' i = some sl →
          t.slot? b' i = some sl ∨
          (t.slot? b' i = some { sl with status := .skipped } ∧ b' = b ∧ i ∈ run ∧
            (sl.status = .pending ∨ sl.status = .fed))) ∧
        (∀ (i j last : Nat), s.feed.pointer = b → ((s.bank b).state = .ready ∨ (s.bank b).state = .active) →
          (s.bank b).walkOrder[s.feed.cursor]? = some i → i ∈ run →
          run.getLast? = some j → (s.bank b).walkPosition j = some last →
          (last + 1 < (s.bank b).slots.length → t.feed.pointer = b ∧ t.feed.cursor = last + 1) ∧
          ((s.bank b).slots.length ≤ last + 1 →
            if (s.bank b.other).state = .active ∧ s.plan.order.head? = some b.other then
              t.feed.pointer = b ∧ t.feed.cursor = last + 1
            else t.feed.pointer = b.other ∧ t.feed.cursor = 0)) ∧
        ((s.feed.pointer ≠ b ∨ (s.bank b).state ≠ .ready ∧ (s.bank b).state ≠ .active ∨
            ∀ i ∈ run, (s.bank b).walkOrder[s.feed.cursor]? ≠ some i) →
          if s.feed.pointer ≠ b ∧ s.feedState = .ended ∧ (s.bank b).state = .active ∧ (t.bank b).state = .spent then
            t.feed.pointer = b ∧ t.feed.cursor = 0
          else t.feed.pointer = s.feed.pointer ∧ t.feed.cursor = s.feed.cursor) ∧
        t.datum = s.datum ∧ t.zone = s.zone ∧ t.adhesive = s.adhesive ∧ t.pose = s.pose ∧ t.clock = s.clock ∧
        t.mode.mode = s.mode.mode ∧ t.mode.fault = s.mode.fault ∧ t.train.timeout = s.train.timeout ∧
        t.place.grip = s.place.grip)

/-- R62, R79, R84, R87, R142: PURGE refused outside PAUSED and STOWED; accepted, it answers the number of bricks rejected. Each live brick
that is not in RELEASING is cancelled, marked, tipped or abandoned as PURGED, and its FED slot is PENDING with its reject count as it
was; pointer and cursor go to the earliest of these slots before the cursor point, and REJECTED (PURGED) is raised in train order for
every brick that is not in the gripper or the pick cradle; every brick already marked, and the brick in RELEASING, stay as they were, and every other slot. -/
def Obligations.PurgeReturnsTheSlotsOfTheBricksInFlight : Prop :=
  ∀ (s : State) (tag : Byte), s.linkIdle →
    (s.mode.mode ≠ .paused → s.mode.mode ≠ .stowed →
      exec (.purge tag) s = .next (s.replied 0x22 tag .state [⟨1, s.mode.mode.code⟩])) ∧
    ((s.mode.mode = .paused ∨ s.mode.mode = .stowed) → ∃ (t : State) (n : Nat),
      exec (.purge tag) s = .next (t.replied 0x22 tag .ok [⟨1, n⟩]) ∧
      n = (s.liveBricks.filter s.withdrawable).length ∧
      (n = 0 → t = s) ∧
      (s.bricksApart →
        (∀ x ∈ s.liveBricks, s.withdrawable x = true → s.withdrawn t x .purged ∧
          ∀ sl, s.slot? x.1.bank x.1.slot = some sl → sl.status = .fed →
            t.slot? x.1.bank x.1.slot = some { sl with status := .pending }) ∧
        (∀ e ∈ s.train.entries, e.brick.mark ≠ none → e ∈ t.train.entries) ∧
        (∀ b i, (∀ x ∈ s.liveBricks, s.withdrawable x = true → b ≠ x.1.bank ∨ i ≠ x.1.slot) →
          t.slot? b i = s.slot? b i) ∧
        (s.returnedTo t fun b i => ∃ x ∈ s.liveBricks, s.withdrawable x = true ∧ x.1.bank = b ∧ x.1.slot = i ∧
          ∃ sl, s.slot? b i = some sl ∧ sl.status = .fed) ∧
        ∃ notices, t.link = s.raisedLink notices ∧ (notices.filter fun n => !n.ofPlan) =
          ((s.liveBricks.filter s.withdrawable).filter s.rejectedAtOnce).map fun x =>
            .rejected x.1.tag x.1.bank x.1.slot .purged) ∧
      (∀ (c : CradleId) (b : CradleBrick), (s.cradle c).brick? = some b → b.brick.mark ≠ none → t.cradle c = s.cradle c) ∧
      (s.place.state ≠ .approach → s.place.state ≠ .settling → t.place = s.place ∧ t.comp = s.comp) ∧
      (∀ (b : BankId) (i : Nat) (sl : Slot), s.slot? b i = some sl →
        t.slot? b i = some sl ∨ (t.slot? b i = some { sl with status := .pending } ∧ sl.status = .fed)) ∧
      t.datum = s.datum ∧ t.zone = s.zone ∧ t.adhesive = s.adhesive ∧ t.pose = s.pose ∧ t.clock = s.clock ∧
      t.mode.mode = s.mode.mode ∧ t.mode.fault = s.mode.fault ∧ t.place.grip = s.place.grip)

/-- R80, R81, R92, R93, R94: a routed arrival passes the oldest entry on the boom into an EMPTY cradle: a marked brick is tipped, a
NONE brick is READY, any other is HELD. Where the pump is free in LAYING it goes in that event to the HELD live brick that is older,
the arriving one or the one in the other cradle; where it is not granted, the pump and the other cradle stay. -/
def Obligations.ArrivalPassesTheOldestEntryIntoACradle : Prop :=
  ∀ (s : State) (e : TrainEntry) (c : CradleId) (sl : Slot), s.cradles.hold = false →
    s.train.entries.find? (fun x => decide (x.state = .inTransit) && !x.lost) = some e → s.emptyCradle = some c →
    s.slot? e.brick.bank e.brick.slot = some sl → ∃ (t : State) (b : CradleBrick),
      exec .arrive s = .next t.beginFrame ∧ b = { brick := e.brick, planned := e.planned, pattern := sl.pattern } ∧
      t.train.entries = s.train.entries.filter (fun x => x.brick.serial ≠ e.brick.serial) ∧
      (e.brick.mark ≠ none → t.cradle c = .tipping b (s.clock.now + 40000)) ∧
      (e.brick.mark = none → sl.pattern = .none → t.cradle c = .ready b none) ∧
      (e.brick.mark = none → sl.pattern ≠ .none →
        (s.mode.mode ≠ .laying ∨ s.adhesive.owner.isSome = true) → t.cradle c = .held b) ∧
      ((e.brick.mark ≠ none ∨ sl.pattern = .none ∨ s.mode.mode ≠ .laying ∨ s.adhesive.owner.isSome = true) →
        t.adhesive = s.adhesive ∧ ∀ d, d ≠ c → t.cradle d = s.cradle d) ∧
      (e.brick.mark = none → sl.pattern ≠ .none → s.mode.mode = .laying → s.adhesive.owner = none →
        ((∀ d ∈ s.cradlesInUse, d ≠ c → ∀ b', s.cradle d = .held b' → b'.brick.mark = none →
            e.brick.serial < b'.brick.serial) →
          t.cradle c = .gluing b ∧ t.adhesive.owner = some c ∧ ∀ d, d ≠ c → t.cradle d = s.cradle d) ∧
        (∀ d b', d ∈ s.cradlesInUse → d ≠ c → s.cradle d = .held b' → b'.brick.mark = none →
          b'.brick.serial < e.brick.serial →
          t.cradle c = .held b ∧ t.adhesive.owner = some d ∧ t.cradle d = .gluing b') ∧
        t.adhesive = { s.adhesive with
          owner := t.adhesive.owner, operation := t.adhesive.operation, counter := s.adhesive.divisor, pump := false } ∧
        t.adhesive.operation.any (fun op => op.done = 0 && op.period = 2 * (4096 - s.adhesive.divisor)) = true) ∧
      t.conveyorHeld ∧ t.plan = s.plan ∧ t.feed = s.feed ∧ t.mode = s.mode ∧ t.place = s.place ∧ t.comp = s.comp ∧
      t.pose = s.pose ∧ t.datum = s.datum ∧ t.zone = s.zone ∧ t.clock = s.clock ∧ t.link = s.link

/-- R85, R86: a tip completes: the cradle EMPTY and CONVEYOR HOLD re-evaluated. That the clock runs to the end of the tip is
assumption 4's; that the row does nothing where no tip runs, and in FAULTED, assumption 6's. -/
def Obligations.TipCompletionEmptiesTheCradle : Prop :=
  ∀ (s : State) (c : CradleId),
    (∀ (b : CradleBrick) (done : Time), s.mode.mode ≠ .faulted → s.cradle c = .tipping b done → ∃ t : State,
      exec (.tipCompletion c) s = .next t ∧ t.cradle c = .empty ∧
      (∀ d, d ≠ c → t.cradle d = s.cradle d) ∧ t.conveyorHeld ∧ t.clock.now = max s.clock.now done ∧
      t.plan = s.plan ∧ t.feed = s.feed ∧ t.train = s.train ∧ t.mode = s.mode ∧ t.place = s.place ∧ t.comp = s.comp ∧
      t.pose = s.pose ∧ t.link = s.link ∧ t.datum = s.datum ∧ t.zone = s.zone) ∧
    ((s.mode.mode = .faulted ∨ ∀ b done, s.cradle c ≠ .tipping b done) → exec (.tipCompletion c) s = .next s)

/-! ## The pump -/

/-- R93, R94: a grant goes to the HELD cradle with the older live brick, with the stroke count and period of R94. That the row does
nothing where the conditions of R93 do not hold is assumption 6. -/
def Obligations.GrantServesTheOlderHeldBrick : Prop :=
  ∀ s : State,
    ((s.mode.mode ≠ .laying ∨ s.adhesive.owner.isSome = true ∨
        ∀ c ∈ s.cradlesInUse, ∀ b, s.cradle c = .held b → b.brick.mark ≠ none) → exec .grant s = .next s) ∧
    (∀ (c : CradleId) (b : CradleBrick), s.mode.mode = .laying → s.adhesive.owner = none → c ∈ s.cradlesInUse →
      s.cradle c = .held b → b.brick.mark = none →
      (∀ d ∈ s.cradlesInUse, d ≠ c → ∀ b', s.cradle d = .held b' → b'.brick.mark = none →
        b.brick.serial < b'.brick.serial) →
      ∃ (t : State) (n : Nat), exec .grant s = .next t ∧
        (0 < s.adhesive.pitch →
          b.planned * b.pattern.beads ≤ n * s.adhesive.pitch ∧
          n * s.adhesive.pitch < b.planned * b.pattern.beads + s.adhesive.pitch) ∧
        t.adhesive = { s.adhesive with
          owner := some c, operation := some ⟨n, 0, 2 * (4096 - s.adhesive.divisor)⟩, counter := s.adhesive.divisor
          pump := false } ∧
        t.cradle c = .gluing b ∧ (∀ d, d ≠ c → t.cradle d = s.cradle d) ∧ t.conveyorHeld ∧
        t.plan = s.plan ∧ t.feed = s.feed ∧ t.train = s.train ∧ t.mode = s.mode ∧ t.place = s.place ∧ t.comp = s.comp ∧
        t.pose = s.pose ∧ t.datum = s.datum ∧ t.zone = s.zone ∧ t.link = s.link ∧ t.clock = s.clock)

/-- R93 to R96: the reload of the pump counter: PUMP changes level, a stroke is counted at the reload that deasserts PUMP, and the
last stroke completes the glue: the pump freed, the cradle READY or TIPPING, and the grant that is judged, which in LAYING passes the
pump to the other cradle in use that is HELD with a live brick. That the clock runs to the reload is assumption 4's; that the row does
nothing with no running operation, assumption 6's. -/
def Obligations.PumpReloadCountsStrokesAndCompletesTheGlue : Prop :=
  ∀ s : State,
    ((s.mode.mode = .faulted ∨ s.adhesive.operation = none) → exec .pumpCounterReload s = .next s) ∧
    (∀ op, s.mode.mode ≠ .faulted → s.adhesive.operation = some op → ∃ now : Time,
      now = s.clock.now + (4096 - s.adhesive.counter) ∧
      (s.adhesive.pump = false →
        exec .pumpCounterReload s = .next { s with
          clock := { s.clock with now := now }
          adhesive := { s.adhesive with counter := 4096 - op.period / 2, pump := true } }) ∧
      (s.adhesive.pump = true → op.done + 1 < op.strokes →
        exec .pumpCounterReload s = .next { s with
          clock := { s.clock with now := now }
          adhesive := { s.adhesive with
            counter := 4096 - op.period / 2, pump := false, operation := some { op with done := op.done + 1 } } }) ∧
      (∀ (c : CradleId) (b : CradleBrick), s.adhesive.pump = true → op.strokes ≤ op.done + 1 →
        s.adhesive.owner = some c → s.cradle c = .gluing b → ∃ t : State,
        exec .pumpCounterReload s = .next t ∧ t.clock = { s.clock with now := now } ∧
        (b.brick.mark = none → t.cradle c = .ready b (some (now + s.adhesive.openTime * 100000))) ∧
        (b.brick.mark ≠ none → t.cradle c = .tipping b (now + 40000)) ∧
        ((s.mode.mode ≠ .laying ∨
            ∀ d ∈ s.cradlesInUse, d ≠ c → ∀ b', s.cradle d = .held b' → b'.brick.mark ≠ none) →
          t.adhesive = { s.adhesive with
            owner := none, operation := none, counter := 4096 - op.period / 2, pump := false } ∧
          ∀ d, d ≠ c → t.cradle d = s.cradle d) ∧
        (∀ (d : CradleId) (b' : CradleBrick), s.mode.mode = .laying → d ≠ c → d ∈ s.cradlesInUse →
          s.cradle d = .held b' → b'.brick.mark = none → t.cradle d = .gluing b' ∧ ∃ n : Nat,
          (0 < s.adhesive.pitch →
            b'.planned * b'.pattern.beads ≤ n * s.adhesive.pitch ∧
            n * s.adhesive.pitch < b'.planned * b'.pattern.beads + s.adhesive.pitch) ∧
          t.adhesive = { s.adhesive with
            owner := some d, operation := some ⟨n, 0, 2 * (4096 - s.adhesive.divisor)⟩
            counter := s.adhesive.divisor, pump := false }) ∧
        t.conveyorHeld ∧ t.plan = s.plan ∧ t.feed = s.feed ∧ t.train = s.train ∧ t.mode = s.mode ∧ t.place = s.place ∧
        t.comp = s.comp ∧ t.pose = s.pose ∧ t.datum = s.datum ∧ t.zone = s.zone ∧ t.link = s.link))

/-- R61 to R64, R99 to R101: an open-time expiry of a live brick in a READY cradle: tipped with REJECTED (SPOILED) raised, or, in the
pick cradle, marked in place with none raised; its slot's reject count rises, and PENDING brings the rollback, with REJECTED
(ROLLBACK) for each younger brick in train order. That the clock runs to the deadline, from which the tip's 400 ms are measured, is
assumption 4. -/
def Obligations.OpenTimeExpirySpoilsTheCradleBrick : Prop :=
  ∀ (s : State) (c : CradleId) (b : CradleBrick) (due : Time) (sl : Slot), s.mode.mode ≠ .faulted →
    s.cradle c = .ready b (some due) → b.brick.mark = none → s.slot? b.brick.bank b.brick.slot = some sl →
    sl.status = .fed → ∃ t : State,
      exec (.openTimeExpiry (.cradle c)) s = .next t.beginFrame ∧ t.clock.now = max s.clock.now due ∧
      (s.place.pickCradle ≠ some c →
        t.cradle c = .tipping { b with brick := { b.brick with mark := some .spoiled } } (max s.clock.now due + 40000) ∧
        t.mode.rejectSeen = true) ∧
      (s.place.pickCradle = some c →
        t.cradle c = .ready { b with brick := { b.brick with mark := some .spoiled } } none) ∧
      t.slot? b.brick.bank b.brick.slot = some { sl with
        rejectCount := sl.rejectCount + 1
        status := if sl.rejectCount + 1 < 3 then .pending else .refused .repeated } ∧
      (s.bricksApart → (s.runTo due).followsReject t b.brick (sl.rejectCount + 1)
        (if s.place.pickCradle = some c then [] else [.rejected b.brick.tag b.brick.bank b.brick.slot .spoiled])) ∧
      (s.conveyorHeld → t.conveyorHeld) ∧
      t.mode.mode = s.mode.mode ∧ t.place = s.place ∧ t.comp = s.comp ∧ t.pose = s.pose ∧ t.datum = s.datum ∧
      t.zone = s.zone

/-! ## The pick -/

/-- R126, R127, R158: a pick decision whose watch check and zone re-check pass: PICKING, GRIP closed, the quarter-turn of the slot,
500 ms of grip timeout. Where the conditions of R126 do not hold the row changes nothing (assumption 6). Train order is told by the
serial numbers of assumption 12. -/
def Obligations.PickDecisionStartsThePick : Prop :=
  (∀ s : State, (s.mode.mode ≠ .laying ∨ s.place.state ≠ .idle ∨ ∀ b c, s.heldLive (b, .cradle c) →
      (∀ y, s.heldLive y → b.serial ≤ y.1.serial) → ∀ cb due, s.cradle c ≠ .ready cb due) →
    exec .pickDecision s = .next s.beginFrame) ∧
  ∀ (s : State) (b : Brick) (c : CradleId) (sl : Slot) (target : Vec3), s.mayPick b c →
    s.slot? b.bank b.slot = some sl → sl.target = some target → s.zone.admits target = true →
    (s.mode.watchStopped = some b.tag ∨ s.watchConditions b &&& s.mode.watchEnables = 0#5) →
    ∃ t : State, exec .pickDecision s = .next t.beginFrame ∧
      t.place = { s.place with
        state := .picking, pickCradle := some c, grip := true, quarterTurn := sl.rotation
        stepTimer := .grip (s.clock.now + 50000) } ∧
      t.comp = { s.comp with setpoints := ⟨0, 0, 0, 0⟩ } ∧
      t.mode = { s.mode with
        rejectSeen := false
        bankSwitch0 := if b.bank = .bank0 then false else s.mode.bankSwitch0
        bankSwitch1 := if b.bank = .bank1 then false else s.mode.bankSwitch1
        watchStopped := if s.mode.watchStopped = some b.tag then none else s.mode.watchStopped } ∧
      t.cradles = s.cradles ∧ t.plan = s.plan ∧ t.feed = s.feed ∧ t.train = s.train ∧ t.adhesive = s.adhesive ∧
      t.pose = s.pose ∧ t.datum = s.datum ∧ t.zone = s.zone ∧ t.link = s.link ∧ t.clock = s.clock

/-- R158: a brick that meets an enabled condition stops the head: PAUSED, no pick, the brick left in its READY cradle, MODE with
cause WATCH raised and WATCH STOP after it. -/
def Obligations.WatchStopPausesBeforeThePick : Prop :=
  ∀ (s : State) (b : Brick) (c : CradleId), s.mayPick b c →
    s.mode.watchStopped ≠ some b.tag → s.watchConditions b &&& s.mode.watchEnables ≠ 0#5 →
    ∃ t : State, exec .pickDecision s = .next t.beginFrame ∧
      t.mode = { s.mode with
        mode := .paused, watchStatus := s.mode.watchStatus ||| (s.watchConditions b &&& s.mode.watchEnables)
        watchStopped := some b.tag, rejectSeen := false
        bankSwitch0 := if b.bank = .bank0 then false else s.mode.bankSwitch0
        bankSwitch1 := if b.bank = .bank1 then false else s.mode.bankSwitch1 } ∧
      t.place = { s.place with holdPaused := true, timer := none } ∧
      t.cradles = s.cradles ∧ t.plan = s.plan ∧ t.feed = s.feed ∧ t.train = s.train ∧ t.adhesive = s.adhesive ∧
      t.comp = s.comp ∧ t.pose = s.pose ∧ t.datum = s.datum ∧ t.zone = s.zone ∧ t.clock = s.clock ∧
      t.link = s.raisedLink [.mode .paused .laying .watch,
        .watchStop (s.watchConditions b &&& s.mode.watchEnables) b.tag b.bank b.slot]

/-- R47, R126: a brick whose target fails the zone re-check is tipped with mark ZONE, its slot REFUSED (ZONE) with its reject count as
it was, and REJECTED (ZONE) raised. That the notices of the plan stand before it is assumption 19's. -/
def Obligations.PickTimeZoneFailureTipsTheBrick : Prop :=
  ∀ (s : State) (b : Brick) (c : CradleId) (cb : CradleBrick) (due : Option Time) (sl : Slot) (target : Vec3),
    s.mayPick b c → s.cradle c = .ready cb due →
    s.slot? b.bank b.slot = some sl → sl.status = .fed → sl.target = some target → s.zone.admits target = false →
    (s.mode.watchStopped = some b.tag ∨ s.watchConditions b &&& s.mode.watchEnables = 0#5) →
    ∃ t : State, exec .pickDecision s = .next t.beginFrame ∧
      t.cradle c = .tipping { cb with brick := { cb.brick with mark := some .zone } } (s.clock.now + 40000) ∧
      t.slot? b.bank b.slot = some { sl with status := .refused .zone } ∧ s.slotsKeptBut t b.bank b.slot ∧
      (∃ plan, s.planNotices t plan ∧ t.link = s.raisedLink (plan ++ [.rejected b.tag b.bank b.slot .zone])) ∧
      t.mode.rejectSeen = true ∧ t.mode.mode = s.mode.mode ∧ t.place = s.place ∧ t.comp = s.comp ∧ t.train = s.train ∧
      t.adhesive = s.adhesive ∧ t.pose = s.pose ∧ t.clock = s.clock

/-- R127, R128, R129: GRIPPED asserted in PICKING takes the brick into the gripper, live to APPROACH with NEXT TARGET raised, and
HOLD with reason POSE where the POSE hold is carried, and marked to ABANDONING; it has no effect beyond the level of the line in
any other state and in FAULTED. That a marked brick leaves the settle counter and the latched parameters is assumption 26. -/
def Obligations.PickCompletionTakesTheBrick : Prop :=
  ∀ s : State,
    ((s.mode.mode = .faulted ∨ s.place.state ≠ .picking) →
      exec .pickCompletion s =
        .next ({ s with place := { s.place with gripped := true } } : State).beginFrame) ∧
    (∀ (c : CradleId) (b : CradleBrick) (due : Option Time), s.mode.mode ≠ .faulted → s.place.state = .picking →
      s.place.pickCradle = some c → s.cradle c = .ready b due → ∃ t : State,
      exec .pickCompletion s = .next t.beginFrame ∧ t.cradle c = .empty ∧ (∀ d, d ≠ c → t.cradle d = s.cradle d) ∧
      t.conveyorHeld ∧
      (b.brick.mark = none →
        t.place = { s.place with
          gripped := true, stepTimer := .stopped, pickCradle := none, hasSettled := false, state := .approach
          gripper := some ⟨b.brick, s.place.quarterTurn, due⟩
          timer := if s.mode.mode = .laying then some (s.clock.now + s.comp.settings.approach * 100000) else none } ∧
        t.comp = { s.comp with
          latched := some s.comp.settings, counter := 0, lastStep := ⟨0, 0, 0⟩
          saturation := ⟨false, false, false, false⟩, releaseSeq := none } ∧
        (∀ (sl : Slot) (target : Vec3), s.slot? b.brick.bank b.brick.slot = some sl → sl.target = some target →
          t.link = s.raisedLink (.nextTarget b.brick.tag b.brick.bank b.brick.slot target sl.rotation ::
            if s.place.holdPose then [.hold .pose b.brick.tag b.brick.bank b.brick.slot] else []))) ∧
      (∀ r, b.brick.mark = some r →
        t.place = { s.place with
          gripped := true, pickCradle := none, state := .abandoning, abandonReason := some r
          gripper := some ⟨b.brick, s.place.quarterTurn, none⟩, stepTimer := .abandon (s.clock.now + 150000) } ∧
        t.comp = { s.comp with setpoints := ⟨0, 0, 0, 0⟩ } ∧ t.link = s.link) ∧
      t.plan = s.plan ∧ t.feed = s.feed ∧ t.train = s.train ∧ t.adhesive = s.adhesive ∧ t.pose = s.pose ∧
      t.datum = s.datum ∧ t.zone = s.zone ∧ t.mode = s.mode ∧ t.clock = s.clock)

/-! ## The pose stream -/

/-- R107, R108, R181: a frame of another kind or length, a sample screened out, and a stale sample have no effect. -/
def Obligations.UnfitAndStaleSamplesHaveNoEffect : Prop :=
  ∀ (s : State) (k tag : Byte) (body : List Byte),
    ((k ≠ 0x60#8 ∨ body.length ≠ 18) → exec (.poseFrameArrival k tag body) s = .next s.beginFrame) ∧
    (body.length = 18 → ∀ p, p = poseSampleOf body →
      ((p.quality = 0 ∨ 5368709 < (p.hc * p.hc + p.hs * p.hs - 268435456).natAbs ∨ 1000000 < p.tip.x.natAbs ∨
          1000000 < p.tip.y.natAbs ∨ 1000000 < p.tip.z.natAbs) →
        exec (.poseFrameArrival 0x60 tag body) s = .next s.beginFrame) ∧
      (∀ last, s.pose.last = some last →
        (s.pose.state = .tracking ∨ s.pose.state = .coasting ∨ s.pose.state = .recovering) →
        (p.sequence = last.sequence ∨ 1024 ≤ (p.sequence - last.sequence).toNat) →
        exec (.poseFrameArrival 0x60 tag body) s = .next s.beginFrame))

/-- R109 to R112, R118, R119: what an accepted sample makes of the Pose Filter, by its state and the sequence distance, and POSE
RESTORED at the sample that completes the run of eight. -/
def Obligations.AcceptedSamplesMoveThePoseFilter : Prop :=
  ∀ (s : State) (tag : Byte) (body : List Byte) (p : Sample), body.length = 18 → p = poseSampleOf body →
    p.quality ≠ 0 → (p.hc * p.hc + p.hs * p.hs - 268435456).natAbs ≤ 5368709 → p.tip.x.natAbs ≤ 1000000 →
    p.tip.y.natAbs ≤ 1000000 → p.tip.z.natAbs ≤ 1000000 →
    (s.pose.state = .none → ∃ t : State, exec (.poseFrameArrival 0x60 tag body) s = .next t.beginFrame ∧
      t.pose = { s.pose with
        state := .tracking, last := some p, previous := s.pose.last, velocity := ⟨0, 0, 0⟩
        timer := some (s.clock.now + 300) } ∧ t.place.holdPose = false ∧ t.link = s.link) ∧
    (s.pose.state = .lost → ∃ t : State, exec (.poseFrameArrival 0x60 tag body) s = .next t.beginFrame ∧
      t.pose = { s.pose with
        state := .recovering, last := some p, previous := s.pose.last, velocity := ⟨0, 0, 0⟩, synthesized := 0
        realRun := 0 } ∧ t.place.holdPose = true ∧ (s.place.holdPose = true → t.link = s.link)) ∧
    (∀ (last : Sample) (d : Nat), s.pose.last = some last → d = (p.sequence - last.sequence).toNat → 1 ≤ d → d < 1024 →
      ∃ v : Vec3,
        v = (if d ≤ 8 then velocityOver p.tip last.tip d else ⟨0, 0, 0⟩) ∧
        ((s.pose.state = .tracking ∨ s.pose.state = .coasting) → ∃ t : State,
          exec (.poseFrameArrival 0x60 tag body) s = .next t.beginFrame ∧
          t.pose = { state := .tracking, last := some p, previous := some last, velocity := v, synthesized := 0
                     realRun := 0, timer := some (s.clock.now + 300) } ∧ t.place.holdPose = false ∧ t.link = s.link) ∧
        (s.pose.state = .recovering →
          (d = 1 → 7 ≤ s.pose.realRun → ∃ t : State,
            exec (.poseFrameArrival 0x60 tag body) s = .next t.beginFrame ∧
            t.pose = { state := .tracking, last := some p, previous := some last, velocity := v, synthesized := 0
                       realRun := 0, timer := some (s.clock.now + 300) } ∧ t.place.holdPose = false ∧
            t.link = s.raisedLink [.poseRestored p.sequence]) ∧
          ((d ≠ 1 ∨ s.pose.realRun < 7) →
            exec (.poseFrameArrival 0x60 tag body) s = .next ({ s with pose := { s.pose with
              last := some p, previous := some last, velocity := v, synthesized := 0
              realRun := if d = 1 then s.pose.realRun + 1 else 0 } } : State).beginFrame)))

/-- R115, R116, R117, R141: the expiry timer synthesizes a sample, or declares the pose lost with POSE LOST and, at the entry to the
POSE hold with a brick in APPROACH or SETTLING outside FAULTED, HOLD with reason POSE. That the clock runs to the timer, from which
the next 3 ms are measured, is assumption 4's; that a stopped timer's row does nothing, assumption 6's; that the
settle counter becomes 0 whatever the placement state, assumption 32's. -/
def Obligations.PoseTimerSynthesizesOrLosesThePose : Prop :=
  ∀ s : State,
    (s.pose.timer = none → exec .poseTimerExpiry s = .next s.beginFrame) ∧
    (∀ (due : Time) (last : Sample), s.pose.timer = some due → s.pose.last = some last → ∃ t : State,
      exec .poseTimerExpiry s = .next t.beginFrame ∧ t.clock.now = max s.clock.now due ∧
      (s.pose.synthesized < 4 →
        t.pose = { s.pose with
          state := .coasting
          last := some { last with
            sequence := last.sequence + 1, origin := .synthesized
            tip := ⟨last.tip.x + s.pose.velocity.x, last.tip.y + s.pose.velocity.y, last.tip.z + s.pose.velocity.z⟩ }
          previous := some last, synthesized := s.pose.synthesized + 1, timer := some (max s.clock.now due + 300) } ∧
        t.place.holdPose = false ∧ t.link = s.link) ∧
      (4 ≤ s.pose.synthesized →
        t.pose = { s.pose with state := .lost, timer := none } ∧ t.place.holdPose = true ∧
        t.place.state = s.place.state ∧ t.comp.setpoints = s.comp.setpoints ∧
        (s.place.holdPose = false → s.mode.mode ≠ .faulted → t.comp.counter = 0) ∧
        (∀ g, s.place.holdPose = false → s.mode.mode ≠ .faulted →
          (s.place.state = .approach ∨ s.place.state = .settling) → s.place.gripper = some g →
          t.link = s.raisedLink [.poseLost last.sequence (last.sequence - 4),
            .hold .pose g.brick.tag g.brick.bank g.brick.slot]) ∧
        ((s.place.holdPose = true ∨ s.mode.mode = .faulted ∨ s.place.state ≠ .approach ∧ s.place.state ≠ .settling) →
          t.link = s.raisedLink [.poseLost last.sequence (last.sequence - 4)])) ∧
      t.plan = s.plan ∧ t.feed = s.feed ∧ t.train = s.train ∧ t.cradles = s.cradles ∧ t.mode = s.mode)

/-! ## Compensation and release -/

/-- R112, R116, R119, R120, R130 to R133: a sample handed on to the Compensation Unit, with a brick in APPROACH or SETTLING in LAYING or
PAUSED, writes the four setpoints, the saturation flags and the last step; in any other state or mode it leaves the Compensation
Unit as it was. Handed on are the first sample in NONE, a step or restart sample in TRACKING or COASTING, the sample that completes
the run of eight in RECOVERING, which raises POSE RESTORED, and every synthesized sample, with the velocity that predicted it. That
the clock runs to the pose expiry timer is assumption 4's. -/
def Obligations.CompensatedSampleSteersTheFineAxes : Prop :=
  (∀ (s : State) (tag : Byte) (body : List Byte) (p : Sample) (v : Vec3) (restart : Bool), body.length = 18 →
    p = poseSampleOf body → s.handsOn p v restart → ∃ t : State,
      exec (.poseFrameArrival 0x60 tag body) s = .next t.beginFrame ∧
      (s.isSteered → ∀ g sl target da l, s.steersBy g sl target da l → s.steeredTo t target da l p.tip v p.hc p.hs) ∧
      (¬ s.isSteered → t.comp = s.comp ∧ t.place = { s.place with holdPose := false }) ∧
      t.pose.state = .tracking ∧ t.pose.last = some p ∧ t.pose.previous = s.pose.last ∧ t.pose.velocity = v ∧
      t.link = (if s.pose.state = .recovering then s.raisedLink [.poseRestored p.sequence] else s.link) ∧
      t.comp.settings = s.comp.settings ∧ t.comp.latched = s.comp.latched ∧
      t.plan = s.plan ∧ t.feed = s.feed ∧ t.train = s.train ∧ t.cradles = s.cradles ∧ t.adhesive = s.adhesive ∧
      t.datum = s.datum ∧ t.zone = s.zone ∧ t.mode = s.mode ∧ t.clock = s.clock) ∧
  (∀ (s : State) (due : Time) (last : Sample), s.pose.timer = some due → s.pose.last = some last →
    s.pose.synthesized < 4 → ∃ (t : State) (p : Sample),
      exec .poseTimerExpiry s = .next t.beginFrame ∧
      p = { last with
        sequence := last.sequence + 1
        tip := ⟨last.tip.x + s.pose.velocity.x, last.tip.y + s.pose.velocity.y, last.tip.z + s.pose.velocity.z⟩
        origin := .synthesized } ∧
      (s.isSteered → ∀ g sl target da l, s.steersBy g sl target da l →
        s.steeredTo t target da l p.tip s.pose.velocity p.hc p.hs) ∧
      (¬ s.isSteered → t.comp = s.comp ∧ t.place = { s.place with holdPose := false }) ∧
      t.pose.state = .coasting ∧ t.pose.last = some p ∧ t.pose.previous = some last ∧
      t.pose.velocity = s.pose.velocity ∧ t.pose.synthesized = s.pose.synthesized + 1 ∧ t.link = s.link ∧
      t.comp.settings = s.comp.settings ∧ t.comp.latched = s.comp.latched ∧
      t.plan = s.plan ∧ t.feed = s.feed ∧ t.train = s.train ∧ t.cradles = s.cradles ∧
      t.adhesive = { s.adhesive with counter := t.adhesive.counter } ∧ t.datum = s.datum ∧ t.zone = s.zone ∧
      t.mode = s.mode ∧ t.clock = { s.clock with now := max s.clock.now due })

/-- R112, R119, R134 to R138: what a real compensated sample, from NONE, TRACKING, COASTING or RECOVERING, makes of the settle counter
and the placement state, and the release it decides; and a synthesized one, which neither counts nor breaks the count and releases
nothing. That a release is decided on a real sample alone is assumption 33's. -/
def Obligations.SettleCounterAndReleaseDecision : Prop :=
  (∀ (s : State) (tag : Byte) (body : List Byte) (p : Sample) (v : Vec3) (restart : Bool) (g : GripperBrick) (sl : Slot)
    (target : Vec3) (da : DatumEntry) (l : PlacementSettings), body.length = 18 → p = poseSampleOf body →
    s.handsOn p v restart → s.isSteered → s.steersBy g sl target da l →
    ∃ (t : State) (w counter : Nat) (saturated qualifying : Bool),
      exec (.poseFrameArrival 0x60 tag body) s = .next t.beginFrame ∧
      w = (if sl.alternate then l.alternate else l.window) ∧
      saturated = (t.comp.saturation.x || t.comp.saturation.y || t.comp.saturation.z || t.comp.saturation.wrist) ∧
      (qualifying = true ↔ l.quality ≤ p.quality ∧ saturated = false ∧ t.comp.lastStep.x.natAbs ≤ w ∧
        t.comp.lastStep.y.natAbs ≤ w ∧ t.comp.lastStep.z.natAbs ≤ w) ∧
      counter = (if saturated = true ∨ restart = true ∨ qualifying = false then 0
        else min (s.comp.counter + 1) l.count) ∧
      t.comp.counter = counter ∧
      ((saturated = false ∧ counter = l.count ∧ s.mode.mode = .laying ∧ s.place.holdPaused = false) →
        t.comp.releaseSeq = some p.sequence ∧
        t.place = { s.place with
          holdPose := false, hasSettled := true, state := .releasing, grip := false, timer := none
          gripper := some { g with deadline := none }, stepTimer := .release (s.clock.now + 15000) }) ∧
      (¬(saturated = false ∧ counter = l.count ∧ s.mode.mode = .laying ∧ s.place.holdPaused = false) →
        t.comp.releaseSeq = s.comp.releaseSeq ∧
        t.place = { s.place with
          holdPose := false, state := if saturated then .approach else .settling
          hasSettled := s.place.hasSettled || !saturated
          timer := if saturated = false ∧ s.place.hasSettled = false ∧ s.mode.mode = .laying then
              some (s.clock.now + l.settle * 100)
            else s.place.timer })) ∧
  (∀ (s : State) (due : Time) (last : Sample) (g : GripperBrick) (sl : Slot) (target : Vec3) (da : DatumEntry)
    (l : PlacementSettings), s.pose.timer = some due → s.pose.last = some last → s.pose.synthesized < 4 →
    s.isSteered → s.steersBy g sl target da l →
    ∃ (t : State) (saturated : Bool), exec .poseTimerExpiry s = .next t.beginFrame ∧
      saturated = (t.comp.saturation.x || t.comp.saturation.y || t.comp.saturation.z || t.comp.saturation.wrist) ∧
      t.comp.counter = (if saturated then 0 else s.comp.counter) ∧
      t.place.state = (if saturated then .approach else s.place.state) ∧ t.place.gripper = s.place.gripper ∧
      t.place.grip = s.place.grip ∧ t.place.stepTimer = s.place.stepTimer ∧
      (s.settledMarked →
        t.place = { s.place with
          holdPose := false, state := if saturated then .approach else s.place.state }) ∧
      t.comp.releaseSeq = s.comp.releaseSeq)

/-- R138, R20: at the end of the dwell with GRIPPED deasserted the slot is LAID with its outcome, PLACED is raised with it, before
any notice the change of the plan brings, and the gripper is IDLE. That the clock runs to the end of the dwell is assumption 4's;
that the row does nothing where no dwell runs, assumption 6's. -/
def Obligations.ReleaseDwellEndLaysTheBrick : Prop :=
  ∀ s : State,
    ((s.mode.mode = .faulted ∨ s.place.gripper = none ∨ ∀ due, s.place.stepTimer ≠ .release due) →
      exec .releaseDwellEnd s = .next s.beginFrame) ∧
    (∀ (due : Time) (g : GripperBrick) (sl : Slot), s.mode.mode ≠ .faulted → s.place.stepTimer = .release due →
      s.place.gripper = some g → s.place.gripped = false → s.slot? g.brick.bank g.brick.slot = some sl →
      ∃ (t : State) (o : LayOutcome), exec .releaseDwellEnd s = .next t.beginFrame ∧
        o = { sequence := s.comp.releaseSeq.getD 0, setpoints := s.comp.setpoints, lastStep := s.comp.lastStep } ∧
        t.slot? g.brick.bank g.brick.slot = some { sl with status := .laid o } ∧
        s.slotsKeptBut t g.brick.bank g.brick.slot ∧
        t.place = { s.place with state := .idle, gripper := none, abandonReason := none, stepTimer := .stopped, timer := none } ∧
        t.comp = { s.comp with setpoints := ⟨0, 0, 0, 0⟩ } ∧ t.clock.now = max s.clock.now due ∧
        t.train = s.train ∧ t.cradles = s.cradles ∧ t.pose = s.pose ∧ t.datum = s.datum ∧ t.zone = s.zone ∧
        t.adhesive.owner = s.adhesive.owner ∧ t.adhesive.operation = s.adhesive.operation ∧
        t.mode.mode = s.mode.mode ∧ t.mode.fault = s.mode.fault ∧
        ∃ plan, s.planNotices t plan ∧
          t.link = s.raisedLink (.placed g.brick.tag g.brick.bank g.brick.slot o :: plan))

/-- R140, R144: the placement timer pauses the part with a HOLD notice; the abandon time ends with GRIP open, REJECTED and IDLE.
That the clock runs to each is assumption 4's; that neither row does anything where its timer does not run, assumption 6's. -/
def Obligations.PlacementTimerPausesAndAbandonTimeEnds : Prop :=
  ∀ s : State,
    ((s.mode.mode = .faulted ∨ s.place.timer = none ∨ s.place.gripper = none) →
      exec .placementTimerExpiry s = .next s.beginFrame) ∧
    ((s.mode.mode = .faulted ∨ s.place.gripper = none ∨ s.place.abandonReason = none ∨
        ∀ due, s.place.stepTimer ≠ .abandon due) →
      exec .abandonCompletion s = .next s.beginFrame) ∧
    (∀ (due : Time) (g : GripperBrick), s.mode.mode ≠ .faulted → s.place.timer = some due → s.place.gripper = some g →
      ∃ u : State,
        u = { s.runTo due with
          mode := { s.mode with mode := .paused }, place := { s.place with holdPaused := true, timer := none } } ∧
        exec .placementTimerExpiry s = .next
          (((u.raise (.mode .paused s.mode.mode .timeout)).raise
            (.hold (if s.place.hasSettled then .settleTimeout else .approachTimeout) g.brick.tag g.brick.bank
              g.brick.slot)).beginFrame)) ∧
    (∀ (due : Time) (g : GripperBrick) (r : RejectReason), s.mode.mode ≠ .faulted → s.place.stepTimer = .abandon due →
      s.place.gripper = some g → s.place.abandonReason = some r →
      ∃ u : State,
        u = { s.runTo due with
          comp := { s.comp with setpoints := ⟨0, 0, 0, 0⟩ }
          place := { s.place with
            state := .idle, gripper := none, abandonReason := none, stepTimer := .stopped, timer := none, grip := false }
          mode := { s.mode with
            watchStopped := if s.mode.watchStopped = some g.brick.tag then none else s.mode.watchStopped
            rejectSeen := s.mode.rejectSeen || decide (r ≠ .courseEnded ∧ r ≠ .purged) } } ∧
        exec .abandonCompletion s = .next
          ((u.raise (.rejected g.brick.tag g.brick.bank g.brick.slot r)).beginFrame))

/-- R61 to R64, R101, R142, R143: ABANDON by the mode and the placement state, and the entry to ABANDONING it makes; and the same
entry, with reason SPOILED, at the expiry of the held brick's open-time deadline. A slot left PENDING brings the rollback, with
REJECTED (ROLLBACK) for each younger brick in train order; the brick's own REJECTED waits for the end of the abandonment. That the clock runs to the deadline, from which the abandon
time is measured, is assumption 4's; that the row does nothing where no deadline runs, assumption 6's. -/
def Obligations.AbandonCarriesTheHeldBrickAway : Prop :=
  ∀ (s : State) (tag : Byte),
    (s.linkIdle →
      (s.mode.mode ≠ .paused → exec (.abandon tag) s = .next (s.replied 0x23 tag .state [])) ∧
      (s.mode.mode = .paused → s.place.state ≠ .approach → s.place.state ≠ .settling →
        exec (.abandon tag) s = .next (s.replied 0x23 tag .state [⟨1, s.place.state.code⟩]))) ∧
    ((s.mode.mode = .faulted ∨ s.place.state ≠ .approach ∧ s.place.state ≠ .settling ∨
        s.place.gripper.bind GripperBrick.deadline = none) →
      exec (.openTimeExpiry .gripper) s = .next s.beginFrame) ∧
    (∀ (g : GripperBrick) (sl : Slot), (s.place.state = .approach ∨ s.place.state = .settling) →
      s.place.gripper = some g → s.slot? g.brick.bank g.brick.slot = some sl → sl.status = .fed →
      (s.linkIdle → s.mode.mode = .paused → ∃ t : State,
        exec (.abandon tag) s = .next
          (t.replied 0x23 tag .ok [⟨1, g.brick.tag.toNat⟩, ⟨1, g.brick.bank.code⟩, ⟨1, g.brick.slot⟩]) ∧
        t.place = { s.place with
          gripper := some { g with brick := { g.brick with mark := some .abandoned }, deadline := none }
          abandonReason := some .abandoned, timer := none, state := .abandoning
          stepTimer := .abandon (s.clock.now + 150000) } ∧
        t.comp = { s.comp with setpoints := ⟨0, 0, 0, 0⟩ } ∧
        t.slot? g.brick.bank g.brick.slot = some { sl with
          rejectCount := sl.rejectCount + 1
          status := if sl.rejectCount + 1 < 3 then .pending else .refused .repeated } ∧
        (s.bricksApart → s.followsReject t g.brick (sl.rejectCount + 1) []) ∧
        t.mode.mode = .paused ∧ t.adhesive = s.adhesive ∧ t.pose = s.pose ∧ t.datum = s.datum ∧ t.zone = s.zone ∧
        t.clock = s.clock) ∧
      (∀ due, s.mode.mode ≠ .faulted → g.deadline = some due → ∃ t : State,
        exec (.openTimeExpiry .gripper) s = .next t.beginFrame ∧
        t.place = { s.place with
          gripper := some { g with brick := { g.brick with mark := some .spoiled }, deadline := none }
          abandonReason := some .spoiled, timer := none, state := .abandoning
          stepTimer := .abandon (max s.clock.now due + 150000) } ∧
        t.comp = { s.comp with setpoints := ⟨0, 0, 0, 0⟩ } ∧
        t.slot? g.brick.bank g.brick.slot = some { sl with
          rejectCount := sl.rejectCount + 1
          status := if sl.rejectCount + 1 < 3 then .pending else .refused .repeated } ∧
        (s.bricksApart → (s.runTo due).followsReject t g.brick (sl.rejectCount + 1) []) ∧
        t.mode.mode = s.mode.mode ∧ t.clock.now = max s.clock.now due ∧ t.pose = s.pose ∧ t.datum = s.datum ∧
        t.zone = s.zone))

/-! ## Modes and faults -/

/-- R152, R154, R59: START and RESUME, accepted and refused, with the BANK NEEDED that entry to LAYING may bring. -/
def Obligations.StartAndResumeEnterLaying : Prop :=
  ∀ (s : State) (tag : Byte), s.linkIdle →
    ((s.mode.mode = .laying ∨ s.mode.mode = .paused ∨ s.mode.mode = .faulted) →
      exec (.start tag) s = .next (s.replied 0x28 tag .state [⟨1, s.mode.mode.code⟩])) ∧
    (s.mode.mode ≠ .paused → exec (.resume tag) s = .next (s.replied 0x2A tag .state [⟨1, s.mode.mode.code⟩])) ∧
    ((s.mode.mode = .setup ∨ s.mode.mode = .stowed) → ∃ u : State,
      u = ({ s with mode := { s.mode with mode := .laying }, place := { s.place with holdPaused := false } } : State).raise
        (.mode .laying s.mode.mode .command) ∧
      ((s.feedState ≠ .waiting ∨ s.feed.bankNeeded = true) →
        exec (.start tag) s = .next (u.replied 0x28 tag .ok [])) ∧
      (s.feedState = .waiting → s.feed.bankNeeded = false →
        exec (.start tag) s = .next
          ((({ u with feed := { u.feed with bankNeeded := true } } : State).raise (.bankNeeded s.feed.pointer)).replied
            0x28 tag .ok []))) ∧
    (s.mode.mode = .paused → ∃ u : State,
      u = ({ s with
          mode := { s.mode with mode := .laying }
          place := { s.place with
            holdPaused := false
            timer := if s.place.state = .approach ∨ s.place.state = .settling then
                s.comp.latched.map fun l =>
                  s.clock.now + (if s.place.hasSettled then l.settle * 100 else l.approach * 100000)
              else s.place.timer } } : State).raise (.mode .laying .paused .command) ∧
      ((s.feedState ≠ .waiting ∨ s.feed.bankNeeded = true) →
        exec (.resume tag) s = .next (u.replied 0x2A tag .ok [])) ∧
      (s.feedState = .waiting → s.feed.bankNeeded = false →
        exec (.resume tag) s = .next
          ((({ u with feed := { u.feed with bankNeeded := true } } : State).raise (.bankNeeded s.feed.pointer)).replied
            0x2A tag .ok [])))

/-- R153, R155: PAUSE, STOW and ENTER SETUP by the mode, and STOW by the placement state. That the BUSY reply of STOW carries the
present mode beside the placement state, in that order, is assumption 15. -/
def Obligations.PauseStowAndEnterSetup : Prop :=
  ∀ (s : State) (tag : Byte), s.linkIdle →
    (s.mode.mode = .laying → exec (.pause tag) s = .next
      ((({ s with
          mode := { s.mode with mode := .paused }, place := { s.place with holdPaused := true, timer := none } } :
        State).raise (.mode .paused .laying .command)).replied 0x29 tag .ok [])) ∧
    (s.mode.mode = .paused → exec (.pause tag) s = .next (s.replied 0x29 tag .ok [])) ∧
    ((s.mode.mode = .setup ∨ s.mode.mode = .stowed ∨ s.mode.mode = .faulted) →
      exec (.pause tag) s = .next (s.replied 0x29 tag .state [⟨1, s.mode.mode.code⟩]) ∧
      exec (.stow tag) s = .next (s.replied 0x2B tag .state [⟨1, s.mode.mode.code⟩])) ∧
    ((s.mode.mode = .laying ∨ s.mode.mode = .paused) →
      (s.place.state ≠ .idle →
        exec (.stow tag) s = .next (s.replied 0x2B tag .busy [⟨1, s.mode.mode.code⟩, ⟨1, s.place.state.code⟩])) ∧
      (s.place.state = .idle → exec (.stow tag) s = .next
        ((({ s with mode := { s.mode with mode := .stowed }, place := { s.place with holdPaused := false } } :
          State).raise (.mode .stowed s.mode.mode .command)).replied 0x2B tag .ok []))) ∧
    (s.mode.mode ≠ .stowed →
      exec (.enterSetup tag) s = .next (s.replied 0x2C tag .state [⟨1, s.mode.mode.code⟩])) ∧
    (s.mode.mode = .stowed → exec (.enterSetup tag) s = .next
      ((({ s with mode := { s.mode with mode := .setup }, place := { s.place with holdPaused := false } } : State).raise
        (.mode .setup .stowed .command)).replied 0x2C tag .ok []))

/-- R162, R163, R98, R145, with R161, R78, R80, R127 and R138: each cause, reported outside FAULTED, puts the part into FAULTED
with its record and its notices; a deassertion of HALT writes the level alone. That the clock runs to a timeout is assumption 4's;
that a timeout's row does nothing where it does not run, assumption 6's. -/
def Obligations.EachCauseEntersFaulted : Prop :=
  ∀ s : State,
    exec .haltDeassert s = .next { s with mode := { s.mode with halt := false } } ∧
    (s.mode.mode ≠ .faulted →
      (∃ t, exec .haltAssert s = .next t.beginFrame ∧
        ({ s with mode := { s.mode with halt := true } } : State).entersFaulted t .halt) ∧
      (∀ tag e due, s.train.entries.find? (fun x => x.brick.tag = tag && x.state = .inTransit && x.deadline.isSome) = some e →
        e.deadline = some due → ∃ t u : State, exec (.transitExpiry tag) s = .next t.beginFrame ∧
        u = { s.runTo due with train := { s.train with
          entries := s.train.entries.map fun x =>
            if x.brick.serial = e.brick.serial then { x with deadline := none, lost := true } else x } } ∧
        u.entersFaulted t .lostBrick) ∧
      (s.cradles.hold = true → ∃ t, exec .arrive s = .next t.beginFrame ∧ s.entersFaulted t .overrun) ∧
      (s.cradles.hold = false → (∀ x ∈ s.train.entries, x.state = .inTransit → x.lost = true) →
        ∃ t, exec .arrive s = .next t.beginFrame ∧ s.entersFaulted t .strayArrival) ∧
      (∀ due, s.place.stepTimer = .grip due →
        ∃ t, exec .gripTimeout s = .next t.beginFrame ∧ (s.runTo due).entersFaulted t .gripFail) ∧
      ((s.place.state = .approach ∨ s.place.state = .settling) → ∃ t,
        exec .grippedDeassert s = .next t.beginFrame ∧
        ({ s with place := { s.place with gripped := false } } : State).entersFaulted t .gripFail) ∧
      (∀ due, s.place.stepTimer = .release due → s.place.gripper.isSome = true → s.place.gripped = true → ∃ t,
        exec .releaseDwellEnd s = .next t.beginFrame ∧ (s.runTo due).entersFaulted t .releaseFail)) ∧
    ((s.mode.mode = .faulted ∨ s.place.state ≠ .approach ∧ s.place.state ≠ .settling) →
      exec .grippedDeassert s = .next
        (({ s with place := { s.place with gripped := false } } : State).beginFrame)) ∧
    ((s.mode.mode = .faulted ∨ ∀ due, s.place.stepTimer ≠ .grip due) → exec .gripTimeout s = .next s.beginFrame) ∧
    (∀ tag, (s.mode.mode = .faulted ∨ ∀ x ∈ s.train.entries, x.brick.tag = tag → x.deadline = none) →
      exec (.transitExpiry tag) s = .next s.beginFrame)

/-- R162 in FAULTED: a HALT or an overrun joins the further set, raises FAULT, and changes nothing else but the HALT level. -/
def Obligations.FurtherCausesJoinTheSet : Prop :=
  ∀ (s : State) (f : FaultRecord), s.mode.mode = .faulted → s.mode.fault = some f →
    (∃ w : BitVec 6, (∀ n, n < 6 → w.getLsbD n = (f.further.getLsbD n || decide (n = 0))) ∧
      exec .haltAssert s = .next
        ((({ s with mode := { s.mode with halt := true, fault := some { f with further := w } } } : State).raise
          (.fault .halt f.primary w)).beginFrame)) ∧
    (s.cradles.hold = true → ∃ w : BitVec 6, (∀ n, n < 6 → w.getLsbD n = (f.further.getLsbD n || decide (n = 3))) ∧
      exec .arrive s = .next
        ((({ s with mode := { s.mode with fault := some { f with further := w } } } : State).raise
          (.fault .overrun f.primary w)).beginFrame))

/-- R164, R88, R98, R145: CLEAR FAULT refused, and accepted: the brick path and the placement cleared, every FED slot PENDING, the
cursor on the lay bank's earliest PENDING slot, the record emptied, the mode STOWED and MODE raised after the notices of the plan
and the walk, and no REJECTED. With no slot FED and none PENDING in the lay bank, or no ACTIVE bank, pointer and cursor stay. That the HALT level is a byte 1 is assumption
14's; that the refusal outside FAULTED carries no field, assumption 15's; the presence bytes of the record, assumption 38's. -/
def Obligations.ClearFaultReturnsTheFedSlots : Prop :=
  ∀ (s : State) (tag : Byte), s.linkIdle →
    (s.mode.mode ≠ .faulted → exec (.clearFault tag) s = .next (s.replied 0x2D tag .state [])) ∧
    (∀ f, s.mode.mode = .faulted → s.mode.fault = some f →
      (s.mode.halt = true → exec (.clearFault tag) s = .next (s.replied 0x2D tag .state
        [⟨1, 1⟩, ⟨1, f.primary.code⟩, ⟨1, f.further.toNat⟩, ⟨1, 1⟩, ⟨1, f.modeAtFault.code⟩, ⟨1, 1⟩])) ∧
      (s.mode.halt = false → ∃ t : State,
        exec (.clearFault tag) s = .next (t.replied 0x2D tag .ok
          [⟨1, f.primary.code⟩,
            ⟨1, ((s.bank .bank0).count SlotStatus.isFed + (s.bank .bank1).count SlotStatus.isFed : Nat)⟩]) ∧
        t.train.entries = [] ∧ t.cradles = { cradle0 := .empty, cradle1 := .empty, hold := false } ∧
        t.adhesive = { s.adhesive with owner := none, operation := none, pump := false } ∧
        t.place = { s.place with
          state := .idle, gripper := none, pickCradle := none, timer := none, hasSettled := false, stepTimer := .stopped
          abandonReason := none, grip := false, holdPaused := false } ∧
        t.comp = { s.comp with
          setpoints := ⟨0, 0, 0, 0⟩, lastStep := ⟨0, 0, 0⟩, saturation := ⟨false, false, false, false⟩, counter := 0
          releaseSeq := none } ∧
        (∀ (b : BankId) (i : Nat) (sl : Slot), s.slot? b i = some sl →
          t.slot? b i = some (if sl.status = .fed then { sl with status := .pending } else sl)) ∧
        (∀ (b : BankId) (p : Nat), t.plan.order.head? = some b → (t.bank b).firstPending 0 = some p →
          t.feed.pointer = b ∧ t.feed.cursor = p) ∧
        ((∀ (b : BankId) (i : Nat) (sl : Slot), s.slot? b i = some sl → sl.status ≠ .fed) →
          (∀ b, s.plan.order.head? = some b → ∀ sl ∈ (s.bank b).slots, sl.status ≠ .pending) →
          t.plan = s.plan ∧ t.feed = s.feed) ∧
        (∃ plan, (∀ n ∈ plan, n.ofPlan = true) ∧
          t.link = s.raisedLink (plan ++ [.mode .stowed .faulted .command])) ∧
        t.feed.nextTag = s.feed.nextTag ∧ t.mode.mode = .stowed ∧ t.mode.fault = none ∧ t.mode.watchStopped = none ∧
        t.mode.watchEnables = s.mode.watchEnables ∧ t.mode.watchStatus = s.mode.watchStatus ∧
        t.mode.rejectSeen = s.mode.rejectSeen ∧ t.mode.halt = false ∧
        t.clock = { s.clock with stoppedAt := none } ∧ t.pose = s.pose ∧ t.datum = s.datum ∧ t.zone = s.zone))

/-! ## Feeding -/

/-- R13, R14, R34, R46, R53 to R59: a feed request whose conditions hold activates a READY feed bank, finds the first PENDING slot at or
after the cursor, supplies its target, and, unless the slot is order-blocked, feeds it or refuses it by the zone check. An
order-blocked slot of an ACTIVE feed bank holds the feed. With no PENDING slot left the walk ends: ENDED behind an older ACTIVE bank,
WAITING with BANK NEEDED on a bank that is not READY or ACTIVE, and otherwise the request goes on in the other bank. Where the slot
fed stands at the last walk position, the walk end is taken in the same request: the pointer goes to a READY bank, FEEDING, or to a
newer ACTIVE one, stays ENDED behind an older one, or goes to any other bank, WAITING with BANK NEEDED. That the row
changes nothing where the conditions do not hold is assumption 6. -/
def Obligations.FeedRequestFeedsTheNextPendingSlot : Prop :=
  ∀ s : State,
    (¬ s.mayFeed → exec .feedRequest s = .next s.beginFrame) ∧
    (∀ (b : BankId) (p i : Nat) (sl : Slot), b = s.feed.pointer → (s.bank b).state = .active →
      (s.bank b).firstPending s.feed.cursor = some p → (sl.status = .fed ∨ ∃ outcome, sl.status = .laid outcome) →
      ((∃ q, p < q ∧ (s.bank b).walkOrder[q]? = some i ∧ s.slot? b i = some sl) ∨
        ((∃ rest, s.plan.order = b :: b.other :: rest) ∧ s.slot? b.other i = some sl)) →
      s.feedState = .held ∧ exec .feedRequest s = .next s.beginFrame) ∧
    (∀ (u : State) (b : BankId) (p i : Nat) (sl : Slot) (d : DatumEntry) (target : Vec3), s.mayFeed →
      u = s.activateIfReady → b = s.feed.pointer → (u.bank b).firstPending u.feed.cursor = some p →
      (u.cursorTo p).orderBlocked b p = false → (u.bank b).walkOrder[p]? = some i → u.slot? b i = some sl →
      s.datumOf b = some d → target = sl.target.getD (targetOn d sl) →
      ∃ t : State, exec .feedRequest s = .next t.beginFrame ∧
        (s.zone.admits target = false →
          t.slot? b i = some { sl with target := some target, status := .refused .zone }) ∧
        (s.zone.admits target = true →
          t.slot? b i = some { sl with target := some target, status := .fed } ∧ s.slotsKeptBut t b i ∧
          t.train = { s.train with
            nextSerial := s.train.nextSerial + 1
            entries := s.train.entries ++
              [{ brick := { serial := s.train.nextSerial, tag := s.feed.nextTag, bank := b, slot := i, mark := none }
                 planned := sl.planned, measured := none, state := .requested, deadline := none, lost := false }] } ∧
          t.feed.nextTag = s.feed.nextTag + 1 ∧
          (p + 1 < (s.bank b).slots.length → t.feed.pointer = b ∧ t.feed.cursor = p + 1) ∧
          ((s.bank b).slots.length ≤ p + 1 → ((s.bank b.other).state = .active → u.awaitsSpent b.other = false) →
            t.walkEndsBy b (p + 1) (s.bank b.other).state u.plan.order.head?) ∧
          (t.bank b).state = .active ∧
          (u.awaitsSpent b.other = false →
            t.plan.order = if (s.bank b).state = .ready then s.plan.order ++ [b] else s.plan.order) ∧
          ((s.bank b).state = .ready → b = .bank0 → t.mode.bankSwitch0 = true) ∧
          ((s.bank b).state = .ready → b = .bank1 → t.mode.bankSwitch1 = true) ∧
          ∃ before after, (∀ n ∈ before ++ after, n.ofPlan = true) ∧
            t.link = s.raisedLink (before ++ .feed s.feed.nextTag b i sl.kind sl.planned sl.rotation :: after) ∧
            ((s.bank b).slots.length ≤ p + 1 → (s.bank b.other).state ≠ .ready → (s.bank b.other).state ≠ .active →
              .bankNeeded b.other ∈ after)) ∧
        t.cradles = s.cradles ∧ t.adhesive = s.adhesive ∧ t.pose = s.pose ∧ t.comp = s.comp ∧ t.place = s.place ∧
        t.datum = s.datum ∧ t.zone = s.zone ∧ t.mode.mode = s.mode.mode ∧ t.clock = s.clock) ∧
    (∀ (u : State) (b : BankId), s.mayFeed → u = s.activateIfReady → b = s.feed.pointer →
      (u.bank b).firstPending u.feed.cursor = none → ∃ t : State, exec .feedRequest s = .next t.beginFrame ∧
        ((s.bank b.other).state = .active → u.plan.order.head? = some b.other →
          t.feed.pointer = b ∧ t.feed.cursor = (s.bank b).slots.length ∧ t.train = s.train ∧ s.slotsKept t ∧
          ((s.bank b).count SlotStatus.isOpen = 0 → (t.bank b).state = .spent ∧ t.feedState = .waiting) ∧
          ((s.bank b).count SlotStatus.isOpen ≠ 0 → (t.bank b).state = .active ∧ t.feedState = .ended)) ∧
        ((s.bank b.other).state ≠ .active → (s.bank b.other).state ≠ .ready →
          t.feed.pointer = b.other ∧ t.feed.cursor = 0 ∧ t.feedState = .waiting ∧ t.feed.bankNeeded = true ∧
          t.train = s.train ∧ s.slotsKept t ∧
          (t.bank b).state = (if (s.bank b).count SlotStatus.isOpen = 0 then .spent else .active) ∧
          ∃ ns, (∀ n ∈ ns, n.ofPlan = true) ∧ .bankNeeded b.other ∈ ns ∧ t.link = s.raisedLink ns) ∧
        (∀ (p i : Nat) (sl : Slot) (d : DatumEntry) (target : Vec3),
          ((s.bank b.other).state = .ready ∧ u.plan.order = [b] ∨
            (s.bank b.other).state = .active ∧ u.plan.order = [b, b.other]) →
          (∀ x ∈ (s.bank b.other).slots, x.status ≠ .fed ∧ ∀ outcome, x.status ≠ .laid outcome) →
          (s.bank b.other).firstPending 0 = some p → (s.bank b.other).walkOrder[p]? = some i →
          s.slot? b.other i = some sl → s.datumOf b.other = some d → target = sl.target.getD (targetOn d sl) →
          s.zone.admits target = true →
          t.slot? b.other i = some { sl with target := some target, status := .fed } ∧
          t.train = { s.train with
            nextSerial := s.train.nextSerial + 1
            entries := s.train.entries ++
              [{ brick :=
                   { serial := s.train.nextSerial, tag := s.feed.nextTag, bank := b.other, slot := i, mark := none }
                 planned := sl.planned, measured := none, state := .requested, deadline := none, lost := false }] } ∧
          t.feed.nextTag = s.feed.nextTag + 1 ∧
          (p + 1 < (s.bank b.other).slots.length → t.feed.pointer = b.other ∧ t.feed.cursor = p + 1) ∧
          ((s.bank b.other).slots.length ≤ p + 1 →
            ((s.bank b).count SlotStatus.isOpen = 0 →
              t.feed.pointer = b ∧ t.feed.cursor = 0 ∧ t.feedState = .waiting ∧ t.feed.bankNeeded = true) ∧
            ((s.bank b).count SlotStatus.isOpen ≠ 0 →
              t.feed.pointer = b.other ∧ t.feed.cursor = p + 1 ∧ t.feedState = .ended)) ∧
          (∃ before after, (∀ n ∈ before ++ after, n.ofPlan = true) ∧
            t.link = s.raisedLink (before ++ .feed s.feed.nextTag b.other i sl.kind sl.planned sl.rotation :: after) ∧
            ((s.bank b.other).slots.length ≤ p + 1 → (s.bank b).count SlotStatus.isOpen = 0 →
              .bankNeeded b ∈ after)) ∧
          (t.bank b.other).state = .active ∧
          (t.bank b).state = (if (s.bank b).count SlotStatus.isOpen = 0 then .spent else .active) ∧
          t.plan.order = (if (s.bank b).count SlotStatus.isOpen = 0 then [b.other] else [b, b.other])) ∧
        t.cradles = s.cradles ∧ t.adhesive = s.adhesive ∧ t.pose = s.pose ∧ t.comp = s.comp ∧ t.place = s.place ∧
        t.datum = s.datum ∧ t.zone = s.zone ∧ t.mode.mode = s.mode.mode ∧ t.clock = s.clock)

/-! ## The links -/

/-- R172, R173, R182: the row of every site command does in every state what the arrival of its frame does. That a row stands for
the arrival of its frame is assumption 1. -/
def Obligations.CommandRowsAreTheArrivalsOfTheirFrames : Prop :=
  ∀ (s : State) (tag a b c d e f : Byte) (w x y z : BitVec 16) (l m n o p q : BitVec 32) (r : BitVec 64)
    (rs : List SlotRecord),
    exec (.identify tag) s = exec (.commandFrameArrival 0x01 tag []) s ∧
    exec (.reset tag) s = exec (.commandFrameArrival 0x02 tag []) s ∧
    exec (.readStatus tag a) s = exec (.commandFrameArrival 0x03 tag [a]) s ∧
    exec (.readBank tag a) s = exec (.commandFrameArrival 0x04 tag [a]) s ∧
    exec (.readSlot tag a b) s = exec (.commandFrameArrival 0x05 tag [a, b]) s ∧
    exec (.setDatum tag a l m n w x y z) s = exec (.commandFrameArrival 0x08 tag
      ([a] ++ be32 l ++ be32 m ++ be32 n ++ be16 w ++ be16 x ++ be16 y ++ be16 z)) s ∧
    exec (.setZoneBox tag l m n o p q) s = exec (.commandFrameArrival 0x09 tag
      (be32 l ++ be32 m ++ be32 n ++ be32 o ++ be32 p ++ be32 q)) s ∧
    exec (.setZoneRow tag a r) s = exec (.commandFrameArrival 0x0A tag ([a] ++ be64 r)) s ∧
    exec (.openBank tag a b c w) s = exec (.commandFrameArrival 0x10 tag ([a, b, c] ++ be16 w)) s ∧
    exec (.loadSlots tag a b c rs) s =
      exec (.commandFrameArrival 0x11 tag ([a, b, c] ++ rs.flatMap SlotRecord.toBytes)) s ∧
    exec (.closeBank tag a) s = exec (.commandFrameArrival 0x12 tag [a]) s ∧
    exec (.discardBank tag a) s = exec (.commandFrameArrival 0x13 tag [a]) s ∧
    exec (.setNextBank tag a) s = exec (.commandFrameArrival 0x14 tag [a]) s ∧
    exec (.skipSlot tag a b) s = exec (.commandFrameArrival 0x15 tag [a, b]) s ∧
    exec (.setPlacement tag a b c d e f w) s =
      exec (.commandFrameArrival 0x18 tag ([a, b, c, d, e, f] ++ be16 w)) s ∧
    exec (.setFeed tag a b c) s = exec (.commandFrameArrival 0x19 tag [a, b, c]) s ∧
    exec (.setAdhesive tag w a x) s = exec (.commandFrameArrival 0x1A tag (be16 w ++ [a] ++ be16 x)) s ∧
    exec (.setSupplyMark tag a b c) s = exec (.commandFrameArrival 0x1B tag [a, b, c]) s ∧
    exec (.setWatch tag a) s = exec (.commandFrameArrival 0x1C tag [a]) s ∧
    exec (.clearWatch tag a) s = exec (.commandFrameArrival 0x1D tag [a]) s ∧
    exec (.setNotices tag w) s = exec (.commandFrameArrival 0x1E tag (be16 w)) s ∧
    exec (.brickLoaded tag a w) s = exec (.commandFrameArrival 0x20 tag ([a] ++ be16 w)) s ∧
    exec (.endCourse tag) s = exec (.commandFrameArrival 0x21 tag []) s ∧
    exec (.purge tag) s = exec (.commandFrameArrival 0x22 tag []) s ∧
    exec (.abandon tag) s = exec (.commandFrameArrival 0x23 tag []) s ∧
    exec (.start tag) s = exec (.commandFrameArrival 0x28 tag []) s ∧
    exec (.pause tag) s = exec (.commandFrameArrival 0x29 tag []) s ∧
    exec (.resume tag) s = exec (.commandFrameArrival 0x2A tag []) s ∧
    exec (.stow tag) s = exec (.commandFrameArrival 0x2B tag []) s ∧
    exec (.enterSetup tag) s = exec (.commandFrameArrival 0x2C tag []) s ∧
    exec (.clearFault tag) s = exec (.commandFrameArrival 0x2D tag []) s

/-- R170, R171: the bytes of a frame, taken one by one from HUNT, complete exactly that frame; the byte that completes a frame
hands it on; a byte that begins none is discarded; one that begins a frame, or stands within its LEN and check, is stored and
changes nothing else; and after a discard hunting goes on from the byte that followed SYNC. -/
def Obligations.FramerTakesWholeFrames : Prop :=
  (∀ (kind tag : Byte) (body : List Byte), body.length ≤ 122 →
    (frameBytes kind tag body).foldl
      (fun (acc : List Frame × Framer) x => (acc.1 ++ (acc.2.receive x).1, (acc.2.receive x).2)) ([], ⟨[]⟩) =
      ([⟨kind, tag, body⟩], ⟨[]⟩)) ∧
  (∀ (s : State) (x kind tag : Byte) (body : List Byte), body.length ≤ 122 →
    (s.link.siteFramer.bytes ++ [x] = frameBytes kind tag body →
      exec (.receiveFramerByte .site x) s =
        exec (.commandFrameArrival kind tag body) { s with link := { s.link with siteFramer := ⟨[]⟩ } }) ∧
    (s.link.trackerFramer.bytes ++ [x] = frameBytes kind tag body →
      exec (.receiveFramerByte .tracker x) s =
        exec (.poseFrameArrival kind tag body) { s with link := { s.link with trackerFramer := ⟨[]⟩ } })) ∧
  (∀ (s : State) (x : Byte), x ≠ 0xC3#8 →
    (s.link.siteFramer.bytes = [] → exec (.receiveFramerByte .site x) s = .next s) ∧
    (s.link.trackerFramer.bytes = [] → exec (.receiveFramerByte .tracker x) s = .next s.beginFrame)) ∧
  (∀ (s : State) (x : Byte) (held after : List Byte), held ++ [x] = 0xC3#8 :: after →
    (∀ len rest, after = len :: rest → 2 ≤ len.toNat ∧ len.toNat ≤ 124 ∧ rest.length < len.toNat + 2) →
    (s.link.siteFramer.bytes = held →
      exec (.receiveFramerByte .site x) s = .next { s with link := { s.link with siteFramer := ⟨held ++ [x]⟩ } }) ∧
    (s.link.trackerFramer.bytes = held →
      exec (.receiveFramerByte .tracker x) s =
        .next ({ s with link := { s.link with trackerFramer := ⟨held ++ [x]⟩ } } : State).beginFrame)) ∧
  (∀ (f : Framer) (x len : Byte) (rest : List Byte), f.bytes ++ [x] = 0xC3#8 :: len :: rest →
    ((len.toNat < 2 ∨ 124 < len.toNat) ∨
      rest.length = len.toNat + 2 ∧ be16 (crc (len :: rest.take len.toNat)) ≠ rest.drop len.toNat) →
    f.receive x = (len :: rest).foldl
      (fun (acc : List Frame × Framer) y => (acc.1 ++ (acc.2.receive y).1, (acc.2.receive y).2)) ([], ⟨[]⟩))

/-- R172, R173: a completed site frame discarded, answered QUEUE FULL, queued, or taken at once and answered UNKNOWN or LENGTH. -/
def Obligations.FramesAreDiscardedQueuedOrAnswered : Prop :=
  ∀ (s : State) (kind tag : Byte) (body : List Byte), s.linkSettled → s.link.resetPending = false →
    ((kind.toNat = 0 ∨ 0x40 ≤ kind.toNat ∨ 16 ≤ s.link.replies.length) →
      exec (.commandFrameArrival kind tag body) s = .next s) ∧
    (1 ≤ kind.toNat → kind.toNat ≤ 0x3F → s.link.replies.length < 16 →
      (4 ≤ s.link.commands.length →
        exec (.commandFrameArrival kind tag body) s = .next { s with link := { s.link with
          replies := s.link.replies ++ [{ kind := kind, tag := tag, code := .queueFull, fields := [] }] } }) ∧
      (s.link.commands.length < 4 → s.link.replies ≠ [] →
        exec (.commandFrameArrival kind tag body) s = .next { s with link := { s.link with
          commands := s.link.commands ++ [{ kind := kind, tag := tag, body := body }] } }) ∧
      (s.link.commands = [] → s.link.replies = [] →
        (namesNoCommand kind = true →
          exec (.commandFrameArrival kind tag body) s = .next (s.replied kind tag .unknown []) ∧
          exec (.unknownCommand kind tag body) s = .next (s.replied kind tag .unknown [])) ∧
        (∀ n : Nat, (kind.toNat, n) ∈
            [(0x01, 0), (0x02, 0), (0x03, 1), (0x04, 1), (0x05, 2), (0x08, 21), (0x09, 24), (0x0A, 9), (0x10, 5), (0x12, 1),
              (0x13, 1), (0x14, 1), (0x15, 2), (0x18, 8), (0x19, 3), (0x1A, 5), (0x1B, 3), (0x1C, 1), (0x1D, 1), (0x1E, 2),
              (0x20, 3), (0x21, 0), (0x22, 0), (0x23, 0), (0x28, 0), (0x29, 0), (0x2A, 0), (0x2B, 0), (0x2C, 0), (0x2D, 0)] →
          body.length ≠ n → exec (.commandFrameArrival kind tag body) s = .next (s.replied kind tag .length [])) ∧
        (kind.toNat = 0x11 → (body.length < 3 ∨ ∀ k, body[2]? = some k → body.length ≠ 3 + 16 * k.toNat) →
          exec (.commandFrameArrival kind tag body) s = .next (s.replied kind tag .length []))))

/-- R173, R174, R176: the end of a frame sent begins the next reply, or else the next notice, or leaves the transmitter free; the
reply that empties the list lets the next command be taken, but none is taken while a RESET is pending. That the row changes nothing
where nothing was being sent is assumption 6's. -/
def Obligations.TransmissionEndSendsTheNext : Prop :=
  ∀ s : State, s.linkSettled →
    (s.link.sending = none → exec .frameTransmissionEnd s = .next s) ∧
    (s.link.sending ≠ none → s.link.resetPending = true → ∀ r rs, s.link.replies = r :: rs →
      exec .frameTransmissionEnd s = .next { s with link := { s.link with sending := some (.reply r), replies := rs } }) ∧
    (s.link.sending ≠ none → s.link.resetPending = false →
      (∀ r rs, s.link.replies = r :: rs →
        ((rs ≠ [] ∨ s.link.commands = []) →
          exec .frameTransmissionEnd s = .next { s with link := { s.link with sending := some (.reply r), replies := rs } }) ∧
        (∀ f fs, rs = [] → s.link.commands = f :: fs → ∃ u : State,
          u = { s with link := { s.link with sending := some (.reply r), replies := [], commands := fs } } ∧
          exec .frameTransmissionEnd s = .next
            ((u.perform f).1.appendReply f.kind f.tag (u.perform f).2))) ∧
      (∀ n ns, s.link.replies = [] → s.link.notices = n :: ns →
        exec .frameTransmissionEnd s = .next { s with link := { s.link with sending := some (.notice n), notices := ns } }) ∧
      (s.link.replies = [] → s.link.notices = [] →
        exec .frameTransmissionEnd s = .next { s with link := { s.link with sending := none } }))

/-! ## The invariants -/

/-- The invariants hold at reset. -/
def Obligations.InvariantHoldsAtReset : Prop := State.reset.Inv

/-- R86, R91, R106, R125, R141, R162, R172 to R174, R177: every step keeps the bounds of the link's collections, the transmitter
and the taking of commands as R173 and R174 give them, CONVEYOR HOLD, the hold reasons, the fault record, the travel of the
setpoints, the pump owner with its operation, the bounds of the pose runs and the has-settled flag; and (R51, R73, R85) that
the entries of the train are apart from each other and that a TIPPING brick is marked. -/
def Obligations.EveryStepKeepsTheInvariant : Prop :=
  ∀ s t : State, s.Inv → step s = .next t → t.Inv

end
end

