-- ==== Sys2Proof/Laws/State.lean ====
section
/-! SUPPORT. One lemma per field per update: what each setter and plain operation leaves as it was, so that no later proof
unfolds a record update. -/

namespace Sys2Proof.Machine

/-! ### raise -/

@[simp] theorem State.raise_plan (s : State) (n : Notice) : (s.raise n).plan = s.plan := by unfold State.raise; split <;> [split <;> rfl; rfl]
@[simp] theorem State.raise_datum (s : State) (n : Notice) : (s.raise n).datum = s.datum := by unfold State.raise; split <;> [split <;> rfl; rfl]
@[simp] theorem State.raise_zone (s : State) (n : Notice) : (s.raise n).zone = s.zone := by unfold State.raise; split <;> [split <;> rfl; rfl]
@[simp] theorem State.raise_feed (s : State) (n : Notice) : (s.raise n).feed = s.feed := by unfold State.raise; split <;> [split <;> rfl; rfl]
@[simp] theorem State.raise_train (s : State) (n : Notice) : (s.raise n).train = s.train := by unfold State.raise; split <;> [split <;> rfl; rfl]
@[simp] theorem State.raise_cradles (s : State) (n : Notice) : (s.raise n).cradles = s.cradles := by unfold State.raise; split <;> [split <;> rfl; rfl]
@[simp] theorem State.raise_adhesive (s : State) (n : Notice) : (s.raise n).adhesive = s.adhesive := by unfold State.raise; split <;> [split <;> rfl; rfl]
@[simp] theorem State.raise_pose (s : State) (n : Notice) : (s.raise n).pose = s.pose := by unfold State.raise; split <;> [split <;> rfl; rfl]
@[simp] theorem State.raise_comp (s : State) (n : Notice) : (s.raise n).comp = s.comp := by unfold State.raise; split <;> [split <;> rfl; rfl]
@[simp] theorem State.raise_place (s : State) (n : Notice) : (s.raise n).place = s.place := by unfold State.raise; split <;> [split <;> rfl; rfl]
@[simp] theorem State.raise_mode (s : State) (n : Notice) : (s.raise n).mode = s.mode := by unfold State.raise; split <;> [split <;> rfl; rfl]
@[simp] theorem State.raise_clock (s : State) (n : Notice) : (s.raise n).clock = s.clock := by unfold State.raise; split <;> [split <;> rfl; rfl]
@[simp] theorem State.raise_pending (s : State) (n : Notice) : (s.raise n).pending = s.pending := by unfold State.raise; split <;> [split <;> rfl; rfl]

/-! ### learnReject -/

@[simp] theorem State.learnReject_plan (s : State) (t : Byte) (r : RejectReason) : (s.learnReject t r).plan = s.plan := rfl
@[simp] theorem State.learnReject_datum (s : State) (t : Byte) (r : RejectReason) : (s.learnReject t r).datum = s.datum := rfl
@[simp] theorem State.learnReject_zone (s : State) (t : Byte) (r : RejectReason) : (s.learnReject t r).zone = s.zone := rfl
@[simp] theorem State.learnReject_feed (s : State) (t : Byte) (r : RejectReason) : (s.learnReject t r).feed = s.feed := rfl
@[simp] theorem State.learnReject_train (s : State) (t : Byte) (r : RejectReason) : (s.learnReject t r).train = s.train := rfl
@[simp] theorem State.learnReject_cradles (s : State) (t : Byte) (r : RejectReason) : (s.learnReject t r).cradles = s.cradles := rfl
@[simp] theorem State.learnReject_adhesive (s : State) (t : Byte) (r : RejectReason) : (s.learnReject t r).adhesive = s.adhesive := rfl
@[simp] theorem State.learnReject_pose (s : State) (t : Byte) (r : RejectReason) : (s.learnReject t r).pose = s.pose := rfl
@[simp] theorem State.learnReject_comp (s : State) (t : Byte) (r : RejectReason) : (s.learnReject t r).comp = s.comp := rfl
@[simp] theorem State.learnReject_place (s : State) (t : Byte) (r : RejectReason) : (s.learnReject t r).place = s.place := rfl
@[simp] theorem State.learnReject_link (s : State) (t : Byte) (r : RejectReason) : (s.learnReject t r).link = s.link := rfl
@[simp] theorem State.learnReject_clock (s : State) (t : Byte) (r : RejectReason) : (s.learnReject t r).clock = s.clock := rfl
@[simp] theorem State.learnReject_pending (s : State) (t : Byte) (r : RejectReason) : (s.learnReject t r).pending = s.pending := rfl

/-! ### raiseRejected -/

@[simp] theorem State.raiseRejected_plan (s : State) (b : Brick) (r : RejectReason) : (s.raiseRejected b r).plan = s.plan := by simp [State.raiseRejected]
@[simp] theorem State.raiseRejected_datum (s : State) (b : Brick) (r : RejectReason) : (s.raiseRejected b r).datum = s.datum := by simp [State.raiseRejected]
@[simp] theorem State.raiseRejected_zone (s : State) (b : Brick) (r : RejectReason) : (s.raiseRejected b r).zone = s.zone := by simp [State.raiseRejected]
@[simp] theorem State.raiseRejected_feed (s : State) (b : Brick) (r : RejectReason) : (s.raiseRejected b r).feed = s.feed := by simp [State.raiseRejected]
@[simp] theorem State.raiseRejected_train (s : State) (b : Brick) (r : RejectReason) : (s.raiseRejected b r).train = s.train := by simp [State.raiseRejected]
@[simp] theorem State.raiseRejected_cradles (s : State) (b : Brick) (r : RejectReason) : (s.raiseRejected b r).cradles = s.cradles := by simp [State.raiseRejected]
@[simp] theorem State.raiseRejected_adhesive (s : State) (b : Brick) (r : RejectReason) : (s.raiseRejected b r).adhesive = s.adhesive := by simp [State.raiseRejected]
@[simp] theorem State.raiseRejected_pose (s : State) (b : Brick) (r : RejectReason) : (s.raiseRejected b r).pose = s.pose := by simp [State.raiseRejected]
@[simp] theorem State.raiseRejected_comp (s : State) (b : Brick) (r : RejectReason) : (s.raiseRejected b r).comp = s.comp := by simp [State.raiseRejected]
@[simp] theorem State.raiseRejected_place (s : State) (b : Brick) (r : RejectReason) : (s.raiseRejected b r).place = s.place := by simp [State.raiseRejected]
@[simp] theorem State.raiseRejected_clock (s : State) (b : Brick) (r : RejectReason) : (s.raiseRejected b r).clock = s.clock := by simp [State.raiseRejected]
@[simp] theorem State.raiseRejected_pending (s : State) (b : Brick) (r : RejectReason) : (s.raiseRejected b r).pending = s.pending := by simp [State.raiseRejected]

/-! ### setBank -/

@[simp] theorem State.setBank_datum (s : State) (b : BankId) (x : Bank) : (s.setBank b x).datum = s.datum := rfl
@[simp] theorem State.setBank_zone (s : State) (b : BankId) (x : Bank) : (s.setBank b x).zone = s.zone := rfl
@[simp] theorem State.setBank_feed (s : State) (b : BankId) (x : Bank) : (s.setBank b x).feed = s.feed := rfl
@[simp] theorem State.setBank_train (s : State) (b : BankId) (x : Bank) : (s.setBank b x).train = s.train := rfl
@[simp] theorem State.setBank_cradles (s : State) (b : BankId) (x : Bank) : (s.setBank b x).cradles = s.cradles := rfl
@[simp] theorem State.setBank_adhesive (s : State) (b : BankId) (x : Bank) : (s.setBank b x).adhesive = s.adhesive := rfl
@[simp] theorem State.setBank_pose (s : State) (b : BankId) (x : Bank) : (s.setBank b x).pose = s.pose := rfl
@[simp] theorem State.setBank_comp (s : State) (b : BankId) (x : Bank) : (s.setBank b x).comp = s.comp := rfl
@[simp] theorem State.setBank_place (s : State) (b : BankId) (x : Bank) : (s.setBank b x).place = s.place := rfl
@[simp] theorem State.setBank_mode (s : State) (b : BankId) (x : Bank) : (s.setBank b x).mode = s.mode := rfl
@[simp] theorem State.setBank_link (s : State) (b : BankId) (x : Bank) : (s.setBank b x).link = s.link := rfl
@[simp] theorem State.setBank_clock (s : State) (b : BankId) (x : Bank) : (s.setBank b x).clock = s.clock := rfl
@[simp] theorem State.setBank_pending (s : State) (b : BankId) (x : Bank) : (s.setBank b x).pending = s.pending := rfl

/-! ### setSlot -/

@[simp] theorem State.setSlot_datum (s : State) (b : BankId) (i : Nat) (x : Slot) : (s.setSlot b i x).datum = s.datum := rfl
@[simp] theorem State.setSlot_zone (s : State) (b : BankId) (i : Nat) (x : Slot) : (s.setSlot b i x).zone = s.zone := rfl
@[simp] theorem State.setSlot_feed (s : State) (b : BankId) (i : Nat) (x : Slot) : (s.setSlot b i x).feed = s.feed := rfl
@[simp] theorem State.setSlot_train (s : State) (b : BankId) (i : Nat) (x : Slot) : (s.setSlot b i x).train = s.train := rfl
@[simp] theorem State.setSlot_cradles (s : State) (b : BankId) (i : Nat) (x : Slot) : (s.setSlot b i x).cradles = s.cradles := rfl
@[simp] theorem State.setSlot_adhesive (s : State) (b : BankId) (i : Nat) (x : Slot) : (s.setSlot b i x).adhesive = s.adhesive := rfl
@[simp] theorem State.setSlot_pose (s : State) (b : BankId) (i : Nat) (x : Slot) : (s.setSlot b i x).pose = s.pose := rfl
@[simp] theorem State.setSlot_comp (s : State) (b : BankId) (i : Nat) (x : Slot) : (s.setSlot b i x).comp = s.comp := rfl
@[simp] theorem State.setSlot_place (s : State) (b : BankId) (i : Nat) (x : Slot) : (s.setSlot b i x).place = s.place := rfl
@[simp] theorem State.setSlot_mode (s : State) (b : BankId) (i : Nat) (x : Slot) : (s.setSlot b i x).mode = s.mode := rfl
@[simp] theorem State.setSlot_link (s : State) (b : BankId) (i : Nat) (x : Slot) : (s.setSlot b i x).link = s.link := rfl
@[simp] theorem State.setSlot_clock (s : State) (b : BankId) (i : Nat) (x : Slot) : (s.setSlot b i x).clock = s.clock := rfl
@[simp] theorem State.setSlot_pending (s : State) (b : BankId) (i : Nat) (x : Slot) : (s.setSlot b i x).pending = s.pending := rfl

/-! ### setOrder -/

@[simp] theorem State.setOrder_datum (s : State) (o : List BankId) : (s.setOrder o).datum = s.datum := rfl
@[simp] theorem State.setOrder_zone (s : State) (o : List BankId) : (s.setOrder o).zone = s.zone := rfl
@[simp] theorem State.setOrder_feed (s : State) (o : List BankId) : (s.setOrder o).feed = s.feed := rfl
@[simp] theorem State.setOrder_train (s : State) (o : List BankId) : (s.setOrder o).train = s.train := rfl
@[simp] theorem State.setOrder_cradles (s : State) (o : List BankId) : (s.setOrder o).cradles = s.cradles := rfl
@[simp] theorem State.setOrder_adhesive (s : State) (o : List BankId) : (s.setOrder o).adhesive = s.adhesive := rfl
@[simp] theorem State.setOrder_pose (s : State) (o : List BankId) : (s.setOrder o).pose = s.pose := rfl
@[simp] theorem State.setOrder_comp (s : State) (o : List BankId) : (s.setOrder o).comp = s.comp := rfl
@[simp] theorem State.setOrder_place (s : State) (o : List BankId) : (s.setOrder o).place = s.place := rfl
@[simp] theorem State.setOrder_mode (s : State) (o : List BankId) : (s.setOrder o).mode = s.mode := rfl
@[simp] theorem State.setOrder_link (s : State) (o : List BankId) : (s.setOrder o).link = s.link := rfl
@[simp] theorem State.setOrder_clock (s : State) (o : List BankId) : (s.setOrder o).clock = s.clock := rfl
@[simp] theorem State.setOrder_pending (s : State) (o : List BankId) : (s.setOrder o).pending = s.pending := rfl

/-! ### evalHold -/

@[simp] theorem State.evalHold_plan (s : State) : (s.evalHold).plan = s.plan := rfl
@[simp] theorem State.evalHold_datum (s : State) : (s.evalHold).datum = s.datum := rfl
@[simp] theorem State.evalHold_zone (s : State) : (s.evalHold).zone = s.zone := rfl
@[simp] theorem State.evalHold_feed (s : State) : (s.evalHold).feed = s.feed := rfl
@[simp] theorem State.evalHold_train (s : State) : (s.evalHold).train = s.train := rfl
@[simp] theorem State.evalHold_adhesive (s : State) : (s.evalHold).adhesive = s.adhesive := rfl
@[simp] theorem State.evalHold_pose (s : State) : (s.evalHold).pose = s.pose := rfl
@[simp] theorem State.evalHold_comp (s : State) : (s.evalHold).comp = s.comp := rfl
@[simp] theorem State.evalHold_place (s : State) : (s.evalHold).place = s.place := rfl
@[simp] theorem State.evalHold_mode (s : State) : (s.evalHold).mode = s.mode := rfl
@[simp] theorem State.evalHold_link (s : State) : (s.evalHold).link = s.link := rfl
@[simp] theorem State.evalHold_clock (s : State) : (s.evalHold).clock = s.clock := rfl
@[simp] theorem State.evalHold_pending (s : State) : (s.evalHold).pending = s.pending := rfl

/-! ### setCradle -/

@[simp] theorem State.setCradle_plan (s : State) (c : CradleId) (x : Cradle) : (s.setCradle c x).plan = s.plan := by cases c <;> rfl
@[simp] theorem State.setCradle_datum (s : State) (c : CradleId) (x : Cradle) : (s.setCradle c x).datum = s.datum := by cases c <;> rfl
@[simp] theorem State.setCradle_zone (s : State) (c : CradleId) (x : Cradle) : (s.setCradle c x).zone = s.zone := by cases c <;> rfl
@[simp] theorem State.setCradle_feed (s : State) (c : CradleId) (x : Cradle) : (s.setCradle c x).feed = s.feed := by cases c <;> rfl
@[simp] theorem State.setCradle_train (s : State) (c : CradleId) (x : Cradle) : (s.setCradle c x).train = s.train := by cases c <;> rfl
@[simp] theorem State.setCradle_adhesive (s : State) (c : CradleId) (x : Cradle) : (s.setCradle c x).adhesive = s.adhesive := by cases c <;> rfl
@[simp] theorem State.setCradle_pose (s : State) (c : CradleId) (x : Cradle) : (s.setCradle c x).pose = s.pose := by cases c <;> rfl
@[simp] theorem State.setCradle_comp (s : State) (c : CradleId) (x : Cradle) : (s.setCradle c x).comp = s.comp := by cases c <;> rfl
@[simp] theorem State.setCradle_place (s : State) (c : CradleId) (x : Cradle) : (s.setCradle c x).place = s.place := by cases c <;> rfl
@[simp] theorem State.setCradle_mode (s : State) (c : CradleId) (x : Cradle) : (s.setCradle c x).mode = s.mode := by cases c <;> rfl
@[simp] theorem State.setCradle_link (s : State) (c : CradleId) (x : Cradle) : (s.setCradle c x).link = s.link := by cases c <;> rfl
@[simp] theorem State.setCradle_clock (s : State) (c : CradleId) (x : Cradle) : (s.setCradle c x).clock = s.clock := by cases c <;> rfl
@[simp] theorem State.setCradle_pending (s : State) (c : CradleId) (x : Cradle) : (s.setCradle c x).pending = s.pending := by cases c <;> rfl

/-! ### setEntries -/

@[simp] theorem State.setEntries_plan (s : State) (es : List TrainEntry) : (s.setEntries es).plan = s.plan := rfl
@[simp] theorem State.setEntries_datum (s : State) (es : List TrainEntry) : (s.setEntries es).datum = s.datum := rfl
@[simp] theorem State.setEntries_zone (s : State) (es : List TrainEntry) : (s.setEntries es).zone = s.zone := rfl
@[simp] theorem State.setEntries_feed (s : State) (es : List TrainEntry) : (s.setEntries es).feed = s.feed := rfl
@[simp] theorem State.setEntries_cradles (s : State) (es : List TrainEntry) : (s.setEntries es).cradles = s.cradles := rfl
@[simp] theorem State.setEntries_adhesive (s : State) (es : List TrainEntry) : (s.setEntries es).adhesive = s.adhesive := rfl
@[simp] theorem State.setEntries_pose (s : State) (es : List TrainEntry) : (s.setEntries es).pose = s.pose := rfl
@[simp] theorem State.setEntries_comp (s : State) (es : List TrainEntry) : (s.setEntries es).comp = s.comp := rfl
@[simp] theorem State.setEntries_place (s : State) (es : List TrainEntry) : (s.setEntries es).place = s.place := rfl
@[simp] theorem State.setEntries_mode (s : State) (es : List TrainEntry) : (s.setEntries es).mode = s.mode := rfl
@[simp] theorem State.setEntries_link (s : State) (es : List TrainEntry) : (s.setEntries es).link = s.link := rfl
@[simp] theorem State.setEntries_clock (s : State) (es : List TrainEntry) : (s.setEntries es).clock = s.clock := rfl
@[simp] theorem State.setEntries_pending (s : State) (es : List TrainEntry) : (s.setEntries es).pending = s.pending := rfl

/-! ### setBankSwitch -/

@[simp] theorem State.setBankSwitch_plan (s : State) (b : BankId) (x : Bool) : (s.setBankSwitch b x).plan = s.plan := by cases b <;> rfl
@[simp] theorem State.setBankSwitch_datum (s : State) (b : BankId) (x : Bool) : (s.setBankSwitch b x).datum = s.datum := by cases b <;> rfl
@[simp] theorem State.setBankSwitch_zone (s : State) (b : BankId) (x : Bool) : (s.setBankSwitch b x).zone = s.zone := by cases b <;> rfl
@[simp] theorem State.setBankSwitch_feed (s : State) (b : BankId) (x : Bool) : (s.setBankSwitch b x).feed = s.feed := by cases b <;> rfl
@[simp] theorem State.setBankSwitch_train (s : State) (b : BankId) (x : Bool) : (s.setBankSwitch b x).train = s.train := by cases b <;> rfl
@[simp] theorem State.setBankSwitch_cradles (s : State) (b : BankId) (x : Bool) : (s.setBankSwitch b x).cradles = s.cradles := by cases b <;> rfl
@[simp] theorem State.setBankSwitch_adhesive (s : State) (b : BankId) (x : Bool) : (s.setBankSwitch b x).adhesive = s.adhesive := by cases b <;> rfl
@[simp] theorem State.setBankSwitch_pose (s : State) (b : BankId) (x : Bool) : (s.setBankSwitch b x).pose = s.pose := by cases b <;> rfl
@[simp] theorem State.setBankSwitch_comp (s : State) (b : BankId) (x : Bool) : (s.setBankSwitch b x).comp = s.comp := by cases b <;> rfl
@[simp] theorem State.setBankSwitch_place (s : State) (b : BankId) (x : Bool) : (s.setBankSwitch b x).place = s.place := by cases b <;> rfl
@[simp] theorem State.setBankSwitch_link (s : State) (b : BankId) (x : Bool) : (s.setBankSwitch b x).link = s.link := by cases b <;> rfl
@[simp] theorem State.setBankSwitch_clock (s : State) (b : BankId) (x : Bool) : (s.setBankSwitch b x).clock = s.clock := by cases b <;> rfl
@[simp] theorem State.setBankSwitch_pending (s : State) (b : BankId) (x : Bool) : (s.setBankSwitch b x).pending = s.pending := by cases b <;> rfl

/-! ### centre -/

@[simp] theorem State.centre_plan (s : State) : (s.centre).plan = s.plan := rfl
@[simp] theorem State.centre_datum (s : State) : (s.centre).datum = s.datum := rfl
@[simp] theorem State.centre_zone (s : State) : (s.centre).zone = s.zone := rfl
@[simp] theorem State.centre_feed (s : State) : (s.centre).feed = s.feed := rfl
@[simp] theorem State.centre_train (s : State) : (s.centre).train = s.train := rfl
@[simp] theorem State.centre_cradles (s : State) : (s.centre).cradles = s.cradles := rfl
@[simp] theorem State.centre_adhesive (s : State) : (s.centre).adhesive = s.adhesive := rfl
@[simp] theorem State.centre_pose (s : State) : (s.centre).pose = s.pose := rfl
@[simp] theorem State.centre_place (s : State) : (s.centre).place = s.place := rfl
@[simp] theorem State.centre_mode (s : State) : (s.centre).mode = s.mode := rfl
@[simp] theorem State.centre_link (s : State) : (s.centre).link = s.link := rfl
@[simp] theorem State.centre_clock (s : State) : (s.centre).clock = s.clock := rfl
@[simp] theorem State.centre_pending (s : State) : (s.centre).pending = s.pending := rfl

/-! ### runTo -/

@[simp] theorem State.runTo_plan (s : State) (t : Time) : (s.runTo t).plan = s.plan := rfl
@[simp] theorem State.runTo_datum (s : State) (t : Time) : (s.runTo t).datum = s.datum := rfl
@[simp] theorem State.runTo_zone (s : State) (t : Time) : (s.runTo t).zone = s.zone := rfl
@[simp] theorem State.runTo_feed (s : State) (t : Time) : (s.runTo t).feed = s.feed := rfl
@[simp] theorem State.runTo_train (s : State) (t : Time) : (s.runTo t).train = s.train := rfl
@[simp] theorem State.runTo_cradles (s : State) (t : Time) : (s.runTo t).cradles = s.cradles := rfl
@[simp] theorem State.runTo_pose (s : State) (t : Time) : (s.runTo t).pose = s.pose := rfl
@[simp] theorem State.runTo_comp (s : State) (t : Time) : (s.runTo t).comp = s.comp := rfl
@[simp] theorem State.runTo_place (s : State) (t : Time) : (s.runTo t).place = s.place := rfl
@[simp] theorem State.runTo_mode (s : State) (t : Time) : (s.runTo t).mode = s.mode := rfl
@[simp] theorem State.runTo_link (s : State) (t : Time) : (s.runTo t).link = s.link := rfl
@[simp] theorem State.runTo_pending (s : State) (t : Time) : (s.runTo t).pending = s.pending := rfl

/-! ### evalSupply -/

@[simp] theorem State.evalSupply_plan (s : State) : (s.evalSupply).plan = s.plan := by unfold State.evalSupply; dsimp only; split <;> simp
@[simp] theorem State.evalSupply_datum (s : State) : (s.evalSupply).datum = s.datum := by unfold State.evalSupply; dsimp only; split <;> simp
@[simp] theorem State.evalSupply_zone (s : State) : (s.evalSupply).zone = s.zone := by unfold State.evalSupply; dsimp only; split <;> simp
@[simp] theorem State.evalSupply_train (s : State) : (s.evalSupply).train = s.train := by unfold State.evalSupply; dsimp only; split <;> simp
@[simp] theorem State.evalSupply_cradles (s : State) : (s.evalSupply).cradles = s.cradles := by unfold State.evalSupply; dsimp only; split <;> simp
@[simp] theorem State.evalSupply_adhesive (s : State) : (s.evalSupply).adhesive = s.adhesive := by unfold State.evalSupply; dsimp only; split <;> simp
@[simp] theorem State.evalSupply_pose (s : State) : (s.evalSupply).pose = s.pose := by unfold State.evalSupply; dsimp only; split <;> simp
@[simp] theorem State.evalSupply_comp (s : State) : (s.evalSupply).comp = s.comp := by unfold State.evalSupply; dsimp only; split <;> simp
@[simp] theorem State.evalSupply_place (s : State) : (s.evalSupply).place = s.place := by unfold State.evalSupply; dsimp only; split <;> simp
@[simp] theorem State.evalSupply_mode (s : State) : (s.evalSupply).mode = s.mode := by unfold State.evalSupply; dsimp only; split <;> simp
@[simp] theorem State.evalSupply_clock (s : State) : (s.evalSupply).clock = s.clock := by unfold State.evalSupply; dsimp only; split <;> simp
@[simp] theorem State.evalSupply_pending (s : State) : (s.evalSupply).pending = s.pending := by unfold State.evalSupply; dsimp only; split <;> simp

/-! ### tip -/

@[simp] theorem State.tip_plan (s : State) (c : CradleId) (b : CradleBrick) (r : RejectReason) : (s.tip c b r).plan = s.plan := by simp [State.tip]
@[simp] theorem State.tip_datum (s : State) (c : CradleId) (b : CradleBrick) (r : RejectReason) : (s.tip c b r).datum = s.datum := by simp [State.tip]
@[simp] theorem State.tip_zone (s : State) (c : CradleId) (b : CradleBrick) (r : RejectReason) : (s.tip c b r).zone = s.zone := by simp [State.tip]
@[simp] theorem State.tip_feed (s : State) (c : CradleId) (b : CradleBrick) (r : RejectReason) : (s.tip c b r).feed = s.feed := by simp [State.tip]
@[simp] theorem State.tip_train (s : State) (c : CradleId) (b : CradleBrick) (r : RejectReason) : (s.tip c b r).train = s.train := by simp [State.tip]
@[simp] theorem State.tip_adhesive (s : State) (c : CradleId) (b : CradleBrick) (r : RejectReason) : (s.tip c b r).adhesive = s.adhesive := by simp [State.tip]
@[simp] theorem State.tip_pose (s : State) (c : CradleId) (b : CradleBrick) (r : RejectReason) : (s.tip c b r).pose = s.pose := by simp [State.tip]
@[simp] theorem State.tip_comp (s : State) (c : CradleId) (b : CradleBrick) (r : RejectReason) : (s.tip c b r).comp = s.comp := by simp [State.tip]
@[simp] theorem State.tip_place (s : State) (c : CradleId) (b : CradleBrick) (r : RejectReason) : (s.tip c b r).place = s.place := by simp [State.tip]
@[simp] theorem State.tip_mode (s : State) (c : CradleId) (b : CradleBrick) (r : RejectReason) : (s.tip c b r).mode = s.mode := by simp [State.tip]
@[simp] theorem State.tip_link (s : State) (c : CradleId) (b : CradleBrick) (r : RejectReason) : (s.tip c b r).link = s.link := by simp [State.tip]
@[simp] theorem State.tip_clock (s : State) (c : CradleId) (b : CradleBrick) (r : RejectReason) : (s.tip c b r).clock = s.clock := by simp [State.tip]
@[simp] theorem State.tip_pending (s : State) (c : CradleId) (b : CradleBrick) (r : RejectReason) : (s.tip c b r).pending = s.pending := by simp [State.tip]

/-! ### changeMode -/

@[simp] theorem State.changeMode_plan (s : State) (m : PartMode) (c : ModeCause) : (s.changeMode m c).plan = s.plan := by simp [State.changeMode]
@[simp] theorem State.changeMode_datum (s : State) (m : PartMode) (c : ModeCause) : (s.changeMode m c).datum = s.datum := by simp [State.changeMode]
@[simp] theorem State.changeMode_zone (s : State) (m : PartMode) (c : ModeCause) : (s.changeMode m c).zone = s.zone := by simp [State.changeMode]
@[simp] theorem State.changeMode_feed (s : State) (m : PartMode) (c : ModeCause) : (s.changeMode m c).feed = s.feed := by simp [State.changeMode]
@[simp] theorem State.changeMode_train (s : State) (m : PartMode) (c : ModeCause) : (s.changeMode m c).train = s.train := by simp [State.changeMode]
@[simp] theorem State.changeMode_cradles (s : State) (m : PartMode) (c : ModeCause) : (s.changeMode m c).cradles = s.cradles := by simp [State.changeMode]
@[simp] theorem State.changeMode_adhesive (s : State) (m : PartMode) (c : ModeCause) : (s.changeMode m c).adhesive = s.adhesive := by simp [State.changeMode]
@[simp] theorem State.changeMode_pose (s : State) (m : PartMode) (c : ModeCause) : (s.changeMode m c).pose = s.pose := by simp [State.changeMode]
@[simp] theorem State.changeMode_comp (s : State) (m : PartMode) (c : ModeCause) : (s.changeMode m c).comp = s.comp := by simp [State.changeMode]
@[simp] theorem State.changeMode_clock (s : State) (m : PartMode) (c : ModeCause) : (s.changeMode m c).clock = s.clock := by simp [State.changeMode]
@[simp] theorem State.changeMode_pending (s : State) (m : PartMode) (c : ModeCause) : (s.changeMode m c).pending = s.pending := by simp [State.changeMode]

/-! ### restartPlacementTimer -/

@[simp] theorem State.restartPlacementTimer_plan (s : State) : (s.restartPlacementTimer).plan = s.plan := by unfold State.restartPlacementTimer; split <;> rfl
@[simp] theorem State.restartPlacementTimer_datum (s : State) : (s.restartPlacementTimer).datum = s.datum := by unfold State.restartPlacementTimer; split <;> rfl
@[simp] theorem State.restartPlacementTimer_zone (s : State) : (s.restartPlacementTimer).zone = s.zone := by unfold State.restartPlacementTimer; split <;> rfl
@[simp] theorem State.restartPlacementTimer_feed (s : State) : (s.restartPlacementTimer).feed = s.feed := by unfold State.restartPlacementTimer; split <;> rfl
@[simp] theorem State.restartPlacementTimer_train (s : State) : (s.restartPlacementTimer).train = s.train := by unfold State.restartPlacementTimer; split <;> rfl
@[simp] theorem State.restartPlacementTimer_cradles (s : State) : (s.restartPlacementTimer).cradles = s.cradles := by unfold State.restartPlacementTimer; split <;> rfl
@[simp] theorem State.restartPlacementTimer_adhesive (s : State) : (s.restartPlacementTimer).adhesive = s.adhesive := by unfold State.restartPlacementTimer; split <;> rfl
@[simp] theorem State.restartPlacementTimer_pose (s : State) : (s.restartPlacementTimer).pose = s.pose := by unfold State.restartPlacementTimer; split <;> rfl
@[simp] theorem State.restartPlacementTimer_comp (s : State) : (s.restartPlacementTimer).comp = s.comp := by unfold State.restartPlacementTimer; split <;> rfl
@[simp] theorem State.restartPlacementTimer_mode (s : State) : (s.restartPlacementTimer).mode = s.mode := by unfold State.restartPlacementTimer; split <;> rfl
@[simp] theorem State.restartPlacementTimer_link (s : State) : (s.restartPlacementTimer).link = s.link := by unfold State.restartPlacementTimer; split <;> rfl
@[simp] theorem State.restartPlacementTimer_clock (s : State) : (s.restartPlacementTimer).clock = s.clock := by unfold State.restartPlacementTimer; split <;> rfl
@[simp] theorem State.restartPlacementTimer_pending (s : State) : (s.restartPlacementTimer).pending = s.pending := by unfold State.restartPlacementTimer; split <;> rfl

/-! ### freezePlacement -/

@[simp] theorem State.freezePlacement_plan (s : State) : (s.freezePlacement).plan = s.plan := rfl
@[simp] theorem State.freezePlacement_datum (s : State) : (s.freezePlacement).datum = s.datum := rfl
@[simp] theorem State.freezePlacement_zone (s : State) : (s.freezePlacement).zone = s.zone := rfl
@[simp] theorem State.freezePlacement_feed (s : State) : (s.freezePlacement).feed = s.feed := rfl
@[simp] theorem State.freezePlacement_train (s : State) : (s.freezePlacement).train = s.train := rfl
@[simp] theorem State.freezePlacement_cradles (s : State) : (s.freezePlacement).cradles = s.cradles := rfl
@[simp] theorem State.freezePlacement_adhesive (s : State) : (s.freezePlacement).adhesive = s.adhesive := rfl
@[simp] theorem State.freezePlacement_pose (s : State) : (s.freezePlacement).pose = s.pose := rfl
@[simp] theorem State.freezePlacement_comp (s : State) : (s.freezePlacement).comp = s.comp := rfl
@[simp] theorem State.freezePlacement_mode (s : State) : (s.freezePlacement).mode = s.mode := rfl
@[simp] theorem State.freezePlacement_link (s : State) : (s.freezePlacement).link = s.link := rfl
@[simp] theorem State.freezePlacement_clock (s : State) : (s.freezePlacement).clock = s.clock := rfl
@[simp] theorem State.freezePlacement_pending (s : State) : (s.freezePlacement).pending = s.pending := rfl

/-! ### appendReply -/

@[simp] theorem State.appendReply_plan (s : State) (k t : Byte) (a : Answer) : (s.appendReply k t a).plan = s.plan := rfl
@[simp] theorem State.appendReply_datum (s : State) (k t : Byte) (a : Answer) : (s.appendReply k t a).datum = s.datum := rfl
@[simp] theorem State.appendReply_zone (s : State) (k t : Byte) (a : Answer) : (s.appendReply k t a).zone = s.zone := rfl
@[simp] theorem State.appendReply_feed (s : State) (k t : Byte) (a : Answer) : (s.appendReply k t a).feed = s.feed := rfl
@[simp] theorem State.appendReply_train (s : State) (k t : Byte) (a : Answer) : (s.appendReply k t a).train = s.train := rfl
@[simp] theorem State.appendReply_cradles (s : State) (k t : Byte) (a : Answer) : (s.appendReply k t a).cradles = s.cradles := rfl
@[simp] theorem State.appendReply_adhesive (s : State) (k t : Byte) (a : Answer) : (s.appendReply k t a).adhesive = s.adhesive := rfl
@[simp] theorem State.appendReply_pose (s : State) (k t : Byte) (a : Answer) : (s.appendReply k t a).pose = s.pose := rfl
@[simp] theorem State.appendReply_comp (s : State) (k t : Byte) (a : Answer) : (s.appendReply k t a).comp = s.comp := rfl
@[simp] theorem State.appendReply_place (s : State) (k t : Byte) (a : Answer) : (s.appendReply k t a).place = s.place := rfl
@[simp] theorem State.appendReply_mode (s : State) (k t : Byte) (a : Answer) : (s.appendReply k t a).mode = s.mode := rfl
@[simp] theorem State.appendReply_clock (s : State) (k t : Byte) (a : Answer) : (s.appendReply k t a).clock = s.clock := rfl
@[simp] theorem State.appendReply_pending (s : State) (k t : Byte) (a : Answer) : (s.appendReply k t a).pending = s.pending := rfl

/-! ### beginFrame -/

@[simp] theorem State.beginFrame_plan (s : State) : (s.beginFrame).plan = s.plan := by unfold State.beginFrame; split <;> [rfl; (split <;> rfl)]
@[simp] theorem State.beginFrame_datum (s : State) : (s.beginFrame).datum = s.datum := by unfold State.beginFrame; split <;> [rfl; (split <;> rfl)]
@[simp] theorem State.beginFrame_zone (s : State) : (s.beginFrame).zone = s.zone := by unfold State.beginFrame; split <;> [rfl; (split <;> rfl)]
@[simp] theorem State.beginFrame_feed (s : State) : (s.beginFrame).feed = s.feed := by unfold State.beginFrame; split <;> [rfl; (split <;> rfl)]
@[simp] theorem State.beginFrame_train (s : State) : (s.beginFrame).train = s.train := by unfold State.beginFrame; split <;> [rfl; (split <;> rfl)]
@[simp] theorem State.beginFrame_cradles (s : State) : (s.beginFrame).cradles = s.cradles := by unfold State.beginFrame; split <;> [rfl; (split <;> rfl)]
@[simp] theorem State.beginFrame_adhesive (s : State) : (s.beginFrame).adhesive = s.adhesive := by unfold State.beginFrame; split <;> [rfl; (split <;> rfl)]
@[simp] theorem State.beginFrame_pose (s : State) : (s.beginFrame).pose = s.pose := by unfold State.beginFrame; split <;> [rfl; (split <;> rfl)]
@[simp] theorem State.beginFrame_comp (s : State) : (s.beginFrame).comp = s.comp := by unfold State.beginFrame; split <;> [rfl; (split <;> rfl)]
@[simp] theorem State.beginFrame_place (s : State) : (s.beginFrame).place = s.place := by unfold State.beginFrame; split <;> [rfl; (split <;> rfl)]
@[simp] theorem State.beginFrame_mode (s : State) : (s.beginFrame).mode = s.mode := by unfold State.beginFrame; split <;> [rfl; (split <;> rfl)]
@[simp] theorem State.beginFrame_clock (s : State) : (s.beginFrame).clock = s.clock := by unfold State.beginFrame; split <;> [rfl; (split <;> rfl)]
@[simp] theorem State.beginFrame_pending (s : State) : (s.beginFrame).pending = s.pending := by unfold State.beginFrame; split <;> [rfl; (split <;> rfl)]

/-! ### The fields an update writes -/

@[simp] theorem State.setEntries_entries (s : State) (es : List TrainEntry) : (s.setEntries es).train.entries = es := rfl
@[simp] theorem State.setEntries_timeout (s : State) (es : List TrainEntry) :
    (s.setEntries es).train.timeout = s.train.timeout := rfl
@[simp] theorem State.setEntries_nextSerial (s : State) (es : List TrainEntry) :
    (s.setEntries es).train.nextSerial = s.train.nextSerial := rfl
@[simp] theorem State.setOrder_order (s : State) (o : List BankId) : (s.setOrder o).plan.order = o := rfl
@[simp] theorem State.setOrder_bank (s : State) (o : List BankId) (b : BankId) : (s.setOrder o).bank b = s.bank b := by
  cases b <;> rfl
@[simp] theorem State.setBank_bank_self (s : State) (b : BankId) (x : Bank) : (s.setBank b x).bank b = x := by
  cases b <;> rfl
theorem State.setBank_bank_other (s : State) (b c : BankId) (x : Bank) (h : c ≠ b) :
    (s.setBank b x).bank c = s.bank c := by
  cases b <;> cases c <;> first | rfl | exact absurd rfl h
@[simp] theorem State.setBank_order (s : State) (b : BankId) (x : Bank) : (s.setBank b x).plan.order = s.plan.order := by
  cases b <;> rfl
@[simp] theorem State.setCradle_self (s : State) (c : CradleId) (x : Cradle) : (s.setCradle c x).cradle c = x := by
  cases c <;> rfl
theorem State.setCradle_other (s : State) (c d : CradleId) (x : Cradle) (h : d ≠ c) :
    (s.setCradle c x).cradle d = s.cradle d := by
  cases c <;> cases d <;> first | rfl | exact absurd rfl h
@[simp] theorem State.centre_setpoints (s : State) : s.centre.comp.setpoints = ⟨0, 0, 0, 0⟩ := rfl
@[simp] theorem State.evalHold_hold (s : State) : s.evalHold.cradles.hold = (s.emptyCradle.isNone || s.faulted) := rfl
@[simp] theorem State.runTo_now (s : State) (t : Time) : (s.runTo t).clock.now = max s.clock.now t := rfl
@[simp] theorem State.runTo_stoppedAt (s : State) (t : Time) : (s.runTo t).clock.stoppedAt = s.clock.stoppedAt := rfl
@[simp] theorem State.changeMode_mode_mode (s : State) (m : PartMode) (c : ModeCause) :
    (s.changeMode m c).mode.mode = m := by simp [State.changeMode]
@[simp] theorem State.changeMode_holdPaused (s : State) (m : PartMode) (c : ModeCause) :
    (s.changeMode m c).place.holdPaused = decide (m = PartMode.paused) := by simp [State.changeMode]

/-- The notice queue after a notice is raised: unchanged, or one longer while it had room (R177). -/
theorem State.raise_link (s : State) (n : Notice) :
    (s.raise n).link = s.link ∨ (s.raise n).link = { s.link with dropped := true } ∨
      ((s.raise n).link = { s.link with notices := s.link.notices ++ [n] } ∧ s.link.notices.length < 16) := by
  unfold State.raise
  split
  · split
    · exact .inr (.inr ⟨rfl, ‹_›⟩)
    · exact .inr (.inl rfl)
  · exact .inl rfl

/-- A notice raised touches the link alone (R177). -/
theorem State.raise_eq (s : State) (n : Notice) : s.raise n = { s with link := (s.raise n).link } := by
  unfold State.raise
  split <;> [split <;> rfl; rfl]

/-- What a notice makes of the link depends on the link alone (R177). -/
theorem State.raise_link_congr {s t : State} (n : Notice) (h : t.link = s.link) :
    (t.raise n).link = (s.raise n).link := by
  unfold State.raise
  rw [h]
  split <;> [split <;> simp; exact h]

/-- A notice raised and the Pose Filter written, in either order. -/
theorem State.raise_with_pose (s : State) (f : PoseFilter) (n : Notice) :
    State.raise { s with pose := f } n = { s.raise n with pose := f } := by
  have h := State.raise_link_congr (s := s) (t := { s with pose := f }) n rfl
  rw [State.raise_eq { s with pose := f }, h, State.raise_eq s]

/-- The notice that is enabled and finds room joins the tail of the queue (R177). -/
theorem State.raise_enabled (s : State) (n : Notice) (he : (n.isFault || s.link.enables.getLsbD n.member) = true)
    (hr : s.link.notices.length < 16) :
    s.raise n = { s with link := { s.link with notices := s.link.notices ++ [n] } } := by
  simp [State.raise, he, hr]

/-- A transmitter with nothing to begin leaves the state as it is (R174). -/
theorem State.beginFrame_of_idle (s : State) (h : s.linkIdle) : s.beginFrame = s := by
  obtain ⟨_, hr, _, hn⟩ := h
  unfold State.beginFrame
  split
  · rfl
  · rename_i hs
    simp [hr, hn hs]

/-- A command row that arrives where nothing waits is taken by its owner in the same event (R173). -/
theorem State.submit_of_idle (s : State) (h : s.linkIdle) (f : Frame) (own : State → State × Answer) :
    s.submit f own = (own s).1.replied f.kind f.tag (own s).2.code (own s).2.fields := by
  have hb := s.beginFrame_of_idle h
  obtain ⟨hc, hr, hp, _⟩ := h
  simp [State.submit, hp, hc, hr, hb, State.answer, State.replied]

/-- What a command row answers, from what its owner answers (R173). -/
theorem State.submit_answers (s : State) (h : s.linkIdle) (f : Frame) (own : State → State × Answer) {t : State}
    {a : Answer} (e : own s = (t, a)) : s.submit f own = t.replied f.kind f.tag a.code a.fields := by
  rw [s.submit_of_idle h, e]

end Sys2Proof.Machine
end

