-- ==== Sys2Proof/Laws/Moves.lean ====
section
/-! SUPPORT. What the shared operations of the plan and of the brick path can do, said once: `PlanMove` for the operations
that record statuses and move the cursor, `PathMove` for those that withdraw bricks. -/

namespace Sys2Proof.Machine

/-! ## PlanMove: statuses, cursor, BANK SPENT, SUPPLY, BANK NEEDED -/

/-- Only the plan, the Feed Sequencer, the bank-switch flags and the notice queue with its flag change. -/
structure PlanMove (s s' : State) : Prop where
  datum    : s'.datum = s.datum
  zone     : s'.zone = s.zone
  train    : s'.train = s.train
  cradles  : s'.cradles = s.cradles
  adhesive : s'.adhesive = s.adhesive
  pose     : s'.pose = s.pose
  comp     : s'.comp = s.comp
  place    : s'.place = s.place
  clock    : s'.clock = s.clock
  pending  : s'.pending = s.pending
  mode     : s'.mode = { s.mode with bankSwitch0 := s'.mode.bankSwitch0, bankSwitch1 := s'.mode.bankSwitch1 }
  link     : s'.link = { s.link with notices := s'.link.notices, dropped := s'.link.dropped }
  bound    : s.link.notices.length ≤ 16 → s'.link.notices.length ≤ 16

theorem PlanMove.refl (s : State) : PlanMove s s :=
  ⟨rfl, rfl, rfl, rfl, rfl, rfl, rfl, rfl, rfl, rfl, rfl, rfl, id⟩

theorem PlanMove.trans {s t u : State} (h : PlanMove s t) (k : PlanMove t u) : PlanMove s u where
  datum := k.datum.trans h.datum
  zone := k.zone.trans h.zone
  train := k.train.trans h.train
  cradles := k.cradles.trans h.cradles
  adhesive := k.adhesive.trans h.adhesive
  pose := k.pose.trans h.pose
  comp := k.comp.trans h.comp
  place := k.place.trans h.place
  clock := k.clock.trans h.clock
  pending := k.pending.trans h.pending
  mode := by rw [k.mode, h.mode]
  link := by rw [k.link, h.link]
  bound := fun b => k.bound (h.bound b)

/-- A step that changes the plan and the Feed Sequencer alone. -/
theorem PlanMove.of_plan_feed (s : State) (p : PlanStore) (f : FeedSequencer) :
    PlanMove s { s with plan := p, feed := f } :=
  ⟨rfl, rfl, rfl, rfl, rfl, rfl, rfl, rfl, rfl, rfl, rfl, rfl, id⟩

theorem State.raise_planMove (s : State) (n : Notice) : PlanMove s (s.raise n) := by
  unfold State.raise
  split
  · split
    · rename_i h
      exact ⟨rfl, rfl, rfl, rfl, rfl, rfl, rfl, rfl, rfl, rfl, rfl, rfl, fun _ => by simpa using h⟩
    · exact ⟨rfl, rfl, rfl, rfl, rfl, rfl, rfl, rfl, rfl, rfl, rfl, rfl, id⟩
  · exact .refl s

theorem State.setBank_planMove (s : State) (b : BankId) (x : Bank) : PlanMove s (s.setBank b x) :=
  ⟨rfl, rfl, rfl, rfl, rfl, rfl, rfl, rfl, rfl, rfl, rfl, rfl, id⟩

theorem State.setSlot_planMove (s : State) (b : BankId) (i : Nat) (x : Slot) : PlanMove s (s.setSlot b i x) :=
  s.setBank_planMove b _

theorem State.setOrder_planMove (s : State) (o : List BankId) : PlanMove s (s.setOrder o) :=
  ⟨rfl, rfl, rfl, rfl, rfl, rfl, rfl, rfl, rfl, rfl, rfl, rfl, id⟩

theorem State.setBankSwitch_planMove (s : State) (b : BankId) (x : Bool) : PlanMove s (s.setBankSwitch b x) := by
  cases b <;> exact ⟨rfl, rfl, rfl, rfl, rfl, rfl, rfl, rfl, rfl, rfl, rfl, rfl, id⟩

theorem State.evalSupply_planMove (s : State) : PlanMove s s.evalSupply := by
  unfold State.evalSupply
  dsimp only
  split
  · exact (PlanMove.of_plan_feed s s.plan _).trans (State.raise_planMove _ _)
  · exact .of_plan_feed s s.plan _

theorem State.needBank_planMove (s : State) : PlanMove s s.needBank := by
  unfold State.needBank
  split
  · exact (PlanMove.of_plan_feed s s.plan _).trans (State.raise_planMove _ _)
  · exact .refl s

theorem State.spend_planMove (s : State) (b : BankId) : PlanMove s (s.spend b) :=
  ((((s.setBank_planMove b _).trans (State.setOrder_planMove _ _)).trans (State.setBankSwitch_planMove _ _ _)).trans
    (State.raise_planMove _ _)).trans (State.evalSupply_planMove _)

theorem State.testSpent_planMove (s : State) (b : BankId) : PlanMove s (s.testSpent b) := by
  unfold State.testSpent
  split
  · exact s.spend_planMove b
  · exact .refl s

theorem State.placeCursor_planMove (s : State) (b : BankId) (c : Nat) : PlanMove s (s.placeCursor b c) :=
  (PlanMove.of_plan_feed s s.plan _).trans (State.evalSupply_planMove _)

theorem State.moveCursor_planMove (s : State) (b : BankId) (c : Nat) : PlanMove s (s.moveCursor b c) :=
  (s.placeCursor_planMove b c).trans (State.testSpent_planMove _ _)

theorem State.walkEnd_planMove (s : State) : PlanMove s s.walkEnd := by
  unfold State.walkEnd
  refine PlanMove.trans ?_ (State.needBank_planMove _)
  split
  · exact s.moveCursor_planMove _ _
  · split
    · exact s.testSpent_planMove _
    · exact s.moveCursor_planMove _ _
  · exact s.moveCursor_planMove _ _
  · exact s.moveCursor_planMove _ _
  · exact s.moveCursor_planMove _ _

theorem State.advanceCursor_planMove (s : State) (c : Nat) : PlanMove s (s.advanceCursor c) := by
  unfold State.advanceCursor
  split
  · exact (s.placeCursor_planMove _ c).trans (State.walkEnd_planMove _)
  · exact s.moveCursor_planMove _ c

theorem State.spendIfDue_planMove (s : State) (b : BankId) : PlanMove s (s.spendIfDue b) := by
  unfold State.spendIfDue
  split
  · dsimp only
    split
    · exact (s.spend_planMove b).trans (State.walkEnd_planMove _)
    · exact (s.spend_planMove b).trans (State.needBank_planMove _)
  · exact .refl s

/-- A status recorded, with the supply mark and the spent test it brings (R15). -/
theorem State.recordStatus_planMove (s : State) (b : BankId) (i : Nat) (st : SlotStatus) :
    PlanMove s (s.recordStatus b i st) := by
  unfold State.recordStatus
  split
  · exact ((s.setSlot_planMove b i _).trans (State.evalSupply_planMove _)).trans (State.spendIfDue_planMove _ _)
  · exact .refl s

/-- The cursor return (R62). -/
theorem State.cursorReturn_planMove (s : State) (b : BankId) (i : Nat) : PlanMove s (s.cursorReturn b i) := by
  unfold State.cursorReturn
  split
  · exact s.moveCursor_planMove b _
  · exact .refl s

theorem State.cursorReturnInFlush_planMove (s : State) (b : BankId) (i : Nat) : PlanMove s (s.cursorReturnInFlush b i) := by
  unfold State.cursorReturnInFlush
  split
  · exact s.placeCursor_planMove b _
  · exact .refl s

theorem State.testMove_planMove (s before : State) : PlanMove s (s.testMove before) := by
  unfold State.testMove
  split
  · exact .refl s
  · exact s.testSpent_planMove _

theorem State.recordReject_planMove (s : State) (b : BankId) (i : Nat) (r : RejectReason) :
    PlanMove s (s.recordReject b i r) := by
  unfold State.recordReject
  split
  · split
    · exact ((s.setSlot_planMove b i _).trans (State.evalSupply_planMove _)).trans (State.spendIfDue_planMove _ _)
    · exact .refl s
  · exact .refl s

/-- A reject without a rollback (R17, R61). -/
theorem State.reportReject_planMove (s : State) (b : Brick) (r : RejectReason) : PlanMove s (s.reportReject b r) := by
  unfold State.reportReject
  dsimp only
  split
  · exact (s.recordReject_planMove _ _ r).trans (State.cursorReturn_planMove _ _ _)
  · exact s.recordReject_planMove _ _ r

/-! ## PathMove: withdrawing bricks -/

/-- The brick path is told apart by the train and the cradles alone. -/
theorem State.bricksApart_of_eq {s t : State} (ht : t.train = s.train) (hc : t.cradles = s.cradles) (h : s.bricksApart) :
    t.bricksApart := by
  unfold State.bricksApart State.cradle at *
  rw [ht, hc]
  exact h

/-- Besides what `PlanMove` allows: train entries, cradles, and what Mode Control learns of a reject (R159). -/
structure PathMove (s s' : State) : Prop where
  datum    : s'.datum = s.datum
  zone     : s'.zone = s.zone
  adhesive : s'.adhesive = s.adhesive
  pose     : s'.pose = s.pose
  clock    : s'.clock = s.clock
  pending  : s'.pending = s.pending
  train    : s'.train = { s.train with entries := s'.train.entries }
  mode     : s'.mode = { s.mode with
      watchStopped := s'.mode.watchStopped, rejectSeen := s'.mode.rejectSeen
      bankSwitch0 := s'.mode.bankSwitch0, bankSwitch1 := s'.mode.bankSwitch1 }
  link     : s'.link = { s.link with notices := s'.link.notices, dropped := s'.link.dropped }
  bound    : s.link.notices.length ≤ 16 → s'.link.notices.length ≤ 16
  place    : s'.place = s.place
  comp     : s'.comp = s.comp
  held     : s.conveyorHeld → s'.conveyorHeld
  apart    : s.bricksApart → s'.bricksApart

theorem State.conveyorHeld_of_eq {s s' : State} (hc : s'.cradles = s.cradles)
    (hm : s'.mode.mode = s.mode.mode) (hk : s'.mode.cradleCount = s.mode.cradleCount) (h : s.conveyorHeld) :
    s'.conveyorHeld := by
  unfold State.conveyorHeld State.emptyCradle State.cradlesInUse State.cradle State.faulted at *
  rw [hc, hm, hk]
  exact h

theorem PlanMove.mode_mode {s s' : State} (h : PlanMove s s') : s'.mode.mode = s.mode.mode := by rw [h.mode]
theorem PlanMove.cradleCount {s s' : State} (h : PlanMove s s') : s'.mode.cradleCount = s.mode.cradleCount := by
  rw [h.mode]

theorem PlanMove.toPathMove {s s' : State} (h : PlanMove s s') : PathMove s s' where
  datum := h.datum
  zone := h.zone
  adhesive := h.adhesive
  pose := h.pose
  clock := h.clock
  pending := h.pending
  train := by rw [h.train]
  mode := by
    have k := h.mode
    generalize s'.mode = m at k
    rw [k]
  link := h.link
  bound := h.bound
  place := h.place
  comp := h.comp
  held := State.conveyorHeld_of_eq h.cradles h.mode_mode h.cradleCount
  apart := State.bricksApart_of_eq h.train h.cradles

theorem PathMove.refl (s : State) : PathMove s s := (PlanMove.refl s).toPathMove

theorem PathMove.trans {s t u : State} (h : PathMove s t) (k : PathMove t u) : PathMove s u where
  datum := k.datum.trans h.datum
  zone := k.zone.trans h.zone
  adhesive := k.adhesive.trans h.adhesive
  pose := k.pose.trans h.pose
  clock := k.clock.trans h.clock
  pending := k.pending.trans h.pending
  train := by rw [k.train, h.train]
  mode := by rw [k.mode, h.mode]
  link := by rw [k.link, h.link]
  bound := fun b => k.bound (h.bound b)
  place := k.place.trans h.place
  comp := k.comp.trans h.comp
  held := fun x => k.held (h.held x)
  apart := fun x => k.apart (h.apart x)

theorem PathMove.mode_mode {s s' : State} (h : PathMove s s') : s'.mode.mode = s.mode.mode := by rw [h.mode]
theorem PathMove.faulted {s s' : State} (h : PathMove s s') : s'.faulted = s.faulted := by
  unfold State.faulted; rw [h.mode_mode]

/-- Mode Control learns of a reject and its REJECTED notice is raised (R159). -/
theorem State.raiseRejected_pathMove (s : State) (b : Brick) (r : RejectReason) : PathMove s (s.raiseRejected b r) := by
  refine PathMove.trans ?_ (State.raise_planMove _ _).toPathMove
  exact ⟨rfl, rfl, rfl, rfl, rfl, rfl, rfl, rfl, rfl, id, rfl, rfl,
    State.conveyorHeld_of_eq rfl rfl rfl, id⟩

/-- Entries that keep their places in train order, some of them perhaps gone, stay apart. -/
theorem State.setEntries_apart (s : State) (es : List TrainEntry)
    (h : (es.map fun e => e.brick.serial).Sublist (s.train.entries.map fun e => e.brick.serial)) (a : s.bricksApart) :
    (s.setEntries es).bricksApart := by
  obtain ⟨a1, a2, a3⟩ := a
  refine ⟨h.nodup a1, fun e he => ?_, a3⟩
  obtain ⟨x, hx, hs⟩ := List.mem_map.mp (h.subset (List.mem_map_of_mem (f := fun e => e.brick.serial) he))
  have := a2 x hx
  rw [← hs]; exact this

theorem State.setEntries_pathMove (s : State) (es : List TrainEntry)
    (h : (es.map fun e => e.brick.serial).Sublist (s.train.entries.map fun e => e.brick.serial)) :
    PathMove s (s.setEntries es) :=
  ⟨rfl, rfl, rfl, rfl, rfl, rfl, rfl, rfl, rfl, id, rfl, rfl, State.conveyorHeld_of_eq rfl rfl rfl, s.setEntries_apart es h⟩

theorem filter_serials (es : List TrainEntry) (p : TrainEntry → Bool) :
    ((es.filter p).map fun e => e.brick.serial).Sublist (es.map fun e => e.brick.serial) :=
  List.filter_sublist.map _

/-- Entries rewritten with their serial numbers as they were. -/
theorem map_serials (es : List TrainEntry) (f : TrainEntry → TrainEntry) (h : ∀ e, (f e).brick.serial = e.brick.serial) :
    ((es.map f).map fun e => e.brick.serial).Sublist (es.map fun e => e.brick.serial) := by
  rw [List.map_map]
  have : ((fun e : TrainEntry => e.brick.serial) ∘ f) = fun e => e.brick.serial := funext h
  rw [this]

/-- CONVEYOR HOLD agrees after every change of a cradle (R86). -/
theorem State.setCradle_conveyorHeld (s : State) (c : CradleId) (x : Cradle) : (s.setCradle c x).conveyorHeld := by
  cases c <;> rfl

theorem State.setCradle_apart (s : State) (c : CradleId) (x : Cradle) (h : ∀ b d, x = .tipping b d → b.brick.mark ≠ none)
    (a : s.bricksApart) : (s.setCradle c x).bricksApart := by
  obtain ⟨a1, a2, a3⟩ := a
  refine ⟨by simpa using a1, by simpa using a2, fun d b t e => ?_⟩
  by_cases hd : d = c
  · subst hd; rw [State.setCradle_self] at e; exact h _ _ e
  · rw [State.setCradle_other _ _ _ _ hd] at e; exact a3 _ _ _ e

theorem CradleBrick.marked_ne (b : CradleBrick) (r : RejectReason) : (b.marked r).brick.mark ≠ none := by
  unfold CradleBrick.marked; simp

theorem State.setCradle_pathMove (s : State) (c : CradleId) (x : Cradle)
    (h : ∀ b d, x = .tipping b d → b.brick.mark ≠ none) : PathMove s (s.setCradle c x) where
  datum := by simp
  zone := by simp
  adhesive := by simp
  pose := by simp
  clock := by simp
  pending := by simp
  train := by simp
  mode := by simp
  link := by simp
  bound := by simp
  place := by simp
  comp := by simp
  held := fun _ => s.setCradle_conveyorHeld c x
  apart := s.setCradle_apart c x h

theorem State.tip_pathMove (s : State) (c : CradleId) (b : CradleBrick) (r : RejectReason) : PathMove s (s.tip c b r) :=
  s.setCradle_pathMove c _ fun b' d h => by cases h; exact b.marked_ne r

/-- A reject reaches a train entry (R79). -/
theorem State.rejectInTrain_pathMove (s : State) (b : Brick) (r : RejectReason) : PathMove s (s.rejectInTrain b r) := by
  unfold State.rejectInTrain
  split
  · split
    · exact .refl s
    · split
      · exact ((s.setEntries_pathMove _ (filter_serials _ _)).trans (State.raiseRejected_pathMove _ _ _)).trans
          (State.reportReject_planMove _ _ _).toPathMove
      · exact ((s.setEntries_pathMove _ (map_serials _ _ fun e => by split <;> rfl)).trans (State.raiseRejected_pathMove _ _ _)).trans
          (State.reportReject_planMove _ _ _).toPathMove
  · exact .refl s

/-- A reject reaches the brick of a cradle (R84). -/
theorem State.rejectInCradle_pathMove (s : State) (c : CradleId) (r : RejectReason) :
    PathMove s (s.rejectInCradle c r) := by
  unfold State.rejectInCradle
  split
  · exact .refl s
  · exact .refl s
  · split
    · exact ((s.tip_pathMove c _ r).trans (State.raiseRejected_pathMove _ _ _)).trans
        (State.reportReject_planMove _ _ _).toPathMove
    · exact .refl s
  · split
    · exact ((s.setCradle_pathMove c _ fun _ _ h => by cases h).trans (State.raiseRejected_pathMove _ _ _)).trans
        (State.reportReject_planMove _ _ _).toPathMove
    · exact .refl s
  · split
    · exact .refl s
    · split
      · exact (s.setCradle_pathMove c _ fun _ _ h => by cases h).trans (State.reportReject_planMove _ _ _).toPathMove
      · exact ((s.tip_pathMove c _ r).trans (State.raiseRejected_pathMove _ _ _)).trans
          (State.reportReject_planMove _ _ _).toPathMove

theorem State.rejectOnPath_pathMove (s : State) (x : Brick × BrickPlace) (r : RejectReason) :
    PathMove s (s.rejectOnPath x r) := by
  unfold State.rejectOnPath
  split
  · exact .refl s
  · exact s.rejectInCradle_pathMove _ r
  · exact s.rejectInTrain_pathMove _ r

/-- A fold of moves is a move. -/
theorem PathMove.foldl {α : Type} (f : State → α → State) (h : ∀ s a, PathMove s (f s a)) (l : List α) (s : State) :
    PathMove s (l.foldl f s) := by
  induction l generalizing s with
  | nil => exact .refl s
  | cons a l ih => exact (h s a).trans (ih _)

/-- A rollback (R64, step 1). -/
theorem State.rollback_pathMove (s : State) (n : Nat) : PathMove s (s.rollback n) :=
  PathMove.foldl _ (fun s a => s.rejectOnPath_pathMove a .rollback) _ s

/-- A brick-specific reject reported, with its rollback where one is due (R63). -/
theorem State.reportBrickReject_pathMove (s : State) (b : Brick) (r : RejectReason) :
    PathMove s (s.reportBrickReject b r) := by
  unfold State.reportBrickReject
  dsimp only
  split
  · split
    · exact ((s.recordReject_planMove _ _ r).trans (State.cursorReturn_planMove _ _ _)).toPathMove
    · exact ((s.recordReject_planMove _ _ r).toPathMove.trans (State.rollback_pathMove _ _)).trans
        (State.cursorReturn_planMove _ _ _).toPathMove
  · exact (s.recordReject_planMove _ _ r).toPathMove

/-! ## WithdrawMove: withdrawals that may reach the gripper -/

/-- Besides what `PathMove` allows: the abandonment of the gripper's brick. -/
structure WithdrawMove (s s' : State) : Prop where
  datum    : s'.datum = s.datum
  zone     : s'.zone = s.zone
  adhesive : s'.adhesive = s.adhesive
  pose     : s'.pose = s.pose
  clock    : s'.clock = s.clock
  pending  : s'.pending = s.pending
  train    : s'.train = { s.train with entries := s'.train.entries }
  mode     : s'.mode = { s.mode with
      watchStopped := s'.mode.watchStopped, rejectSeen := s'.mode.rejectSeen
      bankSwitch0 := s'.mode.bankSwitch0, bankSwitch1 := s'.mode.bankSwitch1 }
  link     : s'.link = { s.link with notices := s'.link.notices, dropped := s'.link.dropped }
  bound    : s.link.notices.length ≤ 16 → s'.link.notices.length ≤ 16
  place    : s'.place = { s.place with
      state := s'.place.state, gripper := s'.place.gripper, timer := s'.place.timer
      stepTimer := s'.place.stepTimer, abandonReason := s'.place.abandonReason }
  comp     : s'.comp = s.comp ∨ s'.comp = { s.comp with setpoints := ⟨0, 0, 0, 0⟩ }
  held     : s.conveyorHeld → s'.conveyorHeld
  apart    : s.bricksApart → s'.bricksApart

theorem PathMove.toWithdrawMove {s s' : State} (h : PathMove s s') : WithdrawMove s s' :=
  ⟨h.datum, h.zone, h.adhesive, h.pose, h.clock, h.pending, h.train, h.mode, h.link, h.bound, by rw [h.place],
    .inl h.comp, h.held, h.apart⟩

theorem WithdrawMove.refl (s : State) : WithdrawMove s s := (PathMove.refl s).toWithdrawMove

theorem WithdrawMove.trans {s t u : State} (h : WithdrawMove s t) (k : WithdrawMove t u) : WithdrawMove s u where
  datum := k.datum.trans h.datum
  zone := k.zone.trans h.zone
  adhesive := k.adhesive.trans h.adhesive
  pose := k.pose.trans h.pose
  clock := k.clock.trans h.clock
  pending := k.pending.trans h.pending
  train := by rw [k.train, h.train]
  mode := by rw [k.mode, h.mode]
  link := by rw [k.link, h.link]
  bound := fun b => k.bound (h.bound b)
  place := by rw [k.place, h.place]
  comp := by
    rcases h.comp with h | h <;> rcases k.comp with k | k <;> rw [k, h] <;> simp
  held := fun x => k.held (h.held x)
  apart := fun x => k.apart (h.apart x)

theorem WithdrawMove.mode_mode {s s' : State} (h : WithdrawMove s s') : s'.mode.mode = s.mode.mode := by rw [h.mode]

/-- A fold of withdrawals is one. -/
theorem WithdrawMove.foldl {α : Type} (f : State → α → State) (h : ∀ s a, WithdrawMove s (f s a)) (l : List α)
    (s : State) : WithdrawMove s (l.foldl f s) := by
  induction l generalizing s with
  | nil => exact .refl s
  | cons a l ih => exact (h s a).trans (ih _)

/-- The state in which the gripper's brick is ABANDONING, before its reject is reported (R142, steps 1 to 3). -/
def State.abandoningState (s : State) (g : GripperBrick) (r : RejectReason) : State :=
  { s.centre with place := { s.place with
      gripper := some { g with brick := { g.brick with mark := some r }, deadline := none }
      abandonReason := some r
      timer := none
      state := .abandoning
      stepTimer := .abandon (s.clock.now + abandonTicks) } }

theorem State.enterAbandoning_eq (s : State) (g : GripperBrick) (r : RejectReason) :
    s.enterAbandoning g r = if r.brickSpecific then (s.abandoningState g r).reportBrickReject g.brick r
      else (s.abandoningState g r).reportReject g.brick r := rfl

/-- The report of an abandoned brick's reject leaves the Placement Sequencer in ABANDONING (R142). -/
theorem State.enterAbandoning_pathMove (s : State) (g : GripperBrick) (r : RejectReason) :
    PathMove (s.abandoningState g r) (s.enterAbandoning g r) := by
  rw [State.enterAbandoning_eq]
  split
  · exact State.reportBrickReject_pathMove _ _ _
  · exact (State.reportReject_planMove _ _ _).toPathMove

/-- The entry to ABANDONING (R142). -/
theorem State.enterAbandoning_withdrawMove (s : State) (g : GripperBrick) (r : RejectReason) :
    WithdrawMove s (s.enterAbandoning g r) := by
  refine WithdrawMove.trans ?_ (s.enterAbandoning_pathMove g r).toWithdrawMove
  exact ⟨rfl, rfl, rfl, rfl, rfl, rfl, rfl, rfl, rfl, id, rfl, .inr rfl, State.conveyorHeld_of_eq rfl rfl rfl, id⟩

theorem State.rejectInGripper_withdrawMove (s : State) (r : RejectReason) : WithdrawMove s (s.rejectInGripper r) := by
  unfold State.rejectInGripper
  split
  · split
    · exact s.enterAbandoning_withdrawMove _ r
    · exact .refl s
  · exact .refl s

/-- A withdrawal for COURSE ENDED or PURGED (R66, R87). -/
theorem State.withdraw_withdrawMove (s : State) (x : Brick × BrickPlace) (r : RejectReason) :
    WithdrawMove s (s.withdraw x r) := by
  unfold State.withdraw
  split
  · exact s.rejectInGripper_withdrawMove r
  · exact (s.rejectInCradle_pathMove _ r).toWithdrawMove
  · exact (s.rejectInTrain_pathMove _ r).toWithdrawMove

end Sys2Proof.Machine
end

