-- ==== Sys2Proof/Laws/Slots.lean ====
section
/-! SUPPORT. What the shared operations do to slot records: cursor moves, banks becoming SPENT and supply evaluations leave
every slot as it was; a recorded status or reject writes the one slot. -/

namespace Sys2Proof.Machine

theorem State.slotsKept_refl (s : State) : s.slotsKept s := fun _ _ => rfl

theorem State.slotsKept.trans {s t u : State} (h : s.slotsKept t) (k : t.slotsKept u) : s.slotsKept u :=
  fun b i => (k b i).trans (h b i)

theorem State.slotsKept_of_plan {s t : State} (h : t.plan = s.plan) : s.slotsKept t := by
  intro b i
  unfold State.slot? State.bank
  rw [h]

@[simp] theorem State.raise_slot? (s : State) (n : Notice) (b : BankId) (i : Nat) : (s.raise n).slot? b i = s.slot? b i :=
  State.slotsKept_of_plan (by simp) b i

@[simp] theorem State.evalSupply_slot? (s : State) (b : BankId) (i : Nat) : s.evalSupply.slot? b i = s.slot? b i :=
  State.slotsKept_of_plan (by simp) b i

theorem State.setBank_slotsKept (s : State) (b : BankId) (x : Bank) (h : x.slots = (s.bank b).slots) :
    s.slotsKept (s.setBank b x) := by
  intro c i
  unfold State.slot?
  by_cases hc : c = b
  · subst hc; rw [State.setBank_bank_self, h]
  · rw [State.setBank_bank_other s b c x hc]

@[simp] theorem State.setOrder_slot? (s : State) (o : List BankId) (b : BankId) (i : Nat) :
    (s.setOrder o).slot? b i = s.slot? b i := by
  unfold State.slot?; rw [State.setOrder_bank]

@[simp] theorem State.setBankSwitch_slot? (s : State) (c : BankId) (x : Bool) (b : BankId) (i : Nat) :
    (s.setBankSwitch c x).slot? b i = s.slot? b i :=
  State.slotsKept_of_plan (by simp) b i

@[simp] theorem State.needBank_slot? (s : State) (b : BankId) (i : Nat) : s.needBank.slot? b i = s.slot? b i := by
  unfold State.needBank
  split
  · rw [State.raise_slot?]; exact State.slotsKept_of_plan (s := s) rfl b i
  · rfl

@[simp] theorem State.spend_slot? (s : State) (c : BankId) (b : BankId) (i : Nat) : (s.spend c).slot? b i = s.slot? b i := by
  unfold State.spend
  simp only [State.evalSupply_slot?, State.raise_slot?, State.setBankSwitch_slot?, State.setOrder_slot?]
  exact s.setBank_slotsKept c { s.bank c with state := .spent } rfl b i

@[simp] theorem State.testSpent_slot? (s : State) (c : BankId) (b : BankId) (i : Nat) :
    (s.testSpent c).slot? b i = s.slot? b i := by
  unfold State.testSpent
  split <;> simp

@[simp] theorem State.placeCursor_slot? (s : State) (c : BankId) (n : Nat) (b : BankId) (i : Nat) :
    (s.placeCursor c n).slot? b i = s.slot? b i := by
  unfold State.placeCursor
  rw [State.evalSupply_slot?]
  exact State.slotsKept_of_plan (s := s) rfl b i

@[simp] theorem State.moveCursor_slot? (s : State) (c : BankId) (n : Nat) (b : BankId) (i : Nat) :
    (s.moveCursor c n).slot? b i = s.slot? b i := by
  simp [State.moveCursor]

@[simp] theorem State.walkEnd_slot? (s : State) (b : BankId) (i : Nat) : s.walkEnd.slot? b i = s.slot? b i := by
  unfold State.walkEnd
  rw [State.needBank_slot?]
  split <;> (try split) <;> simp

@[simp] theorem State.advanceCursor_slot? (s : State) (c : Nat) (b : BankId) (i : Nat) :
    (s.advanceCursor c).slot? b i = s.slot? b i := by
  unfold State.advanceCursor
  split <;> simp

@[simp] theorem State.spendIfDue_slot? (s : State) (c : BankId) (b : BankId) (i : Nat) :
    (s.spendIfDue c).slot? b i = s.slot? b i := by
  unfold State.spendIfDue
  split
  · dsimp only
    split <;> simp
  · rfl

@[simp] theorem State.cursorReturn_slot? (s : State) (c : BankId) (n : Nat) (b : BankId) (i : Nat) :
    (s.cursorReturn c n).slot? b i = s.slot? b i := by
  unfold State.cursorReturn
  split <;> simp

@[simp] theorem State.cursorReturnInFlush_slot? (s : State) (c : BankId) (n : Nat) (b : BankId) (i : Nat) :
    (s.cursorReturnInFlush c n).slot? b i = s.slot? b i := by
  unfold State.cursorReturnInFlush
  split <;> simp

@[simp] theorem State.testMove_slot? (s before : State) (b : BankId) (i : Nat) : (s.testMove before).slot? b i = s.slot? b i := by
  unfold State.testMove
  split <;> simp

/-- A slot record written reads back, where the bank has that slot. -/
theorem State.setSlot_slot?_self (s : State) (b : BankId) (i : Nat) (x : Slot) (h : (s.slot? b i).isSome) :
    (s.setSlot b i x).slot? b i = some x := by
  unfold State.slot? State.setSlot at *
  rw [State.setBank_bank_self]
  simp only [Option.isSome_iff_exists] at h
  obtain ⟨y, hy⟩ := h
  have hi : i < (s.bank b).slots.length := (List.getElem?_eq_some_iff.mp hy).1
  simp [hi]

/-- Every other slot record is as it was. -/
theorem State.setSlot_slot?_other (s : State) (b : BankId) (i : Nat) (x : Slot) : s.slotsKeptBut (s.setSlot b i x) b i := by
  intro c j h
  unfold State.slot? State.setSlot
  by_cases hc : c = b
  · subst hc
    have hj : j ≠ i := by
      rcases h with h | h
      · exact absurd rfl h
      · exact h
    rw [State.setBank_bank_self]
    simp [Ne.symm hj]
  · rw [State.setBank_bank_other s b c _ hc]

/-- A status recorded (R15): the slot takes it, with its other fields as they were. -/
theorem State.recordStatus_self (s : State) (b : BankId) (i : Nat) (st : SlotStatus) (sl : Slot)
    (h : s.slot? b i = some sl) : (s.recordStatus b i st).slot? b i = some { sl with status := st } := by
  unfold State.recordStatus
  rw [h]
  simp only [State.spendIfDue_slot?, State.evalSupply_slot?]
  exact s.setSlot_slot?_self b i _ (by rw [h]; rfl)

/-- A status recorded leaves every other slot (R15). -/
theorem State.recordStatus_other (s : State) (b : BankId) (i : Nat) (st : SlotStatus) :
    s.slotsKeptBut (s.recordStatus b i st) b i := by
  intro c j h
  unfold State.recordStatus
  split
  · simp only [State.spendIfDue_slot?, State.evalSupply_slot?]
    exact s.setSlot_slot?_other b i _ c j h
  · rfl

/-- A reject recorded of a FED slot (R17). -/
theorem State.recordReject_self (s : State) (b : BankId) (i : Nat) (r : RejectReason) (sl : Slot)
    (h : s.slot? b i = some sl) (hf : sl.status.isFed = true) :
    (s.recordReject b i r).slot? b i = some (sl.afterReject r) := by
  unfold State.recordReject
  rw [h]
  simp only [hf, if_true, State.spendIfDue_slot?, State.evalSupply_slot?]
  exact s.setSlot_slot?_self b i _ (by rw [h]; rfl)

/-- A reject of a slot that is no longer FED is recorded as nothing (R17). -/
theorem State.recordReject_notFed (s : State) (b : BankId) (i : Nat) (r : RejectReason) (sl : Slot)
    (h : s.slot? b i = some sl) (hf : sl.status.isFed = false) : s.recordReject b i r = s := by
  unfold State.recordReject
  rw [h]
  simp [hf]

/-- A reject recorded leaves every other slot (R17). -/
theorem State.recordReject_other (s : State) (b : BankId) (i : Nat) (r : RejectReason) :
    s.slotsKeptBut (s.recordReject b i r) b i := by
  intro c j h
  unfold State.recordReject
  split
  · split
    · simp only [State.spendIfDue_slot?, State.evalSupply_slot?]
      exact s.setSlot_slot?_other b i _ c j h
    · rfl
  · rfl

end Sys2Proof.Machine
end

