-- ==== Sys2Proof/Laws/Notices.lean ====
section
/-! SUPPORT. Which notices the operations of the plan and the walk raise: SUPPLY, BANK NEEDED, and BANK SPENT of each bank
that becomes SPENT. -/

namespace Sys2Proof.Machine

/-- Raising notices reads and writes the link alone. -/
theorem State.raisedLink_congr {s t : State} (ns : List Notice) (h : t.link = s.link) : t.raisedLink ns = s.raisedLink ns := by
  unfold State.raisedLink
  induction ns generalizing s t with
  | nil => exact h
  | cons n ns ih => exact ih (State.raise_link_congr n h)

theorem State.raisedLink_append {s t : State} (ns ms : List Notice) (h : t.link = s.raisedLink ns) :
    t.raisedLink ms = s.raisedLink (ns ++ ms) := by
  rw [State.raisedLink_congr ms (s := ns.foldl State.raise s) h]
  unfold State.raisedLink
  rw [List.foldl_append]

/-- Slots stay, a bank at most becomes SPENT, and the notices raised are the plan's. -/
structure SpendMove (s t : State) : Prop where
  slots  : s.slotsKept t
  states : ∀ b, (t.bank b).state = (s.bank b).state ∨ ((s.bank b).state = .active ∧ (t.bank b).state = .spent)
  raises : ∃ ns, s.planNotices t ns ∧ t.link = s.raisedLink ns

theorem SpendMove.of_plan {s t : State} (hp : t.plan = s.plan) (ns : List Notice) (hn : ∀ n ∈ ns, n.ofPlan = true)
    (hl : t.link = s.raisedLink ns) : SpendMove s t := by
  have hb : ∀ b, t.bank b = s.bank b := fun b => by unfold State.bank; rw [hp]
  refine ⟨State.slotsKept_of_plan hp, fun b => .inl (by rw [hb]), ns, ⟨hn, fun b h k => ?_⟩, hl⟩
  rw [hb, h] at k; cases k

theorem SpendMove.refl (s : State) : SpendMove s s := .of_plan rfl [] (fun _ h => by cases h) rfl

/-- The count of a bank is read from its slots alone. -/
theorem State.spentNotice_of_slots {s t : State} (h : s.slotsKept t) (b : BankId) : t.spentNotice b = s.spentNotice b := by
  have : (t.bank b).slots = (s.bank b).slots := List.ext_getElem? fun i => h b i
  unfold State.spentNotice Bank.count
  rw [this]

theorem SpendMove.trans {s t u : State} (h : SpendMove s t) (k : SpendMove t u) : SpendMove s u := by
  obtain ⟨ns, ⟨hn, hs⟩, hl⟩ := h.raises
  obtain ⟨ms, ⟨kn, ks⟩, kl⟩ := k.raises
  refine ⟨h.slots.trans k.slots, fun b => ?_, ns ++ ms, ⟨fun n hm => ?_, fun b ha hb => ?_⟩, ?_⟩
  · rcases h.states b with h1 | ⟨h1, h2⟩ <;> rcases k.states b with k1 | ⟨k1, k2⟩
    · exact .inl (k1.trans h1)
    · exact .inr ⟨h1 ▸ k1, k2⟩
    · exact .inr ⟨h1, k1.trans h2⟩
    · rw [h2] at k1; cases k1
  · rcases List.mem_append.mp hm with hm | hm
    · exact hn n hm
    · exact kn n hm
  · rcases h.states b with h1 | ⟨_, h2⟩
    · exact List.mem_append_right _ (ks b (h1.trans ha) hb)
    · rw [State.spentNotice_of_slots k.slots b]
      exact List.mem_append_left _ (hs b ha h2)
  · rw [kl]; exact State.raisedLink_append ns ms hl

theorem State.evalSupply_spendMove (s : State) : SpendMove s s.evalSupply := by
  unfold State.evalSupply
  dsimp only
  split
  · refine .of_plan (by simp) [.supply (s.supplyCount.getD 0) s.feed.mark.scope] (by simp [Notice.ofPlan]) ?_
    exact State.raise_link_congr _ rfl
  · exact .of_plan rfl [] (fun _ h => by cases h) rfl

theorem State.needBank_spendMove (s : State) : SpendMove s s.needBank := by
  unfold State.needBank
  split
  · exact .of_plan (by simp) [.bankNeeded s.feed.pointer] (by simp [Notice.ofPlan]) (State.raise_link_congr _ rfl)
  · exact .refl s

theorem State.spend_spendMove (s : State) (b : BankId) (h : (s.bank b).state = .active) : SpendMove s (s.spend b) := by
  refine SpendMove.trans (t := (((s.setBank b { s.bank b with state := .spent }).setOrder (s.plan.order.erase b)).setBankSwitch
    b false).raise (s.spentNotice b)) ?_ (State.evalSupply_spendMove _)
  generalize hu : ((s.setBank b { s.bank b with state := .spent }).setOrder (s.plan.order.erase b)).setBankSwitch b false = u
  have hb : ∀ c, (u.raise (s.spentNotice b)).bank c = (s.setBank b { s.bank b with state := .spent }).bank c := by
    intro c; subst hu
    unfold State.bank; rw [State.raise_plan, State.setBankSwitch_plan]; cases c <;> rfl
  have hk : s.slotsKept (u.raise (s.spentNotice b)) := by
    intro c i
    show ((u.raise _).bank c).slots[i]? = _
    rw [hb]
    exact s.setBank_slotsKept b { s.bank b with state := .spent } rfl c i
  have ho : ∀ c, c ≠ b → (u.raise (s.spentNotice b)).bank c = s.bank c := fun c hc => by
    rw [hb, State.setBank_bank_other _ _ _ _ hc]
  refine ⟨hk, fun c => ?_, [s.spentNotice b], ⟨by simp [State.spentNotice, Notice.ofPlan], fun c ha hs => ?_⟩, ?_⟩
  · by_cases hc : c = b
    · subst hc; exact .inr ⟨h, by rw [hb, State.setBank_bank_self]⟩
    · exact .inl (by rw [ho c hc])
  · by_cases hc : c = b
    · subst hc; rw [State.spentNotice_of_slots hk]; simp
    · rw [ho c hc, ha] at hs; cases hs
  · exact State.raise_link_congr _ (by subst hu; cases b <;> rfl)

theorem State.spentDue_active {s : State} {b : BankId} (h : s.spentDue b = true) : (s.bank b).state = .active := by
  unfold State.spentDue at h
  simp only [Bool.and_eq_true, decide_eq_true_eq] at h
  exact h.1.1

theorem State.testSpent_spendMove (s : State) (b : BankId) : SpendMove s (s.testSpent b) := by
  unfold State.testSpent
  split
  · rename_i h; exact s.spend_spendMove b (State.spentDue_active h)
  · exact .refl s

theorem State.placeCursor_spendMove (s : State) (b : BankId) (c : Nat) : SpendMove s (s.placeCursor b c) := by
  unfold State.placeCursor
  refine SpendMove.trans ?_ (State.evalSupply_spendMove _)
  exact .of_plan rfl [] (fun _ h => by cases h) rfl

theorem State.moveCursor_spendMove (s : State) (b : BankId) (c : Nat) : SpendMove s (s.moveCursor b c) :=
  (s.placeCursor_spendMove b c).trans (State.testSpent_spendMove _ _)

theorem State.walkEnd_spendMove (s : State) : SpendMove s s.walkEnd := by
  unfold State.walkEnd
  refine SpendMove.trans ?_ (State.needBank_spendMove _)
  split <;> (try split) <;> first | exact s.moveCursor_spendMove _ _ | exact s.testSpent_spendMove _

theorem State.advanceCursor_spendMove (s : State) (c : Nat) : SpendMove s (s.advanceCursor c) := by
  unfold State.advanceCursor
  split
  · exact (s.placeCursor_spendMove _ c).trans (State.walkEnd_spendMove _)
  · exact s.moveCursor_spendMove _ c

theorem State.spendIfDue_spendMove (s : State) (b : BankId) : SpendMove s (s.spendIfDue b) := by
  unfold State.spendIfDue
  split
  · rename_i h
    dsimp only
    split
    · exact (s.spend_spendMove b (State.spentDue_active h)).trans (State.walkEnd_spendMove _)
    · exact (s.spend_spendMove b (State.spentDue_active h)).trans (State.needBank_spendMove _)
  · exact .refl s

theorem State.cursorReturn_spendMove (s : State) (b : BankId) (i : Nat) : SpendMove s (s.cursorReturn b i) := by
  unfold State.cursorReturn
  split
  · exact s.moveCursor_spendMove _ _
  · exact .refl s

/-- A slot written keeps every bank's state, and the link. -/
theorem State.setSlot_state (s : State) (b : BankId) (i : Nat) (x : Slot) (c : BankId) :
    ((s.setSlot b i x).bank c).state = (s.bank c).state := by
  unfold State.setSlot
  by_cases hc : c = b
  · subst hc; rw [State.setBank_bank_self]
  · rw [State.setBank_bank_other _ _ _ _ hc]

/-- A slot written, with the supply evaluation and the spent test it brings: the notices. -/
theorem State.settleSlot_notices (s : State) (b : BankId) (i : Nat) (x : Slot) : ∃ ns,
    s.planNotices ((s.setSlot b i x).evalSupply.spendIfDue b) ns ∧
      ((s.setSlot b i x).evalSupply.spendIfDue b).link = s.raisedLink ns := by
  obtain ⟨ns, ⟨hn, hs⟩, hl⟩ :=
    ((s.setSlot b i x).evalSupply_spendMove.trans (State.spendIfDue_spendMove _ b)).raises
  exact ⟨ns, ⟨hn, fun c ha => hs c ((s.setSlot_state b i x c).trans ha)⟩, by rw [hl]; exact State.raisedLink_congr ns rfl⟩

/-- The notices of a status recorded (R14, R70). -/
theorem State.recordStatus_notices (s : State) (b : BankId) (i : Nat) (st : SlotStatus) : ∃ ns,
    s.planNotices (s.recordStatus b i st) ns ∧ (s.recordStatus b i st).link = s.raisedLink ns := by
  unfold State.recordStatus
  split
  · exact s.settleSlot_notices b i _
  · exact (SpendMove.refl s).raises

/-- The notices of a reject recorded (R14, R70). -/
theorem State.recordReject_notices (s : State) (b : BankId) (i : Nat) (r : RejectReason) : ∃ ns,
    s.planNotices (s.recordReject b i r) ns ∧ (s.recordReject b i r).link = s.raisedLink ns := by
  unfold State.recordReject
  split
  · split
    · exact s.settleSlot_notices b i _
    · exact (SpendMove.refl s).raises
  · exact (SpendMove.refl s).raises

/-- Notices of a change of the plan, followed by those of a move of the walk. -/
theorem State.planNotices.then_spendMove {s t u : State} {ns : List Notice} (h : s.planNotices t ns)
    (hl : t.link = s.raisedLink ns) (k : SpendMove t u) : ∃ ms, s.planNotices u ms ∧ u.link = s.raisedLink ms := by
  obtain ⟨ms, ⟨kn, ks⟩, kl⟩ := k.raises
  refine ⟨ns ++ ms, ⟨fun n hm => (List.mem_append.mp hm).elim (h.1 n) (kn n), fun b ha hb => ?_⟩, ?_⟩
  · rcases k.states b with k1 | ⟨k1, _⟩
    · rw [State.spentNotice_of_slots k.slots b]
      exact List.mem_append_left _ (h.2 b ha (k1 ▸ hb))
    · exact List.mem_append_right _ (ks b k1 hb)
  · rw [kl]; exact State.raisedLink_append ns ms hl

/-- The notices of a brick-specific reject reported in FAULTED (R14, R63, R70, assumption 21). -/
theorem State.reportBrickReject_notices (s : State) (b : Brick) (r : RejectReason) (h : s.faulted = true) : ∃ ns,
    s.planNotices (s.reportBrickReject b r) ns ∧ (s.reportBrickReject b r).link = s.raisedLink ns := by
  obtain ⟨ns, hn, hl⟩ := s.recordReject_notices b.bank b.slot r
  unfold State.reportBrickReject
  simp only [h, if_true]
  split
  · exact hn.then_spendMove hl (State.cursorReturn_spendMove _ _ _)
  · exact ⟨ns, hn, hl⟩

end Sys2Proof.Machine
end

