-- ==== Sys2Proof/Laws/Rejects.lean ====
section
/-! SUPPORT. What rejects do to slot records: a reject changes no slot but the brick's own, and that one only from FED; and
which records are the bricks in flight. -/

namespace Sys2Proof.Machine

/-- A cradle changed leaves every slot. -/
@[simp] theorem State.setCradle_slot? (s : State) (c : CradleId) (x : Cradle) (b : BankId) (i : Nat) :
    (s.setCradle c x).slot? b i = s.slot? b i :=
  State.slotsKept_of_plan (by simp) b i

@[simp] theorem State.setEntries_slot? (s : State) (es : List TrainEntry) (b : BankId) (i : Nat) :
    (s.setEntries es).slot? b i = s.slot? b i := rfl

@[simp] theorem State.raiseRejected_slot? (s : State) (x : Brick) (r : RejectReason) (b : BankId) (i : Nat) :
    (s.raiseRejected x r).slot? b i = s.slot? b i := by
  unfold State.raiseRejected
  rw [State.raise_slot?]
  rfl

theorem State.slotsKeptBut_of_kept {s t u : State} {b : BankId} {i : Nat} (h : ∀ c j, t.slot? c j = s.slot? c j)
    (k : t.slotsKeptBut u b i) : s.slotsKeptBut u b i := fun c j hc => (k c j hc).trans (h c j)

/-- A reject reported changes no slot but the brick's own (R17, R61). -/
theorem State.reportReject_other (s : State) (b : Brick) (r : RejectReason) :
    s.slotsKeptBut (s.reportReject b r) b.bank b.slot := by
  intro c j h
  unfold State.reportReject
  dsimp only
  split
  · rw [State.cursorReturn_slot?]; exact s.recordReject_other _ _ r c j h
  · exact s.recordReject_other _ _ r c j h

/-- What a reject reported makes of the brick's own slot: `afterReject` where it was FED, nothing otherwise (R17). -/
theorem State.reportReject_self (s : State) (b : Brick) (r : RejectReason) (sl : Slot)
    (h : s.slot? b.bank b.slot = some sl) :
    (s.reportReject b r).slot? b.bank b.slot = some (if sl.status.isFed then sl.afterReject r else sl) := by
  have key : (s.recordReject b.bank b.slot r).slot? b.bank b.slot =
      some (if sl.status.isFed then sl.afterReject r else sl) := by
    by_cases hf : sl.status.isFed = true
    · rw [if_pos hf]; exact s.recordReject_self _ _ r sl h hf
    · rw [if_neg hf, s.recordReject_notFed _ _ r sl h (by simpa using hf)]; exact h
  unfold State.reportReject
  dsimp only
  split
  · rw [State.cursorReturn_slot?]; exact key
  · exact key

/-- Every slot is as it was, or was FED and is what a reject makes of it. -/
def State.slotsRejected (s t : State) (r : RejectReason) : Prop :=
  ∀ (b : BankId) (i : Nat) (sl : Slot), s.slot? b i = some sl →
    t.slot? b i = some sl ∨ (sl.status.isFed = true ∧ t.slot? b i = some (sl.afterReject r))

theorem State.slotsRejected_refl (s : State) (r : RejectReason) : s.slotsRejected s r := fun _ _ _ h => .inl h

theorem Slot.afterReject_notFed (sl : Slot) (r : RejectReason) : (sl.afterReject r).status.isFed = false := by
  cases r <;> simp only [Slot.afterReject] <;> (try split) <;> rfl

theorem State.slotsRejected.trans {s t u : State} {r : RejectReason} (h : s.slotsRejected t r) (k : t.slotsRejected u r) :
    s.slotsRejected u r := by
  intro b i sl hs
  rcases h b i sl hs with h | ⟨hf, h⟩
  · exact k b i sl h
  · rcases k b i _ h with k | ⟨kf, _⟩
    · exact .inr ⟨hf, k⟩
    · rw [Slot.afterReject_notFed] at kf; cases kf

theorem State.slotsRejected_of_kept {s t u : State} {r : RejectReason} (h : ∀ c j, t.slot? c j = s.slot? c j)
    (k : t.slotsRejected u r) : s.slotsRejected u r := fun b i sl hs => k b i sl ((h b i).trans hs)

theorem State.reportReject_slotsRejected (s : State) (b : Brick) (r : RejectReason) :
    s.slotsRejected (s.reportReject b r) r := by
  intro c j sl h
  by_cases hc : c = b.bank ∧ j = b.slot
  · obtain ⟨rfl, rfl⟩ := hc
    rw [s.reportReject_self b r sl h]
    by_cases hf : sl.status.isFed = true
    · exact .inr ⟨hf, by rw [if_pos hf]⟩
    · exact .inl (by rw [if_neg hf])
  · refine .inl ?_
    rw [s.reportReject_other b r c j ?_, h]
    by_cases h1 : c = b.bank
    · exact .inr fun h2 => hc ⟨h1, h2⟩
    · exact .inl h1

/-- A reject in the train: what it changes in the plan (R79). -/
theorem State.rejectInTrain_slots (s : State) (b : Brick) (r : RejectReason) :
    s.slotsKeptBut (s.rejectInTrain b r) b.bank b.slot ∧ s.slotsRejected (s.rejectInTrain b r) r := by
  unfold State.rejectInTrain
  split
  · split
    · exact ⟨fun _ _ _ => rfl, s.slotsRejected_refl r⟩
    · split
      · exact ⟨State.slotsKeptBut_of_kept (fun _ _ => by simp) (State.reportReject_other _ _ _),
          State.slotsRejected_of_kept (fun _ _ => by simp) (State.reportReject_slotsRejected _ _ _)⟩
      · exact ⟨State.slotsKeptBut_of_kept (fun _ _ => by simp) (State.reportReject_other _ _ _),
          State.slotsRejected_of_kept (fun _ _ => by simp) (State.reportReject_slotsRejected _ _ _)⟩
  · exact ⟨fun _ _ _ => rfl, s.slotsRejected_refl r⟩

/-- A reject in a cradle: what it changes in the plan (R84). -/
theorem State.rejectInCradle_slots (s : State) (c : CradleId) (r : RejectReason) :
    (∀ b, (s.cradle c).brick? = some b → s.slotsKeptBut (s.rejectInCradle c r) b.brick.bank b.brick.slot) ∧
      s.slotsRejected (s.rejectInCradle c r) r := by
  have key : ∀ (b : CradleBrick) (u : State), (∀ d j, u.slot? d j = s.slot? d j) →
      s.slotsKeptBut (u.reportReject b.brick r) b.brick.bank b.brick.slot ∧ s.slotsRejected (u.reportReject b.brick r) r :=
    fun b u h => ⟨State.slotsKeptBut_of_kept h (State.reportReject_other _ _ _),
      State.slotsRejected_of_kept h (State.reportReject_slotsRejected _ _ _)⟩
  have same : (∀ b, (s.cradle c).brick? = some b → s.slotsKeptBut s b.brick.bank b.brick.slot) ∧ s.slotsRejected s r :=
    ⟨fun _ _ _ _ _ => rfl, s.slotsRejected_refl r⟩
  unfold State.rejectInCradle
  split
  · exact same
  · exact same
  · rename_i b h
    split
    · have k := key b ((s.tip c b r).raiseRejected b.brick r) (fun _ _ => by simp [State.tip])
      exact ⟨fun b' hb => by rw [h] at hb; cases hb; exact k.1, k.2⟩
    · exact same
  · rename_i b h
    split
    · have k := key b ((s.setCradle c (.gluing (b.marked r))).raiseRejected b.brick r) (fun _ _ => by simp)
      exact ⟨fun b' hb => by rw [h] at hb; cases hb; exact k.1, k.2⟩
    · exact same
  · rename_i b d h
    split
    · exact same
    · split
      · have k := key b (s.setCradle c (.ready (b.marked r) none)) (fun _ _ => by simp)
        exact ⟨fun b' hb => by rw [h] at hb; cases hb; exact k.1, k.2⟩
      · have k := key b ((s.tip c b r).raiseRejected b.brick r) (fun _ _ => by simp [State.tip])
        exact ⟨fun b' hb => by rw [h] at hb; cases hb; exact k.1, k.2⟩

/-- A reject on the path changes slots only from FED, as the reason gives it (R64). -/
theorem State.rejectOnPath_slotsRejected (s : State) (x : Brick × BrickPlace) (r : RejectReason) :
    s.slotsRejected (s.rejectOnPath x r) r := by
  unfold State.rejectOnPath
  split
  · exact s.slotsRejected_refl r
  · exact (s.rejectInCradle_slots _ r).2
  · exact (s.rejectInTrain_slots _ r).2

theorem State.foldl_slotsRejected {α : Type} (f : State → α → State) (r : RejectReason)
    (h : ∀ (s : State) (a : α), s.slotsRejected (f s a) r) (l : List α) (s : State) : s.slotsRejected (l.foldl f s) r := by
  induction l generalizing s with
  | nil => exact s.slotsRejected_refl r
  | cons a l ih => exact (h s a).trans (ih _)

/-- A rollback returns slots from FED to PENDING and changes none otherwise (R64). -/
theorem State.rollback_slotsRejected (s : State) (n : Nat) : s.slotsRejected (s.rollback n) .rollback :=
  State.foldl_slotsRejected _ _ (fun s a => s.rejectOnPath_slotsRejected a .rollback) _ s

/-- A rollback leaves every slot that is not FED. -/
theorem State.rollback_notFed (s : State) (n : Nat) (b : BankId) (i : Nat) (sl : Slot) (h : s.slot? b i = some sl)
    (hf : sl.status.isFed = false) : (s.rollback n).slot? b i = some sl := by
  rcases s.rollback_slotsRejected n b i sl h with k | ⟨k, _⟩
  · exact k
  · rw [hf] at k; cases k

/-- A brick-specific reject reported: the brick's own slot, where it was FED (R17, R63). -/
theorem State.reportBrickReject_self (s : State) (b : Brick) (r : RejectReason) (sl : Slot)
    (h : s.slot? b.bank b.slot = some sl) (hf : sl.status.isFed = true) :
    (s.reportBrickReject b r).slot? b.bank b.slot = some (sl.afterReject r) := by
  have key := s.recordReject_self _ _ r sl h hf
  unfold State.reportBrickReject
  dsimp only
  split
  · split
    · rw [State.cursorReturn_slot?]; exact key
    · rw [State.cursorReturn_slot?]
      exact State.rollback_notFed _ _ _ _ _ key (Slot.afterReject_notFed sl r)
  · exact key

/-- A reject for COURSE ENDED or PURGED in the gripper (R142). -/
theorem State.rejectInGripper_slots (s : State) (r : RejectReason) (hr : r.brickSpecific = false) :
    (∀ g, s.place.gripper = some g → s.slotsKeptBut (s.rejectInGripper r) g.brick.bank g.brick.slot) ∧
      s.slotsRejected (s.rejectInGripper r) r := by
  unfold State.rejectInGripper
  split
  · rename_i g hg
    split
    · rw [State.enterAbandoning_eq, hr]
      refine ⟨fun g' h => ?_, ?_⟩
      · rw [hg] at h; cases h
        exact State.slotsKeptBut_of_kept (fun _ _ => rfl) (State.reportReject_other (s.abandoningState g r) _ _)
      · exact State.slotsRejected_of_kept (fun _ _ => rfl) (State.reportReject_slotsRejected (s.abandoningState g r) _ _)
    · exact ⟨fun _ _ _ _ _ => rfl, s.slotsRejected_refl r⟩
  · exact ⟨fun _ _ _ _ _ => rfl, s.slotsRejected_refl r⟩

/-- A withdrawal changes slots only from FED, as the reason gives it (R66, R87). -/
theorem State.withdraw_slotsRejected (s : State) (x : Brick × BrickPlace) (r : RejectReason) (hr : r.brickSpecific = false) :
    s.slotsRejected (s.withdraw x r) r := by
  unfold State.withdraw
  split
  · exact (s.rejectInGripper_slots r hr).2
  · exact (s.rejectInCradle_slots _ r).2
  · exact (s.rejectInTrain_slots _ r).2

/-! ## Bricks in train order -/

theorem mem_insertInOrder (x y : Brick × BrickPlace) (l : List (Brick × BrickPlace)) :
    y ∈ insertInOrder x l ↔ y = x ∨ y ∈ l := by
  induction l with
  | nil => simp [insertInOrder]
  | cons a l ih =>
    unfold insertInOrder
    split
    · simp
    · simp only [List.mem_cons, ih]
      tauto

theorem mem_insertAll (y : Brick × BrickPlace) (l : List (Brick × BrickPlace)) :
    y ∈ l.foldr insertInOrder [] ↔ y ∈ l := by
  induction l with
  | nil => simp
  | cons a l ih => simp only [List.foldr_cons, mem_insertInOrder, ih, List.mem_cons]

/-- Which records are bricks in flight, and where (R51). -/
theorem State.mem_bricks (s : State) (b : Brick) (p : BrickPlace) :
    (b, p) ∈ s.bricks ↔
      (p = .gripper ∧ ∃ g, s.place.gripper = some g ∧ g.brick = b) ∨
      (∃ c cb, p = .cradle c ∧ c ∈ s.cradlesInUse ∧ (s.cradle c).brick? = some cb ∧ cb.brick = b) ∨
      (p = .train ∧ ∃ e ∈ s.train.entries, e.brick = b) := by
  unfold State.bricks
  simp only [mem_insertAll, List.mem_append, List.mem_map, List.mem_filterMap, Option.mem_toList, Prod.mk.injEq,
    Option.map_eq_some_iff]
  constructor
  · rintro ((⟨g, hg, rfl, rfl⟩ | ⟨c, hc, cb, hcb, rfl, rfl⟩) | ⟨e, he, rfl, rfl⟩)
    · exact .inl ⟨rfl, g, hg, rfl⟩
    · exact .inr (.inl ⟨c, cb, rfl, hc, hcb, rfl⟩)
    · exact .inr (.inr ⟨rfl, e, he, rfl⟩)
  · rintro (⟨rfl, g, hg, rfl⟩ | ⟨c, cb, rfl, hc, hcb, rfl⟩ | ⟨rfl, e, he, rfl⟩)
    · exact .inl (.inl ⟨g, hg, rfl, rfl⟩)
    · exact .inl (.inr ⟨c, hc, cb, hcb, rfl, rfl⟩)
    · exact .inr ⟨e, he, rfl, rfl⟩

/-- A withdrawal of a live brick leaves every slot but the brick's own (R66, R87). -/
theorem State.withdraw_other (s : State) (x : Brick × BrickPlace) (r : RejectReason) (hr : r.brickSpecific = false)
    (hx : x ∈ s.bricks) : s.slotsKeptBut (s.withdraw x r) x.1.bank x.1.slot := by
  obtain ⟨b, p⟩ := x
  rcases (s.mem_bricks b p).mp hx with ⟨rfl, g, hg, rfl⟩ | ⟨c, cb, rfl, _, hcb, rfl⟩ | ⟨rfl, _, _, rfl⟩
  · exact (s.rejectInGripper_slots r hr).1 g hg
  · exact (s.rejectInCradle_slots c r).1 cb hcb
  · exact (s.rejectInTrain_slots _ r).1

end Sys2Proof.Machine
end

