-- ==== Sys2Proof/Laws/Bricks.lean ====
section
/-! SUPPORT. What rejects and rollbacks leave of the train, the cradles and Mode Control; train order,
the cradle of a grant, the oldest live brick; the conditions of a pick and of a feed request, and the lay course. -/

namespace Sys2Proof.Machine

/-- The oldest REQUESTED entry loaded, where it stands behind entries IN TRANSIT (R75, R77). -/
theorem loadOldest_append (m : Nat) (due : Time) (older younger : List TrainEntry) (e : TrainEntry)
    (p : Option TrainEntry)
    (ho : ∀ x ∈ older, x.state = .inTransit) (he : e.state = .requested) :
    loadOldest m due p (older ++ e :: younger)
        = older ++ { e with measured := some m, state := .inTransit, deadline := some (max due (deadlineAhead (older.getLast?.or p))) } ::
        younger := by
  induction older generalizing p with
  | nil => simp [loadOldest, he]
  | cons a l ih =>
    have ha := ho a (by simp)
    simp only [List.cons_append, loadOldest, ha]
    rw [ih (some a) (fun x hx => ho x (by simp [hx]))]
    cases l with
    | nil => simp
    | cons b l => 
      have : ((b :: l).getLast?.or (some a)) = (a :: b :: l).getLast?.or p := by
        simp [List.getLast?_cons_cons, List.getLast?_cons]
      rw [this]

/-- The oldest REQUESTED entry, behind entries IN TRANSIT (R75). -/
theorem TrainList.oldestRequested_append (older younger : List TrainEntry) (e : TrainEntry) (t : TrainList)
    (h : t.entries = older ++ e :: younger)
    (ho : ∀ x ∈ older, x.state = .inTransit) (he : e.state = .requested) : t.oldestRequested = some e := by
  unfold TrainList.oldestRequested
  rw [h, List.find?_append]
  have : older.find? (fun e => decide (e.state = .requested)) = none := by
    simp only [List.find?_eq_none, decide_eq_true_eq]
    intro x hx; rw [ho x hx]; decide
  rw [this]; simp [he]

/-- What a brick-specific reject makes of a FED slot: the count raised; PENDING below three, REFUSED (REPEATED) from
the third (R5, R17). -/
theorem Slot.afterReject_brickSpecific (sl : Slot) (r : RejectReason) (h : r.brickSpecific = true) :
    sl.afterReject r = { sl with
        rejectCount := sl.rejectCount + 1
        status := if sl.rejectCount + 1 < 3 then .pending else .refused .repeated } := by
  cases r <;> simp [RejectReason.brickSpecific] at h <;> simp only [Slot.afterReject] <;> split <;> rfl

/-- A reject of a younger brick keeps an entry of the train (R79). -/
theorem State.rejectOnPath_keepsEntry (s : State) (x : Brick × BrickPlace) (e : TrainEntry) (n : Nat)
    (hn : e.brick.serial = n) (hx : n < x.1.serial)
   (he : e ∈ s.train.entries) (r : RejectReason) : e ∈ (s.rejectOnPath x r).train.entries := by
  have ne : e.brick.serial ≠ x.1.serial := by omega
  unfold State.rejectOnPath
  split
  · exact he
  · unfold State.rejectInCradle
    have key : ∀ (u : State) (b : Brick), u.train = s.train → e ∈ (u.reportReject b r).train.entries := by
      intro u b h; rw [(State.reportReject_planMove _ _ _).train, h]; exact he
    split
    · exact he
    · exact he
    · split
      · exact key _ _ (by simp [State.raiseRejected, State.tip, State.learnReject])
      · exact he
    · split
      · exact key _ _ (by simp [State.raiseRejected, State.tip, State.learnReject])
      · exact he
    · split
      · exact he
      · split
        · exact key _ _ (by simp)
        · exact key _ _ (by simp [State.raiseRejected, State.tip, State.learnReject])
  · unfold State.rejectInTrain
    split
    · split
      · exact he
      · split
        · rw [(State.reportReject_planMove _ _ _).train]
          simp [State.raiseRejected, State.learnReject, State.setEntries, he, ne]
        · rw [(State.reportReject_planMove _ _ _).train]
          simp [State.raiseRejected, State.learnReject, State.setEntries]
          exact ⟨e, he, by simp [ne]⟩
    · exact he

/-- A rollback keeps the entry it is made for (R64). -/
theorem State.rollback_keepsEntry (s : State) (e : TrainEntry) (he : e ∈ s.train.entries) :
    e ∈ (s.rollback e.brick.serial).train.entries := by
  unfold State.rollback
  have : ∀ x ∈ s.liveBricks.filter (fun x => decide (e.brick.serial < x.1.serial)), e.brick.serial < x.1.serial := by
    intro x hx; simpa using (List.mem_filter.mp hx).2
  revert this
  generalize s.liveBricks.filter _ = l
  induction l generalizing s with
  | nil => intro _; exact he
  | cons a l ih =>
    intro h
    exact ih _ (State.rejectOnPath_keepsEntry s a e _ rfl (h a (by simp)) he .rollback) (fun x hx => h x (by simp [hx]))

/-- A reported reject leaves the reject-seen flag set. -/
theorem State.reportReject_rejectSeen (u : State) (b : Brick) (r : RejectReason) (h : u.mode.rejectSeen = true) :
    (u.reportReject b r).mode.rejectSeen = true := by
  rw [(State.reportReject_planMove _ _ _).mode]; exact h

/-- A REJECTED notice leaves the reject-seen flag set (R159). -/
theorem State.raiseRejected_rejectSeen (u : State) (b : Brick) (r : RejectReason) (h : u.mode.rejectSeen = true) :
    (u.raiseRejected b r).mode.rejectSeen = true := by
  simp [State.raiseRejected, State.learnReject, h]

/-- A reject on the path leaves the reject-seen flag set. -/
theorem State.rejectOnPath_rejectSeen (s : State) (x : Brick × BrickPlace) (r : RejectReason)
    (h : s.mode.rejectSeen = true) : (s.rejectOnPath x r).mode.rejectSeen = true := by
  unfold State.rejectOnPath
  split
  · exact h
  · unfold State.rejectInCradle
    split
    · exact h
    · exact h
    · split
      · exact State.reportReject_rejectSeen _ _ _ (State.raiseRejected_rejectSeen _ _ _ (by simp [State.tip, h]))
      · exact h
    · split
      · exact State.reportReject_rejectSeen _ _ _ (State.raiseRejected_rejectSeen _ _ _ (by simp [State.tip, h]))
      · exact h
    · split
      · exact h
      · split
        · exact State.reportReject_rejectSeen _ _ _ (by simp [State.tip, h])
        · exact State.reportReject_rejectSeen _ _ _ (State.raiseRejected_rejectSeen _ _ _ (by simp [State.tip, h]))
  · unfold State.rejectInTrain
    split
    · split
      · exact h
      · split <;> exact State.reportReject_rejectSeen _ _ _ (State.raiseRejected_rejectSeen _ _ _ h)
    · exact h

/-- A rollback leaves the reject-seen flag set. -/
theorem State.rollback_rejectSeen (s : State) (n : Nat) (h : s.mode.rejectSeen = true) :
    (s.rollback n).mode.rejectSeen = true := by
  unfold State.rollback
  generalize s.liveBricks.filter _ = l
  induction l generalizing s with
  | nil => exact h
  | cons a l ih => exact ih _ (State.rejectOnPath_rejectSeen s a _ h)

/-- A brick-specific reject reported leaves the reject-seen flag set. -/
theorem State.reportBrickReject_rejectSeen (s : State) (b : Brick) (r : RejectReason) (h : s.mode.rejectSeen = true) :
    (s.reportBrickReject b r).mode.rejectSeen = true := by
  have k : (s.recordReject b.bank b.slot r).mode.rejectSeen = true :=
      by rw [(State.recordReject_planMove _ _ _ _).mode]; exact h
  unfold State.reportBrickReject
  dsimp only
  split
  · split
    · rw [(State.cursorReturn_planMove _ _ _).mode]; exact k
    · rw [(State.cursorReturn_planMove _ _ _).mode]; exact State.rollback_rejectSeen _ _ k
  · exact k

/-- A brick-specific reject reported keeps the entry of its own brick (R63, R79). -/
theorem State.reportBrickReject_keepsEntry (s : State) (b : Brick) (r : RejectReason) (e : TrainEntry)
    (he : e ∈ s.train.entries) (hb : e.brick.serial = b.serial) : e ∈ (s.reportBrickReject b r).train.entries := by
  have k : e ∈ (s.recordReject b.bank b.slot r).train.entries :=
      by rw [(State.recordReject_planMove _ _ _ _).train]; exact he
  unfold State.reportBrickReject
  dsimp only
  split
  · split
    · rw [(State.cursorReturn_planMove _ _ _).train]; exact k
    · rw [(State.cursorReturn_planMove _ _ _).train, ← hb]; exact State.rollback_keepsEntry _ _ k
  · exact k

/-! ## Cradles under rejects -/

/-- A cradle is read from the cradle records alone. -/
theorem State.cradle_of_cradles (s t : State) (h : t.cradles = s.cradles) (c : CradleId) : t.cradle c = s.cradle c := by
  unfold State.cradle; rw [h]

/-- Live means unmarked. -/
theorem Brick.live_iff (b : Brick) : b.live = true ↔ b.mark = none := by simp [Brick.live, Option.isNone_iff_eq_none]

/-- A reject on the path leaves a TIPPING cradle, and a READY one whose brick is marked (R84). -/
theorem State.rejectOnPath_cradle (s : State) (x : Brick × BrickPlace) (r : RejectReason) (c : CradleId)
    (h : (∃ b d, s.cradle c = .tipping b d) ∨ ∃ b d, s.cradle c = .ready b d ∧ b.brick.live = false) :
        (s.rejectOnPath x r).cradle c = s.cradle c := by
  have P : ∀ (u : State) (b : Brick), u.cradle c = s.cradle c → (u.reportReject b r).cradle c = s.cradle c := by
    intro u b hu; rw [State.cradle_of_cradles u _ (State.reportReject_planMove _ _ _).cradles]; exact hu
  unfold State.rejectOnPath
  split
  · rfl
  · rename_i d _
    unfold State.rejectInCradle
    split
    · rfl
    · rfl
    · rename_i b hb
      have : c ≠ d := by rintro rfl; rw [hb] at h; simp at h
      split
      · refine P _ _ ?_
        rw [State.cradle_of_cradles _ _ (State.raiseRejected_cradles _ _ _)]
        exact State.setCradle_other _ _ _ _ this
      · rfl
    · rename_i b hb
      have : c ≠ d := by rintro rfl; rw [hb] at h; simp at h
      split
      · refine P _ _ ?_
        rw [State.cradle_of_cradles _ _ (State.raiseRejected_cradles _ _ _)]
        exact State.setCradle_other _ _ _ _ this
      · rfl
    · rename_i b dd hb
      split
      · rfl
      · rename_i hl
        have : c ≠ d := by rintro rfl; rw [hb] at h; simp at h; simp [h] at hl
        split
        · refine P _ _ ?_
          exact State.setCradle_other _ _ _ _ this
        · refine P _ _ ?_
          rw [State.cradle_of_cradles _ _ (State.raiseRejected_cradles _ _ _)]
          exact State.setCradle_other _ _ _ _ this
  · unfold State.rejectInTrain
    split
    · split
      · rfl
      · split
        · exact P _ _ (State.cradle_of_cradles _ _ (State.raiseRejected_cradles _ _ _) _)
        · exact P _ _ (State.cradle_of_cradles _ _ (State.raiseRejected_cradles _ _ _) _)
    · rfl

/-- So does a rollback. -/
theorem State.rollback_cradle (s : State) (n : Nat) (c : CradleId)
    (h : (∃ b d, s.cradle c = .tipping b d) ∨ ∃ b d, s.cradle c = .ready b d ∧ b.brick.live = false) :
        (s.rollback n).cradle c = s.cradle c := by
  unfold State.rollback
  generalize s.liveBricks.filter _ = l
  induction l generalizing s with
  | nil => rfl
  | cons a l ih =>
    have k := State.rejectOnPath_cradle s a .rollback c h
    exact (ih _ (by rw [k]; exact h)).trans k

/-- So does a brick-specific reject reported. -/
theorem State.reportBrickReject_cradle (s : State) (b : Brick) (r : RejectReason) (c : CradleId)
    (h : (∃ b d, s.cradle c = .tipping b d) ∨ ∃ b d, s.cradle c = .ready b d ∧ b.brick.live = false) :
        (s.reportBrickReject b r).cradle c = s.cradle c := by
  have k : (s.recordReject b.bank b.slot r).cradle c = s.cradle c :=
      State.cradle_of_cradles _ _ (State.recordReject_planMove _ _ _ _).cradles _
  unfold State.reportBrickReject
  dsimp only
  split
  · split
    · rw [State.cradle_of_cradles _ _ (State.cursorReturn_planMove _ _ _).cradles]; exact k
    · rw [State.cradle_of_cradles _ _ (State.cursorReturn_planMove _ _ _).cradles,
          State.rollback_cradle _ _ _ (by rw [k]; exact h)]; exact k
  · exact k

/-! ## Train order, the grant and the pick -/

/-- Train order is kept by an insertion. -/
theorem insertInOrder_pairwise (x : Brick × BrickPlace) (l : List (Brick × BrickPlace))
    (h : l.Pairwise fun a b => a.1.serial ≤ b.1.serial) :
        (insertInOrder x l).Pairwise fun a b => a.1.serial ≤ b.1.serial := by
  induction l with
  | nil => simp [insertInOrder]
  | cons a l ih =>
    unfold insertInOrder
    rw [List.pairwise_cons] at h
    split
    · rename_i hx
      refine List.pairwise_cons.mpr ⟨fun b hb => ?_, List.pairwise_cons.mpr h⟩
      rcases List.mem_cons.mp hb with rfl | hb
      · exact hx
      · exact Nat.le_trans hx (h.1 b hb)
    · rename_i hx
      refine List.pairwise_cons.mpr ⟨fun b hb => ?_, ih h.2⟩
      rcases (mem_insertInOrder _ _ _).mp hb with rfl | hb
      · omega
      · exact h.1 b hb

/-- The brick records stand in train order (R51). -/
theorem State.bricks_pairwise (s : State) : s.bricks.Pairwise fun a b => a.1.serial ≤ b.1.serial := by
  unfold State.bricks
  dsimp only
  generalize (_ ++ _ : List (Brick × BrickPlace)) = l
  induction l with
  | nil => exact List.Pairwise.nil
  | cons a l ih => exact insertInOrder_pairwise a _ ih

/-- So do the live ones. -/
theorem State.liveBricks_pairwise (s : State) : s.liveBricks.Pairwise fun a b => a.1.serial ≤ b.1.serial :=
    (State.bricks_pairwise s).filter _

/-- With no live brick in HELD there is no cradle for a grant (R93). -/
theorem State.grantee_none (s : State) (h : ∀ c ∈ s.cradlesInUse, ∀ b, s.cradle c = .held b → b.brick.mark ≠ none) :
    s.grantee = none := by
  unfold State.grantee
  rw [List.findSome?_eq_none_iff]
  rintro ⟨b, p⟩ hx
  unfold State.liveBricks at hx
  rcases (s.mem_bricks b p).mp (List.mem_filter.mp hx).1 with ⟨rfl, _⟩ | ⟨c, cb, rfl, hc, hcb, rfl⟩ | ⟨rfl, _⟩
  · rfl
  · dsimp only
    rw [if_neg]
    cases e : s.cradle c <;> simp [Cradle.waitsForPump]
    rename_i b
    have := h c hc b e
    simpa [Brick.live, Option.ne_none_iff_exists', Option.isSome_iff_exists] using this
  · rfl

/-- In train order, the first answer is that of the oldest brick that has one. -/
theorem findSome_of_oldest {β : Type} (l : List (Brick × BrickPlace)) (f : Brick × BrickPlace → Option β) (b : β)
    (x : Brick × BrickPlace)
    (hs : l.Pairwise fun a b => a.1.serial ≤ b.1.serial) (hx : x ∈ l) (fx : f x = some b)
    (le : ∀ y ∈ l, ∀ b', f y = some b' → b' ≠ b → x.1.serial < y.1.serial) : l.findSome? f = some b := by
  induction l with
  | nil => cases hx
  | cons a l ih =>
    rw [List.findSome?_cons]
    cases e : f a with
    | some b' =>
      by_cases hb : b' = b
      · simp [hb]
      · have := le a (by simp) b' e hb
        rcases List.mem_cons.mp hx with rfl | hx
        · omega
        · have := (List.pairwise_cons.mp hs).1 x hx
          omega
    | none =>
      rcases List.mem_cons.mp hx with rfl | hx
      · rw [e] at fx; cases fx
      · exact ih (List.pairwise_cons.mp hs).2 hx fun y hy => le y (by simp [hy])

/-- The grant goes to the HELD cradle whose live brick is older (R93). -/
theorem State.grantee_of_older (s : State) (c : CradleId) (b : CradleBrick) (hc : c ∈ s.cradlesInUse)
    (hb : s.cradle c = .held b) (hm : b.brick.mark = none)
    (ho : ∀ d ∈ s.cradlesInUse, d ≠ c → ∀ b', s.cradle d = .held b' → b'.brick.mark = none →
        b.brick.serial < b'.brick.serial) : s.grantee = some c := by
  refine findSome_of_oldest _ _ _ (b.brick, .cradle c) (State.liveBricks_pairwise s) ?_ ?_ ?_
  · refine List.mem_filter.mpr ⟨(s.mem_bricks _ _).mpr (.inr (.inl ⟨c, b, rfl, hc, by rw [hb]; rfl, rfl⟩)), ?_⟩
    simp [Brick.live, hm]
  · simp [hb, Cradle.waitsForPump, Brick.live, hm]
  · rintro ⟨b2, p⟩ hx d fd hne
    rcases (s.mem_bricks b2 p).mp (List.mem_filter.mp hx).1 with ⟨rfl, _⟩ | ⟨c2, cb, rfl, hc2, hcb, rfl⟩ | ⟨rfl, _⟩
    · cases fd
    · dsimp only at fd
      split at fd
      · cases fd
        rename_i hw
        cases e : s.cradle d <;> simp [e, Cradle.waitsForPump, Brick.live] at hw
        rename_i b3
        rw [e] at hcb
        simp [Cradle.brick?] at hcb
        subst hcb
        exact ho d hc2 hne _ e hw
      · cases fd
    · cases fd

/-- The cradle a grant goes to is in use and holds a live brick in HELD (R93). -/
theorem State.grantee_held (u : State) (d : CradleId) (h : u.grantee = some d) : d ∈ u.cradlesInUse ∧ ∃ b,
    u.cradle d = .held b ∧ b.brick.live = true := by
  obtain ⟨⟨b, p⟩, hm, hx⟩ := List.exists_of_findSome?_eq_some h
  rcases (u.mem_bricks b p).mp (List.mem_filter.mp hm).1 with ⟨rfl, _⟩ | ⟨c2, cb, rfl, hc2, hcb, rfl⟩ | ⟨rfl, _⟩
  · cases hx
  · dsimp only at hx
    split at hx
    · cases hx
      rename_i hw
      refine ⟨hc2, ?_⟩
      cases e : u.cradle d <;> simp [e, Cradle.waitsForPump] at hw ⊢
      exact hw
    · cases hx
  · cases hx

/-- With a live brick HELD in a cradle in use there is a cradle for a grant (R93). -/
theorem State.grantee_isSome (u : State) (d : CradleId) (b : CradleBrick) (h1 : d ∈ u.cradlesInUse)
    (h2 : u.cradle d = .held b) (h3 : b.brick.live = true) : u.grantee.isSome = true := by
  have hm : (b.brick, BrickPlace.cradle d) ∈ u.liveBricks :=
    List.mem_filter.mpr ⟨(u.mem_bricks _ _).mpr (.inr (.inl ⟨d, b, rfl, h1, by rw [h2]; rfl, rfl⟩)), h3⟩
  unfold State.grantee
  rw [List.isSome_findSome?, List.any_eq_true]
  exact ⟨_, hm, by simp [h2, Cradle.waitsForPump, h3]⟩

/-- A grant judged in LAYING with the pump free: the pump, the cradle granted and the other one (R93, R94). -/
theorem State.judgeGrant_to (s : State) (c : CradleId) (b : CradleBrick) (hl : s.mode.mode = .laying)
    (ho : s.adhesive.owner = none) (hb : s.cradle c = .held b) (hg : s.grantee = some c) :
    s.judgeGrant.adhesive = { s.adhesive with
      owner := some c, operation := some (s.newOperation b), counter := s.adhesive.divisor, pump := false } ∧
    s.judgeGrant.cradle c = .gluing b ∧ ∀ d, d ≠ c → s.judgeGrant.cradle d = s.cradle d := by
  unfold State.judgeGrant
  rw [if_pos (by simp [State.grantDue, hl, ho, hg]), hg]
  dsimp only
  unfold State.grantTo
  rw [hb]
  refine ⟨by simp, by simp, fun d hd => ?_⟩
  rw [State.setCradle_other _ _ _ _ hd]; rfl

/-- The pick candidate: a live brick in a READY cradle in use (R126). -/
theorem State.pickCandidate_ready (s : State) (b : Brick) (c : CradleId) (hc : s.pickCandidate = some (b, c)) :
    c ∈ s.cradlesInUse ∧ ∃ cb d, s.cradle c = .ready cb d ∧ cb.brick = b ∧ b.live = true := by
  unfold State.pickCandidate at hc
  split at hc
  · rename_i b2 c2 ho
    split at hc
    · rename_i cb d hcr
      cases hc
      have hm := List.mem_of_head? ho
      unfold State.liveBricks at hm
      obtain ⟨h1, h2⟩ := List.mem_filter.mp hm
      rcases (s.mem_bricks _ _).mp h1 with ⟨h, _⟩ | ⟨c3, cb3, h, hu, hb3, rfl⟩ | ⟨h, _⟩
      · cases h
      · cases h
        rw [hcr] at hb3; cases hb3
        exact ⟨hu, _, _, hcr, rfl, h2⟩
      · cases h
    · cases hc
  · cases hc

/-! ## The oldest live brick, the conditions of a pick and of a feed, the lay course (R51, R54, R126) -/

theorem State.heldLive_iff (s : State) (x : Brick × BrickPlace) : s.heldLive x ↔ x ∈ s.liveBricks := by
  obtain ⟨b, p⟩ := x
  unfold State.heldLive State.liveBricks
  rw [List.mem_filter, s.mem_bricks, Brick.live_iff]
  cases p <;> simp [and_comm]

theorem State.oldestLive_of_isOldest {s : State} {x : Brick × BrickPlace} (h : s.isOldest x) : s.oldestLive = some x := by
  have hx := (s.heldLive_iff x).mp h.1
  have hp := s.liveBricks_pairwise
  have hy : ∀ y ∈ s.liveBricks, y ≠ x → x.1.serial < y.1.serial := fun y k => h.2 y ((s.heldLive_iff y).mpr k)
  unfold State.oldestLive
  cases e : s.liveBricks with
  | nil => rw [e] at hx; cases hx
  | cons a l =>
    rw [e] at hx hp hy
    by_cases ha : a = x
    · rw [ha]; rfl
    · have := hy a (by simp) ha
      have := (List.pairwise_cons.mp hp).1 x (by simpa [Ne.symm ha] using hx)
      omega

/-- The oldest live brick of the model is a live brick that no other precedes (R51). -/
theorem State.oldestLive_le {s : State} {x : Brick × BrickPlace} (h : s.oldestLive = some x) :
    s.heldLive x ∧ ∀ y, s.heldLive y → x.1.serial ≤ y.1.serial := by
  have hp := s.liveBricks_pairwise
  refine ⟨(s.heldLive_iff x).mpr (List.mem_of_head? h), fun y hy => ?_⟩
  have hy := (s.heldLive_iff y).mp hy
  unfold State.oldestLive at h
  cases e : s.liveBricks with
  | nil => rw [e] at h; cases h
  | cons a l =>
    rw [e] at h hp hy
    cases h
    rcases List.mem_cons.mp hy with rfl | k
    · exact Nat.le_refl _
    · exact (List.pairwise_cons.mp hp).1 y k

theorem State.mayPick_due {s : State} {b : Brick} {c : CradleId} (h : s.mayPick b c) :
    s.pickDue = true ∧ s.pickCandidate = some (b, c) := by
  obtain ⟨h1, h2, h3, cb, due, h4⟩ := h
  have hc : s.pickCandidate = some (b, c) := by
    unfold State.pickCandidate
    rw [State.oldestLive_of_isOldest h3]
    dsimp only
    rw [h4]
  refine ⟨?_, hc⟩
  unfold State.pickDue
  rw [hc, h1, h2]; rfl

theorem State.feedRequestDue_iff (s : State) : s.feedRequestDue = true ↔ s.mayFeed := by
  have tag : s.tagInFlight s.feed.nextTag = false ↔
      (∀ e ∈ s.train.entries, e.brick.tag ≠ s.feed.nextTag) ∧
      (∀ c ∈ s.cradlesInUse, ∀ cb, (s.cradle c).brick? = some cb → cb.brick.tag ≠ s.feed.nextTag) ∧
      ∀ g, s.place.gripper = some g → g.brick.tag ≠ s.feed.nextTag := by
    unfold State.tagInFlight
    rw [List.any_eq_false]
    simp only [decide_eq_true_eq]
    constructor
    · intro h
      exact ⟨fun e he => h (e.brick, .train) ((s.mem_bricks _ _).mpr (.inr (.inr ⟨rfl, e, he, rfl⟩))),
        fun c hc cb hcb => h (cb.brick, .cradle c) ((s.mem_bricks _ _).mpr (.inr (.inl ⟨c, cb, rfl, hc, hcb, rfl⟩))),
        fun g hg => h (g.brick, .gripper) ((s.mem_bricks _ _).mpr (.inl ⟨rfl, g, hg, rfl⟩))⟩
    · rintro ⟨h1, h2, h3⟩ ⟨b, p⟩ hx
      rcases (s.mem_bricks b p).mp hx with ⟨_, g, hg, rfl⟩ | ⟨c, cb, _, hc, hcb, rfl⟩ | ⟨_, e, he, rfl⟩
      · exact h3 g hg
      · exact h2 c hc cb hcb
      · exact h1 e he
  unfold State.feedRequestDue State.mayFeed
  simp only [Bool.and_eq_true, decide_eq_true_eq, Bool.not_eq_true', tag, and_assoc]

theorem State.oldestLive_none {s : State} (h : ∀ x, ¬ s.heldLive x) : s.oldestLive = none := by
  cases e : s.oldestLive with
  | none => rfl
  | some x => exact absurd (State.oldestLive_le e).1 (h x)

theorem State.layCourse_of_lacksLayCourse {s : State} (h : s.lacksLayCourse) : s.layCourse = none := by
  unfold State.layCourse
  rw [State.oldestLive_none h.1]
  dsimp only
  split
  · rename_i k
    unfold Bank.slotAt
    rw [h.2 k]; rfl
  · rfl

theorem State.layCourse_of_isLayCourse {s : State} {b : BankId} {course : Nat} (h : s.isLayCourse b course) :
    s.layCourse = some (b, course) := by
  unfold State.layCourse
  rcases h with ⟨x, sl, h1, rfl, h2, rfl⟩ | ⟨h1, h2, h3, i, sl, h4, h5, rfl⟩
  · rw [State.oldestLive_of_isOldest h1]
    dsimp only
    rw [h2]; rfl
  · rw [State.oldestLive_none h1]
    dsimp only
    rw [h2, if_pos h3]
    unfold Bank.slotAt
    rw [h4]
    have h5 : (s.bank b).slots[i]? = some sl := h5
    simp [h5]

end Sys2Proof.Machine
end

