-- ==== Sys2Proof/Laws/Invariant.lean ====
section
/-! SUPPORT. What every shared operation keeps of the invariants, said once: `EventMove` for whatever runs inside an event,
and the frame that a free transmitter begins at the event's end. -/

namespace Sys2Proof.Machine

/-- What holds of a state in the middle of an event: every invariant but the bounds of commands and replies and the rest of
the transmitter. -/
structure State.Body (s : State) : Prop where
  bound   : s.link.notices.length ≤ 16
  held    : s.conveyorHeld
  holds   : s.holdsCarried
  fault   : s.faultRecorded
  travel  : s.withinTravel
  pump    : s.pumpOwned
  runs    : s.runsBounded
  settled : s.settledMarked
  apart   : s.bricksApart

/-- Inside an event: the body is kept, and commands, replies and the frame being sent stay. -/
structure EventMove (s t : State) : Prop where
  body     : s.Body → t.Body
  commands : t.link.commands = s.link.commands
  replies  : t.link.replies = s.link.replies
  sending  : t.link.sending = s.link.sending
  reset    : s.link.resetPending = true → t.link.resetPending = true

theorem EventMove.refl (s : State) : EventMove s s := ⟨id, rfl, rfl, rfl, id⟩

theorem EventMove.trans {s t u : State} (h : EventMove s t) (k : EventMove t u) : EventMove s u :=
  ⟨fun b => k.body (h.body b), k.commands.trans h.commands, k.replies.trans h.replies, k.sending.trans h.sending,
    fun r => k.reset (h.reset r)⟩

/-- A fold of moves is a move. -/
theorem EventMove.foldl {α : Type} (f : State → α → State) (h : ∀ s a, EventMove s (f s a)) (l : List α) (s : State) :
    EventMove s (l.foldl f s) := by
  induction l generalizing s with
  | nil => exact .refl s
  | cons a l ih => exact (h s a).trans (ih _)

/-- The zero setpoints are within any travel. -/
theorem State.withinTravel_of_zero (s : State) (h : s.comp.setpoints = ⟨0, 0, 0, 0⟩) : s.withinTravel := by
  unfold State.withinTravel
  rw [h]
  simp

theorem State.withinTravel_of_eq {s t : State} (hc : t.comp.setpoints = s.comp.setpoints)
    (ht : t.mode.travel = s.mode.travel) (h : s.withinTravel) : t.withinTravel := by
  unfold State.withinTravel at *
  rw [hc, ht]
  exact h

/-- A move that leaves alone all that the body is about. -/
theorem State.Body.of_eq {s t : State} (b : s.Body) (hn : t.link.notices.length ≤ 16) (hc : t.cradles = s.cradles)
    (hm : t.mode = s.mode) (hp : t.place = s.place) (ho : t.pose = s.pose)
    (hk : t.clock.stoppedAt = s.clock.stoppedAt) (hs : t.comp.setpoints = s.comp.setpoints)
    (hx : t.adhesive.operation = s.adhesive.operation) (hy : t.adhesive.owner = s.adhesive.owner)
    (ht : t.train = s.train) : t.Body where
  bound := hn
  held := State.conveyorHeld_of_eq hc (by rw [hm]) (by rw [hm]) b.held
  holds := by have := b.holds; unfold State.holdsCarried at *; rw [hp, hm, ho]; exact this
  fault := by have := b.fault; unfold State.faultRecorded State.faulted at *; rw [hm, hk]; exact this
  travel := State.withinTravel_of_eq hs (by rw [hm]) b.travel
  pump := by have := b.pump; unfold State.pumpOwned at *; rw [hx, hy]; exact this
  runs := by have := b.runs; unfold State.runsBounded at *; rw [ho]; exact this
  settled := by have := b.settled; unfold State.settledMarked at *; rw [hp]; exact this
  apart := State.bricksApart_of_eq ht hc b.apart

theorem PathMove.eventMove {s t : State} (h : PathMove s t) : EventMove s t where
  body b :=
    { bound := h.bound b.bound
      held := h.held b.held
      holds := by have := b.holds; unfold State.holdsCarried at *; rw [h.place, h.pose, h.mode_mode]; exact this
      fault := by have := b.fault; unfold State.faultRecorded State.faulted at *; rw [h.mode, h.clock]; exact this
      travel := State.withinTravel_of_eq (by rw [h.comp]) (by rw [h.mode]) b.travel
      pump := by have := b.pump; unfold State.pumpOwned at *; rw [h.adhesive]; exact this
      runs := by have := b.runs; unfold State.runsBounded at *; rw [h.pose]; exact this
      settled := by have := b.settled; unfold State.settledMarked at *; rw [h.place]; exact this
      apart := h.apart b.apart }
  commands := by rw [h.link]
  replies := by rw [h.link]
  sending := by rw [h.link]
  reset r := by rw [h.link]; exact r

theorem PlanMove.eventMove {s t : State} (h : PlanMove s t) : EventMove s t := h.toPathMove.eventMove

/-- An abandonment entered (R142): the flags of the placement stay. -/
theorem State.abandoningState_eventMove (s : State) (g : GripperBrick) (r : RejectReason) :
    EventMove s (s.abandoningState g r) where
  body b :=
    { bound := b.bound, held := State.conveyorHeld_of_eq rfl rfl rfl b.held, holds := b.holds, fault := b.fault
      travel := State.withinTravel_of_zero _ rfl, pump := b.pump, runs := b.runs
      settled := fun h => by simp [State.abandoningState] at h
      apart := b.apart }
  commands := rfl
  replies := rfl
  sending := rfl
  reset := id

theorem State.enterAbandoning_eventMove (s : State) (g : GripperBrick) (r : RejectReason) :
    EventMove s (s.enterAbandoning g r) :=
  (s.abandoningState_eventMove g r).trans (s.enterAbandoning_pathMove g r).eventMove

theorem State.withdraw_eventMove (s : State) (x : Brick × BrickPlace) (r : RejectReason) :
    EventMove s (s.withdraw x r) := by
  unfold State.withdraw State.rejectInGripper
  split
  · split
    · split
      · exact s.enterAbandoning_eventMove _ r
      · exact .refl s
    · exact .refl s
  · exact (s.rejectInCradle_pathMove _ r).eventMove
  · exact (s.rejectInTrain_pathMove _ r).eventMove

theorem State.runTo_eventMove (s : State) (n : Time) : EventMove s (s.runTo n) :=
  ⟨fun b => b.of_eq b.bound rfl rfl rfl rfl rfl rfl rfl rfl rfl, rfl, rfl, rfl, id⟩

theorem State.raise_eventMove (s : State) (n : Notice) : EventMove s (s.raise n) := (s.raise_planMove n).eventMove

theorem State.setCradle_eventMove (s : State) (c : CradleId) (x : Cradle)
    (h : ∀ b d, x = .tipping b d → b.brick.mark ≠ none) : EventMove s (s.setCradle c x) :=
  (s.setCradle_pathMove c x h).eventMove

/-- A mode change between modes other than FAULTED (R150). -/
theorem State.changeMode_eventMove (s : State) (m : PartMode) (c : ModeCause) (hs : s.faulted = false)
    (hm : m ≠ .faulted) : EventMove s (s.changeMode m c) := by
  refine EventMove.trans ?_ (State.raise_eventMove _ _)
  have hf : (decide (m = PartMode.faulted)) = s.faulted := by rw [hs]; simpa using hm
  refine ⟨fun b => ?_, rfl, rfl, rfl, id⟩
  exact
    { bound := b.bound
      held := by
        have := b.held
        unfold State.conveyorHeld at *
        rw [← hf] at this
        exact this
      holds := ⟨rfl, b.holds.2⟩
      fault := by
        have := b.fault
        unfold State.faultRecorded at *
        rw [← hf] at this
        exact this
      travel := b.travel
      pump := b.pump
      runs := b.runs
      settled := b.settled
      apart := b.apart }

theorem State.restartPlacementTimer_eventMove (s : State) : EventMove s s.restartPlacementTimer := by
  unfold State.restartPlacementTimer
  split
  · exact ⟨fun b => ⟨b.bound, b.held, b.holds, b.fault, b.travel, b.pump, b.runs, b.settled, b.apart⟩, rfl, rfl, rfl, id⟩
  · exact .refl s

/-! ## Faults -/

theorem State.stopGlue_eventMove (s : State) : EventMove s s.stopGlue := by
  have h : EventMove s { s with adhesive := { s.adhesive with pump := false } } :=
    ⟨fun b => b.of_eq b.bound rfl rfl rfl rfl rfl rfl rfl rfl rfl, rfl, rfl, rfl, id⟩
  unfold State.stopGlue
  dsimp only
  split
  · split
    · split
      · exact h.trans (((State.setCradle_pathMove _ _ _ fun _ _ h => by cases h).trans (State.raiseRejected_pathMove _ _ _)).trans
          (State.reportBrickReject_pathMove _ _ _)).eventMove
      · exact h
    · exact h
  · exact h

theorem State.freezePlacement_eventMove (s : State) : EventMove s s.freezePlacement :=
  ⟨fun b => ⟨b.bound, b.held, b.holds, b.fault, b.travel, b.pump, b.runs, b.settled, b.apart⟩, rfl, rfl, rfl, id⟩

/-- A fault cause reported, outside FAULTED or in it (R162, R163). -/
theorem State.reportCause_eventMove (s : State) (c : FaultCause) : EventMove s (s.reportCause c) := by
  unfold State.reportCause
  split
  · rename_i hf
    split
    · rename_i f hff
      refine EventMove.trans ?_ (State.raise_eventMove _ _)
      refine ⟨fun b => ?_, rfl, rfl, rfl, id⟩
      exact
        { bound := b.bound, held := State.conveyorHeld_of_eq rfl rfl rfl b.held, holds := b.holds
          fault := ⟨hf.symm, b.fault.2⟩
          travel := b.travel, pump := b.pump, runs := b.runs, settled := b.settled, apart := b.apart }
    · exact .refl s
  · dsimp only
    refine EventMove.trans (EventMove.trans ?_ (State.stopGlue_eventMove _)) (State.freezePlacement_eventMove _)
    have key : EventMove s
        (State.evalHold { s with
          mode := { s.mode with
            mode := .faulted, fault := some { primary := c, further := 0, modeAtFault := s.mode.mode } }
          clock := { s.clock with stoppedAt := some s.clock.now }
          place := { s.place with holdPaused := false, timer := s.place.timer } }) := by
      refine ⟨fun b => ?_, rfl, rfl, rfl, id⟩
      exact
        { bound := b.bound, held := rfl, holds := ⟨rfl, b.holds.2⟩, fault := ⟨rfl, rfl⟩
          travel := b.travel, pump := b.pump, runs := b.runs, settled := b.settled, apart := b.apart }
    have comm : ∀ (u : State) (n : Notice), (u.raise n).evalHold = u.evalHold.raise n := by
      intro u n
      rw [State.raise_eq u, State.raise_eq u.evalHold, State.raise_link_congr n u.evalHold_link]
      rfl
    unfold State.changeMode
    rw [comm, comm]
    exact (key.trans (State.raise_eventMove _ _)).trans (State.raise_eventMove _ _)

/-! ## The end of an event -/

theorem State.Inv.body {s : State} (h : s.Inv) : s.Body :=
  ⟨h.1.2.2, h.2.2.1, h.2.2.2.1, h.2.2.2.2.1, h.2.2.2.2.2.1, h.2.2.2.2.2.2.1, h.2.2.2.2.2.2.2.1, h.2.2.2.2.2.2.2.2.1,
    h.2.2.2.2.2.2.2.2.2⟩

/-- The invariants from their parts. -/
theorem State.Body.inv {s : State} (b : s.Body) (hc : s.link.commands.length ≤ 4) (hr : s.link.replies.length ≤ 16)
    (hs : s.linkSettled) : s.Inv :=
  ⟨⟨hc, hr, b.bound⟩, hs, b.held, b.holds, b.fault, b.travel, b.pump, b.runs, b.settled, b.apart⟩

theorem State.beginFrame_commands (s : State) : s.beginFrame.link.commands = s.link.commands := by
  unfold State.beginFrame; split <;> [rfl; (split <;> rfl)]

theorem State.beginFrame_resetPending (s : State) : s.beginFrame.link.resetPending = s.link.resetPending := by
  unfold State.beginFrame; split <;> [rfl; (split <;> rfl)]

/-- After a free transmitter has had its turn, it is busy or has nothing to send (R174). -/
theorem State.beginFrame_free (s : State) (h : s.beginFrame.link.sending = none) :
    s.beginFrame.link.replies = [] ∧ s.beginFrame.link.notices = [] := by
  unfold State.beginFrame at *
  split at h
  · rename_i hs; rw [hs] at h; cases h
  · split at h
    · cases h
    · cases h
    · rename_i hs _ _ hr hn; exact ⟨hr, hn⟩

theorem State.beginFrame_notices (s : State) : s.beginFrame.link.notices.length ≤ s.link.notices.length := by
  unfold State.beginFrame
  split
  · rfl
  · split
    · rfl
    · rename_i h; simp [h]
    · rfl

theorem State.beginFrame_replies (s : State) : s.beginFrame.link.replies.length ≤ s.link.replies.length := by
  unfold State.beginFrame
  split
  · rfl
  · split
    · rename_i h; simp [h]
    · rfl
    · rfl

/-- A busy transmitter begins nothing (R174). -/
theorem State.beginFrame_of_busy (s : State) (h : s.link.sending.isSome = true) : s.beginFrame = s := by
  unfold State.beginFrame
  split
  · rfl
  · rename_i hs; rw [hs] at h; cases h

theorem State.beginFrame_body (s : State) (b : s.Body) : s.beginFrame.Body :=
  b.of_eq (Nat.le_trans s.beginFrame_notices b.bound) (by simp) (by simp) (by simp) (by simp) (by simp) (by simp) (by simp)
    (by simp) (by simp)

/-- An event that leaves commands and replies alone, and then lets the transmitter begin, keeps the invariants. -/
theorem EventMove.inv {s t : State} (m : EventMove s t) (h : s.Inv) : t.beginFrame.Inv := by
  have hb := m.body h.body
  refine (t.beginFrame_body hb).inv ?_ ?_ ⟨t.beginFrame_free, ?_⟩
  · rw [State.beginFrame_commands, m.commands]; exact h.1.1
  · refine Nat.le_trans t.beginFrame_replies ?_
    rw [m.replies]; exact h.1.2.1
  · rw [State.beginFrame_commands, State.beginFrame_resetPending, m.commands]
    rcases h.2.1.2 with hc | hr | hp
    · exact .inl hc
    · refine .inr (.inl ?_)
      have hs : t.link.sending.isSome = true := by
        rw [m.sending]
        cases hx : s.link.sending with
        | none => exact absurd (h.2.1.1 hx).1 hr
        | some y => rfl
      rw [State.beginFrame_of_busy t hs, m.replies]
      exact hr
    · exact .inr (.inr (m.reset hp))

/-- An event that leaves the link as it is keeps the invariants. -/
theorem EventMove.inv_of_link {s t : State} (m : EventMove s t) (hl : t.link = s.link) (h : s.Inv) : t.Inv := by
  refine (m.body h.body).inv ?_ ?_ ?_
  · rw [hl]; exact h.1.1
  · rw [hl]; exact h.1.2.1
  · have := h.2.1
    unfold State.linkSettled at *
    rw [hl]; exact this

end Sys2Proof.Machine
end

