-- ==== Sys2Proof/Laws/Events.lean ====
section
/-! SUPPORT. Each block's operation is an `EventMove`: it keeps the invariants that stand in the middle of an event. -/

namespace Sys2Proof.Machine

/-- A change of the plan, the feed and the train alone. -/
theorem EventMove.of_plan_feed_train (s : State) (p : PlanStore) (f : FeedSequencer) (t : TrainList) (d : DatumTable)
    (z : ZoneUnit) (h : s.bricksApart → State.bricksApart { s with train := t }) :
    EventMove s { s with plan := p, feed := f, train := t, datum := d, zone := z } :=
  ⟨fun b => ⟨b.bound, b.held, b.holds, b.fault, b.travel, b.pump, b.runs, b.settled, h b.apart⟩, rfl, rfl, rfl, id⟩

/-- The pump given or freed: owner and operation together (R91). -/
theorem State.adhesive_eventMove (s : State) (a : AdhesiveUnit) (h : a.operation.isSome = a.owner.isSome) :
    EventMove s { s with adhesive := a } :=
  ⟨fun b => ⟨b.bound, b.held, b.holds, b.fault, b.travel, h, b.runs, b.settled, b.apart⟩, rfl, rfl, rfl, id⟩

/-- A setting of the Adhesive Unit, the pump's counter or level (R91). -/
theorem State.adhesive_eventMove_of_eq (s : State) (a : AdhesiveUnit)
    (h : s.pumpOwned → a.operation.isSome = a.owner.isSome) : EventMove s { s with adhesive := a } :=
  ⟨fun b => ⟨b.bound, b.held, b.holds, b.fault, b.travel, h b.pump, b.runs, b.settled, b.apart⟩, rfl, rfl, rfl, id⟩

/-! ## The pump (chapter 6) -/

theorem State.grantTo_eventMove (s : State) (c : CradleId) : EventMove s (s.grantTo c) := by
  unfold State.grantTo
  split
  · exact (s.adhesive_eventMove _ (by rfl)).trans (State.setCradle_eventMove _ c _ fun _ _ h => by cases h)
  all_goals exact .refl s

theorem State.judgeGrant_eventMove (s : State) : EventMove s s.judgeGrant := by
  unfold State.judgeGrant
  split
  · split
    · exact s.grantTo_eventMove _
    · exact .refl s
  · exact .refl s

theorem State.freePump_eventMove (s : State) (c : CradleId) : EventMove s (s.freePump c) := by
  have h : EventMove s
      { s with adhesive := { s.adhesive with owner := none, operation := none, pump := false } } :=
    s.adhesive_eventMove _ (by rfl)
  unfold State.freePump
  dsimp only
  split
  · split
    · exact h.trans (State.setCradle_eventMove _ c _ fun _ _ h => by cases h)
    · rename_i hm
      refine h.trans (State.setCradle_eventMove _ c _ fun b d e => ?_)
      cases e; intro k; simp [Brick.live, k] at hm
  all_goals exact h

theorem State.completeGlue_eventMove (s : State) : EventMove s s.completeGlue := by
  unfold State.completeGlue
  split
  · exact (s.freePump_eventMove _).trans (State.judgeGrant_eventMove _)
  · exact .refl s

theorem State.reload_eventMove (s : State) (op : GlueOperation) (h : s.adhesive.operation = some op) :
    EventMove s (s.reload op) := by
  unfold State.reload
  dsimp only
  split
  · have k : EventMove s { s with adhesive := { s.adhesive with
        counter := pumpTop - op.period / 2, pump := false, operation := some { op with done := op.done + 1 } } } :=
      s.adhesive_eventMove_of_eq _ fun p => by
        unfold State.pumpOwned at p
        rw [h] at p
        exact p
    split
    · exact k.trans (State.completeGlue_eventMove _)
    · exact k
  · exact s.adhesive_eventMove_of_eq _ id

theorem State.pumpReload_eventMove (s : State) : EventMove s s.pumpReload := by
  unfold State.pumpReload
  split
  · exact .refl s
  · split
    · rename_i op h
      exact (s.runTo_eventMove _).trans (State.reload_eventMove _ op h)
    · exact .refl s

/-- The expiry of the deadline of a brick in a READY cradle (R100, R101). -/
theorem State.spoilInCradle_pathMove (s : State) (c : CradleId) (b : CradleBrick) : PathMove s (s.spoilInCradle c b) := by
  unfold State.spoilInCradle
  split
  · exact (s.setCradle_pathMove c _ fun _ _ h => by cases h).trans (State.reportBrickReject_pathMove _ _ _)
  · exact ((s.tip_pathMove c b _).trans (State.raiseRejected_pathMove _ _ _)).trans
      (State.reportBrickReject_pathMove _ _ _)

theorem State.openTimeExpiry_eventMove (s : State) (p : GluedPlace) : EventMove s (s.openTimeExpiry p) := by
  unfold State.openTimeExpiry
  split
  · exact .refl s
  · split
    · split
      · exact (s.runTo_eventMove _).trans (State.spoilInCradle_pathMove _ _ _).eventMove
      all_goals exact .refl s
    · split
      · split
        · split
          · exact (s.runTo_eventMove _).trans (State.enterAbandoning_eventMove _ _ _)
          · exact .refl s
        · exact .refl s
      · exact .refl s

theorem State.takeSetAdhesive_eventMove (s : State) (d : BitVec 16) (p : Byte) (o : BitVec 16) :
    EventMove s (s.takeSetAdhesive d p o).1 := by
  unfold State.takeSetAdhesive
  split
  · exact .refl s
  · dsimp only
    split <;> exact s.adhesive_eventMove_of_eq _ id

/-! ## The brick path (chapter 5) -/

/-- A miscut brick (R76). -/
theorem State.miscut_pathMove (s : State) (b : Brick) : PathMove s (s.miscut b) :=
  ((s.setEntries_pathMove _ (map_serials _ _ fun e => by split <;> rfl)).trans
    (State.raiseRejected_pathMove _ _ _)).trans (State.reportBrickReject_pathMove _ _ _)

theorem loadOldest_serials (m : Nat) (d : Time) (a : Option TrainEntry) (es : List TrainEntry) :
    ((loadOldest m d a es).map fun e => e.brick.serial).Sublist (es.map fun e => e.brick.serial) := by
  induction es generalizing a with
  | nil => exact List.Sublist.refl _
  | cons e es ih =>
    unfold loadOldest
    split
    · exact List.Sublist.refl _
    · exact (ih (some e)).cons_cons _

theorem State.takeBrickLoaded_pathMove (s : State) (t : Byte) (m : BitVec 16) : PathMove s (s.takeBrickLoaded t m).1 := by
  unfold State.takeBrickLoaded
  split
  · exact .refl s
  · split
    · exact .refl s
    · split
      · exact .refl s
      · dsimp only
        split
        · exact s.setEntries_pathMove _ (loadOldest_serials _ _ _ _)
        · exact (s.setEntries_pathMove _ (loadOldest_serials _ _ _ _)).trans (State.miscut_pathMove _ _)

theorem State.transitExpiry_eventMove (s : State) (t : Byte) : EventMove s (s.transitExpiry t) := by
  unfold State.transitExpiry
  split
  · exact .refl s
  · split
    · exact ((s.runTo_eventMove _).trans (State.setEntries_pathMove _ _
        (map_serials _ _ fun e => by split <;> rfl)).eventMove).trans (State.reportCause_eventMove _ _)
    · exact .refl s

theorem State.offer_eventMove (s : State) (c : CradleId) (b : CradleBrick) : EventMove s (s.offer c b) := by
  unfold State.offer
  split
  · exact s.setCradle_eventMove c _ fun _ _ h => by cases h
  · exact s.judgeGrant_eventMove
  · exact s.judgeGrant_eventMove

theorem State.arrival_eventMove (s : State) : EventMove s s.arrival := by
  unfold State.arrival
  split
  · exact s.reportCause_eventMove _
  · split
    · exact s.reportCause_eventMove _
    · unfold State.routeArrival
      dsimp only
      split
      · exact ((s.setEntries_pathMove _ (filter_serials _ _)).eventMove.trans
          (State.setCradle_eventMove _ _ _ fun _ _ h => by cases h)).trans (State.offer_eventMove _ _ _)
      · rename_i hm
        refine (s.setEntries_pathMove _ (filter_serials _ _)).eventMove.trans (State.setCradle_eventMove _ _ _ fun b d e => ?_)
        cases e; intro k; exact hm (by simpa [Brick.live, State.cradleBrickOf] using k)
    · exact .refl s

theorem State.tipCompletion_eventMove (s : State) (c : CradleId) : EventMove s (s.tipCompletion c) := by
  unfold State.tipCompletion
  split
  · exact .refl s
  · split
    · exact (s.runTo_eventMove _).trans (State.setCradle_eventMove _ c _ fun _ _ h => by cases h)
    all_goals exact .refl s

theorem State.takePurge_eventMove (s : State) : EventMove s s.takePurge.1 := by
  unfold State.takePurge
  split
  · exact EventMove.foldl _ (fun s x => s.withdraw_eventMove x .purged) _ s
  · exact .refl s

/-! ## The plan and the site geometry (chapters 1 to 4) -/

theorem State.openBank_planMove (s : State) (b : BankId) (u : BankSetup) : PlanMove s (s.openBank b u) := by
  unfold State.openBank
  dsimp only
  split
  · exact (s.setBank_planMove b _).trans (State.placeCursor_planMove _ _ _)
  · exact s.setBank_planMove b _

theorem State.takeOpenBank_planMove (s : State) (b d w : Byte) (v : BitVec 16) :
    PlanMove s (s.takeOpenBank b d w v).1 := by
  unfold State.takeOpenBank
  split
  · exact .refl s
  · split
    · split
      · split
        · exact .refl s
        · split <;> first | exact s.openBank_planMove _ _ | exact .refl s
      · exact .refl s
    · exact .refl s

theorem State.takeLoadSlots_planMove (s : State) (b f : Byte) (rs : List SlotRecord) :
    PlanMove s (s.takeLoadSlots b f rs).1 := by
  unfold State.takeLoadSlots
  split
  · exact .refl s
  · split
    · exact .refl s
    · dsimp only
      split
      · exact .refl s
      · split
        · exact .refl s
        · split
          · exact .refl s
          · split
            · exact .refl s
            · split
              · exact .refl s
              · exact s.setBank_planMove _ _

theorem PlanMove.foldl {α : Type} (f : State → α → State) (h : ∀ s a, PlanMove s (f s a)) (l : List α) (s : State) :
    PlanMove s (l.foldl f s) := by
  induction l generalizing s with
  | nil => exact .refl s
  | cons a l ih => exact (h s a).trans (ih _)

theorem State.refuseAtClose_planMove (b : BankId) (s : State) (i : Nat) : PlanMove s (s.refuseAtClose b i) := by
  unfold State.refuseAtClose
  split
  · split
    · exact s.recordStatus_planMove b i _
    · exact .refl s
  · exact .refl s

theorem State.completeBank_planMove (s : State) (b : BankId) (d : DatumEntry) : PlanMove s (s.completeBank b d) :=
  ((s.setBank_planMove b _).trans (PlanMove.foldl _ (State.refuseAtClose_planMove b) _ _)).trans
    (State.setBank_planMove _ b _)

theorem State.takeCloseBank_planMove (s : State) (b : Byte) : PlanMove s (s.takeCloseBank b).1 := by
  unfold State.takeCloseBank
  split
  · exact .refl s
  · split
    · exact .refl s
    · split
      · exact .refl s
      · split
        · exact .refl s
        · exact .refl s
        · exact s.completeBank_planMove _ _

theorem State.takeDiscardBank_planMove (s : State) (b : Byte) : PlanMove s (s.takeDiscardBank b).1 := by
  unfold State.takeDiscardBank
  split
  · exact .refl s
  · split
    · exact .refl s
    · split
      · exact .refl s
      · exact .refl s
      all_goals exact (s.setBank_planMove _ _).trans (State.needBank_planMove _)

theorem State.takeSkipSlot_planMove (s : State) (b i : Byte) : PlanMove s (s.takeSkipSlot b i).1 := by
  unfold State.takeSkipSlot
  split
  · exact .refl s
  · split
    · exact .refl s
    · split
      · exact .refl s
      · split
        · exact .refl s
        · split
          · exact s.recordStatus_planMove _ _ _
          all_goals exact .refl s

theorem FlushResult.slot_planMove (b : BankId) (f : FlushResult) (i : Nat) : PlanMove f.state (f.slot b i).state := by
  unfold FlushResult.slot
  split
  · exact .refl _
  · split
    · split
      · exact f.state.setSlot_planMove b i _
      · exact .refl _
    · exact ((f.state.setSlot_planMove b i _).trans (State.recordStatus_planMove _ _ _ _)).trans
        (State.cursorReturnInFlush_planMove _ _ _)
    all_goals exact .refl _

theorem FlushResult.foldl_planMove {α : Type} (g : FlushResult → α → FlushResult)
    (h : ∀ f a, PlanMove f.state (g f a).state) (l : List α) (f : FlushResult) : PlanMove f.state (l.foldl g f).state := by
  induction l generalizing f with
  | nil => exact .refl _
  | cons a l ih => exact (h f a).trans (ih _)

/-- A flush and the report of its move touch the plan and the walk alone (R14, R36, R37). -/
theorem State.flush_planMove (s : State) (p : BankId → Bool) : PlanMove s ((s.flush p).state.testMove s) := by
  refine PlanMove.trans (t := (s.flush p).state) ?_ (State.testMove_planMove _ s)
  refine FlushResult.foldl_planMove _ (fun f b => ?_) _ ⟨s, 0, 0⟩
  unfold FlushResult.bankIf
  split
  · exact FlushResult.foldl_planMove _ (FlushResult.slot_planMove b) _ f
  · exact .refl _

theorem State.takeSetDatum_eventMove (s : State) (e : Byte) (d : DatumEntry) : EventMove s (s.takeSetDatum e d).1 := by
  unfold State.takeSetDatum
  split
  · dsimp only
    split
    · exact .refl s
    · split
      · exact .refl s
      · exact (EventMove.of_plan_feed_train s s.plan s.feed s.train _ s.zone id).trans (State.flush_planMove _ _).eventMove
  · exact .refl s

theorem State.takeSetZoneBox_eventMove (s : State) (b : ZoneBox) : EventMove s (s.takeSetZoneBox b).1 := by
  unfold State.takeSetZoneBox
  split
  · exact .refl s
  · split
    · exact .refl s
    · exact (EventMove.of_plan_feed_train s s.plan s.feed s.train s.datum _ id).trans (State.flush_planMove _ _).eventMove

theorem State.takeSetZoneRow_eventMove (s : State) (r : Byte) (w : BitVec 64) : EventMove s (s.takeSetZoneRow r w).1 := by
  unfold State.takeSetZoneRow
  split
  · exact .refl s
  · split
    · exact (EventMove.of_plan_feed_train s s.plan s.feed s.train s.datum _ id).trans (State.flush_planMove _ _).eventMove
    · exact .refl s

theorem State.activateIfReady_planMove (s : State) : PlanMove s s.activateIfReady := by
  unfold State.activateIfReady
  split
  · unfold State.activate
    refine PlanMove.trans ?_ (State.placeCursor_planMove _ _ _)
    exact (((s.setBank_planMove _ _).trans (State.setOrder_planMove _ _)).trans (State.setBankSwitch_planMove _ _ _)).trans
      (PlanMove.of_plan_feed _ _ _)
  all_goals exact .refl s

theorem State.feedEntry_eventMove (s : State) (b : BankId) (p i : Nat) (sl : Slot) :
    EventMove s (s.feedEntry b p i sl) := by
  unfold State.feedEntry
  dsimp only
  refine ((EventMove.of_plan_feed_train s s.plan s.feed _ s.datum s.zone fun a => ?_).trans
    (((State.recordStatus_planMove _ b i _).trans (State.raise_planMove _ _)).trans
      (PlanMove.of_plan_feed _ _ _)).eventMove).trans (State.advanceCursor_planMove _ _).eventMove
  obtain ⟨a1, a2, a3⟩ := a
  refine ⟨?_, fun e he => ?_, a3⟩
  · rw [List.map_append, List.nodup_append]
    refine ⟨a1, by simp, fun x hx y hy => ?_⟩
    obtain ⟨e, he, rfl⟩ := List.mem_map.mp hx
    have := a2 e he
    simp [State.newEntry] at hy
    omega
  · rcases List.mem_append.mp he with he | he
    · exact Nat.lt_succ_of_lt (a2 e he)
    · simp at he; subst he; exact Nat.lt_succ_self _

theorem State.supplyTarget_planMove (s : State) (b : BankId) (i : Nat) (sl : Slot) : PlanMove s (s.supplyTarget b i sl) := by
  unfold State.supplyTarget
  split
  · exact .refl s
  · exact s.setSlot_planMove b i _
  · exact .refl s

theorem State.cursorTo_planMove (s : State) (c : Nat) : PlanMove s (s.cursorTo c) := by
  unfold State.cursorTo
  split
  · exact .refl s
  · exact s.moveCursor_planMove _ _

theorem State.feedSteps_eventMove (n : Nat) (s : State) : EventMove s (State.feedSteps n s) := by
  induction n generalizing s with
  | zero => exact .refl s
  | succ n ih =>
    unfold State.feedSteps
    dsimp only
    split
    · split
      · exact (s.activateIfReady_planMove.trans (State.advanceCursor_planMove _ _)).eventMove.trans (ih _)
      · exact (s.activateIfReady_planMove.trans (State.advanceCursor_planMove _ _)).eventMove
    · rename_i p _
      have h := s.activateIfReady_planMove.trans (State.cursorTo_planMove _ p)
      split
      · exact h.eventMove
      · split
        · exact h.eventMove
        · split
          · exact h.eventMove
          · have k := h.trans (State.supplyTarget_planMove _ (s.activateIfReady).feed.pointer ‹Nat› ‹Slot›)
            split
            · exact k.eventMove
            · split
              · exact ((k.trans (State.recordStatus_planMove _ _ _ _)).trans
                  (State.moveCursor_planMove _ _ _)).eventMove.trans (ih _)
              · exact k.eventMove.trans (State.feedEntry_eventMove _ _ _ _ _)

theorem State.feedRequest_eventMove (s : State) : EventMove s s.feedRequest := by
  unfold State.feedRequest
  split
  · exact State.feedSteps_eventMove _ s
  · exact .refl s

theorem CourseResult.slot_eventMove (b : BankId) (f : CourseResult) (i : Nat) : EventMove f.state (f.slot b i).state := by
  unfold CourseResult.slot
  split
  · exact .refl _
  · split
    · exact (f.state.recordStatus_planMove b i _).eventMove
    · split
      · split
        · exact f.state.withdraw_eventMove _ _
        · exact .refl _
      · exact .refl _
    all_goals exact .refl _

theorem State.leaveCourse_planMove (s : State) (b : BankId) (run : List Nat) : PlanMove s (s.leaveCourse b run) := by
  unfold State.leaveCourse
  dsimp only
  split
  · split
    · exact s.advanceCursor_planMove _
    · exact .refl s
  · exact .refl s

theorem State.takeEndCourse_eventMove (s : State) : EventMove s s.takeEndCourse.1 := by
  unfold State.takeEndCourse
  split
  · exact .refl s
  · split
    · exact .refl s
    · rename_i b course _
      dsimp only
      refine EventMove.trans ?_ (State.leaveCourse_planMove _ _ _).eventMove
      have : ∀ (l : List Nat) (f : CourseResult), EventMove f.state (l.foldl (CourseResult.slot b) f).state := by
        intro l
        induction l with
        | nil => exact fun f => .refl _
        | cons a l ih => exact fun f => (CourseResult.slot_eventMove b f a).trans (ih _)
      exact this _ ⟨s, 0, 0⟩

theorem State.takeSetNextBank_planMove (s : State) (b : Byte) : PlanMove s (s.takeSetNextBank b).1 := by
  unfold State.takeSetNextBank
  split
  · exact .refl s
  · split
    · exact .refl s
    · exact (PlanMove.of_plan_feed s s.plan _).trans (State.placeCursor_planMove _ _ _)

theorem State.takeSetFeed_eventMove (s : State) (a b c : Byte) : EventMove s (s.takeSetFeed a b c).1 := by
  unfold State.takeSetFeed
  split
  · exact .refl s
  · dsimp only
    split <;> exact EventMove.of_plan_feed_train s s.plan _ _ s.datum s.zone id

theorem State.takeSetSupplyMark_planMove (s : State) (a b c : Byte) : PlanMove s (s.takeSetSupplyMark a b c).1 := by
  unfold State.takeSetSupplyMark
  split
  · exact .refl s
  · split
    · dsimp only
      split <;> exact (PlanMove.of_plan_feed s s.plan _).trans (State.evalSupply_planMove _)
    · exact .refl s

/-! ## Placement (chapter 8) -/

/-- A change of the placement that keeps the hold reasons and does not stand in SETTLING unmarked. -/
theorem EventMove.of_place {s t : State} (h : t = { s with place := t.place })
    (h1 : t.place.holdPaused = s.place.holdPaused) (h2 : t.place.holdPose = s.place.holdPose)
    (h3 : s.settledMarked → t.place.state = .settling → t.place.hasSettled = true) : EventMove s t := by
  generalize t.place = p at h h1 h2 h3
  subst h
  exact ⟨fun b => ⟨b.bound, b.held, ⟨h1.trans b.holds.1, h2.trans b.holds.2⟩, b.fault, b.travel, b.pump, b.runs,
    h3 b.settled, b.apart⟩, rfl, rfl, rfl, id⟩

/-- A change of the Compensation Unit that leaves the setpoints. -/
theorem EventMove.of_comp {s t : State} (h : t = { s with comp := t.comp })
    (h1 : t.comp.setpoints = s.comp.setpoints) : EventMove s t := by
  generalize t.comp = c at h h1
  subst h
  exact ⟨fun b => b.of_eq b.bound rfl rfl rfl rfl rfl h1 rfl rfl rfl, rfl, rfl, rfl, id⟩

theorem State.centre_eventMove (s : State) : EventMove s s.centre :=
  ⟨fun b => ⟨b.bound, b.held, b.holds, b.fault, State.withinTravel_of_zero _ rfl, b.pump, b.runs, b.settled, b.apart⟩, rfl, rfl,
    rfl, id⟩

/-- A change of Mode Control that keeps the mode, the fault record and the straps. -/
theorem EventMove.of_mode {s t : State} (h : t = { s with mode := t.mode }) (h1 : t.mode.mode = s.mode.mode)
    (h2 : t.mode.fault = s.mode.fault) (h3 : t.mode.cradleCount = s.mode.cradleCount)
    (h4 : t.mode.travel = s.mode.travel) : EventMove s t := by
  have e1 : t.cradles = s.cradles := by rw [h]
  have e2 : t.place = s.place := by rw [h]
  have e3 : t.pose = s.pose := by rw [h]
  have e4 : t.comp = s.comp := by rw [h]
  have e5 : t.clock = s.clock := by rw [h]
  have e6 : t.adhesive = s.adhesive := by rw [h]
  have e7 : t.link = s.link := by rw [h]
  refine ⟨fun b => ?_, by rw [e7], by rw [e7], by rw [e7], fun r => by rw [e7]; exact r⟩
  exact
    { bound := by rw [e7]; exact b.bound
      held := State.conveyorHeld_of_eq e1 h1 h3 b.held
      holds := by have := b.holds; unfold State.holdsCarried at *; rw [h1, e2, e3]; exact this
      fault := by have := b.fault; unfold State.faultRecorded State.faulted at *; rw [h1, h2, e5]; exact this
      travel := State.withinTravel_of_eq (by rw [e4]) h4 b.travel
      pump := by have := b.pump; unfold State.pumpOwned at *; rw [e6]; exact this
      runs := by have := b.runs; unfold State.runsBounded at *; rw [e3]; exact this
      settled := by have := b.settled; unfold State.settledMarked at *; rw [e2]; exact this
      apart := State.bricksApart_of_eq (by rw [h]) e1 b.apart }

theorem State.clearWatchFlags_eventMove (s : State) (b : BankId) : EventMove s (s.clearWatchFlags b) := by
  refine EventMove.trans ?_ (State.setBankSwitch_planMove _ b false).eventMove
  exact .of_mode rfl rfl rfl rfl rfl

theorem State.recheckAndPick_eventMove (s : State) (b : Brick) (c : CradleId) : EventMove s (s.recheckAndPick b c) := by
  unfold State.recheckAndPick
  split
  · refine EventMove.trans ?_ (State.centre_eventMove _)
    exact .of_place rfl rfl rfl (fun _ h => by cases h)
  · unfold State.refusePick
    split
    · exact (((s.tip_pathMove c _ _).trans (State.recordReject_planMove _ _ _ _).toPathMove).trans
        (State.raiseRejected_pathMove _ _ _)).eventMove
    · exact .refl s

/-- A watch stop outside FAULTED (R158). -/
theorem State.watchStop_eventMove (s : State) (b : Brick) (w : BitVec 5) (h : s.faulted = false) :
    EventMove s (s.watchStop b w) := by
  have key : ∀ u : State, u.faulted = false → EventMove s u →
      EventMove s ((u.changeMode .paused .watch).raise (.watchStop w b.tag b.bank b.slot)) := fun u hu k =>
    (k.trans (u.changeMode_eventMove _ _ hu (by decide))).trans (State.raise_eventMove _ _)
  exact key _ h (.of_mode rfl rfl rfl rfl rfl)

theorem State.pickDecision_eventMove (s : State) : EventMove s s.pickDecision := by
  unfold State.pickDecision
  split
  · rename_i hd
    split
    · rename_i b c _
      unfold State.decidePick
      dsimp only
      split
      · refine (EventMove.trans (s.clearWatchFlags_eventMove b.bank) ?_).trans (State.recheckAndPick_eventMove _ b c)
        exact .of_mode rfl rfl rfl rfl rfl
      · split
        · refine (s.clearWatchFlags_eventMove b.bank).trans (State.watchStop_eventMove _ _ _ ?_)
          have hm : s.mode.mode = .laying := by
            unfold State.pickDue at hd
            simp only [Bool.and_eq_true, decide_eq_true_eq] at hd
            exact hd.1.1
          unfold State.faulted State.clearWatchFlags State.setBankSwitch
          cases b.bank <;> simp [hm]
        · exact (s.clearWatchFlags_eventMove b.bank).trans (State.recheckAndPick_eventMove _ b c)
    · exact .refl s
  · exact .refl s

theorem State.gripped_eventMove (s : State) (g : Bool) : EventMove s { s with place := { s.place with gripped := g } } :=
  .of_place rfl rfl rfl id

theorem State.takeFromCradle_eventMove (s : State) (c : CradleId) (b : CradleBrick) : EventMove s (s.takeFromCradle c b) := by
  refine EventMove.trans ?_ (State.setCradle_eventMove _ c _ fun _ _ h => by cases h)
  exact .of_place rfl rfl rfl id

theorem State.takeFromCradle_state (s : State) (c : CradleId) (b : CradleBrick) :
    (s.takeFromCradle c b).place.state = s.place.state := by
  simp [State.takeFromCradle]

/-- The latching of a pick (R128, step 3), before SETTLING can be reached. -/
theorem State.latch_eventMove (s : State) (h : s.place.state ≠ .settling) : EventMove s s.latch := by
  refine EventMove.trans (t := { s with comp := s.latch.comp }) (.of_comp rfl rfl) ?_
  exact .of_place rfl rfl rfl (fun _ hs => absurd hs h)

theorem State.enterApproach_eventMove (s : State) : EventMove s s.enterApproach :=
  .of_place rfl rfl rfl (fun _ hs => by cases hs)

theorem State.raiseNextTarget_eventMove (s : State) (b : Brick) (r : Rotation) : EventMove s (s.raiseNextTarget b r) :=
  s.raise_eventMove _

/-- A pick completed (R128). -/
theorem State.completePick_eventMove (s : State) (c : CradleId) (b : CradleBrick) (h : s.place.state = .picking) :
    EventMove s (s.completePick c b) := by
  have key : EventMove s
      (((s.takeFromCradle c b).latch).raiseNextTarget b.brick (s.rotationOf b.brick)).enterApproach := by
    refine EventMove.trans (EventMove.trans ((s.takeFromCradle_eventMove c b).trans (State.latch_eventMove _ ?_))
      (State.raiseNextTarget_eventMove _ _ _)) (State.enterApproach_eventMove _)
    rw [State.takeFromCradle_state, h]; decide
  unfold State.completePick
  dsimp only
  split
  · exact key.trans (State.raise_eventMove _ _)
  · exact key

theorem State.abandonPick_eventMove (s : State) (c : CradleId) (b : CradleBrick) (r : RejectReason) :
    EventMove s (s.abandonPick c b r) := by
  refine EventMove.trans ((s.takeFromCradle_eventMove c b).trans (State.centre_eventMove _)) ?_
  exact .of_place rfl rfl rfl (fun _ hs => by cases hs)

theorem State.grippedAsserted_eventMove (s : State) : EventMove s s.grippedAsserted := by
  unfold State.grippedAsserted
  dsimp only
  have h := s.gripped_eventMove true
  split
  · exact h
  · split
    · exact h
    · rename_i hp
      split
      · exact h
      · split
        · exact h
        · split
          · exact h.trans (State.completePick_eventMove _ _ _ (by simpa using hp))
          · exact h.trans (State.abandonPick_eventMove _ _ _ _)

theorem State.grippedDeasserted_eventMove (s : State) : EventMove s s.grippedDeasserted := by
  unfold State.grippedDeasserted
  dsimp only
  have h := s.gripped_eventMove false
  split
  · exact h
  · split
    · exact h.trans (State.reportCause_eventMove _ _)
    · exact h

theorem State.gripTimeout_eventMove (s : State) : EventMove s s.gripTimeout := by
  unfold State.gripTimeout
  split
  · exact .refl s
  · split
    · exact (s.runTo_eventMove _).trans (State.reportCause_eventMove _ _)
    all_goals exact .refl s

theorem clampInt_le (k z : Int) (h : 0 ≤ k) : (clampInt k z).natAbs ≤ k.natAbs := by
  unfold clampInt
  omega

/-- Computed setpoints lie within travel (R133). -/
theorem State.writeSetpoints_eventMove (s : State) (d : Demands) : EventMove s (s.writeSetpoints d) := by
  refine ⟨fun b => ?_, rfl, rfl, rfl, id⟩
  refine ⟨b.bound, b.held, b.holds, b.fault, ?_, b.pump, b.runs, b.settled, b.apart⟩
  have hx : 0 ≤ travelXY s.mode.travel := by cases s.mode.travel <;> decide
  have hz : 0 ≤ travelZ s.mode.travel := by cases s.mode.travel <;> decide
  exact ⟨clampInt_le _ _ hx, clampInt_le _ _ hx, clampInt_le _ _ hz, clampInt_le _ _ (by decide)⟩

theorem State.judgeState_eventMove (s : State) (l : PlacementSettings) (o : Origin) (x : Bool) :
    EventMove s (s.judgeState l o x) := by
  refine .of_place rfl rfl rfl ?_
  intro _ h
  unfold State.judgeState at h ⊢
  dsimp only at h ⊢
  rw [h]
  cases s.place.hasSettled <;> simp

/-- The release decision (R138). -/
theorem State.release_eventMove (s : State) (q : Seq) : EventMove s (s.release q) := by
  refine EventMove.trans (t := { s with comp := (s.release q).comp }) (.of_comp rfl rfl) ?_
  exact .of_place rfl rfl rfl (fun _ h => by cases h)

theorem State.compensateWith_eventMove (s : State) (i : CompensationInput) (p : Sample) (v : Vec3) (r : Bool) :
    EventMove s (s.compensateWith i p v r) := by
  have key : ∀ x, EventMove s
      (((s.writeSetpoints (i.demands p v)).judgeState i.latched p.origin x).updateCounter i p r) := by
    intro x
    refine EventMove.trans ((s.writeSetpoints_eventMove (i.demands p v)).trans
      (State.judgeState_eventMove _ i.latched p.origin x)) ?_
    exact .of_comp rfl rfl
  unfold State.compensateWith
  dsimp only
  split
  · exact (key _).trans (State.release_eventMove _ _)
  · exact key _

theorem State.compensate_eventMove (s : State) (p : Sample) (v : Vec3) (r : Bool) : EventMove s (s.compensate p v r) := by
  unfold State.compensate
  split
  · split
    · exact s.compensateWith_eventMove _ p v r
    · exact .refl s
  · exact .refl s

theorem State.returnToIdle_eventMove (s : State) : EventMove s s.returnToIdle := by
  refine EventMove.trans ?_ (State.centre_eventMove _)
  exact .of_place rfl rfl rfl (fun _ h => by cases h)

theorem State.releaseDwellEnd_eventMove (s : State) : EventMove s s.releaseDwellEnd := by
  unfold State.releaseDwellEnd
  split
  · exact .refl s
  · split
    · split
      · exact (s.runTo_eventMove _).trans (State.reportCause_eventMove _ _)
      · exact (((s.runTo_eventMove _).trans (State.raise_eventMove _ _)).trans
          (State.recordStatus_planMove _ _ _ _).eventMove).trans (State.returnToIdle_eventMove _)
    · exact .refl s

theorem State.placementTimerExpiry_eventMove (s : State) : EventMove s s.placementTimerExpiry := by
  unfold State.placementTimerExpiry
  split
  · exact .refl s
  · rename_i hf
    split
    · exact ((s.runTo_eventMove _).trans (State.changeMode_eventMove _ _ _ (Bool.eq_false_iff.mpr hf)
        (by decide))).trans (State.raise_eventMove _ _)
    · exact .refl s

theorem State.abandonCompletion_eventMove (s : State) : EventMove s s.abandonCompletion := by
  unfold State.abandonCompletion
  split
  · exact .refl s
  · split
    · rename_i due g r _ _ _
      refine EventMove.trans (EventMove.trans (EventMove.trans (s.runTo_eventMove due) ?_)
        (State.raiseRejected_pathMove _ _ _).eventMove) (State.returnToIdle_eventMove _)
      exact .of_place rfl rfl rfl id
    · exact .refl s

theorem State.takeAbandon_eventMove (s : State) : EventMove s s.takeAbandon.1 := by
  unfold State.takeAbandon
  split
  · exact .refl s
  · split
    · exact .refl s
    · split
      · rename_i g _
        exact s.enterAbandoning_eventMove g .abandoned
      · exact .refl s

theorem State.takeSetPlacement_eventMove (s : State) (p : PlacementSettings) : EventMove s (s.takeSetPlacement p).1 := by
  unfold State.takeSetPlacement
  split
  · exact .refl s
  · exact .of_comp rfl rfl

/-! ## The pose stream (chapter 7) -/

theorem State.raisePoseHold_eventMove (s : State) (b : Brick) : EventMove s (s.raisePoseHold b) := s.raise_eventMove _

/-- The Pose Filter written and the change of pose state reported: the POSE hold agrees again (R120, R141). -/
theorem State.reportPose_eventMove (s : State) (f : PoseFilter) (h : f.synthesized ≤ 4 ∧ f.realRun < 8) :
    EventMove s (State.reportPose { s with pose := f }) := by
  unfold State.reportPose
  dsimp only
  split
  · rename_i hc
    split
    · rename_i hp
      refine ⟨fun b => ⟨b.bound, b.held, ⟨b.holds.1, ?_⟩, b.fault, b.travel, b.pump, h, b.settled, b.apart⟩, rfl, rfl, rfl, id⟩
      exact hp.trans hc.symm
    · have key : EventMove s { s with pose := f, place := { s.place with holdPose := true } } := by
        refine ⟨fun b => ⟨b.bound, b.held, ⟨b.holds.1, ?_⟩, b.fault, b.travel, b.pump, h, b.settled, b.apart⟩, rfl, rfl, rfl, id⟩
        exact hc.symm
      have done : ∀ u : State, EventMove s u → EventMove s
          (if u.faulted then u
            else
              match u.place.gripper with
              | some g => if u.place.state.holdsBrick then
                  State.raisePoseHold { u with comp := { u.comp with counter := 0 } } g.brick
                else { u with comp := { u.comp with counter := 0 } }
              | none => { u with comp := { u.comp with counter := 0 } }) := by
        intro u k
        have z : EventMove s { u with comp := { u.comp with counter := 0 } } := k.trans (.of_comp rfl rfl)
        split
        · exact k
        · split
          · split
            · exact z.trans (State.raisePoseHold_eventMove _ _)
            · exact z
          · exact z
      exact done _ key
  · rename_i hc
    refine ⟨fun b => ⟨b.bound, b.held, ⟨b.holds.1, ?_⟩, b.fault, b.travel, b.pump, h, b.settled, b.apart⟩, rfl, rfl, rfl, id⟩
    simpa using hc

/-- The Pose Filter written with its state as it was. -/
theorem State.pose_eventMove (s : State) (f : PoseFilter) (hs : f.state = s.pose.state)
    (h : f.synthesized ≤ 4 ∧ f.realRun < 8) : EventMove s { s with pose := f } := by
  refine ⟨fun b => ⟨b.bound, b.held, ⟨b.holds.1, ?_⟩, b.fault, b.travel, b.pump, h, b.settled, b.apart⟩, rfl, rfl, rfl, id⟩
  exact (congrArg (fun x => s.place.holdPose = x.carriesHold) hs.symm).mp b.holds.2

end Sys2Proof.Machine
end

