-- ==== Sys2Proof/Laws/Commands.lean ====
section
/-! SUPPORT. The pose stream, the commands of Mode Control and of the Site Link Interface, and the taking of commands keep the
invariants. -/

namespace Sys2Proof.Machine

/-! ## The pose stream (chapter 7) -/

/-- A sample taken, the change of pose state reported, and the sample handed on. -/
theorem State.reportAndCompensate_eventMove (s : State) (f : PoseFilter) (p : Sample) (v : Vec3) (r : Bool)
    (h : f.synthesized ≤ 4 ∧ f.realRun < 8) :
    EventMove s ((State.reportPose { s with pose := f }).compensate p v r) :=
  (s.reportPose_eventMove f h).trans (State.compensate_eventMove _ p v r)

/-- A pose sample, by the state of the Pose Filter (R107 to R119). -/
theorem State.poseSample_eventMove (s : State) (p : Sample) (h : s.runsBounded) : EventMove s (s.poseSample p) := by
  have zero : (0 : Nat) ≤ 4 ∧ (0 : Nat) < 8 := by decide
  unfold State.poseSample
  split
  · split
    · exact s.reportAndCompensate_eventMove _ p _ _ h
    · exact s.reportPose_eventMove _ zero
    · unfold State.judgeTracking
      split
      · exact .refl s
      · exact s.reportAndCompensate_eventMove _ p _ _ zero
      · exact s.reportAndCompensate_eventMove _ p _ _ zero
    · unfold State.judgeTracking
      split
      · exact .refl s
      · exact s.reportAndCompensate_eventMove _ p _ _ zero
      · exact s.reportAndCompensate_eventMove _ p _ _ zero
    · unfold State.judgeRecovering
      split
      · exact .refl s
      · exact s.pose_eventMove _ rfl zero
      · split
        · exact s.pose_eventMove _ rfl zero
        · split
          · rename_i hr
            exact s.pose_eventMove _ rfl ⟨Nat.zero_le 4, hr⟩
          · unfold State.restorePose
            dsimp only
            rw [State.raise_with_pose]
            exact (s.raise_eventMove _).trans (State.reportAndCompensate_eventMove _ _ p _ _ zero)
    all_goals exact .refl s
  · exact .refl s

theorem State.poseFrame_eventMove (s : State) (f : Frame) (h : s.runsBounded) : EventMove s (s.poseFrame f) := by
  unfold State.poseFrame
  split
  · exact s.poseSample_eventMove _ h
  · exact .refl s

theorem State.poseTimerExpiry_eventMove (s : State) (h : s.runsBounded) : EventMove s s.poseTimerExpiry := by
  unfold State.poseTimerExpiry
  split
  · rename_i due last _ _
    dsimp only
    split
    · rename_i hs
      exact (s.runTo_eventMove due).trans (State.reportAndCompensate_eventMove _ _ _ _ _ ⟨hs, h.2⟩)
    · unfold State.losePose
      rw [State.raise_with_pose]
      exact ((s.runTo_eventMove due).trans (State.raise_eventMove _ _)).trans (State.reportPose_eventMove _ _ h)
  · exact .refl s

/-! ## Mode Control (chapter 9) -/

theorem State.takeStart_eventMove (s : State) : EventMove s s.takeStart.1 := by
  unfold State.takeStart
  split
  · rename_i h
    refine (s.changeMode_eventMove .laying .command ?_ (by decide)).trans (State.needBank_planMove _).eventMove
    unfold State.faulted
    rcases h with h | h <;> simp [h]
  · exact .refl s

theorem State.takePause_eventMove (s : State) : EventMove s s.takePause.1 := by
  unfold State.takePause
  split
  · rename_i h
    exact s.changeMode_eventMove .paused .command (by simp [State.faulted, h]) (by decide)
  · split <;> exact .refl s

theorem State.takeResume_eventMove (s : State) : EventMove s s.takeResume.1 := by
  unfold State.takeResume
  split
  · rename_i h
    exact ((s.changeMode_eventMove .laying .command (by simp [State.faulted, h]) (by decide)).trans
      (State.restartPlacementTimer_eventMove _)).trans (State.needBank_planMove _).eventMove
  · exact .refl s

theorem State.takeStow_eventMove (s : State) : EventMove s s.takeStow.1 := by
  unfold State.takeStow
  split
  · rename_i h
    split
    · refine s.changeMode_eventMove .stowed .command ?_ (by decide)
      unfold State.faulted
      rcases h with h | h <;> simp [h]
    · exact .refl s
  · exact .refl s

theorem State.takeEnterSetup_eventMove (s : State) : EventMove s s.takeEnterSetup.1 := by
  unfold State.takeEnterSetup
  split
  · rename_i h
    exact s.changeMode_eventMove .setup .command (by simp [State.faulted, h]) (by decide)
  · exact .refl s

theorem State.takeSetWatch_eventMove (s : State) (c : Byte) : EventMove s (s.takeSetWatch c).1 := by
  unfold State.takeSetWatch
  split
  · exact .refl s
  · split
    · exact .refl s
    · exact .of_mode rfl rfl rfl rfl rfl

theorem State.takeClearWatch_eventMove (s : State) (c : Byte) : EventMove s (s.takeClearWatch c).1 := by
  unfold State.takeClearWatch
  split
  · exact .refl s
  · exact .of_mode rfl rfl rfl rfl rfl

theorem State.haltAsserted_eventMove (s : State) : EventMove s s.haltAsserted := by
  refine EventMove.trans ?_ (State.reportCause_eventMove _ _)
  exact .of_mode rfl rfl rfl rfl rfl

theorem State.haltDeasserted_eventMove (s : State) : EventMove s s.haltDeasserted := .of_mode rfl rfl rfl rfl rfl

/-- Step 1 of CLEAR FAULT (R164), in FAULTED: CONVEYOR HOLD stands asserted by the mode. -/
theorem State.clearBricks_eventMove (s : State) (h : s.faulted = true) : EventMove s s.clearBricks := by
  refine ⟨fun b => ?_, rfl, rfl, rfl, id⟩
  refine ⟨b.bound, ?_, b.holds, b.fault, State.withinTravel_of_zero _ rfl, rfl, b.runs, (fun x => by cases x),
    ⟨List.nodup_nil, (fun e h => by cases h), fun c b d h => by cases c <;> cases h⟩⟩
  have k := b.held
  unfold State.conveyorHeld at *
  rw [h, Bool.or_true] at k
  rw [show s.clearBricks.faulted = true from h, Bool.or_true]
  exact k

theorem State.returnFedSlots_planMove (s : State) : PlanMove s s.returnFedSlots := by
  have h : ∀ (b : BankId) (u : State) (i : Nat), PlanMove u (u.returnSlot b i) := fun b u i =>
    (u.recordStatus_planMove b i .pending).trans (State.cursorReturn_planMove _ b i)
  exact (PlanMove.foldl _ (h .bank0) _ s).trans (PlanMove.foldl _ (h .bank1) _ _)

theorem State.cursorToLayBank_planMove (s : State) : PlanMove s s.cursorToLayBank := by
  unfold State.cursorToLayBank
  split
  · split
    · exact s.moveCursor_planMove _ _
    · exact .refl s
  · exact .refl s

/-- Steps 4 to 6 of CLEAR FAULT (R164). -/
theorem State.leaveFaulted_eventMove (s : State) : EventMove s s.leaveFaulted := by
  have key : EventMove s
      (State.evalHold { s with
        mode := { s.mode with mode := .stowed, watchStopped := none, fault := none }
        clock := { s.clock with stoppedAt := none }
        place := { s.place with holdPaused := false, timer := s.place.timer } }) := by
    refine ⟨fun b => ?_, rfl, rfl, rfl, id⟩
    exact
      { bound := b.bound, held := rfl, holds := ⟨rfl, b.holds.2⟩, fault := ⟨rfl, rfl⟩
        travel := b.travel, pump := b.pump, runs := b.runs, settled := b.settled, apart := b.apart }
  have comm : ∀ (u : State) (n : Notice), (u.raise n).evalHold = u.evalHold.raise n := by
    intro u n
    rw [State.raise_eq u, State.raise_eq u.evalHold, State.raise_link_congr n u.evalHold_link]
    rfl
  unfold State.leaveFaulted State.changeMode
  rw [comm]
  exact key.trans (State.raise_eventMove _ _)

theorem State.takeClearFault_eventMove (s : State) : EventMove s s.takeClearFault.1 := by
  unfold State.takeClearFault
  split
  · exact .refl s
  · rename_i h
    split
    · exact .refl s
    · exact (((s.clearBricks_eventMove (by simpa using h)).trans (State.returnFedSlots_planMove _).eventMove).trans
        (State.cursorToLayBank_planMove _).eventMove).trans (State.leaveFaulted_eventMove _)

/-! ## The Site Link Interface (chapter 10) -/

/-- A change of the enable set, the notices-dropped flag or the RESET that waits. -/
theorem EventMove.of_link {s t : State} (h : t = { s with link := t.link }) (h1 : t.link.notices = s.link.notices)
    (h2 : t.link.commands = s.link.commands) (h3 : t.link.replies = s.link.replies)
    (h4 : t.link.sending = s.link.sending) (h5 : s.link.resetPending = true → t.link.resetPending = true) :
    EventMove s t := by
  generalize t.link = l at h h1 h2 h3 h4 h5
  subst h
  exact ⟨fun b => b.of_eq (by rw [h1]; exact b.bound) rfl rfl rfl rfl rfl rfl rfl rfl rfl, h2, h3, h4, h5⟩

theorem State.takeReset_eventMove (s : State) : EventMove s s.takeReset.1 :=
  .of_link rfl rfl rfl rfl rfl (fun _ => rfl)

theorem State.takeReadStatus_eventMove (s : State) (p : Byte) : EventMove s (s.takeReadStatus p).1 := by
  unfold State.takeReadStatus
  split
  · exact .refl s
  · exact .of_link rfl rfl rfl rfl rfl id

theorem State.takeSetNotices_eventMove (s : State) (e : BitVec 16) : EventMove s (s.takeSetNotices e).1 := by
  unfold State.takeSetNotices
  split
  · exact .refl s
  · split
    · exact .refl s
    · exact .of_link rfl rfl rfl rfl rfl id

theorem State.takeReadBank_state (s : State) (b : Byte) : (s.takeReadBank b).1 = s := by
  unfold State.takeReadBank
  split <;> rfl

theorem State.takeReadSlot_state (s : State) (b i : Byte) : (s.takeReadSlot b i).1 = s := by
  unfold State.takeReadSlot
  split
  · rfl
  · split <;> rfl

theorem Frame.sized_eventMove (f : Frame) (n : Nat) (own : State → State × Answer) (s : State)
    (h : EventMove s (own s).1) : EventMove s (f.sized n own s).1 := by
  unfold Frame.sized
  split
  · exact h
  · exact .refl s

/-- A command run by its owner (R173): the body kept, the commands, the replies and the frame being sent as they were. -/
theorem State.perform_eventMove (f : Frame) (s : State) : EventMove s (State.perform f s).1 := by
  unfold State.perform
  dsimp only
  split
  · exact f.sized_eventMove _ _ s (.refl s)
  · exact f.sized_eventMove _ _ s s.takeReset_eventMove
  · exact f.sized_eventMove _ _ s (s.takeReadStatus_eventMove _)
  · exact f.sized_eventMove _ _ s (by rw [State.takeReadBank_state]; exact .refl s)
  · exact f.sized_eventMove _ _ s (by rw [State.takeReadSlot_state]; exact .refl s)
  · exact f.sized_eventMove _ _ s (s.takeSetDatum_eventMove _ _)
  · exact f.sized_eventMove _ _ s (s.takeSetZoneBox_eventMove _)
  · exact f.sized_eventMove _ _ s (s.takeSetZoneRow_eventMove _ _)
  · exact f.sized_eventMove _ _ s (s.takeOpenBank_planMove _ _ _ _).eventMove
  · unfold State.takeLoadSlotsFrame
    dsimp only
    split
    · exact .refl s
    · exact (s.takeLoadSlots_planMove _ _ _).eventMove
  · exact f.sized_eventMove _ _ s (s.takeCloseBank_planMove _).eventMove
  · exact f.sized_eventMove _ _ s (s.takeDiscardBank_planMove _).eventMove
  · exact f.sized_eventMove _ _ s (s.takeSetNextBank_planMove _).eventMove
  · exact f.sized_eventMove _ _ s (s.takeSkipSlot_planMove _ _).eventMove
  · exact f.sized_eventMove _ _ s (s.takeSetPlacement_eventMove _)
  · exact f.sized_eventMove _ _ s (s.takeSetFeed_eventMove _ _ _)
  · exact f.sized_eventMove _ _ s (s.takeSetAdhesive_eventMove _ _ _)
  · exact f.sized_eventMove _ _ s (s.takeSetSupplyMark_planMove _ _ _).eventMove
  · exact f.sized_eventMove _ _ s (s.takeSetWatch_eventMove _)
  · exact f.sized_eventMove _ _ s (s.takeClearWatch_eventMove _)
  · exact f.sized_eventMove _ _ s (s.takeSetNotices_eventMove _)
  · exact f.sized_eventMove _ _ s (s.takeBrickLoaded_pathMove _ _).eventMove
  · exact f.sized_eventMove _ _ s s.takeEndCourse_eventMove
  · exact f.sized_eventMove _ _ s s.takePurge_eventMove
  · exact f.sized_eventMove _ _ s s.takeAbandon_eventMove
  · exact f.sized_eventMove _ _ s s.takeStart_eventMove
  · exact f.sized_eventMove _ _ s s.takePause_eventMove
  · exact f.sized_eventMove _ _ s s.takeResume_eventMove
  · exact f.sized_eventMove _ _ s s.takeStow_eventMove
  · exact f.sized_eventMove _ _ s s.takeEnterSetup_eventMove
  · exact f.sized_eventMove _ _ s s.takeClearFault_eventMove
  · exact .refl s

/-! ## The taking of commands (R173, R174) -/

/-- The body does not read commands, replies or the frame being sent. -/
theorem State.Body.with_link {s : State} (b : s.Body) (l : LinkInterface) (h : l.notices.length ≤ 16) :
    State.Body { s with link := l } :=
  b.of_eq h rfl rfl rfl rfl rfl rfl rfl rfl rfl

theorem State.answer_body {kind tag : Byte} {r : State × Answer} (b : r.1.Body) : (State.answer kind tag r).Body :=
  b.with_link _ b.bound

/-- Takings keep the invariants (R173, R174). -/
theorem State.settle_inv (n : Nat) (s : State) (b : s.Body) (hr : s.link.replies.length ≤ 16)
    (hc : s.link.commands.length ≤ 4) (hn : s.link.commands.length ≤ n) : (s.settle n).Inv := by
  induction n generalizing s with
  | zero =>
    have he : s.link.commands = [] := by simpa using hn
    unfold State.settle
    refine (s.beginFrame_body b).inv ?_ (Nat.le_trans s.beginFrame_replies hr) ⟨s.beginFrame_free, .inl ?_⟩
    · rw [State.beginFrame_commands]; exact hc
    · rw [State.beginFrame_commands]; exact he
  | succ n ih =>
    have hb := s.beginFrame_body b
    have hcc : s.beginFrame.link.commands = s.link.commands := s.beginFrame_commands
    have hrr := Nat.le_trans s.beginFrame_replies hr
    unfold State.settle
    dsimp only
    split
    · rename_i he
      exact hb.inv (by rw [hcc]; exact hc) hrr ⟨s.beginFrame_free, .inl he⟩
    · rename_i f rest he
      rw [he] at hcc
      split
      · rename_i hm
        have hm' : s.beginFrame.link.replies = [] := by
          unfold State.mayTake at hm
          simp only [Bool.and_eq_true, List.isEmpty_iff] at hm
          exact hm.1
        have m := State.perform_eventMove f { s.beginFrame with link := { s.beginFrame.link with commands := rest } }
        refine ih _ (State.answer_body (m.body (hb.with_link _ hb.bound))) ?_ ?_ ?_
        · show ((State.perform f _).1.link.replies ++ _).length ≤ 16
          rw [m.replies, hm']
          exact Nat.le_of_ble_eq_true rfl
        · show (State.perform f _).1.link.commands.length ≤ 4
          rw [m.commands]
          rw [← hcc] at hc
          simp only [List.length_cons] at hc ⊢
          omega
        · show (State.perform f _).1.link.commands.length ≤ n
          rw [m.commands]
          rw [← hcc] at hn
          simp only [List.length_cons] at hn ⊢
          omega
      · rename_i hm
        refine hb.inv (by rw [he, hcc]; exact hc) hrr ⟨s.beginFrame_free, .inr ?_⟩
        unfold State.mayTake at hm
        cases hp : s.beginFrame.link.resetPending with
        | true => exact .inr rfl
        | false =>
          refine .inl fun h => hm ?_
          simp [h, hp]

/-- The arrival of a site frame keeps the invariants (R172, R173). -/
theorem State.arriveFrame_inv (s : State) (f : Frame) (h : s.Inv) : (s.arriveFrame f).Inv := by
  have b := h.body
  have hc := h.1.1
  have hr := h.1.2.1
  unfold State.arriveFrame State.settleLink State.admitFrame
  split
  · exact State.settle_inv _ s b hr hc (Nat.le_refl _)
  · split
    · exact State.settle_inv _ s b hr hc (Nat.le_refl _)
    · split
      · exact State.settle_inv _ s b hr hc (Nat.le_refl _)
      · split
        · refine State.settle_inv _ _ (b.with_link _ b.bound) ?_ hc (Nat.le_refl _)
          show (s.link.replies ++ _).length ≤ 16
          simp only [List.length_append, List.length_cons, List.length_nil]
          omega
        · refine State.settle_inv _ _ (b.with_link _ b.bound) hr ?_ (Nat.le_refl _)
          show (s.link.commands ++ _).length ≤ 4
          simp only [List.length_append, List.length_cons, List.length_nil]
          omega

/-- A command row keeps the invariants where its owner does (R172, R173). -/
theorem State.submit_inv (s : State) (f : Frame) (own : State → State × Answer) (m : ∀ u, EventMove u (own u).1)
    (h : s.Inv) : (s.submit f own).Inv := by
  unfold State.submit
  split
  · exact (EventMove.refl s).inv h
  · split
    · rename_i he
      simp only [Bool.and_eq_true, List.isEmpty_iff] at he
      have hb := s.beginFrame_body h.body
      have mm := m s.beginFrame
      have ab : (State.answer f.kind f.tag (own s.beginFrame)).Body := State.answer_body (mm.body hb)
      have hcm : (State.answer f.kind f.tag (own s.beginFrame)).link.commands = [] := by
        show (own s.beginFrame).1.link.commands = []
        rw [mm.commands, State.beginFrame_commands, he.1]
      refine ((State.beginFrame_body _ ab).inv ?_ (Nat.le_trans (State.beginFrame_replies _) ?_)
        ⟨State.beginFrame_free _, .inl ?_⟩)
      · rw [State.beginFrame_commands, hcm]; decide
      · show ((own s.beginFrame).1.link.replies ++ _).length ≤ 16
        have : s.beginFrame.link.replies.length ≤ 0 := by
          have := s.beginFrame_replies
          rw [he.2] at this
          exact this
        rw [mm.replies]
        simp only [List.length_append, List.length_cons, List.length_nil]
        omega
      · rw [State.beginFrame_commands, hcm]
    · exact s.arriveFrame_inv f h

/-- A reset leaves a state in which the invariants stand once READY has begun (R167). -/
theorem State.resetWith_inv (s : State) (c : ResetCause) (k : CradleCount) (t : Travel) (halt : Bool) :
    (s.resetWith c k t halt).beginFrame.Inv := by
  have b : (State.resetValues c k t halt s.place.gripped { s.clock with stoppedAt := none } s.pending).Body := by
    refine ⟨Nat.zero_le _, ?_, ⟨rfl, rfl⟩, ⟨rfl, rfl⟩, State.withinTravel_of_zero _ rfl, rfl,
      ⟨Nat.zero_le 4, (Nat.le_of_ble_eq_true rfl : 1 ≤ 8)⟩,
      (fun h => by cases h), ⟨List.nodup_nil, (fun e h => by cases h), fun c b d h => by cases c <;> cases h⟩⟩
    cases k <;> rfl
  have m : EventMove (State.resetValues c k t halt s.place.gripped { s.clock with stoppedAt := none } s.pending)
      (s.resetWith c k t halt) := by
    unfold State.resetWith
    dsimp only
    split
    · exact (State.raise_eventMove _ _).trans (State.reportCause_eventMove _ _)
    · exact State.raise_eventMove _ _
  refine ((State.beginFrame_body _ (m.body b)).inv ?_ (Nat.le_trans (State.beginFrame_replies _) ?_)
    ⟨State.beginFrame_free _, .inl ?_⟩)
  · rw [State.beginFrame_commands, m.commands]; exact Nat.zero_le _
  · rw [m.replies]; exact Nat.zero_le _
  · rw [State.beginFrame_commands, m.commands]; rfl

/-! ## Events that leave the link alone, and frames in a row -/

theorem State.grantTo_link (s : State) (c : CradleId) : (s.grantTo c).link = s.link := by
  unfold State.grantTo; split <;> first | rfl | rw [State.setCradle_link]

theorem State.judgeGrant_link (s : State) : s.judgeGrant.link = s.link := by
  unfold State.judgeGrant; split
  · split
    · exact State.grantTo_link _ _
    · rfl
  · rfl

theorem State.freePump_link (s : State) (c : CradleId) : (s.freePump c).link = s.link := by
  unfold State.freePump; dsimp only; split
  · split <;> rw [State.setCradle_link]
  all_goals rfl

theorem State.completeGlue_link (s : State) : s.completeGlue.link = s.link := by
  unfold State.completeGlue; split
  · rw [State.judgeGrant_link, State.freePump_link]
  · rfl

theorem State.pumpReload_link (s : State) : s.pumpReload.link = s.link := by
  unfold State.pumpReload; split
  · rfl
  · split
    · unfold State.reload; dsimp only; split
      · split
        · rw [State.completeGlue_link]; rfl
        · rfl
      · rfl
    · rfl

theorem State.tipCompletion_link (s : State) (c : CradleId) : (s.tipCompletion c).link = s.link := by
  unfold State.tipCompletion; split
  · rfl
  · split <;> first | rfl | (rw [State.setCradle_link]; rfl)

/-- Pose frames completed by one byte, in a row (R181). -/
theorem State.poseFrames_eventMove (l : List Frame) (s : State) (h : s.Body) : EventMove s (l.foldl State.poseFrame s) := by
  induction l generalizing s with
  | nil => exact .refl s
  | cons a l ih =>
    have m := s.poseFrame_eventMove a h.runs
    exact m.trans (ih _ (m.body h))

/-- Site frames completed by one byte, in a row (R172). -/
theorem State.arriveFrames_inv (l : List Frame) (s : State) (h : s.Inv) : (l.foldl State.arriveFrame s).Inv := by
  induction l generalizing s with
  | nil => exact h
  | cons a l ih => exact ih _ (s.arriveFrame_inv a h)

end Sys2Proof.Machine
end

