-- ==== Sys2Proof/Laws/Plan.lean ====
section
/-! SUPPORT. What the operations over the plan and the feed make of them: cursor moves, banks becoming SPENT,
FED slots returned, feed requests, the close of a bank, flushes. -/

namespace Sys2Proof.Machine

/-- A supply evaluation writes the condition and the last count alone (R70). -/
theorem State.evalSupply_feed (s : State) :
    s.evalSupply.feed = { s.feed with condition := s.evalSupply.feed.condition, lastCount := s.evalSupply.feed.lastCount } :=
    by
  unfold State.evalSupply; dsimp only; split <;> simp

/-- BANK NEEDED writes its flag alone (R59). -/
theorem State.needBank_feed (s : State) :
    s.needBank.feed = { s.feed with bankNeeded := s.needBank.feed.bankNeeded } := by
  unfold State.needBank; split <;> simp

/-- A bank becoming SPENT writes, of the Feed Sequencer, the supply evaluation alone (R14). -/
theorem State.spend_feed (s : State) (b : BankId) :
    (s.spend b).feed = { s.feed with condition := (s.spend b).feed.condition, lastCount := (s.spend b).feed.lastCount } :=
    by
  unfold State.spend; rw [State.evalSupply_feed]; cases b <;> simp [State.setBankSwitch]

/-- So does the spent test. -/
theorem State.testSpent_feed (s : State) (b : BankId) :
    (s.testSpent b).feed = { s.feed with condition := (s.testSpent b).feed.condition, lastCount := (s.testSpent b).feed.lastCount } :=
    by
  unfold State.testSpent; split
  · exact State.spend_feed s b
  · rfl

/-- What a move of pointer and cursor writes (R52, R70). -/
theorem State.placeCursor_feed (s : State) (b : BankId) (c : Nat) :
    (s.placeCursor b c).feed = { s.feed with pointer := b, cursor := c, bankNeeded := (s.placeCursor b c).feed.bankNeeded, condition := (s.placeCursor b c).feed.condition, lastCount := (s.placeCursor b c).feed.lastCount } :=
    by
  unfold State.placeCursor; rw [State.evalSupply_feed]

/-- A move of pointer and cursor leaves the plan. -/
theorem State.placeCursor_plan (s : State) (b : BankId) (c : Nat) : (s.placeCursor b c).plan = s.plan := by
  unfold State.placeCursor; simp

/-- A bank is read from the plan alone. -/
theorem State.bank_of_plan (s t : State) (h : t.plan = s.plan) (b : BankId) : t.bank b = s.bank b :=
    by unfold State.bank; rw [h]

/-- The next tag and the settings of the Feed Sequencer stay. -/
def FeedKept (s t : State) : Prop := t.feed.nextTag = s.feed.nextTag ∧ t.feed.depth = s.feed.depth ∧
    t.feed.tolerance = s.feed.tolerance ∧ t.feed.mark = s.feed.mark

theorem FeedKept.refl (s : State) : FeedKept s s := ⟨rfl, rfl, rfl, rfl⟩

theorem FeedKept.trans {s t u : State} (h : FeedKept s t) (k : FeedKept t u) : FeedKept s u :=
    ⟨k.1.trans h.1, k.2.1.trans h.2.1, k.2.2.1.trans h.2.2.1, k.2.2.2.trans h.2.2.2⟩

theorem State.evalSupply_feedKept (s : State) : FeedKept s s.evalSupply :=
    by rw [FeedKept, State.evalSupply_feed]; exact ⟨rfl, rfl, rfl, rfl⟩

theorem State.needBank_feedKept (s : State) : FeedKept s s.needBank :=
    by rw [FeedKept, State.needBank_feed]; exact ⟨rfl, rfl, rfl, rfl⟩

theorem State.spend_feedKept (s : State) (b) : FeedKept s (s.spend b) :=
    by rw [FeedKept, State.spend_feed]; exact ⟨rfl, rfl, rfl, rfl⟩

theorem State.testSpent_feedKept (s : State) (b) : FeedKept s (s.testSpent b) :=
    by rw [FeedKept, State.testSpent_feed]; exact ⟨rfl, rfl, rfl, rfl⟩

theorem State.placeCursor_feedKept (s : State) (b c) : FeedKept s (s.placeCursor b c) :=
    by rw [FeedKept, State.placeCursor_feed]; exact ⟨rfl, rfl, rfl, rfl⟩

theorem State.moveCursor_feedKept (s : State) (b c) : FeedKept s (s.moveCursor b c) :=
    (State.placeCursor_feedKept s b c).trans (State.testSpent_feedKept _ _)

theorem State.walkEnd_feedKept (s : State) : FeedKept s s.walkEnd := by
  unfold State.walkEnd; dsimp only
  refine FeedKept.trans ?_ (State.needBank_feedKept _)
  split <;> (try split) <;> first | exact State.moveCursor_feedKept _ _ _ | exact State.testSpent_feedKept _ _

theorem State.spendIfDue_feedKept (s : State) (b) : FeedKept s (s.spendIfDue b) := by
  unfold State.spendIfDue; dsimp only; split
  · split
    · exact (State.spend_feedKept _ _).trans (State.walkEnd_feedKept _)
    · exact (State.spend_feedKept _ _).trans (State.needBank_feedKept _)
  · exact .refl s

theorem State.recordStatus_feedKept (s : State) (b i st) : FeedKept s (s.recordStatus b i st) := by
  unfold State.recordStatus; split
  · exact (State.evalSupply_feedKept (s.setSlot b i _)).trans (State.spendIfDue_feedKept _ _)
  · exact .refl s

theorem State.cursorReturn_feedKept (s : State) (b i) : FeedKept s (s.cursorReturn b i) := by
  unfold State.cursorReturn; split
  · exact State.moveCursor_feedKept _ _ _
  · exact .refl s

/-- A FED slot returned (R19, R61): what it changes. -/
theorem State.returnSlot_moves (s : State) (b : BankId) (i : Nat) : PlanMove s (s.returnSlot b i) ∧
    FeedKept s (s.returnSlot b i) ∧ s.slotsKeptBut (s.returnSlot b i) b i ∧
   ∀ sl, s.slot? b i = some sl → (s.returnSlot b i).slot? b i = some { sl with status := .pending } := by
  refine ⟨(s.recordStatus_planMove b i .pending).trans (State.cursorReturn_planMove _ b i),
      (State.recordStatus_feedKept _ _ _ _).trans (State.cursorReturn_feedKept _ _ _), fun c j h => ?_, fun sl h => ?_⟩
  · unfold State.returnSlot; rw [State.cursorReturn_slot?]; exact s.recordStatus_other b i _ c j h
  · unfold State.returnSlot; rw [State.cursorReturn_slot?]; exact s.recordStatus_self b i _ sl h

/-- FED slots returned one after the other. -/
theorem State.returnSlot_fold (b : BankId) (l : List Nat) (hl : l.Nodup) (s : State) :
    PlanMove s (l.foldl (State.returnSlot b) s) ∧ FeedKept s (l.foldl (State.returnSlot b) s) ∧
   (∀ c j, (c ≠ b ∨ j ∉ l) → (l.foldl (State.returnSlot b) s).slot? c j = s.slot? c j) ∧
   (∀ i ∈ l, ∀ sl, s.slot? b i = some sl →
       (l.foldl (State.returnSlot b) s).slot? b i = some { sl with status := .pending }) := by
  induction l generalizing s with
  | nil => exact ⟨.refl s, .refl s, fun _ _ _ => rfl, fun _ h => by cases h⟩
  | cons a l ih =>
    obtain ⟨n1, n2⟩ := List.nodup_cons.mp hl
    obtain ⟨p1, p2, p3, p4⟩ := State.returnSlot_moves s b a
    obtain ⟨q1, q2, q3, q4⟩ := ih n2 (s.returnSlot b a)
    refine ⟨p1.trans q1, p2.trans q2, fun c j h => ?_, fun i hi sl hs => ?_⟩
    · rw [List.foldl_cons, q3 c j (by rcases h with h | h; exact .inl h; exact .inr fun k => h (by simp [k]))]
      exact p3 c j (by rcases h with h | h; exact .inl h; exact .inr fun k => h (by simp [k]))
    · by_cases ha : i = a
      · subst ha
        rw [List.foldl_cons, q3 b i (.inr n1)]
        exact p4 sl hs
      · have : i ∈ l := by simpa [ha] using hi
        exact q4 i this sl ((p3 b i (.inr ha)).trans hs)

/-- Which slots are FED. -/
theorem State.mem_fedSlots (s : State) (b : BankId) (i : Nat) : i ∈ s.fedSlots b ↔ ∃ sl, s.slot? b i = some sl ∧
    sl.status.isFed = true := by
  unfold State.fedSlots
  simp only [List.mem_filter, List.mem_range]
  constructor
  · rintro ⟨h1, h2⟩
    cases e : s.slot? b i with
    | none => simp [e] at h2
    | some sl => exact ⟨sl, rfl, by simpa [e] using h2⟩
  · rintro ⟨sl, h1, h2⟩
    refine ⟨?_, by simp [h1, h2]⟩
    unfold State.slot? at h1
    exact (List.getElem?_eq_some_iff.mp h1).1

theorem State.fedSlots_nodup (s : State) (b : BankId) : (s.fedSlots b).Nodup := List.nodup_range.filter _

/-- How many slots are FED. -/
theorem State.fedSlots_length (s : State) (b : BankId) : (s.fedSlots b).length = (s.bank b).count SlotStatus.isFed := by
  unfold State.fedSlots Bank.count State.slot?
  generalize (s.bank b).slots = l
  rw [← List.countP_eq_length_filter]
  induction l with
  | nil => rfl
  | cons a l ih =>
    rw [List.length_cons, List.range_succ_eq_map, List.countP_cons, List.countP_cons, List.countP_map, ← ih]
    congr 1

theorem SlotStatus.isFed_iff (st : SlotStatus) : st.isFed = true ↔ st = .fed := by cases st <;> simp [SlotStatus.isFed]

/-- Step 2 of CLEAR FAULT (R164): every FED slot PENDING, every other as it was. -/
theorem State.returnFedSlots_moves (s : State) : PlanMove s s.returnFedSlots ∧ FeedKept s s.returnFedSlots ∧
   (∀ (b : BankId) (i : Nat) (sl : Slot), s.slot? b i = some sl →
          s.returnFedSlots.slot? b i = some (if sl.status = .fed then { sl with status := .pending } else sl)) := by
  obtain ⟨p1, p2, p3, p4⟩ := State.returnSlot_fold .bank0 (s.fedSlots .bank0) (State.fedSlots_nodup _ _) s
  obtain ⟨q1, q2, q3, q4⟩ := State.returnSlot_fold .bank1 (s.fedSlots .bank1) (State.fedSlots_nodup _ _)
      ((s.fedSlots .bank0).foldl (State.returnSlot .bank0) s)
  refine ⟨p1.trans q1, p2.trans q2, fun b i sl hs => ?_⟩
  unfold State.returnFedSlots
  by_cases hf : sl.status = .fed
  · rw [if_pos hf]
    have hm : i ∈ s.fedSlots b := (State.mem_fedSlots _ _ _).mpr ⟨sl, hs, (SlotStatus.isFed_iff _).mpr hf⟩
    cases b with
    | bank0 => rw [q3 _ _ (.inl (by decide))]; exact p4 i hm sl hs
    | bank1 => exact q4 i hm sl ((p3 _ _ (.inl (by decide))).trans hs)
  · rw [if_neg hf]
    have hm : i ∉ s.fedSlots b := by
      rw [State.mem_fedSlots]; rintro ⟨sl', h1, h2⟩; rw [hs] at h1; cases h1; exact hf ((SlotStatus.isFed_iff _).mp h2)
    cases b with
    | bank0 => rw [q3 _ _ (.inl (by decide)), p3 _ _ (.inr hm)]; exact hs
    | bank1 => rw [q3 _ _ (.inr hm), p3 _ _ (.inl (by decide))]; exact hs

/-- A bank becoming SPENT leaves the other bank (R14). -/
theorem State.spend_bank_other (s : State) (b c : BankId) (h : c ≠ b) : (s.spend b).bank c = s.bank c := by
  unfold State.spend
  rw [State.bank_of_plan _ _ (evalSupply_plan _), State.bank_of_plan _ _ (State.raise_plan _ _)]
  have : ∀ u : State, (u.setBankSwitch b false).bank c = u.bank c := fun u => State.bank_of_plan _ _ (by simp) c
  rw [this, State.setOrder_bank, State.setBank_bank_other _ _ _ _ h]

/-- A bank becoming SPENT leaves the active order list (R14). -/
theorem State.spend_order (s : State) (b : BankId) : (s.spend b).plan.order = s.plan.order.erase b := by
  unfold State.spend
  simp

/-! ## Feed requests -/

/-- What the activation of the feed bank changes (R13). -/
theorem State.activate_moves (s : State) (b : BankId) (hb : b = s.feed.pointer) (u : State) (hu : u = s.activate b) :
   PlanMove s u ∧ s.slotsKept u ∧ u.feed.pointer = b ∧ FeedKept s u ∧ u.plan.order = s.plan.order ++ [b] ∧ (u.bank b)
       = { s.bank b with state := .active } ∧ (∀ c, c ≠ b → u.bank c = s.bank c) ∧
   u.feed.cursor = 0 ∧
       u.mode = { s.mode with bankSwitch0 := if b = .bank0 then true else s.mode.bankSwitch0, bankSwitch1 := if b = .bank1 then true else s.mode.bankSwitch1 } :=
       by
  subst hu
  unfold State.activate
  dsimp only
  generalize hv :
      ((s.setBank b { s.bank b with state := .active }).setOrder (s.plan.order ++ [b])).setBankSwitch b true = v
  have pv : PlanMove s v := by
    subst hv; exact ((s.setBank_planMove b _).trans (State.setOrder_planMove _ _)).trans (State.setBankSwitch_planMove _ _ _)
  have vb : ∀ c, v.bank c = (s.setBank b { s.bank b with state := .active }).bank c := by
    intro c; subst hv
    rw [State.bank_of_plan ((s.setBank b { s.bank b with state := .active }).setOrder (s.plan.order ++ [b])) _ (by simp) c,
        State.setOrder_bank]
  have vf : v.feed = s.feed := by subst hv; simp
  have vo : v.plan.order = s.plan.order ++ [b] := by subst hv; simp
  have vm :
      v.mode = { s.mode with bankSwitch0 := if b = .bank0 then true else s.mode.bankSwitch0, bankSwitch1 := if b = .bank1 then true else s.mode.bankSwitch1 } :=
      by
    subst hv; cases b <;> rfl
  refine ⟨(pv.trans (PlanMove.of_plan_feed v v.plan _)).trans (State.placeCursor_planMove _ _ _), fun c i => ?_, ?_,
      ?_, ?_, ?_, fun c hc => ?_, ?_, ?_⟩
  · rw [State.placeCursor_slot?]
    show (v.bank c).slots[i]? = _
    rw [vb]
    exact s.setBank_slotsKept b { s.bank b with state := .active } rfl c i
  · rw [State.placeCursor_feed]
  · exact FeedKept.trans (show FeedKept s { v with feed := { v.feed with bankNeeded := false } } by unfold FeedKept; dsimp only; rw [vf]; exact ⟨rfl, rfl, rfl, rfl⟩)
        (State.placeCursor_feedKept _ _ _)
  · rw [State.placeCursor_plan]; exact vo
  · rw [State.bank_of_plan _ _ (State.placeCursor_plan _ _ _)]; show v.bank b = _; rw [vb]; simp
  · rw [State.bank_of_plan _ _ (State.placeCursor_plan _ _ _)]; show v.bank c = _; rw [vb,
        State.setBank_bank_other _ _ _ _ hc]
  · rw [State.placeCursor_feed]
  · unfold State.placeCursor; rw [(State.evalSupply_mode _)]; exact vm

theorem BankId.other_ne (b : BankId) : b.other ≠ b := by cases b <;> decide

theorem BankId.other_other (b : BankId) : b.other.other = b := by cases b <;> rfl

/-- A bank with a slot still to be laid does not become SPENT (R14). -/
theorem State.spentDue_of_open (u : State) (b : BankId) (i : Nat) (sl : Slot) (h : u.slot? b i = some sl)
    (ho : sl.status.isOpen = true) : u.spentDue b = false := by
  unfold State.spentDue
  have : (u.bank b).count SlotStatus.isOpen ≠ 0 := by
    unfold Bank.count
    have hm : sl ∈ (u.bank b).slots := List.mem_of_getElem? h
    have := (List.countP_pos_iff (p := fun sl : Slot => sl.status.isOpen)).mpr ⟨sl, hm, ho⟩
    omega
  simp [this]

theorem State.testSpent_of_open (u : State) (b : BankId) (i : Nat) (sl : Slot) (h : u.slot? b i = some sl)
    (ho : sl.status.isOpen = true) : u.testSpent b = u := by
  unfold State.testSpent; rw [State.spentDue_of_open u b i sl h ho]; rfl

/-- A move of pointer and cursor leaves Mode Control. -/
theorem State.placeCursor_mode (s : State) (b c) : (s.placeCursor b c).mode = s.mode :=
    by unfold State.placeCursor; rw [State.evalSupply_mode]

/-- The walk-end step with a slot of the feed bank still to be laid: no bank becomes SPENT (R58). -/
theorem State.walkEnd_of_open (u : State) (i : Nat) (sl : Slot) (h : u.slot? u.feed.pointer i = some sl)
    (ho : sl.status.isOpen = true) : u.walkEnd.plan = u.plan ∧ u.walkEnd.mode = u.mode := by
  have nb : ∀ q : State, q.needBank.plan = q.plan ∧ q.needBank.mode = q.mode := by
    intro q; unfold State.needBank; split <;> simp
  have mp : (u.moveCursor u.feed.pointer.other 0).plan = u.plan ∧ (u.moveCursor u.feed.pointer.other 0).mode = u.mode := by
    unfold State.moveCursor
    rw [BankId.other_other, State.testSpent_of_open _ _ i sl (by rw [State.placeCursor_slot?]; exact h) ho]
    exact ⟨State.placeCursor_plan _ _ _, State.placeCursor_mode _ _ _⟩
  unfold State.walkEnd
  dsimp only
  rw [(nb _).1, (nb _).2]
  split
  · exact mp
  · split
    · rw [State.testSpent_of_open _ _ i sl h ho]; exact ⟨rfl, rfl⟩
    · exact mp
  all_goals exact mp

/-- What a move leaves of the bank it goes to, and of the plan where the other bank does not await its spent test (R14). -/
structure BankKept (b : BankId) (s t : State) : Prop where
  bank : t.bank b = s.bank b
  switch0 : b = .bank0 → t.mode.bankSwitch0 = s.mode.bankSwitch0
  switch1 : b = .bank1 → t.mode.bankSwitch1 = s.mode.bankSwitch1
  quiet : s.awaitsSpent b.other = false → t.plan = s.plan ∧ t.mode = s.mode

theorem BankKept.of_plan {b : BankId} {s t : State} (h : t.plan = s.plan) (k : t.mode = s.mode) : BankKept b s t :=
    ⟨State.bank_of_plan _ _ h b, fun _ => by rw [k], fun _ => by rw [k], fun _ => ⟨h, k⟩⟩

theorem BankKept.trans {b : BankId} {s t u : State} (h : BankKept b s t) (k : BankKept b t u) : BankKept b s u := by
  refine ⟨k.bank.trans h.bank, fun e => (k.switch0 e).trans (h.switch0 e), fun e => (k.switch1 e).trans (h.switch1 e), fun e => ?_⟩
  obtain ⟨p, m⟩ := h.quiet e
  obtain ⟨p', m'⟩ := k.quiet (by unfold State.awaitsSpent at *; rw [State.bank_of_plan _ _ p]; exact e)
  exact ⟨p'.trans p, m'.trans m⟩

/-- The spent test of the other bank. -/
theorem State.testSpent_bankKept (s : State) (b : BankId) : BankKept b s (s.testSpent b.other) := by
  unfold State.testSpent
  split
  · rename_i h
    refine ⟨s.spend_bank_other _ _ (BankId.other_ne b).symm, fun e => ?_, fun e => ?_, fun e => ?_⟩
    · subst e; unfold State.spend; simp [State.setBankSwitch, BankId.other]
    · subst e; unfold State.spend; simp [State.setBankSwitch, BankId.other]
    · unfold State.awaitsSpent at e
      unfold State.spentDue at h
      simp only [Bool.and_eq_true] at h
      rw [Bool.and_eq_false_iff] at e
      rcases e with e | e
      · rw [e] at h; simp at h
      · rw [e] at h; simp at h
  · exact .of_plan rfl rfl

theorem State.moveCursor_bankKept (s : State) (b : BankId) (c : Nat) : BankKept b s (s.moveCursor b c) :=
    (BankKept.of_plan (State.placeCursor_plan _ _ _) (State.placeCursor_mode _ _ _)).trans (State.testSpent_bankKept _ b)

/-- Where a move puts pointer and cursor (R52). -/
theorem State.moveCursor_point (s : State) (b : BankId) (c : Nat) :
    (s.moveCursor b c).feed.pointer = b ∧ (s.moveCursor b c).feed.cursor = c := by
  unfold State.moveCursor; rw [State.testSpent_feed, State.placeCursor_feed]; exact ⟨rfl, rfl⟩

/-- The cursor moved with a slot of the feed bank still to be laid (R57, R58). -/
theorem State.advanceCursor_of_open (u : State) (c : Nat) (i : Nat) (sl : Slot)
    (h : u.slot? u.feed.pointer i = some sl) (ho : sl.status.isOpen = true) : BankKept u.feed.pointer u (u.advanceCursor c) ∧
    FeedKept u (u.advanceCursor c) ∧
   (c < (u.bank u.feed.pointer).slots.length → (u.advanceCursor c).feed.pointer = u.feed.pointer ∧
       (u.advanceCursor c).feed.cursor = c) := by
  unfold State.advanceCursor
  split
  · rename_i hc
    have hp : (u.placeCursor u.feed.pointer c).feed.pointer = u.feed.pointer := by rw [State.placeCursor_feed]
    obtain ⟨k1, k2⟩ :=
        State.walkEnd_of_open (u.placeCursor u.feed.pointer c) i sl (by rw [hp, State.placeCursor_slot?]; exact h) ho
    exact ⟨.of_plan (k1.trans (State.placeCursor_plan _ _ _)) (k2.trans (State.placeCursor_mode _ _ _)),
        (State.placeCursor_feedKept _ _ _).trans (State.walkEnd_feedKept _), fun h => by omega⟩
  · exact ⟨u.moveCursor_bankKept _ _, u.moveCursor_feedKept _ _, fun _ => u.moveCursor_point _ _⟩

/-- FED recorded: no bank becomes SPENT (R14, R15). -/
theorem State.recordStatus_fed (s : State) (b : BankId) (i : Nat) (sl : Slot) (h : s.slot? b i = some sl) :
    s.recordStatus b i .fed = (s.setSlot b i { sl with status := .fed }).evalSupply := by
  unfold State.recordStatus
  rw [h]
  dsimp only
  unfold State.spendIfDue
  rw [State.spentDue_of_open _ b i { sl with status := .fed } (by rw [State.evalSupply_slot?]; exact s.setSlot_slot?_self b i _ (by rw [h]; rfl)) rfl]
  rfl

/-- What a feed request may change: no block but the plan, the feed and the train; and no slot that is not PENDING. -/
structure FeedMove (s t : State) : Prop where
  frame : t.cradles = s.cradles ∧ t.adhesive = s.adhesive ∧ t.pose = s.pose ∧ t.comp = s.comp ∧ t.place = s.place ∧
        t.datum = s.datum ∧ t.zone = s.zone ∧ t.mode.mode = s.mode.mode ∧ t.clock = s.clock
  slots : ∀ b i sl, s.slot? b i = some sl → sl.status.isPending = false → t.slot? b i = some sl

theorem FeedMove.refl (s : State) : FeedMove s s := ⟨by simp, fun _ _ _ h _ => h⟩

theorem FeedMove.trans {s t u : State} (h : FeedMove s t) (k : FeedMove t u) : FeedMove s u := by
  obtain ⟨⟨a1, a2, a3, a4, a5, a6, a7, a8, a9⟩, a⟩ := h
  obtain ⟨⟨b1, b2, b3, b4, b5, b6, b7, b8, b9⟩, b⟩ := k
  exact ⟨⟨b1.trans a1, b2.trans a2, b3.trans a3, b4.trans a4, b5.trans a5, b6.trans a6, b7.trans a7, b8.trans a8,
      b9.trans a9⟩, fun c i sl h hp => b c i sl (a c i sl h hp) hp⟩

theorem FeedMove.of_plan {s t : State} (m : PlanMove s t) (h : s.slotsKept t) : FeedMove s t :=
  ⟨⟨m.cradles, m.adhesive, m.pose, m.comp, m.place, m.datum, m.zone, by rw [m.mode], m.clock⟩,
      fun b i sl hs _ => (h b i).trans hs⟩

theorem FeedMove.of_but {s t : State} (m : PlanMove s t) (b : BankId) (i : Nat) (sl : Slot) (h : s.slotsKeptBut t b i)
    (hs : s.slot? b i = some sl) (hp : sl.status.isPending = true) : FeedMove s t := by
  refine ⟨⟨m.cradles, m.adhesive, m.pose, m.comp, m.place, m.datum, m.zone, by rw [m.mode], m.clock⟩,
      fun c j sl' h1 h2 => ?_⟩
  rw [h c j ?_]; exact h1
  by_cases hc : c = b
  · right; rintro rfl; subst hc; rw [hs] at h1; cases h1; rw [hp] at h2; cases h2
  · exact .inl hc

theorem State.activateIfReady_feedMove (s : State) : FeedMove s s.activateIfReady := by
  unfold State.activateIfReady
  split
  · obtain ⟨p, k, _⟩ := State.activate_moves s _ rfl _ rfl
    exact .of_plan p k
  all_goals exact .refl s

theorem State.advanceCursor_feedMove (s : State) (c : Nat) : FeedMove s (s.advanceCursor c) :=
    .of_plan (s.advanceCursor_planMove c) fun _ _ => by simp

/-- The cursor put to a walk position of the feed bank. -/
theorem State.cursorTo_moves (s : State) (c : Nat) : PlanMove s (s.cursorTo c) ∧ s.slotsKept (s.cursorTo c) ∧
    BankKept s.feed.pointer s (s.cursorTo c) ∧ FeedKept s (s.cursorTo c) ∧
    (s.cursorTo c).feed.pointer = s.feed.pointer ∧ (s.cursorTo c).feed.cursor = c := by
  unfold State.cursorTo; split
  · rename_i h; exact ⟨.refl s, s.slotsKept_refl, .of_plan rfl rfl, .refl s, rfl, h⟩
  · exact ⟨s.moveCursor_planMove _ _, fun _ _ => by simp, s.moveCursor_bankKept _ _, s.moveCursor_feedKept _ _,
        s.moveCursor_point _ _⟩

/-- The target supplied for a feed (R34). -/
theorem State.supplyTarget_moves (s : State) (b : BankId) (i : Nat) (sl : Slot) (h : s.slot? b i = some sl) :
    PlanMove s (s.supplyTarget b i sl) ∧ s.slotsKeptBut (s.supplyTarget b i sl) b i ∧
    (s.supplyTarget b i sl).feed = s.feed ∧ (s.supplyTarget b i sl).mode = s.mode ∧
    (s.supplyTarget b i sl).plan.order = s.plan.order ∧
   (∀ c, ((s.supplyTarget b i sl).bank c).state = (s.bank c).state ∧
       ((s.supplyTarget b i sl).bank c).setup = (s.bank c).setup ∧
       ((s.supplyTarget b i sl).bank c).slots.length = (s.bank c).slots.length) ∧
   (∃ t, (s.supplyTarget b i sl).slot? b i = some { sl with target := t } ∧ (sl.target.isSome → t = sl.target) ∧ ∀ d,
       s.datumOf b = some d → t = some (sl.target.getD (targetOn d sl))) := by
  unfold State.supplyTarget
  cases ht : sl.target with
  | some t => 
    dsimp only
    exact ⟨.refl s, fun _ _ _ => rfl, rfl, rfl, rfl, fun _ => ⟨rfl, rfl, rfl⟩, some t, by rw [h, ← ht], fun _ => rfl,
        fun _ _ => rfl⟩
  | none =>
    cases hd : s.datumOf b with
    | some d =>
      dsimp only
      refine ⟨s.setSlot_planMove _ _ _, s.setSlot_slot?_other _ _ _, rfl, rfl, by simp [State.setSlot], fun c => ?_,
          some (targetOn d sl), s.setSlot_slot?_self _ _ _ (by rw [h]; rfl), fun h => (by cases h),
          fun d' h => (by cases h; rfl)⟩
      by_cases hc : c = b
      · subst hc; simp [State.setSlot]
      · unfold State.setSlot; rw [State.setBank_bank_other _ _ _ _ hc]; exact ⟨rfl, rfl, rfl⟩
    | none =>
      dsimp only
      exact ⟨.refl s, fun _ _ _ => rfl, rfl, rfl, rfl, fun _ => ⟨rfl, rfl, rfl⟩, none, by rw [h, ← ht],
          fun h => (by cases h), fun d h => (by cases h)⟩

/-- The slot found by the search for the first PENDING one is PENDING (R55). -/
theorem Bank.firstPending_slot (b : Bank) (n p i : Nat) (h : b.firstPending n = some p)
    (hw : b.walkOrder[p]? = some i) : ∃ sl, b.slots[i]? = some sl ∧ sl.status.isPending = true := by
  unfold Bank.firstPending at h
  obtain ⟨k, hk, rfl⟩ := Option.map_eq_some_iff.mp h
  obtain ⟨hlt, hp, _⟩ := List.findIdx?_eq_some_iff_getElem.mp hk
  rw [List.getElem_drop] at hp
  have hi : b.walkOrder[n + k]'(by simp at hlt; omega) = i := by
    have := List.getElem?_eq_some_iff.mp hw
    exact this.2
  rw [hi] at hp
  cases e : b.slots[i]? with
  | none => simp [e] at hp
  | some sl => exact ⟨sl, rfl, by simpa [e] using hp⟩

theorem State.feedEntry_feedMove (s : State) (b : BankId) (p i : Nat) (x sl : Slot) (h : s.slot? b i = some x)
    (hp : x.status.isPending = true) : FeedMove s (s.feedEntry b p i sl) := by
  unfold State.feedEntry
  dsimp only
  refine FeedMove.trans ?_ (State.advanceCursor_feedMove _ _)
  generalize hv : ({ s with train := _ } : State) = v
  have hs : v.slot? b i = some x := by subst hv; exact h
  have m := FeedMove.of_but (v.recordStatus_planMove b i .fed) b i x (v.recordStatus_other b i .fed) hs hp
  have mv : FeedMove s v := by subst hv; exact ⟨⟨rfl, rfl, rfl, rfl, rfl, rfl, rfl, rfl, rfl⟩, fun _ _ _ h _ => h⟩
  exact (mv.trans m).trans ((FeedMove.of_plan (State.raise_planMove _ _)
      (fun _ _ => by simp)).trans (FeedMove.of_plan (PlanMove.of_plan_feed _ _ _) (fun _ _ => rfl)))

/-- What the steps of R55 may change. -/
theorem State.feedSteps_feedMove (n : Nat) (s : State) : FeedMove s (State.feedSteps n s) := by
  induction n generalizing s with
  | zero => exact .refl s
  | succ n ih =>
    unfold State.feedSteps
    dsimp only
    refine (State.activateIfReady_feedMove s).trans ?_
    generalize s.activateIfReady = u
    split
    · split
      · exact (State.advanceCursor_feedMove _ _).trans (ih _)
      · exact State.advanceCursor_feedMove _ _
    · rename_i p hp
      obtain ⟨c1, c2, c3, _⟩ := State.cursorTo_moves u p
      refine FeedMove.trans (.of_plan c1 c2) ?_
      split
      · exact .refl _
      · split
        · exact .refl _
        · rename_i i hi
          split
          · exact .refl _
          · rename_i sl hsl
            rw [c3.bank] at hi
            obtain ⟨sl', e1, e2⟩ := Bank.firstPending_slot _ _ _ _ hp hi
            have : sl' = sl := by
              have := (c2 u.feed.pointer i).symm.trans hsl
              have h : u.slot? u.feed.pointer i = some sl' := e1
              rw [h] at this; exact Option.some.inj this
            subst this
            obtain ⟨s1, s2, s3, s4, s5, s6, t, s7, _⟩ := State.supplyTarget_moves _ _ _ _ hsl
            refine FeedMove.trans (.of_but s1 _ i sl' s2 hsl e2) ?_
            rw [s7]
            dsimp only
            split
            · refine FeedMove.trans (FeedMove.trans (.of_but (State.recordStatus_planMove _ _ _ _) _ i _ (State.recordStatus_other _ _ _ _) s7 e2)
                  (.of_plan (State.moveCursor_planMove _ _ _) fun _ _ => by simp)) (ih _)
            · exact State.feedEntry_feedMove _ _ _ _ _ _ s7 e2

/-- What the entry of R57 makes. -/
theorem State.feedEntry_moves (v : State) (b : BankId) (p i : Nat) (x : Slot) (hx : v.slot? b i = some x)
    (hp : v.feed.pointer = b) :
   (v.feedEntry b p i x).slot? b i = some { x with status := .fed } ∧ v.slotsKeptBut (v.feedEntry b p i x) b i ∧
   (v.feedEntry b p i x).train = { v.train with nextSerial := v.train.nextSerial + 1, entries := v.train.entries ++ [v.newEntry b i x] }
       ∧
   (v.feedEntry b p i x).feed.nextTag = v.feed.nextTag + 1 ∧
   (p + 1 < (v.bank b).slots.length → (v.feedEntry b p i x).feed.pointer = b ∧
       (v.feedEntry b p i x).feed.cursor = p + 1) ∧
   ((v.feedEntry b p i x).bank b).state = (v.bank b).state ∧
   (v.awaitsSpent b.other = false → (v.feedEntry b p i x).plan.order = v.plan.order ∧
       (v.feedEntry b p i x).bank b.other = v.bank b.other) ∧
   (b = .bank0 → (v.feedEntry b p i x).mode.bankSwitch0 = v.mode.bankSwitch0) ∧
   (b = .bank1 → (v.feedEntry b p i x).mode.bankSwitch1 = v.mode.bankSwitch1) := by
  unfold State.feedEntry
  dsimp only
  generalize hw : ({ v with train := _ } : State) = w
  have wsl : w.slot? b i = some x := by subst hw; exact hx
  rw [State.recordStatus_fed w b i _ wsl]
  generalize hz : (w.setSlot b i { x with status := .fed }).evalSupply.raise _ = z
  have zs : z.slot? b i = some { x with status := .fed } := by
    subst hz; rw [State.raise_slot?, State.evalSupply_slot?]; exact w.setSlot_slot?_self _ _ _ (by rw [wsl]; rfl)
  have zk : v.slotsKeptBut z b i := by
    intro c j h; subst hz; rw [State.raise_slot?, State.evalSupply_slot?,
        w.setSlot_slot?_other _ _ _ c j h]; subst hw; rfl
  have zp : z.plan = (w.setSlot b i { x with status := .fed }).plan := by subst hz; simp
  have zf : z.feed.pointer = b ∧ z.feed.nextTag = v.feed.nextTag := by
    subst hz; simp only [State.raise_feed]; rw [State.evalSupply_feed]; subst hw; exact ⟨hp, rfl⟩
  have zm : z.mode = v.mode := by subst hz hw; simp
  have zt :
      z.train = { v.train with nextSerial := v.train.nextSerial + 1, entries := v.train.entries ++ [v.newEntry b i x] } :=
      by subst hz hw; simp
  have zb : (z.bank b).state = (v.bank b).state ∧ (z.bank b).slots.length = (v.bank b).slots.length ∧
      z.plan.order = v.plan.order := by
    rw [State.bank_of_plan _ _ zp, zp]; subst hw; simp [State.setSlot]; exact ⟨rfl, rfl⟩
  have zo : z.bank b.other = v.bank b.other := by
    rw [State.bank_of_plan _ _ zp]; unfold State.setSlot; rw [State.setBank_bank_other _ _ _ _ (BankId.other_ne b)]; subst hw; rfl
  generalize hr : ({ z with feed := { z.feed with nextTag := v.feed.nextTag + 1 } } : State) = r
  have rp : r.plan = z.plan ∧ r.mode = z.mode ∧ r.train = z.train ∧ r.feed.pointer = b ∧
      r.feed.nextTag = v.feed.nextTag + 1 := by subst hr; simp [zf]
  obtain ⟨r1, r2, r3, r4, r5⟩ := rp
  have rs : ∀ c j, r.slot? c j = z.slot? c j := fun c j => State.slotsKept_of_plan r1 c j
  obtain ⟨a1, a3, a4⟩ := State.advanceCursor_of_open r (p + 1) i _ (by rw [r4, rs]; exact zs) rfl
  rw [r4] at a1
  refine ⟨by rw [State.advanceCursor_slot?, rs]; exact zs,
      fun c j h => by rw [State.advanceCursor_slot?, rs]; exact zk c j h, ?_, by rw [a3.1, r5], fun h => ?_, ?_, fun h => ?_, fun h => ?_, fun h => ?_⟩
  · rw [(State.advanceCursor_planMove _ _).train, r3, zt]
  · have := a4 (by rw [r4, State.bank_of_plan _ _ r1, zb.2.1]; exact h)
    rw [r4] at this; exact this
  · rw [a1.bank, State.bank_of_plan _ _ r1, zb.1]
  · have pl := (a1.quiet (by unfold State.awaitsSpent at *; rw [State.bank_of_plan _ _ r1, zo]; exact h)).1
    exact ⟨by rw [pl, r1, zb.2.2], by rw [State.bank_of_plan _ _ pl, State.bank_of_plan _ _ r1, zo]⟩
  · rw [a1.switch0 h, r2, zm]
  · rw [a1.switch1 h, r2, zm]

/-! ## Closing a bank -/

theorem BankId.ofByte_code (b : Byte) (x : BankId) (h : b.toNat = x.code) : BankId.ofByte b = some x := by
  unfold BankId.ofByte
  cases x <;> simp [BankId.code] at h <;> simp [h]

/-- A status recorded in a bank that is not ACTIVE: no bank becomes SPENT. -/
theorem State.recordStatus_inactive (s : State) (b : BankId) (i : Nat) (st : SlotStatus) (sl : Slot)
    (h : s.slot? b i = some sl) (hn : (s.bank b).state ≠ .active) :
    s.recordStatus b i st = (s.setSlot b i { sl with status := st }).evalSupply := by
  unfold State.recordStatus
  rw [h]
  dsimp only
  unfold State.spendIfDue
  rw [if_neg]
  unfold State.spentDue
  rw [State.bank_of_plan _ _ (State.evalSupply_plan _)]
  simp [State.setSlot, hn]

/-- What the steps of a close may change (R11). -/
structure CloseMove (b : BankId) (s t : State) : Prop where
  plan : PlanMove s t
  mode : t.mode = s.mode
  other : t.bank b.other = s.bank b.other
  order : t.plan.order = s.plan.order
  ptr : t.feed.pointer = s.feed.pointer
  cur : t.feed.cursor = s.feed.cursor
  setup : (t.bank b).setup = (s.bank b).setup
  state : (t.bank b).state = (s.bank b).state
  len : (t.bank b).slots.length = (s.bank b).slots.length

theorem CloseMove.refl (b) (s : State) : CloseMove b s s := ⟨.refl s, rfl, rfl, rfl, rfl, rfl, rfl, rfl, rfl⟩

theorem CloseMove.trans {b} {s t u : State} (h : CloseMove b s t) (k : CloseMove b t u) : CloseMove b s u :=
  ⟨h.plan.trans k.plan, k.mode.trans h.mode, k.other.trans h.other, k.order.trans h.order, k.ptr.trans h.ptr,
      k.cur.trans h.cur, k.setup.trans h.setup, k.state.trans h.state, k.len.trans h.len⟩

theorem State.recordStatus_closeMove (s : State) (b : BankId) (i : Nat) (st : SlotStatus) (sl : Slot)
    (h : s.slot? b i = some sl) (hn : (s.bank b).state ≠ .active) :
    CloseMove b s (s.recordStatus b i st) := by
  have p := s.recordStatus_planMove b i st
  rw [State.recordStatus_inactive s b i st sl h hn] at p ⊢
  have hb : ∀ c,
      (s.setSlot b i { sl with status := st }).evalSupply.bank c = (s.setSlot b i { sl with status := st }).bank c :=
      State.bank_of_plan _ _ (State.evalSupply_plan _)
  refine ⟨p, by simp, ?_, by simp [State.setSlot], by rw [State.evalSupply_feed]; rfl,
      by rw [State.evalSupply_feed]; rfl, ?_, ?_, ?_⟩
  · rw [hb]; exact State.setBank_bank_other _ _ _ _ (BankId.other_ne b)
  all_goals rw [hb]; simp [State.setSlot]

/-- Step 2 of R11 over the slots of the bank. -/
theorem State.refuseAtClose_fold (b : BankId) (l : List Nat) (hl : l.Nodup) (s : State)
    (hn : (s.bank b).state ≠ .active) : 
   CloseMove b s (l.foldl (State.refuseAtClose b) s) ∧
       (∀ i, i ∉ l → (l.foldl (State.refuseAtClose b) s).slot? b i = s.slot? b i) ∧
   (∀ i ∈ l, ∀ sl, s.slot? b i = some sl →
       (l.foldl (State.refuseAtClose b) s).slot? b i = some (if s.zoneFails sl then { sl with status := .refused .zone } else sl))
       := by
  induction l generalizing s with
  | nil => exact ⟨.refl b s, fun _ _ => rfl, fun _ h => by cases h⟩
  | cons a l ih =>
    obtain ⟨n1, n2⟩ := List.nodup_cons.mp hl
    have st : CloseMove b s (State.refuseAtClose b s a) ∧ s.slotsKeptBut (State.refuseAtClose b s a) b a ∧ ∀ sl,
        s.slot? b a = some sl →
        (State.refuseAtClose b s a).slot? b a = some (if s.zoneFails sl then { sl with status := .refused .zone } else sl)
        := by
      unfold State.refuseAtClose
      cases e : s.slot? b a with
      | none => exact ⟨.refl b s, fun _ _ _ => rfl, fun _ h => by cases h⟩
      | some sl =>
        dsimp only
        by_cases hz : s.zoneFails sl = true
        · rw [if_pos hz]
          refine ⟨State.recordStatus_closeMove s b a _ sl e hn, s.recordStatus_other b a _, fun sl' h => ?_⟩
          cases h; rw [if_pos hz]; exact s.recordStatus_self b a _ sl e
        · rw [if_neg hz]
          refine ⟨.refl b s, fun _ _ _ => rfl, fun sl' h => ?_⟩
          cases h; rw [if_neg hz]; exact e
    obtain ⟨s1, s2, s3⟩ := st
    obtain ⟨q1, q2, q3⟩ := ih n2 (State.refuseAtClose b s a) (by rw [s1.state]; exact hn)
    refine ⟨s1.trans q1, fun i hi => ?_, fun i hi sl hs => ?_⟩
    · rw [List.foldl_cons, q2 i (fun h => hi (by simp [h]))]
      exact s2 b i (.inr fun h => hi (by simp [h]))
    · by_cases ha : i = a
      · subst ha
        rw [List.foldl_cons, q2 i n1]; exact s3 sl hs
      · have : i ∈ l := by simpa [ha] using hi
        have zf : ∀ x, State.zoneFails (State.refuseAtClose b s a) x = s.zoneFails x :=
            fun x => by unfold State.zoneFails; rw [s1.plan.zone]
        rw [List.foldl_cons, q3 i this sl ((s2 b i (.inr ha)).trans hs), zf]

/-- A bank in course order passes check 4 (R10). -/
theorem courseOrderFault_none (k : Nat) (l : List Slot)
    (h : ∀ j x y, l[j]? = some x → l[j+1]? = some y → x.course ≤ y.course) : courseOrderFault k l = none := by
  induction l generalizing k with
  | nil => rfl
  | cons a l ih =>
    cases l with
    | nil => rfl
    | cons b l =>
      unfold courseOrderFault
      have := h 0 a b rfl rfl
      rw [if_neg (by omega)]
      exact ih _ fun j x y h1 h2 => h (j + 1) x y h1 h2

/-- The first slot out of course order (R10). -/
theorem courseOrderFault_some (k i : Nat) (l : List Slot) (x y : Slot) (hx : l[i]? = some x) (hy : l[i+1]? = some y)
    (hc : y.course < x.course) (h : ∀ j, j < i → ∀ x y, l[j]? = some x → l[j+1]? = some y → x.course ≤ y.course) :
    courseOrderFault k l = some (k + i + 1) := by
  induction l generalizing k i with
  | nil => simp at hx
  | cons a l ih =>
    cases l with
    | nil => simp at hy
    | cons b l =>
      unfold courseOrderFault
      cases i with
      | zero => simp at hx hy; subst hx hy; rw [if_pos hc]
      | succ i =>
        have := h 0 (by omega) a b rfl rfl
        rw [if_neg (by omega), ih (k + 1) i hx hy fun j hj x y h1 h2 => h (j + 1) (by omega) x y h1 h2]
        congr 1; omega

/-- The first pair that fails check 5 (R10). -/
theorem footprintFault_some (w k i : Nat) (l : List Slot) (x y : Slot) (f : PairFault) (hx : l[i]? = some x)
    (hy : l[i+1]? = some y) (hc : pairFault w x y = some f)
    (h : ∀ j, j < i → ∀ x y, l[j]? = some x → l[j+1]? = some y → pairFault w x y = none) :
    footprintFault w k l = some (k + i + 1, f) := by
  induction l generalizing k i with
  | nil => simp at hx
  | cons a l ih =>
    cases l with
    | nil => simp at hy
    | cons b l =>
      unfold footprintFault
      cases i with
      | zero => simp at hx hy; subst hx hy; rw [hc]
      | succ i =>
        have := h 0 (by omega) a b rfl rfl
        rw [this]; dsimp only
        rw [ih (k + 1) i hx hy fun j hj x y h1 h2 => h (j + 1) (by omega) x y h1 h2]
        congr 2; omega

/-! ## Flushes -/

/-- What a flush may change: slot records, pointer and cursor; every bank's state and the active order list stay (R36). -/
structure FlushMove (s t : State) : Prop where
  plan : PlanMove s t
  mode : t.mode = s.mode
  setup : ∀ c, (t.bank c).setup = (s.bank c).setup
  len : ∀ c, (t.bank c).slots.length = (s.bank c).slots.length
  state : ∀ c, (t.bank c).state = (s.bank c).state
  refused : ∀ c, (t.bank c).refusedAtClose = (s.bank c).refusedAtClose
  order : t.plan.order = s.plan.order

theorem FlushMove.refl (s : State) : FlushMove s s :=
    ⟨.refl s, rfl, fun _ => rfl, fun _ => rfl, fun _ => rfl, fun _ => rfl, rfl⟩

theorem FlushMove.trans {s t u : State} (h : FlushMove s t) (k : FlushMove t u) : FlushMove s u :=
  ⟨h.plan.trans k.plan, k.mode.trans h.mode, fun c => (k.setup c).trans (h.setup c), fun c => (k.len c).trans (h.len c),
    fun c => (k.state c).trans (h.state c), fun c => (k.refused c).trans (h.refused c), k.order.trans h.order⟩

theorem FlushMove.of_plan {s t : State} (m : PlanMove s t) (h : t.plan = s.plan) (hm : t.mode = s.mode) : FlushMove s t :=
  ⟨m, hm, fun c => by rw [State.bank_of_plan _ _ h], fun c => by rw [State.bank_of_plan _ _ h],
      fun c => by rw [State.bank_of_plan _ _ h], fun c => by rw [State.bank_of_plan _ _ h], by rw [h]⟩

theorem State.setSlot_flushMove (s : State) (b i x) : FlushMove s (s.setSlot b i x) := by
  have : ∀ c, ((s.setSlot b i x).bank c).setup = (s.bank c).setup ∧
      ((s.setSlot b i x).bank c).slots.length = (s.bank c).slots.length ∧
      ((s.setSlot b i x).bank c).state = (s.bank c).state ∧
      ((s.setSlot b i x).bank c).refusedAtClose = (s.bank c).refusedAtClose := by
    intro c
    unfold State.setSlot
    by_cases h : c = b
    · subst h; simp
    · rw [State.setBank_bank_other _ _ _ _ h]; simp
  exact ⟨s.setSlot_planMove b i x, by simp [State.setSlot], fun c => (this c).1, fun c => (this c).2.1, fun c => (this c).2.2.1,
    fun c => (this c).2.2.2, by simp [State.setSlot]⟩

theorem State.evalSupply_flushMove (s : State) : FlushMove s s.evalSupply :=
    .of_plan s.evalSupply_planMove (State.evalSupply_plan s) (State.evalSupply_mode s)

/-- PENDING recorded: the bank does not become SPENT (R14, R15). -/
theorem State.recordStatus_pending (s : State) (b : BankId) (i : Nat) (sl : Slot) (h : s.slot? b i = some sl) :
    s.recordStatus b i .pending = (s.setSlot b i { sl with status := .pending }).evalSupply := by
  unfold State.recordStatus
  rw [h]
  dsimp only
  unfold State.spendIfDue
  rw [State.spentDue_of_open _ b i { sl with status := .pending } (by rw [State.evalSupply_slot?]; exact s.setSlot_slot?_self b i _ (by rw [h]; rfl)) rfl]
  rfl

theorem State.cursorReturnInFlush_flushMove (s : State) (b i) : FlushMove s (s.cursorReturnInFlush b i) := by
  unfold State.cursorReturnInFlush; split
  · exact .of_plan (s.placeCursor_planMove _ _) (State.placeCursor_plan _ _ _) (State.placeCursor_mode _ _ _)
  · exact .refl s

/-- The flush of one slot (R36): the slot flushed, every other slot kept, the two counts. -/
theorem FlushResult.slot_moves (b : BankId) (f : FlushResult) (i : Nat) : FlushMove f.state (f.slot b i).state ∧
    f.state.slotsKeptBut (f.slot b i).state b i ∧
   (∀ sl, f.state.slot? b i = some sl → (f.slot b i).state.slot? b i = some sl.flushed) ∧
   (f.slot b i).removed = f.removed + (if (f.state.slot? b i).any Slot.flushRemoves then 1 else 0) ∧
   (f.slot b i).returned = f.returned + (if (f.state.slot? b i).any Slot.flushReturns then 1 else 0) := by
  unfold FlushResult.slot
  cases e : f.state.slot? b i with
  | none => exact ⟨.refl _, fun _ _ _ => rfl, fun _ h => (by cases h), rfl, rfl⟩
  | some sl =>
    dsimp only
    have same : sl.flushed = sl → sl.flushRemoves = false → sl.flushReturns = false →
        FlushMove f.state f.state ∧ f.state.slotsKeptBut f.state b i ∧
        (∀ sl', some sl = some sl' → f.state.slot? b i = some sl'.flushed) ∧
        f.removed = f.removed + (if (some sl).any Slot.flushRemoves then 1 else 0) ∧
        f.returned = f.returned + (if (some sl).any Slot.flushReturns then 1 else 0) :=
      fun h k l => ⟨.refl _, fun _ _ _ => rfl, fun sl' h' => (by cases h'; rw [h]; exact e), by simp [k], by simp [l]⟩
    cases hst : sl.status with
    | pending =>
      dsimp only
      have hr : sl.flushReturns = false := by unfold Slot.flushReturns; rw [hst]; rfl
      have hm : sl.flushRemoves = sl.target.isSome := by unfold Slot.flushRemoves; rw [hst]
      by_cases ht : sl.target.isSome = true
      · rw [if_pos ht]
        refine ⟨State.setSlot_flushMove _ _ _ _, State.setSlot_slot?_other _ _ _ _, fun sl' h => ?_, by simp [hm, ht],
          by simp [hr]⟩
        cases h
        dsimp only
        rw [State.setSlot_slot?_self _ _ _ _ (by rw [e]; rfl)]
        unfold Slot.flushed; rw [hst]
      · rw [if_neg ht]
        refine same ?_ (by rw [hm]; simpa using ht) hr
        unfold Slot.flushed; rw [hst]
        simp at ht
        dsimp only
        rw [← hst, ← ht]
    | refused r =>
      cases r with
      | zone =>
        dsimp only
        have h1 := State.setSlot_slot?_self f.state b i { sl with target := none } (by rw [e]; rfl)
        simp only [hst] at h1
        rw [State.recordStatus_pending _ b i _ h1]
        refine ⟨(((State.setSlot_flushMove _ _ _ _).trans (State.setSlot_flushMove _ _ _ _)).trans
            (State.evalSupply_flushMove _)).trans (State.cursorReturnInFlush_flushMove _ _ _),
            fun c j h => ?_, fun sl' h => ?_, by simp [Slot.flushRemoves, hst], by simp [Slot.flushReturns, hst]⟩
        · rw [State.cursorReturnInFlush_slot?, State.evalSupply_slot?, State.setSlot_slot?_other _ _ _ _ c j h,
            State.setSlot_slot?_other _ _ _ _ c j h]
        · cases h
          rw [State.cursorReturnInFlush_slot?, State.evalSupply_slot?, State.setSlot_slot?_self _ _ _ _ (by rw [h1]; rfl)]
          unfold Slot.flushed; rw [hst]
      | repeated =>
        exact same (by unfold Slot.flushed; rw [hst]) (by unfold Slot.flushRemoves; rw [hst])
          (by unfold Slot.flushReturns; rw [hst]; rfl)
    | fed =>
      exact same (by unfold Slot.flushed; rw [hst]) (by unfold Slot.flushRemoves; rw [hst])
        (by unfold Slot.flushReturns; rw [hst]; rfl)
    | laid o =>
      exact same (by unfold Slot.flushed; rw [hst]) (by unfold Slot.flushRemoves; rw [hst])
        (by unfold Slot.flushReturns; rw [hst]; rfl)
    | skipped =>
      exact same (by unfold Slot.flushed; rw [hst]) (by unfold Slot.flushRemoves; rw [hst])
        (by unfold Slot.flushReturns; rw [hst]; rfl)

theorem FlushResult.slot_fold (b : BankId) (l : List Nat) (hl : l.Nodup) (f : FlushResult) :
    FlushMove f.state (l.foldl (FlushResult.slot b) f).state ∧
   (∀ c j, (c ≠ b ∨ j ∉ l) → (l.foldl (FlushResult.slot b) f).state.slot? c j = f.state.slot? c j) ∧
   (∀ i ∈ l, ∀ sl, f.state.slot? b i = some sl → (l.foldl (FlushResult.slot b) f).state.slot? b i = some sl.flushed) ∧
   (l.foldl (FlushResult.slot b) f).removed = f.removed + l.countP (fun i => (f.state.slot? b i).any Slot.flushRemoves) ∧
   (l.foldl (FlushResult.slot b) f).returned = f.returned + l.countP (fun i => (f.state.slot? b i).any Slot.flushReturns)
       := by
  induction l generalizing f with
  | nil => exact ⟨.refl _, fun _ _ _ => rfl, fun _ h => (by cases h), rfl, rfl⟩
  | cons a l ih =>
    obtain ⟨n1, n2⟩ := List.nodup_cons.mp hl
    obtain ⟨s1, s2, s3, s4, s5⟩ := FlushResult.slot_moves b f a
    obtain ⟨q1, q2, q3, q4, q5⟩ := ih n2 (f.slot b a)
    have same : ∀ p : Slot → Bool, l.countP (fun i => ((f.slot b a).state.slot? b i).any p) =
        l.countP (fun i => (f.state.slot? b i).any p) := fun p =>
      List.countP_congr fun i hi => by rw [s2 b i (.inr fun e => n1 (e ▸ hi))]
    refine ⟨s1.trans q1, fun c j h => ?_, fun i hi sl hs => ?_, ?_, ?_⟩
    · rw [List.foldl_cons, q2 c j (h.imp id fun k m => k (by simp [m]))]
      exact s2 c j (h.imp id fun k m => k (by simp [m]))
    · by_cases ha : i = a
      · subst ha; rw [List.foldl_cons, q2 _ _ (.inr n1)]; exact s3 sl hs
      · exact q3 i (by simpa [ha] using hi) sl ((s2 b i (.inr ha)).trans hs)
    · rw [List.foldl_cons, q4, s4, same, List.countP_cons]; omega
    · rw [List.foldl_cons, q5, s5, same, List.countP_cons]; omega

/-- Counting slots by load index. -/
theorem State.countP_range (s : State) (b : BankId) (p : Slot → Bool) :
    (List.range (s.bank b).slots.length).countP (fun i => (s.slot? b i).any p) = (s.bank b).slots.countP p := by
  unfold State.slot?
  generalize (s.bank b).slots = l
  induction l using List.reverseRecOn with
  | nil => rfl
  | append_singleton l a ih =>
    rw [List.length_append, List.length_singleton, List.range_succ, List.countP_append, List.countP_append, ← ih]
    congr 1
    · refine List.countP_congr fun i hi => ?_
      rw [List.getElem?_append_left (List.mem_range.mp hi)]
    · simp [List.countP_cons]

/-- The flush of one bank (R36). -/
theorem FlushResult.bank_moves (b : BankId) (f : FlushResult) : FlushMove f.state (f.bank b).state ∧
    (∀ c, c ≠ b → ∀ j, (f.bank b).state.slot? c j = f.state.slot? c j) ∧
    (∀ i sl, f.state.slot? b i = some sl → (f.bank b).state.slot? b i = some sl.flushed) ∧
    (f.bank b).removed = f.removed + (f.state.bank b).slots.countP Slot.flushRemoves ∧
    (f.bank b).returned = f.returned + (f.state.bank b).slots.countP Slot.flushReturns := by
  obtain ⟨q1, q2, q3, q4, q5⟩ := FlushResult.slot_fold b (List.range (f.state.bank b).slots.length) List.nodup_range f
  refine ⟨q1, fun c hc j => q2 c j (.inl hc), fun i sl hs => q3 i ?_ sl hs, ?_, ?_⟩
  · unfold State.slot? at hs
    exact List.mem_range.mpr (List.getElem?_eq_some_iff.mp hs).1
  · rw [← State.countP_range]; exact q4
  · rw [← State.countP_range]; exact q5

/-- The slots of a bank, read one by one, are the slots of that bank. -/
theorem State.slots_of_slot? (s t : State) (b : BankId) (h : ∀ j, t.slot? b j = s.slot? b j) :
    (t.bank b).slots = (s.bank b).slots := List.ext_getElem? h

/-- A flush (R36, R37) leaves every bank's state and the active order list as they were (FlushMove); the slots of the banks that
meet the condition are flushed, and the two counts are those of R37. -/
theorem State.flush_moves (s : State) (p : BankId → Bool) :
   FlushMove s (s.flush p).state ∧ (∀ b i sl, s.slot? b i = some sl →
       (s.flush p).state.slot? b i = some (if p b then sl.flushed else sl)) ∧
   (s.flush p).removed = s.countIn .bank0 (p .bank0) Slot.flushRemoves + s.countIn .bank1 (p .bank1) Slot.flushRemoves ∧
   (s.flush p).returned = s.countIn .bank0 (p .bank0) Slot.flushReturns + s.countIn .bank1 (p .bank1) Slot.flushReturns := by
  have e : s.flush p = FlushResult.bankIf p (FlushResult.bankIf p ⟨s, 0, 0⟩ .bank0) .bank1 := rfl
  rw [e]
  have one : ∀ (f : FlushResult) (b : BankId), FlushMove f.state (FlushResult.bankIf p f b).state ∧
      (∀ c, c ≠ b → ∀ j, (FlushResult.bankIf p f b).state.slot? c j = f.state.slot? c j) ∧
    (∀ i sl, f.state.slot? b i = some sl →
        (FlushResult.bankIf p f b).state.slot? b i = some (if p b then sl.flushed else sl)) ∧
    (FlushResult.bankIf p f b).removed = f.removed + f.state.countIn b (p b) Slot.flushRemoves ∧
    (FlushResult.bankIf p f b).returned = f.returned + f.state.countIn b (p b) Slot.flushReturns := by
    intro f b
    unfold FlushResult.bankIf State.countIn
    by_cases h : p b = true
    · simp only [h, if_true]; exact FlushResult.bank_moves b f
    · simp only [h]; exact ⟨.refl _, fun _ _ _ => rfl, fun _ _ h => h, rfl, rfl⟩
  obtain ⟨a1, a2, a3, a4, a5⟩ := one ⟨s, 0, 0⟩ .bank0
  obtain ⟨b1, b2, b3, b4, b5⟩ := one (FlushResult.bankIf p ⟨s, 0, 0⟩ .bank0) .bank1
  have same : ∀ q, (FlushResult.bankIf p ⟨s, 0, 0⟩ .bank0).state.countIn .bank1 (p .bank1) q =
      s.countIn .bank1 (p .bank1) q := by
    intro q; unfold State.countIn
    rw [State.slots_of_slot? s _ .bank1 (a2 .bank1 (by decide))]
  refine ⟨a1.trans b1, fun b i sl hs => ?_, ?_, ?_⟩
  · cases b with
    | bank0 => rw [b2 .bank0 (by decide)]; exact a3 i sl hs
    | bank1 => rw [b3 i sl ((a2 .bank1 (by decide) i).trans hs)]
  · rw [b4, a4, same]; simp
  · rw [b5, a5, same]; simp

end Sys2Proof.Machine
end

