-- ==== Sys2Proof/Laws/Withdraw.lean ====
section
/-! SUPPORT. Withdrawals of live bricks: what each leaves of the brick's own record, that it leaves every other brick's, and
the same of a run of them. -/

namespace Sys2Proof.Machine

/-- The record of a brick is held in the second state as in the first, with the time and the pick cradle that its withdrawal
reads. -/
def State.heldAs (s t : State) (x : Brick × BrickPlace) : Prop :=
  t.clock = s.clock ∧ t.place.pickCradle = s.place.pickCradle ∧
  match x.2 with
  | .gripper => t.place = s.place ∧ t.comp = s.comp
  | .cradle c => t.cradle c = s.cradle c
  | .train => t.train.entries.filter (fun e => e.brick.serial = x.1.serial) =
      s.train.entries.filter (fun e => e.brick.serial = x.1.serial)

theorem State.heldAs_refl (s : State) (x : Brick × BrickPlace) : s.heldAs s x := by
  obtain ⟨b, p⟩ := x
  cases p <;> exact ⟨rfl, rfl, by first | exact ⟨rfl, rfl⟩ | rfl⟩

theorem State.heldAs.trans {s t u : State} {x : Brick × BrickPlace} (h : s.heldAs t x) (k : t.heldAs u x) : s.heldAs u x := by
  obtain ⟨b, p⟩ := x
  refine ⟨k.1.trans h.1, k.2.1.trans h.2.1, ?_⟩
  have h' := h.2.2
  have k' := k.2.2
  cases p with
  | gripper => exact ⟨k'.1.trans h'.1, k'.2.trans h'.2⟩
  | cradle c => exact k'.trans h'
  | train => exact k'.trans h'

/-- Operations of the plan and the feed leave every brick's record. -/
theorem PlanMove.heldAs {s t : State} (h : PlanMove s t) (x : Brick × BrickPlace) : s.heldAs t x := by
  obtain ⟨b, p⟩ := x
  refine ⟨h.clock, by rw [h.place], ?_⟩
  cases p with
  | gripper => exact ⟨h.place, h.comp⟩
  | cradle c => show t.cradle c = s.cradle c; unfold State.cradle; rw [h.cradles]
  | train => show t.train.entries.filter _ = _; rw [h.train]

theorem State.raiseRejected_heldAs (s : State) (b : Brick) (r : RejectReason) (x : Brick × BrickPlace) :
    s.heldAs (s.raiseRejected b r) x := by
  obtain ⟨y, p⟩ := x
  refine ⟨by simp, by simp, ?_⟩
  cases p with
  | gripper => exact ⟨by simp, by simp⟩
  | cradle c => show (s.raiseRejected b r).cradle c = s.cradle c; unfold State.cradle; simp
  | train => show (s.raiseRejected b r).train.entries.filter _ = _; simp

/-- Two bricks with records of their own: other places, or two train entries with serial numbers of their own. -/
def separate (x y : Brick × BrickPlace) : Prop :=
  x.2 ≠ y.2 ∨ (x.2 = .train ∧ x.1.serial ≠ y.1.serial)

theorem separate.symm {x y : Brick × BrickPlace} (h : separate x y) : separate y x := by
  by_cases hp : x.2 = y.2
  · rcases h with h | ⟨h1, h2⟩
    · exact absurd hp h
    · exact .inr ⟨hp ▸ h1, fun e => h2 e.symm⟩
  · exact .inl fun e => hp e.symm

theorem State.setCradle_heldAs (s : State) (c : CradleId) (z : Cradle) (x : Brick × BrickPlace) (h : x.2 ≠ .cradle c) :
    s.heldAs (s.setCradle c z) x := by
  obtain ⟨b, p⟩ := x
  refine ⟨by simp, by simp, ?_⟩
  cases p with
  | gripper => exact ⟨by simp, by simp⟩
  | cradle d => exact State.setCradle_other _ _ _ _ fun e => h (by rw [e])
  | train => show (s.setCradle c z).train.entries.filter _ = _; simp

theorem State.setEntries_heldAs (s : State) (es : List TrainEntry) (x : Brick × BrickPlace)
    (h : x.2 = .train → es.filter (fun e => e.brick.serial = x.1.serial) =
      s.train.entries.filter (fun e => e.brick.serial = x.1.serial)) : s.heldAs (s.setEntries es) x := by
  obtain ⟨b, p⟩ := x
  refine ⟨rfl, rfl, ?_⟩
  cases p with
  | gripper => exact ⟨rfl, rfl⟩
  | cradle c => rfl
  | train => exact h rfl

/-- A reject in the train leaves the record of every other brick (R79). -/
theorem State.rejectInTrain_heldAs (s : State) (x : Brick × BrickPlace) (b : Brick) (r : RejectReason)
    (h : separate x (b, .train)) : s.heldAs (s.rejectInTrain b r) x := by
  have ne : x.2 = .train → x.1.serial ≠ b.serial := by
    intro hp
    rcases h with h | ⟨_, h⟩
    · exact absurd hp h
    · exact h
  have step : ∀ es : List TrainEntry, s.heldAs (s.setEntries es) x →
      s.heldAs (((s.setEntries es).raiseRejected b r).reportReject b r) x := fun es k =>
    (k.trans (State.raiseRejected_heldAs _ b r x)).trans ((State.reportReject_planMove _ b r).heldAs x)
  unfold State.rejectInTrain
  split
  · split
    · exact s.heldAs_refl x
    · split
      · refine step _ (s.setEntries_heldAs _ x fun hp => ?_)
        rw [List.filter_filter]
        refine List.filter_congr fun e _ => ?_
        by_cases k : e.brick.serial = x.1.serial
        · have := ne hp; simp [k, this]
        · simp [k]
      · refine step _ (s.setEntries_heldAs _ x fun hp => ?_)
        have n := ne hp
        generalize s.train.entries = l
        induction l with
        | nil => rfl
        | cons a l ih =>
          rw [List.map_cons, List.filter_cons, List.filter_cons, ih]
          by_cases k : a.brick.serial = b.serial
          · have : a.brick.serial ≠ x.1.serial := fun e => n (e.symm.trans k)
            simp [k, Ne.symm n]
          · simp [k]
  · exact s.heldAs_refl x

/-- A reject in a cradle leaves the record of every other brick (R84). -/
theorem State.rejectInCradle_heldAs (s : State) (x : Brick × BrickPlace) (c : CradleId) (r : RejectReason)
    (h : x.2 ≠ .cradle c) : s.heldAs (s.rejectInCradle c r) x := by
  have step : ∀ (z : Cradle) (b : Brick), s.heldAs (((s.setCradle c z).raiseRejected b r).reportReject b r) x := fun z b =>
    ((s.setCradle_heldAs c z x h).trans (State.raiseRejected_heldAs _ b r x)).trans
      ((State.reportReject_planMove _ b r).heldAs x)
  unfold State.rejectInCradle
  split
  · exact s.heldAs_refl x
  · exact s.heldAs_refl x
  · split
    · exact step _ _
    · exact s.heldAs_refl x
  · split
    · exact step _ _
    · exact s.heldAs_refl x
  · split
    · exact s.heldAs_refl x
    · split
      · exact (s.setCradle_heldAs c _ x h).trans ((State.reportReject_planMove _ _ r).heldAs x)
      · exact step _ _

/-- A reject in the gripper leaves the record of every brick elsewhere (R142). -/
theorem State.rejectInGripper_heldAs (s : State) (x : Brick × BrickPlace) (r : RejectReason) (hr : r.brickSpecific = false)
    (h : x.2 ≠ .gripper) : s.heldAs (s.rejectInGripper r) x := by
  unfold State.rejectInGripper
  split
  · rename_i g hg
    split
    · rw [State.enterAbandoning_eq, hr]
      refine State.heldAs.trans (t := s.abandoningState g r) ?_ ((State.reportReject_planMove _ _ _).heldAs x)
      obtain ⟨b, p⟩ := x
      cases p with
      | gripper => exact absurd rfl h
      | cradle c => exact ⟨rfl, rfl, rfl⟩
      | train => exact ⟨rfl, rfl, rfl⟩
    · exact s.heldAs_refl x
  · exact s.heldAs_refl x

/-- A withdrawal leaves the record of every other brick. -/
theorem State.withdraw_heldAs (s : State) (x y : Brick × BrickPlace) (r : RejectReason) (hr : r.brickSpecific = false)
    (h : separate x y) : s.heldAs (s.withdraw y r) x := by
  have ne : y.2 ≠ .train → x.2 ≠ y.2 := by
    intro hp
    rcases h with h | ⟨h1, _⟩
    · exact h
    · rw [h1]; exact hp.symm
  obtain ⟨yb, yp⟩ := y
  unfold State.withdraw
  cases yp with
  | gripper => exact s.rejectInGripper_heldAs x r hr (ne (by simp))
  | cradle c => exact s.rejectInCradle_heldAs x c r (ne (by simp))
  | train => exact s.rejectInTrain_heldAs x yb r h

/-- The record of a brick stays what its withdrawal left. -/
theorem State.withdrawn_of_heldAs {s t u : State} {x : Brick × BrickPlace} {r : RejectReason} (h : s.withdrawn t x r)
    (k : t.heldAs u x) : s.withdrawn u x r := by
  obtain ⟨b, p⟩ := x
  have k' := k.2.2
  cases p with
  | gripper => intro g hg; rw [k'.1, k'.2]; exact h g hg
  | cradle c =>
    have k' : u.cradle c = t.cradle c := k'
    show _ ∧ _
    rw [k']; exact h
  | train =>
    have k' : u.train.entries.filter (fun e => decide (e.brick.serial = b.serial)) =
      t.train.entries.filter (fun e => decide (e.brick.serial = b.serial)) := k'
    intro e he hb
    refine ⟨fun hs y hy hn => ?_, fun hs => ?_⟩
    · have : y ∈ t.train.entries.filter (fun e => decide (e.brick.serial = b.serial)) := by
        rw [← k']; exact List.mem_filter.mpr ⟨hy, by simpa using hn⟩
      exact (h e he hb).1 hs y (List.mem_filter.mp this).1 hn
    · have hb : e.brick = b := hb
      have : ({ e with brick := { e.brick with mark := some r } } : TrainEntry) ∈
          t.train.entries.filter (fun e => decide (e.brick.serial = b.serial)) :=
        List.mem_filter.mpr ⟨(h e he hb).2 hs, by simp [hb]⟩
      rw [← k'] at this
      exact (List.mem_filter.mp this).1

/-- With serial numbers of their own, a train entry is found by its brick. -/
theorem find_brick (l : List TrainEntry) (b : Brick) (e : TrainEntry)
    (hn : (l.map fun e => e.brick.serial).Nodup) (he : e ∈ l) (hb : e.brick = b) :
    l.find? (fun e => decide (e.brick = b)) = some e := by
  induction l with
  | nil => cases he
  | cons a l ih =>
    rw [List.map_cons, List.nodup_cons] at hn
    rcases List.mem_cons.mp he with rfl | he
    · simp [hb]
    · have : a.brick ≠ b := by
        rintro h
        exact hn.1 (List.mem_map.mpr ⟨e, he, by rw [hb, h]⟩)
      rw [List.find?_cons_of_neg (by simpa using this)]
      exact ih hn.2 he

/-- What the withdrawal of a live brick leaves of its record (R79, R84, R142), where the record stands as in the first state. -/
theorem State.withdraw_withdrawn (s u : State) (x : Brick × BrickPlace) (r : RejectReason) (hr : r.brickSpecific = false)
    (ha : s.bricksApart) (hu : u.bricksApart) (hx : x ∈ s.liveBricks) (hw : s.withdrawable x = true) (k : s.heldAs u x) :
    s.withdrawn (u.withdraw x r) x r := by
  obtain ⟨b, p⟩ := x
  obtain ⟨hm, hl⟩ := List.mem_filter.mp hx
  obtain ⟨kc, kp, k'⟩ := k
  unfold State.withdraw
  rcases (s.mem_bricks b p).mp hm with ⟨rfl, g, hg, hgb⟩ | ⟨c, cb, rfl, hc, hcb, hb⟩ | ⟨rfl, e, he, hb⟩
  · intro g' hg'
    rw [hg] at hg'; cases hg'
    obtain ⟨k1, k2⟩ := k'
    dsimp only
    have hw : s.place.state.holdsBrick = true := hw
    unfold State.rejectInGripper
    rw [k1, hg]
    dsimp only
    rw [if_pos hw, State.enterAbandoning_eq, hr]
    have m := State.reportReject_planMove (u.abandoningState g r) g.brick r
    refine ⟨?_, ?_⟩
    · rw [if_neg (by simp), m.place]
      unfold State.abandoningState
      rw [k1, kc]
      rfl
    · rw [if_neg (by simp), m.comp]
      show ({ u.comp with setpoints := ⟨0, 0, 0, 0⟩ } : CompensationUnit) = _
      rw [k2]
  · have k' : u.cradle c = s.cradle c := k'
    have hlive : cb.brick.live = true := by rw [hb]; exact hl
    have hmark : cb.brick.mark = none := by simpa [Brick.live] using hlive
    have hmk : cb.marked r = cb.withMark r := by unfold CradleBrick.marked CradleBrick.withMark; rw [hmark]; rfl
    have keep : ∀ v : State, (v.raiseRejected cb.brick r).cradle c = v.cradle c := fun v => by
      unfold State.cradle; simp
    have rep : ∀ v : State, (v.reportReject cb.brick r).cradle c = v.cradle c := fun v => by
      unfold State.cradle; rw [(State.reportReject_planMove v cb.brick r).cradles]
    have tipped : (((u.tip c cb r).raiseRejected cb.brick r).reportReject cb.brick r).cradle c =
        .tipping (cb.withMark r) (s.clock.now + 40000) := by
      rw [rep, keep, State.tip, State.setCradle_self, hmk, kc]; rfl
    dsimp only
    show _ ∧ _ ∧ _ ∧ _
    unfold State.rejectInCradle
    rw [k', kp]
    cases e : s.cradle c with
    | empty => rw [e] at hcb; cases hcb
    | tipping y d =>
      rw [e] at hcb; cases hcb
      exact absurd hmark (ha.2.2 c _ _ e)
    | held y =>
      rw [e] at hcb; cases hcb
      dsimp only
      rw [if_pos hlive]
      exact ⟨fun y h => by cases h; exact tipped, fun y h => (by cases h), fun y d h => (by cases h), fun y d h => (by cases h)⟩
    | gluing y =>
      rw [e] at hcb; cases hcb
      dsimp only
      rw [if_pos hlive]
      refine ⟨fun y h => (by cases h), fun y h => ?_, fun y d h => (by cases h), fun y d h => (by cases h)⟩
      cases h; rw [rep, keep, State.setCradle_self, hmk]
    | ready y d =>
      rw [e] at hcb; cases hcb
      dsimp only
      rw [hlive]
      refine ⟨fun y h => (by cases h), fun y h => (by cases h), fun y d h hp => ?_, fun y d h hp => ?_⟩
      · cases h; simp only [Bool.not_true, Bool.false_eq_true, if_false, if_neg hp]; exact tipped
      · cases h; simp only [Bool.not_true, Bool.false_eq_true, if_false, if_pos hp]
        rw [rep, State.setCradle_self, hmk]
  · have k' : u.train.entries.filter (fun e => decide (e.brick.serial = b.serial)) =
      s.train.entries.filter (fun e => decide (e.brick.serial = b.serial)) := k'
    intro e' he' hb'
    have hb' : e'.brick = b := hb'
    have hu' : e' ∈ u.train.entries := by
      have : e' ∈ s.train.entries.filter (fun e => decide (e.brick.serial = b.serial)) :=
        List.mem_filter.mpr ⟨he', by simp [hb']⟩
      rw [← k'] at this
      exact (List.mem_filter.mp this).1
    have hf := find_brick _ b e' hu.1 hu' hb'
    have hl : b.live = true := hl
    dsimp only
    unfold State.rejectInTrain
    rw [hf]
    dsimp only
    rw [hl]
    refine ⟨fun hs y hy hn => ?_, fun hs => ?_⟩
    · rw [hs] at hy
      simp only [Bool.not_true, Bool.false_eq_true, if_false] at hy
      rw [(State.reportReject_planMove _ _ _).train] at hy
      simp [State.setEntries] at hy
      exact hy.2 hn
    · rw [hs]
      simp only [Bool.not_true, Bool.false_eq_true, if_false]
      rw [(State.reportReject_planMove _ _ _).train]
      simp only [State.raiseRejected_train, State.setEntries]
      exact List.mem_map.mpr ⟨e', hu', by simp [hb', hs]⟩

/-- A run of withdrawals leaves the record of every brick but theirs. -/
theorem State.withdraw_fold_heldAs (r : RejectReason) (hr : r.brickSpecific = false) (l : List (Brick × BrickPlace)) (u : State)
    (x : Brick × BrickPlace) (h : ∀ y ∈ l, separate x y) : u.heldAs (l.foldl (fun s x => s.withdraw x r) u) x := by
  induction l generalizing u with
  | nil => exact u.heldAs_refl x
  | cons c l ih => exact (u.withdraw_heldAs x c r hr (h c (by simp))).trans (ih _ fun y hy => h y (by simp [hy]))

/-- A run of withdrawals of bricks with records of their own leaves each as its withdrawal leaves it (R64, R87). -/
theorem State.withdraw_fold (s : State) (r : RejectReason) (hr : r.brickSpecific = false) (ha : s.bricksApart)
    (l : List (Brick × BrickPlace)) (hl : l.Pairwise separate) (hm : ∀ x ∈ l, x ∈ s.liveBricks ∧ s.withdrawable x = true)
    (u : State) (hu : u.bricksApart) (hk : ∀ x ∈ l, s.heldAs u x) :
    ∀ x ∈ l, s.withdrawn (l.foldl (fun s x => s.withdraw x r) u) x r := by
  induction l generalizing u with
  | nil => intro x h; cases h
  | cons a l ih =>
    obtain ⟨l1, l2⟩ := List.pairwise_cons.mp hl
    have hu' := (u.withdraw_withdrawMove a r).apart hu
    intro x hx
    rcases List.mem_cons.mp hx with rfl | hx
    · have w := s.withdraw_withdrawn u x r hr ha hu (hm x (by simp)).1 (hm x (by simp)).2 (hk x (by simp))
      exact State.withdrawn_of_heldAs w (State.withdraw_fold_heldAs r hr l _ x l1)
    · refine ih l2 (fun y hy => hm y (by simp [hy])) _ hu' (fun y hy => ?_) x hx
      exact (hk y (by simp [hy])).trans (u.withdraw_heldAs y a r hr (l1 y hy).symm)

/-! ## The bricks in flight have records of their own, and a withdrawal makes no live brick -/

theorem insertInOrder_perm (x : Brick × BrickPlace) (l : List (Brick × BrickPlace)) : (insertInOrder x l).Perm (x :: l) := by
  induction l with
  | nil => exact .refl _
  | cons a l ih =>
    unfold insertInOrder
    split
    · exact .refl _
    · exact (ih.cons a).trans (.swap x a l)

theorem insertAll_perm (l : List (Brick × BrickPlace)) : (l.foldr insertInOrder []).Perm l := by
  induction l with
  | nil => exact .refl _
  | cons a l ih => exact (insertInOrder_perm a _).trans (ih.cons a)

/-- Serial numbers of their own and places of their own: the bricks in flight have records of their own (R51, R73). -/
theorem State.bricks_apart (s : State) (ha : s.bricksApart) : s.bricks.Pairwise separate := by
  unfold State.bricks
  dsimp only
  refine (insertAll_perm _).pairwise_iff (fun h => separate.symm h) |>.mpr ?_
  have away : ∀ x y : Brick × BrickPlace, x.2 ≠ y.2 → separate x y := fun x y h => .inl h
  rw [List.pairwise_append, List.pairwise_append]
  refine ⟨⟨?_, ?_, fun x hx y hy => ?_⟩, ?_, fun x hx y hy => ?_⟩
  · cases s.place.gripper <;> simp
  · unfold State.cradlesInUse
    cases s.mode.cradleCount <;> cases h0 : (s.cradle .cradle0).brick? <;> cases h1 : (s.cradle .cradle1).brick? <;>
      simp [CradleCount.uses, h0, h1, separate]
  · simp only [List.mem_map, List.mem_filterMap, Option.map_eq_some_iff] at hx hy
    obtain ⟨_, _, rfl⟩ := hx
    obtain ⟨_, _, _, _, rfl⟩ := hy
    exact away _ _ (by simp)
  · have h := ha.1
    rw [List.Nodup, List.pairwise_map] at h
    rw [List.pairwise_map]
    exact h.imp fun {a b} k => .inr ⟨rfl, k⟩
  · simp only [List.mem_append, List.mem_map, List.mem_filterMap, Option.map_eq_some_iff] at hx hy
    obtain ⟨_, _, rfl⟩ := hy
    rcases hx with ⟨_, _, rfl⟩ | ⟨_, _, _, _, rfl⟩ <;> exact away _ _ (by simp)

theorem State.liveBricks_apart (s : State) (ha : s.bricksApart) : s.liveBricks.Pairwise separate :=
  (s.bricks_apart ha).filter _

theorem State.liveBricks_separate (s : State) (ha : s.bricksApart) {x y : Brick × BrickPlace} (hx : x ∈ s.liveBricks)
    (hy : y ∈ s.liveBricks) (h : x ≠ y) : separate x y := by
  have p := s.liveBricks_apart ha
  generalize s.liveBricks = l at *
  induction p with
  | nil => cases hx
  | cons k _ ih =>
    rcases List.mem_cons.mp hx with hx' | hx' <;> rcases List.mem_cons.mp hy with hy' | hy'
    · exact absurd (hx'.trans hy'.symm) h
    · exact hx' ▸ k y hy'
    · exact hy' ▸ (k x hx').symm
    · exact ih hx' hy'

/-- Which live bricks are in flight, and where (R51). -/
theorem State.mem_liveBricks (s : State) (b : Brick) (p : BrickPlace) :
    (b, p) ∈ s.liveBricks ↔ (b, p) ∈ s.bricks ∧ b.mark = none := by
  unfold State.liveBricks
  rw [List.mem_filter]
  simp [Brick.live]

/-- A brick whose record is held as before is live as before. -/
theorem State.heldAs.live {s t : State} {x : Brick × BrickPlace} (k : s.heldAs t x)
    (hc : t.mode.cradleCount = s.mode.cradleCount) (hx : x ∈ s.liveBricks) : x ∈ t.liveBricks := by
  obtain ⟨b, p⟩ := x
  obtain ⟨hm, hl⟩ := (s.mem_liveBricks b p).mp hx
  refine (t.mem_liveBricks b p).mpr ⟨(t.mem_bricks b p).mpr ?_, hl⟩
  obtain ⟨_, _, k'⟩ := k
  rcases (s.mem_bricks b p).mp hm with ⟨rfl, g, hg, hgb⟩ | ⟨c, cb, rfl, hu, hcb, hb⟩ | ⟨rfl, e, he, hb⟩
  · exact .inl ⟨rfl, g, by rw [k'.1, hg], hgb⟩
  · have k' : t.cradle c = s.cradle c := k'
    refine .inr (.inl ⟨c, cb, rfl, ?_, by rw [k', hcb], hb⟩)
    unfold State.cradlesInUse at *
    rw [hc]; exact hu
  · refine .inr (.inr ⟨rfl, e, ?_, hb⟩)
    have k' : t.train.entries.filter (fun e => decide (e.brick.serial = b.serial)) =
      s.train.entries.filter (fun e => decide (e.brick.serial = b.serial)) := k'
    have : e ∈ s.train.entries.filter (fun e => decide (e.brick.serial = b.serial)) :=
      List.mem_filter.mpr ⟨he, by simp [hb]⟩
    rw [← k'] at this
    exact (List.mem_filter.mp this).1

/-- No brick of the second state is a live one that the first state did not have. -/
def State.noNewLive (s t : State) : Prop := ∀ x ∈ t.liveBricks, x ∈ s.liveBricks

theorem State.noNewLive.trans {s t u : State} (h : s.noNewLive t) (k : t.noNewLive u) : s.noNewLive u :=
  fun x hx => h x (k x hx)

theorem State.noNewLive_of_eq {s t : State} (hp : t.place.gripper = s.place.gripper) (hc : t.cradles = s.cradles)
    (ht : t.train.entries = s.train.entries) (hm : t.mode.cradleCount = s.mode.cradleCount) : s.noNewLive t := by
  intro x hx
  have : t.bricks = s.bricks := by unfold State.bricks State.cradlesInUse State.cradle; rw [hp, hc, ht, hm]
  unfold State.liveBricks at *
  rwa [this] at hx

theorem PlanMove.noNewLive {s t : State} (h : PlanMove s t) : s.noNewLive t :=
  State.noNewLive_of_eq (by rw [h.place]) h.cradles (by rw [h.train]) h.cradleCount

theorem State.setEntries_noNewLive (s : State) (es : List TrainEntry)
    (h : ∀ e ∈ es, e.brick.mark = none → ∃ e' ∈ s.train.entries, e'.brick = e.brick) : s.noNewLive (s.setEntries es) := by
  rintro ⟨b, p⟩ hx
  obtain ⟨hm, hl⟩ := (State.mem_liveBricks _ b p).mp hx
  refine (s.mem_liveBricks b p).mpr ⟨(s.mem_bricks b p).mpr ?_, hl⟩
  rcases (State.mem_bricks _ b p).mp hm with h' | ⟨c, cb, rfl, hu, hcb, hb⟩ | ⟨rfl, e, he, hb⟩
  · exact .inl h'
  · exact .inr (.inl ⟨c, cb, rfl, hu, hcb, hb⟩)
  · obtain ⟨e', he', hb'⟩ := h e he (by rw [hb]; exact hl)
    exact .inr (.inr ⟨rfl, e', he', by rw [hb', hb]⟩)

theorem State.setCradle_noNewLive (s : State) (c : CradleId) (z : Cradle)
    (h : ∀ cb, z.brick? = some cb → cb.brick.mark ≠ none) : s.noNewLive (s.setCradle c z) := by
  rintro ⟨b, p⟩ hx
  obtain ⟨hm, hl⟩ := (State.mem_liveBricks _ b p).mp hx
  refine (s.mem_liveBricks b p).mpr ⟨(s.mem_bricks b p).mpr ?_, hl⟩
  rcases (State.mem_bricks _ b p).mp hm with ⟨rfl, g, hg, hgb⟩ | ⟨d, cb, rfl, hu, hcb, hb⟩ | ⟨rfl, e, he, hb⟩
  · exact .inl ⟨rfl, g, by simpa using hg, hgb⟩
  · by_cases hd : d = c
    · subst hd
      rw [State.setCradle_self] at hcb
      exact absurd (by rw [hb]; exact hl) (h cb hcb)
    · rw [State.setCradle_other _ _ _ _ hd] at hcb
      refine .inr (.inl ⟨d, cb, rfl, ?_, hcb, hb⟩)
      unfold State.cradlesInUse at *
      simpa using hu
  · exact .inr (.inr ⟨rfl, e, by simpa using he, hb⟩)

theorem State.raiseRejected_noNewLive (s : State) (b : Brick) (r : RejectReason) : s.noNewLive (s.raiseRejected b r) :=
  State.noNewLive_of_eq (by simp) (by simp) (by simp) (by simp [State.raiseRejected, State.learnReject])

/-- A withdrawal makes no live brick (R66, R87). -/
theorem State.withdraw_noNewLive (s : State) (x : Brick × BrickPlace) (r : RejectReason) (hr : r.brickSpecific = false) :
    s.noNewLive (s.withdraw x r) := by
  have rest : ∀ (u : State) (b : Brick), s.noNewLive u → s.noNewLive ((u.raiseRejected b r).reportReject b r) :=
    fun u b h => (h.trans (u.raiseRejected_noNewLive b r)).trans (State.reportReject_planMove _ b r).noNewLive
  have refl : s.noNewLive s := fun _ h => h
  have cr : ∀ c z, (∀ cb, z.brick? = some cb → cb.brick.mark ≠ none) → s.noNewLive (s.setCradle c z) := s.setCradle_noNewLive
  obtain ⟨b, p⟩ := x
  unfold State.withdraw
  cases p with
  | gripper =>
    dsimp only
    unfold State.rejectInGripper
    split
    · rename_i g hg
      split
      · rw [State.enterAbandoning_eq, hr]
        refine State.noNewLive.trans (t := s.abandoningState g r) ?_ (State.reportReject_planMove _ _ _).noNewLive
        rintro ⟨b, p⟩ hx
        obtain ⟨hm, hl⟩ := (State.mem_liveBricks _ b p).mp hx
        refine (s.mem_liveBricks b p).mpr ⟨(s.mem_bricks b p).mpr ?_, hl⟩
        rcases (State.mem_bricks _ b p).mp hm with ⟨rfl, g', hg', hgb⟩ | h | h
        · cases hg'; subst hgb; cases hl
        · exact .inr (.inl h)
        · exact .inr (.inr h)
      · exact refl
    · exact refl
  | cradle c =>
    dsimp only
    unfold State.rejectInCradle
    have mk : ∀ b : CradleBrick, (b.marked r).brick.mark ≠ none := fun b => b.marked_ne r
    split
    · exact refl
    · exact refl
    · split
      · exact rest _ _ (cr _ _ fun cb h => by cases h; exact mk _)
      · exact refl
    · split
      · exact rest _ _ (cr _ _ fun cb h => by cases h; exact mk _)
      · exact refl
    · split
      · exact refl
      · split
        · exact (cr _ _ fun cb h => by cases h; exact mk _).trans (State.reportReject_planMove _ _ _).noNewLive
        · exact rest _ _ (cr _ _ fun cb h => by cases h; exact mk _)
  | train =>
    dsimp only
    unfold State.rejectInTrain
    split
    · split
      · exact refl
      · split
        · refine rest _ _ (s.setEntries_noNewLive _ fun e he _ => ⟨e, (List.mem_filter.mp he).1, rfl⟩)
        · refine rest _ _ (s.setEntries_noNewLive _ fun e he hm => ?_)
          obtain ⟨e', he', rfl⟩ := List.mem_map.mp he
          split at hm
          · cases hm
          · rename_i h; exact ⟨e', he', by rw [if_neg h]⟩
    · exact refl

/-- What the withdrawal of a live brick makes of the brick's own slot (R17, R66, R87): a FED slot is what the reject makes of it. -/
theorem State.withdraw_self (s u : State) (x : Brick × BrickPlace) (r : RejectReason) (hr : r.brickSpecific = false)
    (ha : s.bricksApart) (hu : u.bricksApart) (hx : x ∈ s.liveBricks) (hw : s.withdrawable x = true) (k : s.heldAs u x)
    (sl : Slot) (hs : u.slot? x.1.bank x.1.slot = some sl) :
    (u.withdraw x r).slot? x.1.bank x.1.slot = some (if sl.status.isFed then sl.afterReject r else sl) := by
  obtain ⟨b, p⟩ := x
  obtain ⟨hm, hl⟩ := (s.mem_liveBricks b p).mp hx
  have hlive : b.live = true := by simp [Brick.live, hl]
  obtain ⟨_, kp, k'⟩ := k
  have own : ∀ v : State, v.slot? b.bank b.slot = some sl → (v.reportReject b r).slot? b.bank b.slot =
      some (if sl.status.isFed then sl.afterReject r else sl) := fun v h => v.reportReject_self b r sl h
  unfold State.withdraw
  rcases (s.mem_bricks b p).mp hm with ⟨rfl, g, hg, rfl⟩ | ⟨c, cb, rfl, hc, hcb, rfl⟩ | ⟨rfl, e, he, rfl⟩
  · obtain ⟨k1, k2⟩ := k'
    dsimp only
    have hw : s.place.state.holdsBrick = true := hw
    unfold State.rejectInGripper
    rw [k1, hg]
    dsimp only
    rw [if_pos hw, State.enterAbandoning_eq, hr, if_neg (by simp)]
    exact own _ hs
  · have k' : u.cradle c = s.cradle c := k'
    dsimp only
    unfold State.rejectInCradle
    rw [k']
    cases e : s.cradle c with
    | empty => rw [e] at hcb; cases hcb
    | tipping y d => rw [e] at hcb; cases hcb; exact absurd hl (ha.2.2 c _ _ e)
    | held y =>
      rw [e] at hcb; cases hcb
      simp only [hlive, if_true]
      exact own _ (by unfold State.tip; simpa using hs)
    | gluing y =>
      rw [e] at hcb; cases hcb
      simp only [hlive, if_true]
      exact own _ (by simpa using hs)
    | ready y d =>
      rw [e] at hcb; cases hcb
      simp only [hlive, Bool.not_true, Bool.false_eq_true, if_false]
      split
      · exact own _ (by simpa using hs)
      · exact own _ (by unfold State.tip; simpa using hs)
  · have k' : u.train.entries.filter (fun x => decide (x.brick.serial = e.brick.serial)) =
      s.train.entries.filter (fun x => decide (x.brick.serial = e.brick.serial)) := k'
    have hu' : e ∈ u.train.entries := by
      have : e ∈ s.train.entries.filter (fun x => decide (x.brick.serial = e.brick.serial)) :=
        List.mem_filter.mpr ⟨he, by simp⟩
      rw [← k'] at this
      exact (List.mem_filter.mp this).1
    have hf := find_brick _ e.brick e hu.1 hu' rfl
    dsimp only
    unfold State.rejectInTrain
    rw [hf]
    simp only [hlive, Bool.not_true, Bool.false_eq_true, if_false]
    split
    · exact own _ (by simpa using hs)
    · exact own _ (by simpa using hs)

end Sys2Proof.Machine
end

