-- ==== Sys2Proof/Laws/Walk.lean ====
section
/-! SUPPORT. The walk order: a permutation of the load indices, fixed by the setup and the courses; where the walk-end step and
a status recorded put pointer and cursor; and which slot a withdrawal reports. -/

namespace Sys2Proof.Machine

/-! ## The walk order (R50) -/

theorem courseRuns_flat (l : List (Nat × Nat)) : (courseRuns l).flatMap Prod.snd = l.map Prod.fst := by
  induction l with
  | nil => rfl
  | cons a l ih =>
    obtain ⟨i, c⟩ := a
    unfold courseRuns
    revert ih
    cases courseRuns l with
    | nil => intro ih; simp_all
    | cons r more =>
      obtain ⟨c', is⟩ := r
      intro ih
      dsimp only
      split
      · simp only [List.flatMap_cons, List.cons_append, List.map_cons] at ih ⊢
        rw [ih]
      · simp only [List.flatMap_cons, List.cons_append, List.map_cons, List.nil_append] at ih ⊢
        rw [ih]

theorem Bank.runs_flat (b : Bank) : b.runs.flatMap Prod.snd = List.range b.slots.length := by
  unfold Bank.runs
  rw [courseRuns_flat]
  exact List.map_fst_zip (by simp)

/-- The walk order of a bank that has been set up holds every load index once (R50). -/
theorem Bank.walkOrder_perm (b : Bank) (h : b.setup ≠ none) : b.walkOrder.Perm (List.range b.slots.length) := by
  rw [← b.runs_flat]
  unfold Bank.walkOrder Bank.walkRuns
  cases e : b.setup with
  | none => exact absurd e h
  | some su =>
    dsimp only
    generalize b.lowestCourse = low
    generalize b.runs = l
    induction l with
    | nil => exact .refl _
    | cons a l ih =>
      rw [List.map_cons, List.flatMap_cons, List.flatMap_cons]
      refine .append ?_ ih
      dsimp only
      split
      · exact List.reverse_perm _
      · exact .refl _

theorem Bank.walkOrder_none (b : Bank) (h : b.setup = none) : b.walkOrder = [] := by
  unfold Bank.walkOrder Bank.walkRuns; rw [h]; rfl

theorem Bank.walkOrder_nodup (b : Bank) : b.walkOrder.Nodup := by
  by_cases h : b.setup = none
  · rw [b.walkOrder_none h]; exact .nil
  · exact (b.walkOrder_perm h).nodup_iff.mpr List.nodup_range

theorem Bank.walkOrder_length_le (b : Bank) : b.walkOrder.length ≤ b.slots.length := by
  by_cases h : b.setup = none
  · rw [b.walkOrder_none h]; simp
  · rw [(b.walkOrder_perm h).length_eq]; simp

theorem Bank.walkOrder_length (b : Bank) (h : b.setup ≠ none) : b.walkOrder.length = b.slots.length := by
  rw [(b.walkOrder_perm h).length_eq]; simp

theorem Bank.walkOrder_lt (b : Bank) {i : Nat} (h : i ∈ b.walkOrder) : i < b.slots.length := by
  by_cases e : b.setup = none
  · rw [b.walkOrder_none e] at h; cases h
  · exact List.mem_range.mp ((b.walkOrder_perm e).mem_iff.mp h)

/-- The run of a course stands in the walk order as it is walked (R50). -/
theorem Bank.courseRun_sublist (b : Bank) (c : Nat) : (b.courseRun c).Sublist b.walkOrder := by
  unfold Bank.courseRun Bank.walkOrder
  generalize b.walkRuns = l
  induction l with
  | nil => exact .slnil
  | cons a l ih =>
    rw [List.find?_cons]
    split
    · exact List.sublist_append_left _ _
    · exact ih.trans (List.sublist_append_right _ _)

/-- The walk is fixed by the setup and the courses of the slots (R50). -/
theorem Bank.walkRuns_congr {x y : Bank} (hs : y.setup = x.setup) (hc : y.slots.map Slot.course = x.slots.map Slot.course) :
    y.walkRuns = x.walkRuns := by
  have hl : y.slots.length = x.slots.length := by simpa using congrArg List.length hc
  have hh : y.lowestCourse = x.lowestCourse := by
    have := congrArg List.head? hc
    unfold Bank.lowestCourse
    rw [List.head?_map, List.head?_map] at this
    rw [this]
  unfold Bank.walkRuns Bank.runs
  rw [hs, hl, hc, hh]

/-- What the walk of a bank is computed from is as it was. -/
structure WalkKept (x y : Bank) : Prop where
  setup  : y.setup = x.setup
  course : y.slots.map Slot.course = x.slots.map Slot.course

theorem WalkKept.refl (x : Bank) : WalkKept x x := ⟨rfl, rfl⟩

theorem WalkKept.trans {x y z : Bank} (h : WalkKept x y) (k : WalkKept y z) : WalkKept x z :=
  ⟨k.setup.trans h.setup, k.course.trans h.course⟩

theorem WalkKept.length {x y : Bank} (h : WalkKept x y) : y.slots.length = x.slots.length := by
  simpa using congrArg List.length h.course

theorem WalkKept.walkOrder {x y : Bank} (h : WalkKept x y) : y.walkOrder = x.walkOrder := by
  unfold Bank.walkOrder; rw [Bank.walkRuns_congr h.setup h.course]

theorem WalkKept.walkPosition {x y : Bank} (h : WalkKept x y) (i : Nat) : y.walkPosition i = x.walkPosition i := by
  unfold Bank.walkPosition; rw [h.walkOrder]

theorem State.setSlot_walkKept (s : State) (b : BankId) (i : Nat) (x sl : Slot) (h : s.slot? b i = some sl)
    (hc : x.course = sl.course) (c : BankId) : WalkKept (s.bank c) ((s.setSlot b i x).bank c) := by
  unfold State.setSlot
  by_cases e : c = b
  · subst e
    rw [State.setBank_bank_self]
    refine ⟨rfl, ?_⟩
    unfold State.slot? at h
    have hi := (List.getElem?_eq_some_iff.mp h)
    refine List.ext_getElem (by simp) fun j h1 h2 => ?_
    simp only [List.getElem_map, List.getElem_set]
    split
    · rename_i e; subst e; rw [hc, hi.2]
    · rfl
  · rw [State.setBank_bank_other _ _ _ _ e]; exact .refl _

/-! ## Where the walk-end step leaves pointer and cursor (R57, R58, R67) -/

theorem State.needBank_point (s : State) : s.needBank.feed.pointer = s.feed.pointer ∧ s.needBank.feed.cursor = s.feed.cursor := by
  rw [State.needBank_feed]; exact ⟨rfl, rfl⟩

/-- The walk-end step: the pointer stays where the other bank is the older ACTIVE one, and moves otherwise (R58). -/
theorem State.walkEnd_point (s : State) :
    ((s.bank s.feed.pointer.other).state = .active ∧ s.plan.order.head? = some s.feed.pointer.other →
      s.walkEnd.feed.pointer = s.feed.pointer ∧ s.walkEnd.feed.cursor = s.feed.cursor) ∧
    ((s.bank s.feed.pointer.other).state ≠ .active ∨ s.plan.order.head? ≠ some s.feed.pointer.other →
      s.walkEnd.feed.pointer = s.feed.pointer.other ∧ s.walkEnd.feed.cursor = 0) := by
  have mv := s.moveCursor_point s.feed.pointer.other 0
  unfold State.walkEnd
  dsimp only
  rw [(State.needBank_point _).1, (State.needBank_point _).2]
  refine ⟨fun h => ?_, fun h => ?_⟩
  · rw [h.1]; dsimp only; rw [if_pos h.2, State.testSpent_feed]; exact ⟨rfl, rfl⟩
  · split
    · exact mv
    · rename_i e
      split
      · rename_i o; rcases h with h | h
        · exact absurd e h
        · exact absurd o h
      · exact mv
    all_goals exact mv

/-- Where the cursor moved within the feed bank comes to stand (R57, R58, R67). -/
theorem State.advanceCursor_point (s : State) (c : Nat) :
    (c < (s.bank s.feed.pointer).slots.length →
      (s.advanceCursor c).feed.pointer = s.feed.pointer ∧ (s.advanceCursor c).feed.cursor = c) ∧
    ((s.bank s.feed.pointer).slots.length ≤ c →
      ((s.bank s.feed.pointer.other).state = .active ∧ s.plan.order.head? = some s.feed.pointer.other →
        (s.advanceCursor c).feed.pointer = s.feed.pointer ∧ (s.advanceCursor c).feed.cursor = c) ∧
      ((s.bank s.feed.pointer.other).state ≠ .active ∨ s.plan.order.head? ≠ some s.feed.pointer.other →
        (s.advanceCursor c).feed.pointer = s.feed.pointer.other ∧ (s.advanceCursor c).feed.cursor = 0)) := by
  unfold State.advanceCursor
  refine ⟨fun h => ?_, fun h => ?_⟩
  · rw [if_neg (by omega)]; exact s.moveCursor_point _ _
  · rw [if_pos h]
    have w := (s.placeCursor s.feed.pointer c).walkEnd_point
    rw [State.placeCursor_feed, State.placeCursor_plan, State.bank_of_plan _ _ (State.placeCursor_plan s s.feed.pointer c)] at w
    exact w

/-! ## Feed state ENDED and the spent test of a status change (R14, R53, R58) -/

theorem State.feedState_ended (s : State) : s.feedState = .ended ↔
    (s.bank s.feed.pointer).state = .active ∧ (s.bank s.feed.pointer).slots.length ≤ s.feed.cursor := by
  unfold State.feedState
  dsimp only
  cases e : (s.bank s.feed.pointer).state <;> simp
  by_cases h : s.feed.cursor < (s.bank s.feed.pointer).slots.length
  · simp only [h]
    split <;> (try split) <;> simp [h]
  · simp only [h]; simp; omega

/-- A bank becoming SPENT: its own state, the others', the order, and the pointer and cursor as they were (R14). -/
theorem State.spend_state (s : State) (b : BankId) : ((s.spend b).bank b) = { s.bank b with state := .spent } := by
  unfold State.spend
  rw [State.bank_of_plan _ _ (State.evalSupply_plan _), State.bank_of_plan _ _ (State.raise_plan _ _)]
  have : ∀ u : State, (u.setBankSwitch b false).bank b = u.bank b := fun u => State.bank_of_plan _ _ (by simp) b
  rw [this, State.setOrder_bank, State.setBank_bank_self]

/-- Where the spent test of a status change leaves the plan, the pointer and the cursor. -/
theorem State.spendIfDue_point (s : State) (b : BankId) :
    (s.spentDue b = false → s.spendIfDue b = s) ∧
    (s.spentDue b = true → (b = s.feed.pointer ∨ s.feedState ≠ .ended) →
      (s.spendIfDue b).feed.pointer = s.feed.pointer ∧ (s.spendIfDue b).feed.cursor = s.feed.cursor ∧
      (s.spendIfDue b).bank b = { s.bank b with state := .spent } ∧
      ∀ c, c ≠ b → (s.spendIfDue b).bank c = s.bank c) ∧
    (s.spentDue b = true → b ≠ s.feed.pointer → s.feedState = .ended →
      (s.spendIfDue b).feed.pointer = b ∧ (s.spendIfDue b).feed.cursor = 0 ∧
      (s.spendIfDue b).bank b = { s.bank b with state := .spent }) := by
  have nb : ∀ (q : State) c, q.needBank.bank c = q.bank c := fun q c =>
    State.bank_of_plan _ _ (by unfold State.needBank; split <;> simp) c
  have feed : (s.spend b).feed.pointer = s.feed.pointer ∧ (s.spend b).feed.cursor = s.feed.cursor := by
    rw [State.spend_feed]; exact ⟨rfl, rfl⟩
  unfold State.spendIfDue
  refine ⟨fun h => by rw [h]; rfl, fun h k => ?_, fun h k e => ?_⟩
  · rw [if_pos h]
    have : (decide (s.feedState = .ended) && decide (b ≠ s.feed.pointer)) = false := by
      rcases k with k | k <;> simp [k]
    dsimp only
    rw [this, if_neg (by simp), (State.needBank_point _).1, (State.needBank_point _).2, nb, State.spend_state]
    exact ⟨feed.1, feed.2, rfl, fun c hc => by rw [nb, State.spend_bank_other _ _ _ hc]⟩
  · rw [if_pos h]
    dsimp only
    rw [if_pos (by simp [k, e])]
    have hp : b = (s.spend b).feed.pointer.other := by
      rw [feed.1]; revert k; cases b <;> cases s.feed.pointer <;> simp [BankId.other]
    have hs : ((s.spend b).bank (s.spend b).feed.pointer.other).state = .spent := by rw [← hp, State.spend_state]
    have w := ((s.spend b).walkEnd_point).2 (.inl (by rw [hs]; simp))
    refine ⟨w.1.trans hp.symm, w.2, ?_⟩
    unfold State.walkEnd
    dsimp only
    rw [hs]
    dsimp only
    rw [nb, ← hp]
    have := (State.moveCursor_bankKept (s.spend b) b 0).bank
    rw [this, State.spend_state]

/-! ## Which slot a withdrawal reports -/

/-- A withdrawal does nothing, or reports the reject of the brick's own slot after steps that leave plan, feed and mode (R79, R84,
R142). -/
theorem State.withdraw_reports (s : State) (x : Brick × BrickPlace) (r : RejectReason) (hr : r.brickSpecific = false)
    (hx : x ∈ s.bricks) : s.withdraw x r = s ∨ ∃ (u : State) (b : Brick), u.plan = s.plan ∧ u.feed = s.feed ∧
      u.mode.mode = s.mode.mode ∧ b.bank = x.1.bank ∧ b.slot = x.1.slot ∧ s.withdraw x r = u.reportReject b r := by
  obtain ⟨b, p⟩ := x
  have rj : ∀ (u : State) (y : Brick), (u.raiseRejected y r).mode.mode = u.mode.mode := fun u y => by
    simp [State.raiseRejected, State.learnReject]
  unfold State.withdraw
  rcases (s.mem_bricks b p).mp hx with ⟨rfl, g, hg, rfl⟩ | ⟨c, cb, rfl, _, hcb, rfl⟩ | ⟨rfl, e, he, rfl⟩
  · dsimp only
    unfold State.rejectInGripper
    rw [hg]
    dsimp only
    split
    · rw [State.enterAbandoning_eq, hr]
      exact .inr ⟨s.abandoningState g r, g.brick, rfl, rfl, rfl, rfl, rfl, rfl⟩
    · exact .inl rfl
  · dsimp only
    unfold State.rejectInCradle State.tip
    split
    · exact .inl rfl
    · exact .inl rfl
    · rename_i y e; rw [e] at hcb; cases hcb
      split
      · exact .inr ⟨_, cb.brick, by simp, by simp, by rw [rj]; simp, rfl, rfl, rfl⟩
      · exact .inl rfl
    · rename_i y e; rw [e] at hcb; cases hcb
      split
      · exact .inr ⟨_, cb.brick, by simp, by simp, by rw [rj]; simp, rfl, rfl, rfl⟩
      · exact .inl rfl
    · rename_i y d e; rw [e] at hcb; cases hcb
      split
      · exact .inl rfl
      · split
        · exact .inr ⟨_, cb.brick, by simp, by simp, by simp, rfl, rfl, rfl⟩
        · exact .inr ⟨_, cb.brick, by simp, by simp, by rw [rj]; simp, rfl, rfl, rfl⟩
  · dsimp only
    unfold State.rejectInTrain
    split
    · split
      · exact .inl rfl
      · split
        · exact .inr ⟨_, e.brick, by simp [State.setEntries], by simp [State.setEntries], by rw [rj]; rfl, rfl, rfl, rfl⟩
        · exact .inr ⟨_, e.brick, by simp [State.setEntries], by simp [State.setEntries], by rw [rj]; rfl, rfl, rfl, rfl⟩
    · exact .inl rfl

end Sys2Proof.Machine
end

