-- ==== Sys2Proof/Laws/Feeding.lean ====
section
/-! SUPPORT. Feed requests: the notices they raise, an order-blocked slot, and the walk end within a request. -/

namespace Sys2Proof.Machine

/-! ## Notices -/

/-- The notices raised from one state to the other are the plan's and the walk's. -/
def PlanRaises (s t : State) : Prop := ∃ ns, (∀ n ∈ ns, n.ofPlan = true) ∧ t.link = s.raisedLink ns

theorem PlanRaises.of_eq {s t : State} (h : t.link = s.link) : PlanRaises s t := ⟨[], fun _ h => (by cases h), h⟩

theorem PlanRaises.trans {s t u : State} (h : PlanRaises s t) (k : PlanRaises t u) : PlanRaises s u := by
  obtain ⟨ns, hn, hl⟩ := h
  obtain ⟨ms, kn, kl⟩ := k
  exact ⟨ns ++ ms, fun n hm => (List.mem_append.mp hm).elim (hn n) (kn n), kl.trans (State.raisedLink_append ns ms hl)⟩

theorem SpendMove.planRaises {s t : State} (h : SpendMove s t) : PlanRaises s t := by
  obtain ⟨ns, hn, hl⟩ := h.raises
  exact ⟨ns, hn.1, hl⟩

theorem State.recordStatus_planRaises (s : State) (b : BankId) (i : Nat) (st : SlotStatus) :
    PlanRaises s (s.recordStatus b i st) := by
  obtain ⟨ns, hn, hl⟩ := s.recordStatus_notices b i st
  exact ⟨ns, hn.1, hl⟩

theorem State.activateIfReady_planRaises (s : State) : PlanRaises s s.activateIfReady := by
  unfold State.activateIfReady
  split
  · unfold State.activate
    exact (PlanRaises.of_eq (by cases s.feed.pointer <;> rfl)).trans (State.placeCursor_spendMove _ _ _).planRaises
  all_goals exact .of_eq rfl

theorem State.cursorTo_planRaises (s : State) (c : Nat) : PlanRaises s (s.cursorTo c) := by
  unfold State.cursorTo
  split
  · exact .of_eq rfl
  · exact (s.moveCursor_spendMove _ _).planRaises

theorem State.supplyTarget_link (s : State) (b : BankId) (i : Nat) (sl : Slot) : (s.supplyTarget b i sl).link = s.link := by
  unfold State.supplyTarget
  split <;> rfl

/-- The entry of R57 raises FEED among the notices of the plan and the walk. -/
theorem State.feedEntry_notices (s : State) (b : BankId) (p i : Nat) (sl : Slot) : ∃ before after,
    (∀ n ∈ before ++ after, n.ofPlan = true) ∧ (s.feedEntry b p i sl).link =
      s.raisedLink (before ++ Notice.feed s.feed.nextTag b i sl.kind sl.planned sl.rotation :: after) := by
  unfold State.feedEntry
  dsimp only
  generalize hv : ({ s with train := _ } : State) = v
  have vl : v.link = s.link := by subst hv; rfl
  obtain ⟨ns, hn, hl⟩ := v.recordStatus_planRaises b i .fed
  generalize v.recordStatus b i .fed = w at hl ⊢
  generalize hx : ({ w.raise (.feed s.feed.nextTag b i sl.kind sl.planned sl.rotation) with feed := _ } : State) = x
  obtain ⟨ms, kn, kl⟩ := (x.advanceCursor_spendMove (p + 1)).planRaises
  refine ⟨ns, ms, fun n hm => (List.mem_append.mp hm).elim (hn n) (kn n), ?_⟩
  have xl : x.link = w.raisedLink [.feed s.feed.nextTag b i sl.kind sl.planned sl.rotation] := by subst hx; rfl
  rw [kl, State.raisedLink_append [_] ms xl, State.raisedLink_append ns _ hl, State.raisedLink_congr _ vl]
  rfl

/-! ## CLEAR FAULT (R164) -/

/-- The returns of CLEAR FAULT raise notices of the plan and the walk alone. -/
theorem State.returnFedSlots_planRaises (s : State) : PlanRaises s s.returnFedSlots := by
  have one : ∀ (b : BankId) (u : State) (i : Nat), PlanRaises u (u.returnSlot b i) := fun b u i =>
    (u.recordStatus_planRaises b i .pending).trans (State.cursorReturn_spendMove _ _ _).planRaises
  have all : ∀ (b : BankId) (l : List Nat) (u : State), PlanRaises u (l.foldl (State.returnSlot b) u) := fun b l => by
    induction l with
    | nil => exact fun u => .of_eq rfl
    | cons i l ih => exact fun u => (one b u i).trans (ih _)
  exact (all .bank0 _ s).trans (all .bank1 _ _)

theorem State.cursorToLayBank_planRaises (s : State) : PlanRaises s s.cursorToLayBank := by
  unfold State.cursorToLayBank
  split
  · split
    · exact (s.moveCursor_spendMove _ _).planRaises
    · exact .of_eq rfl
  · exact .of_eq rfl

/-- With no FED slot nothing is returned. -/
theorem State.returnFedSlots_none (s : State) (h : ∀ b i sl, s.slot? b i = some sl → sl.status ≠ .fed) :
    s.returnFedSlots = s := by
  have none : ∀ b, s.fedSlots b = [] := fun b => by
    rw [List.eq_nil_iff_forall_not_mem]
    intro i hi
    obtain ⟨sl, h1, h2⟩ := (s.mem_fedSlots b i).mp hi
    exact h b i sl h1 ((SlotStatus.isFed_iff _).mp h2)
  unfold State.returnFedSlots
  rw [none, none]; rfl

/-- With no PENDING slot in the lay bank, or no lay bank, the cursor is not placed. -/
theorem State.cursorToLayBank_none (s : State)
    (h : ∀ b, s.plan.order.head? = some b → ∀ sl ∈ (s.bank b).slots, sl.status ≠ .pending) : s.cursorToLayBank = s := by
  unfold State.cursorToLayBank State.layBank
  cases e : s.plan.order.head? with
  | none => rfl
  | some b =>
    dsimp only
    have : (s.bank b).firstPending 0 = none := by
      unfold Bank.firstPending
      rw [Option.map_eq_none_iff, List.findIdx?_eq_none_iff]
      intro i _
      cases k : (s.bank b).slots[i]? with
      | none => simp
      | some sl =>
        have := h b e sl (List.mem_of_getElem? k)
        cases m : sl.status <;> simp_all [SlotStatus.isPending]
    rw [this]

/-! ## An order-blocked slot (R53, R56) -/

/-- With its first PENDING slot order-blocked an ACTIVE feed bank is HELD (R53). -/
theorem State.feedState_held (s : State) (p : Nat) (ha : (s.bank s.feed.pointer).state = .active)
    (hp : (s.bank s.feed.pointer).firstPending s.feed.cursor = some p) (hb : s.orderBlocked s.feed.pointer p = true) :
    s.feedState = .held := by
  have hc : s.feed.cursor < (s.bank s.feed.pointer).slots.length := by
    unfold Bank.firstPending at hp
    obtain ⟨k, hk, rfl⟩ := Option.map_eq_some_iff.mp hp
    have := (List.findIdx?_eq_some_iff_getElem.mp hk).1
    rw [List.length_drop] at this
    have := (s.bank s.feed.pointer).walkOrder_length_le
    omega
  unfold State.feedState
  dsimp only
  rw [ha]
  dsimp only
  rw [if_pos hc, hp]
  dsimp only
  rw [if_pos hb]

/-- A FED or LAID slot at a later walk position blocks (R56). -/
theorem State.orderBlocked_later (s : State) (b : BankId) (p q i : Nat) (sl : Slot) (hq : p < q)
    (hw : (s.bank b).walkOrder[q]? = some i) (hs : s.slot? b i = some sl) (hf : sl.status.isFedOrLaid = true) :
    s.orderBlocked b p = true := by
  unfold State.orderBlocked
  dsimp only
  rw [Bool.or_eq_true]
  left
  rw [List.any_eq_true]
  refine ⟨i, ?_, ?_⟩
  · refine List.mem_of_getElem? (i := q - (p + 1)) ?_
    rw [List.getElem?_drop, show p + 1 + (q - (p + 1)) = q by omega]
    exact hw
  · unfold State.slot? at hs
    rw [hs]; exact hf

/-- A FED or LAID slot of the second ACTIVE bank blocks the slots of the first (R56). -/
theorem State.orderBlocked_second (s : State) (b : BankId) (p i : Nat) (sl : Slot) (rest : List BankId)
    (ho : s.plan.order = b :: b.other :: rest) (hs : s.slot? b.other i = some sl) (hf : sl.status.isFedOrLaid = true) :
    s.orderBlocked b p = true := by
  unfold State.orderBlocked
  dsimp only
  rw [ho, Bool.or_eq_true]
  right
  simp only [decide_true, Bool.true_and, List.any_eq_true]
  exact ⟨sl, List.mem_of_getElem? hs, hf⟩

/-! ## The walk end within a request (R55, R58) -/

/-- The walk-end step leaves a bank SPENT or as it was (R14). -/
theorem State.walkEnd_left (s : State) (h : (s.bank s.feed.pointer).state = .active)
    (hc : (s.bank s.feed.pointer).slots.length ≤ s.feed.cursor) :
    ((s.bank s.feed.pointer).count SlotStatus.isOpen = 0 →
      s.walkEnd.bank s.feed.pointer = { s.bank s.feed.pointer with state := .spent } ∧
      s.walkEnd.plan.order = s.plan.order.erase s.feed.pointer) ∧
    ((s.bank s.feed.pointer).count SlotStatus.isOpen ≠ 0 → s.walkEnd.plan = s.plan) ∧
    s.walkEnd.bank s.feed.pointer.other = s.bank s.feed.pointer.other := by
  have nb : ∀ q : State, q.needBank.plan = q.plan := fun q => by unfold State.needBank; split <;> simp
  have stay : ((s.bank s.feed.pointer).count SlotStatus.isOpen = 0 →
        (s.testSpent s.feed.pointer).bank s.feed.pointer = { s.bank s.feed.pointer with state := .spent } ∧
        (s.testSpent s.feed.pointer).plan.order = s.plan.order.erase s.feed.pointer) ∧
      ((s.bank s.feed.pointer).count SlotStatus.isOpen ≠ 0 → (s.testSpent s.feed.pointer).plan = s.plan) ∧
      (s.testSpent s.feed.pointer).bank s.feed.pointer.other = s.bank s.feed.pointer.other := by
    unfold State.testSpent State.spentDue
    refine ⟨fun h0 => ?_, fun h0 => ?_, ?_⟩
    · rw [if_pos (by simp [h, h0, hc])]
      exact ⟨s.spend_state _, s.spend_order _⟩
    · rw [if_neg (by simp [h0])]
    · split
      · exact s.spend_bank_other _ _ (BankId.other_ne _)
      · rfl
  have move : ((s.bank s.feed.pointer).count SlotStatus.isOpen = 0 →
        (s.moveCursor s.feed.pointer.other 0).bank s.feed.pointer = { s.bank s.feed.pointer with state := .spent } ∧
        (s.moveCursor s.feed.pointer.other 0).plan.order = s.plan.order.erase s.feed.pointer) ∧
      ((s.bank s.feed.pointer).count SlotStatus.isOpen ≠ 0 → (s.moveCursor s.feed.pointer.other 0).plan = s.plan) ∧
      (s.moveCursor s.feed.pointer.other 0).bank s.feed.pointer.other = s.bank s.feed.pointer.other := by
    have pb := State.bank_of_plan _ _ (State.placeCursor_plan s s.feed.pointer.other 0)
    refine ⟨fun h0 => ?_, fun h0 => ?_, (s.moveCursor_bankKept _ _).bank⟩
    all_goals unfold State.moveCursor State.testSpent State.spentDue
    · rw [BankId.other_other, if_pos (by
        rw [pb, State.placeCursor_feed]; simp [h, h0, (BankId.other_ne s.feed.pointer).symm])]
      exact ⟨by rw [State.spend_state, pb], by rw [State.spend_order, State.placeCursor_plan]⟩
    · rw [BankId.other_other, if_neg (by rw [pb]; simp [h0])]
      exact State.placeCursor_plan _ _ _
  have fin : ∀ u : State, u.needBank.bank = u.bank := fun u => by funext c; exact State.bank_of_plan _ _ (nb u) c
  unfold State.walkEnd
  dsimp only
  rw [fin, nb]
  split
  · exact move
  · split
    · exact stay
    · exact move
  all_goals exact move

/-- The walk-end step with a slot of the feed bank still open: pointer, cursor, feed state, and BANK NEEDED (R58, R59). -/
theorem State.walkEnd_open (s : State) (b : BankId) (i : Nat) (sl : Slot) (hb : s.feed.pointer = b)
    (hm : s.mode.mode = .laying) (ha : (s.bank b).state = .active) (hc : (s.bank b).slots.length ≤ s.feed.cursor)
    (hs : s.slot? b i = some sl) (ho : sl.status.isOpen = true) :
    s.walkEnd.walkEndsBy b s.feed.cursor (s.bank b.other).state s.plan.order.head? ∧
    ∃ ns, (∀ n ∈ ns, n.ofPlan = true) ∧ s.walkEnd.link = s.raisedLink ns ∧
      ((s.bank b.other).state ≠ .ready → (s.bank b.other).state ≠ .active → .bankNeeded b.other ∈ ns) := by
  obtain ⟨wp, _⟩ := s.walkEnd_of_open i sl (by rw [hb]; exact hs) ho
  have wb : ∀ c, s.walkEnd.bank c = s.bank c := fun c => State.bank_of_plan _ _ wp c
  have pt := s.walkEnd_point
  rw [hb] at pt
  -- the walk-end step as a move to the other bank, followed by the question for a bank
  have moved : ((s.bank b.other).state ≠ .active ∨ s.plan.order.head? ≠ some b.other) →
      s.walkEnd = (s.moveCursor b.other 0).needBank := fun h => by
    unfold State.walkEnd
    dsimp only
    rw [hb]
    cases e : (s.bank b.other).state <;> dsimp only
    rcases h with h | h
    · exact absurd e h
    · rw [if_neg h]
  have mvf : (s.moveCursor b.other 0).feed.bankNeeded = false := by
    unfold State.moveCursor
    rw [State.testSpent_feed]
    unfold State.placeCursor
    rw [State.evalSupply_feed]
    show (if b.other = s.feed.pointer then s.feed.bankNeeded else false) = false
    rw [if_neg (by rw [hb]; exact BankId.other_ne b)]
  have mvp : (s.moveCursor b.other 0).feedState = .waiting ↔
      (s.bank b.other).state ≠ .ready ∧ (s.bank b.other).state ≠ .active := by
    unfold State.feedState
    dsimp only
    rw [(State.moveCursor_point _ _ _).1, (State.moveCursor_point _ _ _).2, (State.moveCursor_bankKept _ _ _).bank]
    cases (s.bank b.other).state <;> simp
    split <;> (try split) <;> (try split) <;> simp
  have mvm : (s.moveCursor b.other 0).mode.mode = .laying := by
    rw [(State.moveCursor_planMove _ _ _).mode]; exact hm
  have mvr := (s.moveCursor_spendMove b.other 0).planRaises
  have due : (s.moveCursor b.other 0).bankNeededDue =
      decide ((s.bank b.other).state ≠ .ready ∧ (s.bank b.other).state ≠ .active) := by
    unfold State.bankNeededDue
    rw [mvf, mvm]
    simp only [decide_true, Bool.true_and, Bool.not_false, Bool.and_true]
    exact decide_eq_decide.mpr mvp
  refine ⟨⟨fun h => ?_, fun h hh => ?_, fun h hh => ?_, fun h1 h2 => ?_⟩, ?_⟩
  · obtain ⟨p1, p2⟩ := pt.2 (.inl (by rw [h]; simp))
    refine ⟨p1, p2, by rw [wb, h], ?_, ?_⟩
    · unfold State.feedState; dsimp only; rw [p1, wb, h]
    · rw [moved (.inl (by rw [h]; simp))]
      unfold State.needBank
      rw [if_neg (by rw [due, h]; simp)]
      exact mvf
  · obtain ⟨p1, p2⟩ := pt.1 ⟨h, hh⟩
    exact ⟨p1, p2, by rw [State.feedState_ended, p1, p2, wb]; exact ⟨ha, hc⟩⟩
  · obtain ⟨p1, p2⟩ := pt.2 (.inr hh)
    refine ⟨p1, p2, ?_⟩
    rw [moved (.inr hh)]
    unfold State.needBank
    rw [if_neg (by rw [due, h]; simp)]
    exact mvf
  · obtain ⟨p1, p2⟩ := pt.2 (.inl h2)
    refine ⟨p1, p2, ?_, ?_⟩
    · unfold State.feedState
      dsimp only
      rw [p1, wb]
      cases e : (s.bank b.other).state <;> simp_all
    · rw [moved (.inl h2)]
      unfold State.needBank
      rw [if_pos (by rw [due]; simp [h1, h2])]
      simp
  · by_cases hk : (s.bank b.other).state ≠ .ready ∧ (s.bank b.other).state ≠ .active
    · obtain ⟨ns, hn, hl⟩ := mvr
      refine ⟨ns ++ [.bankNeeded b.other], fun n hm => ?_, ?_, fun _ _ => by simp⟩
      · rcases List.mem_append.mp hm with hm | hm
        · exact hn n hm
        · simp at hm; subst hm; rfl
      · rw [moved (.inl hk.2)]
        unfold State.needBank
        rw [if_pos (by rw [due]; simp [hk.1, hk.2]), (State.moveCursor_point _ _ _).1, ← State.raisedLink_append ns _ hl]
        exact State.raise_link_congr _ rfl
    · obtain ⟨ns, hn, hl⟩ := s.walkEnd_spendMove.planRaises
      exact ⟨ns, hn, hl, fun h1 h2 => absurd ⟨h1, h2⟩ hk⟩

/-! ## A round that finds its slot (R55 to R57) -/

/-- The entry of R57 in the feed bank at its last walk position: the walk end, and the notices around FEED (R57, R58). -/
theorem State.feedEntry_walkEnd (v : State) (b : BankId) (p i : Nat) (x : Slot) (hx : v.slot? b i = some x)
    (hp : v.feed.pointer = b) (hm : v.mode.mode = .laying) (ha : (v.bank b).state = .active) : ∃ before after,
    (∀ n ∈ before ++ after, n.ofPlan = true) ∧ (v.feedEntry b p i x).link =
      v.raisedLink (before ++ Notice.feed v.feed.nextTag b i x.kind x.planned x.rotation :: after) ∧
    ((v.bank b).slots.length ≤ p + 1 →
      (v.feedEntry b p i x).walkEndsBy b (p + 1) (v.bank b.other).state v.plan.order.head? ∧
      ((v.bank b.other).state ≠ .ready → (v.bank b.other).state ≠ .active → .bankNeeded b.other ∈ after)) := by
  obtain ⟨before, after, h1, h2⟩ := v.feedEntry_notices b p i x
  by_cases hlen : (v.bank b).slots.length ≤ p + 1
  swap
  · exact ⟨before, after, h1, h2, fun h => absurd h hlen⟩
  clear h1 h2 before after
  unfold State.feedEntry
  dsimp only
  generalize hw : ({ v with train := _ } : State) = w
  have wv : w.plan = v.plan ∧ w.feed = v.feed ∧ w.mode = v.mode ∧ w.link = v.link := by subst hw; exact ⟨rfl, rfl, rfl, rfl⟩
  obtain ⟨w1, w2, w3, w4⟩ := wv
  have wsl : w.slot? b i = some x := by rw [State.slotsKept_of_plan w1]; exact hx
  rw [State.recordStatus_fed w b i _ wsl]
  obtain ⟨ns, hns, hl⟩ := (w.setSlot b i { x with status := .fed }).evalSupply_spendMove.planRaises
  have hl : (w.setSlot b i { x with status := .fed }).evalSupply.link = v.raisedLink ns := by
    rw [hl]; exact State.raisedLink_congr ns w4
  generalize hy : (w.setSlot b i { x with status := .fed }).evalSupply = y at hl ⊢
  have ys : y.slot? b i = some { x with status := .fed } := by
    subst hy; rw [State.evalSupply_slot?]; exact w.setSlot_slot?_self _ _ _ (by rw [wsl]; rfl)
  have yp : y.plan = (w.setSlot b i { x with status := .fed }).plan := by subst hy; simp
  have yo : y.bank b.other = v.bank b.other := by
    rw [State.bank_of_plan _ _ yp]; unfold State.setSlot
    rw [State.setBank_bank_other _ _ _ _ (BankId.other_ne b), State.bank_of_plan _ _ w1]
  have yb : (y.bank b).state = .active ∧ (y.bank b).slots.length = (v.bank b).slots.length ∧ y.plan.order = v.plan.order := by
    rw [State.bank_of_plan _ _ yp, State.setSlot_state, State.bank_of_plan _ _ w1, yp]
    refine ⟨ha, ?_, by simp [State.setSlot, w1]⟩
    unfold State.setSlot
    rw [State.setBank_bank_self]; simp [State.bank_of_plan _ _ w1]
  have ypt : y.feed.pointer = b ∧ y.mode.mode = .laying := by
    subst hy; rw [State.evalSupply_feed]
    refine ⟨by show w.feed.pointer = b; rw [w2]; exact hp, ?_⟩
    simp [State.setSlot, w3, hm]
  generalize hz : y.raise (.feed v.feed.nextTag b i x.kind x.planned x.rotation) = z
  have zy : z.plan = y.plan ∧ z.feed = y.feed ∧ z.mode = y.mode ∧
      z.link = y.raisedLink [.feed v.feed.nextTag b i x.kind x.planned x.rotation] := by
    subst hz; exact ⟨by simp, by simp, by simp, rfl⟩
  obtain ⟨z1, z2, z3, z4⟩ := zy
  generalize hr : ({ z with feed := { z.feed with nextTag := v.feed.nextTag + 1 } } : State) = r
  have rz : r.plan = y.plan ∧ r.mode = y.mode ∧ r.feed.pointer = b ∧ r.link = z.link := by
    subst hr; exact ⟨z1, z3, by show z.feed.pointer = b; rw [z2]; exact ypt.1, rfl⟩
  obtain ⟨r1, r2, r3, r4⟩ := rz
  have rb : ∀ c, r.bank c = y.bank c := fun c => State.bank_of_plan _ _ r1 c
  have adv : r.advanceCursor (p + 1) = (r.placeCursor b (p + 1)).walkEnd := by
    unfold State.advanceCursor
    rw [r3, rb, yb.2.1, if_pos hlen]
  rw [adv]
  obtain ⟨ms, kms, kl⟩ := (r.placeCursor_spendMove b (p + 1)).planRaises
  have pf : (r.placeCursor b (p + 1)).feed.pointer = b ∧ (r.placeCursor b (p + 1)).feed.cursor = p + 1 := by
    rw [State.placeCursor_feed]; exact ⟨rfl, rfl⟩
  have pp := State.placeCursor_plan r b (p + 1)
  have pb : ∀ c, (r.placeCursor b (p + 1)).bank c = y.bank c := fun c => by rw [State.bank_of_plan _ _ pp, rb]
  have pm : (r.placeCursor b (p + 1)).mode = y.mode := by rw [State.placeCursor_mode, r2]
  obtain ⟨e1, os, e2, e3, e4⟩ := State.walkEnd_open (r.placeCursor b (p + 1)) b i { x with status := .fed } pf.1
    (by rw [pm]; exact ypt.2) (by rw [pb]; exact yb.1) (by rw [pb, pf.2, yb.2.1]; exact hlen)
    (by rw [State.placeCursor_slot?, State.slotsKept_of_plan r1]; exact ys) rfl
  rw [pf.2, pb, yo, pp, r1, yb.2.2] at e1
  rw [pb, yo] at e4
  refine ⟨ns, ms ++ os, fun n h => ?_, ?_, fun _ => ⟨e1, fun h1 h2 => List.mem_append_right _ (e4 h1 h2)⟩⟩
  · rcases List.mem_append.mp h with h | h
    · exact hns n h
    · exact (List.mem_append.mp h).elim (kms n) (e2 n)
  · rw [e3, State.raisedLink_append ms os kl, State.raisedLink_congr _ (r4.trans z4),
      State.raisedLink_append [_] (ms ++ os) rfl, State.raisedLink_append ns _ hl]
    rfl

/-- One round of R55 that finds its slot: it is fed, or refused by the zone check. -/
theorem State.feedSteps_found (n : Nat) (y u : State) (b : BankId) (p i : Nat) (sl : Slot) (d : DatumEntry) (target : Vec3)
    (hu : u = y.activateIfReady) (hb : u.feed.pointer = b) (hp : (u.bank b).firstPending u.feed.cursor = some p)
    (ho : (u.cursorTo p).orderBlocked b p = false) (hw : (u.bank b).walkOrder[p]? = some i) (hs : u.slot? b i = some sl)
    (hd : u.datumOf b = some d) (ht : target = sl.target.getD (targetOn d sl)) (hm : u.mode.mode = .laying)
    (ha : (u.bank b).state = .active) :
    (u.zone.admits target = false →
      (State.feedSteps (n + 1) y).slot? b i = some { sl with target := some target, status := .refused .zone }) ∧
    (u.zone.admits target = true →
      (State.feedSteps (n + 1) y).slot? b i = some { sl with target := some target, status := .fed } ∧
      u.slotsKeptBut (State.feedSteps (n + 1) y) b i ∧
      (State.feedSteps (n + 1) y).train = { u.train with
        nextSerial := u.train.nextSerial + 1, entries := u.train.entries ++ [u.newEntry b i sl] } ∧
      (State.feedSteps (n + 1) y).feed.nextTag = u.feed.nextTag + 1 ∧
      (p + 1 < (u.bank b).slots.length → (State.feedSteps (n + 1) y).feed.pointer = b ∧
        (State.feedSteps (n + 1) y).feed.cursor = p + 1) ∧
      ((State.feedSteps (n + 1) y).bank b).state = (u.bank b).state ∧
      (u.awaitsSpent b.other = false → (State.feedSteps (n + 1) y).plan.order = u.plan.order ∧
        (State.feedSteps (n + 1) y).bank b.other = u.bank b.other) ∧
      (b = .bank0 → (State.feedSteps (n + 1) y).mode.bankSwitch0 = u.mode.bankSwitch0) ∧
      (b = .bank1 → (State.feedSteps (n + 1) y).mode.bankSwitch1 = u.mode.bankSwitch1) ∧
      ∃ before after, (∀ m ∈ before ++ after, m.ofPlan = true) ∧ (State.feedSteps (n + 1) y).link =
        u.raisedLink (before ++ .feed u.feed.nextTag b i sl.kind sl.planned sl.rotation :: after) ∧
        ((u.bank b).slots.length ≤ p + 1 → ((u.bank b.other).state = .active → u.awaitsSpent b.other = false) →
          (State.feedSteps (n + 1) y).walkEndsBy b (p + 1) (u.bank b.other).state u.plan.order.head? ∧
          ((u.bank b.other).state ≠ .ready → (u.bank b.other).state ≠ .active → .bankNeeded b.other ∈ after))) := by
  unfold State.feedSteps
  dsimp only
  rw [← hu, hb, hp]
  dsimp only
  obtain ⟨c1, c2, c3, c5, c6, _⟩ := State.cursorTo_moves u p
  have cl := u.cursorTo_planRaises p
  have c3m : (u.cursorTo p).mode.mode = u.mode.mode := by
    unfold State.cursorTo
    split
    · rfl
    · rw [(State.moveCursor_planMove _ _ _).mode]
  rw [hb] at c3 c6
  generalize u.cursorTo p = q at *
  rw [ho, c3.bank, hw]
  dsimp only
  have hqs : q.slot? b i = some sl := (c2 b i).trans hs
  rw [hqs]
  dsimp only
  have hqd : q.datumOf b = some d := by
    rw [← hd]; unfold State.datumOf
    rw [c3.bank, c1.datum]
  obtain ⟨s1, s2, s3, s4, s5, s6, t, s7, _, s9⟩ := State.supplyTarget_moves q b i sl hqs
  have sl' := q.supplyTarget_link b i sl
  have oth : (q.supplyTarget b i sl).bank b.other = q.bank b.other := by
    unfold State.supplyTarget
    split
    · rfl
    · exact State.setBank_bank_other _ _ _ _ (BankId.other_ne b)
    · rfl
  have := s9 d hqd
  subst this
  rw [← ht] at s7
  generalize q.supplyTarget b i sl = v at *
  rw [s7]
  dsimp only
  have hz : v.zoneFails { sl with target := some target } = !u.zone.admits target := by
    unfold State.zoneFails; rw [s1.zone, c1.zone]; rfl
  rw [hz]
  refine ⟨fun hadm => ?_, fun hadm => ?_⟩
  · rw [hadm]
    simp only [Bool.not_false, if_true]
    refine (State.feedSteps_feedMove n _).slots b i _ ?_ rfl
    rw [State.moveCursor_slot?]
    exact State.recordStatus_self _ _ _ _ _ s7
  · rw [hadm]
    simp only [Bool.not_true, Bool.false_eq_true, if_false]
    have hvp : v.feed.pointer = b := by rw [s3, c6]
    obtain ⟨g1, g2, g3, g4, g5, g6, g7, g8, g9⟩ := State.feedEntry_moves v b p i _ s7 hvp
    have vm : v.mode.mode = .laying := by rw [s4, c3m]; exact hm
    obtain ⟨before, after, g10, g11, g12⟩ := State.feedEntry_walkEnd v b p i { sl with target := some target } s7 hvp vm
      (by rw [(s6 b).1, c3.bank]; exact ha)
    have quiet : u.awaitsSpent b.other = false → v.plan.order = u.plan.order ∧ v.bank b.other = u.bank b.other := fun h => by
      obtain ⟨qp, _⟩ := c3.quiet h
      exact ⟨by rw [s5, qp], by rw [oth, State.bank_of_plan _ _ qp]⟩
    have ul : (v.bank b).slots.length = (u.bank b).slots.length := by rw [(s6 b).2.2, c3.bank]
    have vt : v.train = u.train := by rw [s1.train, c1.train]
    have tag : v.feed.nextTag = u.feed.nextTag := by rw [s3, c5.1]
    refine ⟨g1, fun c j h => by rw [g2 c j h, s2 c j h, c2 c j], ?_, by rw [g4, tag], fun h => g5 (by rw [ul]; exact h),
      by rw [g6, (s6 b).1, c3.bank], fun h => ?_, fun h => by rw [g8 h, s4, c3.switch0 h], fun h => by rw [g9 h, s4, c3.switch1 h], ?_⟩
    · rw [g3, vt]; unfold State.newEntry; rw [vt, tag]
    · obtain ⟨qp, _⟩ := c3.quiet h
      have vo : v.awaitsSpent b.other = false := by
        unfold State.awaitsSpent at *; rw [oth, State.bank_of_plan _ _ qp]; exact h
      exact ⟨by rw [(g7 vo).1, s5, qp], by rw [(g7 vo).2, oth, State.bank_of_plan _ _ qp]⟩
    · obtain ⟨ns, hn, hl⟩ := cl
      refine ⟨ns ++ before, after, fun m hm => ?_, ?_, fun h hq => ?_⟩
      · rw [List.append_assoc] at hm
        exact (List.mem_append.mp hm).elim (hn m) (g10 m)
      · rw [g11, tag, State.raisedLink_congr _ sl', State.raisedLink_append ns _ hl, List.append_assoc]
      · have h0 : u.awaitsSpent b.other = false := by
          by_cases e : (u.bank b.other).state = .active
          · exact hq e
          · unfold State.awaitsSpent; simp [e]
        obtain ⟨q1, q2⟩ := quiet h0
        have := g12 (by rw [ul]; exact h)
        rw [q1, q2] at this
        exact this

end Sys2Proof.Machine
end

