-- ==== Sys2Proof/Laws/Rollback.lean ====
section
/-! SUPPORT. What a run of withdrawals makes of the slots, and what a rollback leaves of pointer and cursor. -/

namespace Sys2Proof.Machine

/-- Step 1 of a rollback is the withdrawal of the younger live bricks of the train and the cradles, in train order (R64). -/
theorem State.rollback_eq (s : State) (n : Nat) : s.rollback n =
    (s.liveBricks.filter fun x => decide (n < x.1.serial) && decide (x.2 ≠ .gripper)).foldl
      (fun s x => s.withdraw x .rollback) s := by
  have one : ∀ (u : State) (x : Brick × BrickPlace), x.2 ≠ .gripper → u.rejectOnPath x .rollback = u.withdraw x .rollback := by
    rintro u ⟨b, p⟩ h
    cases p with
    | gripper => exact absurd rfl h
    | cradle c => rfl
    | train => rfl
  have skip : ∀ (u : State) (x : Brick × BrickPlace), x.2 = .gripper → u.rejectOnPath x .rollback = u := by
    rintro u ⟨b, p⟩ h
    dsimp only at h
    subst h; rfl
  unfold State.rollback
  generalize s.liveBricks = l
  induction l generalizing s with
  | nil => rfl
  | cons a l ih =>
    rw [List.filter_cons, List.filter_cons]
    by_cases h1 : n < a.1.serial
    · by_cases h2 : a.2 = .gripper
      · simp only [h1, h2, decide_true, if_true, ne_eq, not_true_eq_false, decide_false, Bool.and_false, Bool.false_eq_true,
          if_false, List.foldl_cons]
        rw [skip s a h2]; exact ih s
      · simp only [h1, h2, decide_true, if_true, ne_eq, not_false_eq_true, Bool.and_true, List.foldl_cons]
        rw [one s a h2]; exact ih _
    · simp only [h1, decide_false, Bool.false_and, Bool.false_eq_true, if_false]
      exact ih s

/-- A run of withdrawals: every brick's FED slot is what the reject makes of it, and every other slot is kept (R17, R64, R87). -/
theorem State.withdraw_fold_slots (s : State) (r : RejectReason) (hr : r.brickSpecific = false) (ha : s.bricksApart)
    (l : List (Brick × BrickPlace)) (hl : l.Pairwise separate) (hm : ∀ x ∈ l, x ∈ s.liveBricks ∧ s.withdrawable x = true)
    (u : State) (hu : u.bricksApart) (hk : ∀ x ∈ l, s.heldAs u x) (hc : u.mode.cradleCount = s.mode.cradleCount) :
    (∀ x ∈ l, ∀ sl, u.slot? x.1.bank x.1.slot = some sl → sl.status.isFed = true →
      (l.foldl (fun s x => s.withdraw x r) u).slot? x.1.bank x.1.slot = some (sl.afterReject r)) ∧
    (∀ b i, (∀ x ∈ l, b ≠ x.1.bank ∨ i ≠ x.1.slot) →
      (l.foldl (fun s x => s.withdraw x r) u).slot? b i = u.slot? b i) := by
  induction l generalizing u with
  | nil => exact ⟨fun x h => (by cases h), fun _ _ _ => rfl⟩
  | cons a l ih =>
    obtain ⟨l1, l2⟩ := List.pairwise_cons.mp hl
    have hu' := (u.withdraw_withdrawMove a r).apart hu
    have hk' : ∀ x ∈ l, s.heldAs (u.withdraw a r) x := fun y hy =>
      (hk y (by simp [hy])).trans (u.withdraw_heldAs y a r hr (l1 y hy).symm)
    obtain ⟨i1, i2⟩ := ih l2 (fun y hy => hm y (by simp [hy])) _ hu' hk' (by rw [(u.withdraw_withdrawMove a r).mode]; exact hc)
    have alive : a ∈ u.liveBricks := (hk a (by simp)).live hc (hm a (by simp)).1
    have oth := u.withdraw_other a r hr (List.mem_filter.mp alive).1
    have own : ∀ sl, u.slot? a.1.bank a.1.slot = some sl → sl.status.isFed = true →
        (l.foldl (fun s x => s.withdraw x r) (u.withdraw a r)).slot? a.1.bank a.1.slot = some (sl.afterReject r) := by
      intro sl hs hf
      have w := State.withdraw_self s u a r hr ha hu (hm a (by simp)).1 (hm a (by simp)).2 (hk a (by simp)) sl hs
      rw [if_pos hf] at w
      rcases State.foldl_slotsRejected (fun s x => s.withdraw x r) r (fun s a => s.withdraw_slotsRejected a r hr) l _ _ _ _ w
        with h | ⟨h, _⟩
      · exact h
      · rw [Slot.afterReject_notFed] at h; cases h
    refine ⟨fun x hx sl hs hf => ?_, fun b i h => ?_⟩
    · by_cases hsame : x.1.bank ≠ a.1.bank ∨ x.1.slot ≠ a.1.slot
      · rcases List.mem_cons.mp hx with rfl | hx
        · rcases hsame with h | h <;> exact absurd rfl h
        · exact i1 x hx sl (by rw [← hs]; exact oth _ _ hsame) hf
      · simp only [not_or, ne_eq, Decidable.not_not] at hsame
        rw [hsame.1, hsame.2]
        exact own sl (by rw [← hsame.1, ← hsame.2]; exact hs) hf
    · show (l.foldl _ (u.withdraw a r)).slot? b i = _
      rw [i2 b i fun x hx => h x (by simp [hx])]
      exact oth b i (h a (by simp))

/-! ## The cursor during a rollback (R61, R62, R64) -/

/-- The PENDING slot at a walk position of an ACTIVE bank lies before the cursor point. -/
structure Behind (s u : State) (b : BankId) (i p : Nat) : Prop where
  active : (u.bank b).state = .active
  slot   : ∃ sl, u.slot? b i = some sl ∧ sl.status = .pending
  walk   : ∀ c, WalkKept (s.bank c) (u.bank c)
  order  : u.plan.order = s.plan.order ∨ u.plan.order = [b]
  before : u.beforeCursor b p = true

theorem State.beforeCursor_congr {u v : State} (ho : v.plan.order = u.plan.order)
    (hs : ∀ c, (v.bank c).state = (u.bank c).state) (hp : v.feed.pointer = u.feed.pointer) (hc : v.feed.cursor = u.feed.cursor)
    (b : BankId) (p : Nat) : v.beforeCursor b p = u.beforeCursor b p := by
  unfold State.beforeCursor State.layBanks
  rw [ho, hp, hc, hs]

theorem State.testSpent_order (s : State) (b : BankId) :
    (s.testSpent b).plan.order = s.plan.order ∨ (s.testSpent b).plan.order = s.plan.order.erase b := by
  unfold State.testSpent
  split
  · exact .inr (s.spend_order b)
  · exact .inl rfl

/-- A later slot returned to PENDING leaves the cursor point behind the earlier one (R62). -/
theorem Behind.reject {s u v : State} {b : BankId} {i p : Nat} (h : Behind s u b i p) (vp : v.plan = u.plan)
    (vf : v.feed = u.feed) (y : Brick) (ho : s.plan.order ∈ [[b], [b, b.other], [b.other, b]])
    (hy : y.bank = b ∧ (∃ q, (s.bank b).walkPosition y.slot = some q ∧ p < q) ∨
      y.bank = b.other ∧ s.plan.order.head? = some b) : Behind s (v.reportReject y .rollback) b i p := by
  have vb : ∀ c, v.bank c = u.bank c := fun c => State.bank_of_plan _ _ vp c
  have vs : ∀ c j, v.slot? c j = u.slot? c j := fun c j => State.slotsKept_of_plan vp c j
  have hv : Behind s v b i p := ⟨by rw [vb]; exact h.active, by rw [vs]; exact h.slot, fun c => by rw [vb]; exact h.walk c,
    by rw [vp]; exact h.order,
    by rw [State.beforeCursor_congr (u := u) (by rw [vp]) (fun c => by rw [vb]) (by rw [vf]) (by rw [vf])]; exact h.before⟩
  clear h vb vs vp vf u
  -- the status recorded
  have rj : Behind s (v.recordReject y.bank y.slot .rollback) b i p := by
    unfold State.recordReject
    cases e : v.slot? y.bank y.slot with
    | none => exact hv
    | some sl =>
      dsimp only
      split
      swap
      · exact hv
      rename_i hfed
      have self := v.setSlot_slot?_self y.bank y.slot (sl.afterReject .rollback) (by rw [e]; rfl)
      have nd := State.spentDue_of_open (v.setSlot y.bank y.slot (sl.afterReject .rollback)).evalSupply y.bank y.slot _
        (by rw [State.evalSupply_slot?]; exact self) rfl
      rw [(State.spendIfDue_point _ _).1 nd]
      have hb : ∀ c, (v.setSlot y.bank y.slot (sl.afterReject .rollback)).evalSupply.bank c =
          (v.setSlot y.bank y.slot (sl.afterReject .rollback)).bank c :=
        fun c => State.bank_of_plan _ _ (State.evalSupply_plan _) c
      have hst : ∀ c, ((v.setSlot y.bank y.slot (sl.afterReject .rollback)).bank c).state = (v.bank c).state := fun c => by
        unfold State.setSlot
        by_cases hc : c = y.bank
        · subst hc; rw [State.setBank_bank_self]
        · rw [State.setBank_bank_other _ _ _ _ hc]
      refine ⟨by rw [hb, hst]; exact hv.active, ?_, fun c => ?_, by simp [State.setSlot]; simpa using hv.order, ?_⟩
      · obtain ⟨sl', h1, h2⟩ := hv.slot
        by_cases hsame : b = y.bank ∧ i = y.slot
        · rw [hsame.1, hsame.2] at h1
          rw [e] at h1; cases h1
          rw [h2] at hfed; cases hfed
        · refine ⟨sl', ?_, h2⟩
          rw [State.evalSupply_slot?, State.setSlot_slot?_other _ _ _ _ b i (by tauto)]
          exact h1
      · rw [hb]
        exact (hv.walk c).trans (State.setSlot_walkKept v y.bank y.slot (sl.afterReject .rollback) sl e rfl c)
      · rw [State.beforeCursor_congr (u := v) (by simp [State.setSlot]) (fun c => by rw [hb, hst])
          (by rw [State.evalSupply_feed]; rfl) (by rw [State.evalSupply_feed]; rfl)]
        exact hv.before
  unfold State.reportReject
  dsimp only
  split
  swap
  · exact rj
  generalize v.recordReject y.bank y.slot .rollback = w at rj
  unfold State.cursorReturn
  cases hret : w.returnPoint y.bank y.slot with
  | none => exact rj
  | some q =>
    dsimp only
    obtain ⟨hq, hbq⟩ := Option.filter_eq_some_iff.mp hret
    rw [(rj.walk y.bank).walkPosition] at hq
    have bk := State.moveCursor_bankKept w y.bank q
    have pt := State.moveCursor_point w y.bank q
    have open' : ∃ sl, w.slot? b i = some sl ∧ sl.status.isOpen = true := by
      obtain ⟨sl, h1, h2⟩ := rj.slot
      exact ⟨sl, h1, by rw [h2]; rfl⟩
    have sw : ∀ c, WalkKept (w.bank c) ((w.moveCursor y.bank q).bank c) := by
      intro c
      unfold State.moveCursor State.testSpent
      split
      · by_cases hc : c = y.bank.other
        · rw [hc, State.spend_state, State.bank_of_plan _ _ (State.placeCursor_plan _ _ _)]
          exact ⟨rfl, rfl⟩
        · rw [State.spend_bank_other _ _ _ hc, State.bank_of_plan _ _ (State.placeCursor_plan _ _ _)]
          exact .refl _
      · rw [State.bank_of_plan _ _ (State.placeCursor_plan _ _ _)]
        exact .refl _
    rcases hy with ⟨hb, q', hq', hlt⟩ | ⟨hb, hh⟩
    · rw [hb] at hq bk pt sw ⊢
      rw [hq] at hq'; cases hq'
      have ord : (w.moveCursor b q).plan.order = w.plan.order ∨
          (w.moveCursor b q).plan.order = w.plan.order.erase b.other := by
        have := State.testSpent_order (w.placeCursor b q) b.other
        rwa [State.placeCursor_plan] at this
      have act : ((w.moveCursor b q).bank b).state = .active := by rw [bk.bank]; exact rj.active
      have er : ([b, b.other] : List BankId).erase b.other = [b] ∧ ([b.other, b] : List BankId).erase b.other = [b] ∧
          ([b] : List BankId).erase b.other = [b] := by cases b <;> decide
      have ord' : (w.moveCursor b q).plan.order = s.plan.order ∨ (w.moveCursor b q).plan.order = [b] := by
        rcases ord with o | o <;> rw [o]
        · exact rj.order
        · rcases rj.order with k | k <;> rw [k]
          · simp only [List.mem_cons, List.not_mem_nil, or_false] at ho
            rcases ho with k' | k' | k' <;> rw [k']
            · exact .inr er.2.2
            · exact .inr er.1
            · exact .inr er.2.1
          · exact .inr er.2.2
      refine ⟨act, ?_, fun c => (rj.walk c).trans (sw c), ord', ?_⟩
      · rw [State.moveCursor_slot?]; exact rj.slot
      · unfold State.beforeCursor State.layBanks
        rw [pt.1, pt.2, act]
        simp only [reduceCtorEq, if_false, List.append_nil]
        have hm : ∃ a, (w.moveCursor b q).plan.order.idxOf? b = some a := by
          have : b ∈ (w.moveCursor b q).plan.order := by
            rcases ord' with k | k <;> rw [k]
            · simp only [List.mem_cons, List.not_mem_nil, or_false] at ho
              rcases ho with k' | k' | k' <;> rw [k'] <;> simp
            · simp
          exact Option.isSome_iff_exists.mp (by simpa [List.isSome_idxOf?] using this)
        obtain ⟨a, ha⟩ := hm
        rw [ha]
        simp [hlt]
    · have hpl : (w.moveCursor y.bank q).plan = w.plan := by
        obtain ⟨sl, h1, h2⟩ := open'
        unfold State.moveCursor
        rw [hb, BankId.other_other, State.testSpent_of_open _ _ i sl (by rw [State.placeCursor_slot?]; exact h1) h2]
        exact State.placeCursor_plan _ _ _
      refine ⟨?_, by rw [State.moveCursor_slot?]; exact rj.slot, fun c => (rj.walk c).trans (sw c), by rw [hpl]; exact rj.order, ?_⟩
      · rw [State.bank_of_plan _ _ hpl]; exact rj.active
      · have ow : w.plan.order = [b] ∨ w.plan.order = [b, b.other] := by
          rcases rj.order with k | k <;> rw [k]
          · simp only [List.mem_cons, List.not_mem_nil, or_false] at ho
            rcases ho with k' | k' | k' <;> rw [k'] at hh ⊢
            · exact .inl rfl
            · exact .inr rfl
            · simp at hh; exact absurd hh (BankId.other_ne b)
          · exact .inl rfl
        unfold State.beforeCursor State.layBanks
        rw [pt.1, pt.2, hpl, hb]
        have : b.other ≠ b := BankId.other_ne b
        rcases ow with k | k <;> rw [k] <;> split <;> cases b <;>
          simp_all [BankId.other, List.idxOf?, List.findIdx?_cons] <;> omega

/-- A rollback whose bricks' slots lie later leaves the cursor point behind the rejected slot (R64). -/
theorem Behind.withdraw_fold {s : State} {b : BankId} {i p : Nat}
    (ho : s.plan.order ∈ [[b], [b, b.other], [b.other, b]]) (l : List (Brick × BrickPlace)) (hl : l.Pairwise separate)
    (hm : ∀ x ∈ l, x ∈ s.liveBricks)
    (hy : ∀ x ∈ l, x.1.bank = b ∧ (∃ q, (s.bank b).walkPosition x.1.slot = some q ∧ p < q) ∨
      x.1.bank = b.other ∧ s.plan.order.head? = some b)
    (u : State) (h : Behind s u b i p) (hk : ∀ x ∈ l, s.heldAs u x) (hc : u.mode.cradleCount = s.mode.cradleCount) :
    Behind s (l.foldl (fun s x => s.withdraw x .rollback) u) b i p := by
  induction l generalizing u with
  | nil => exact h
  | cons a l ih =>
    obtain ⟨l1, l2⟩ := List.pairwise_cons.mp hl
    refine ih l2 (fun x hx => hm x (by simp [hx])) (fun x hx => hy x (by simp [hx])) _ ?_
      (fun x hx => (hk x (by simp [hx])).trans (u.withdraw_heldAs x a .rollback rfl (l1 x hx).symm))
      (by rw [(u.withdraw_withdrawMove a .rollback).mode]; exact hc)
    have alive : a ∈ u.liveBricks := (hk a (by simp)).live hc (hm a (by simp))
    rcases u.withdraw_reports a .rollback rfl (List.mem_filter.mp alive).1 with e | ⟨v, y, h1, h2, _, h4, h5, h6⟩
    · show Behind s (u.withdraw a .rollback) b i p
      rw [e]; exact h
    · show Behind s (u.withdraw a .rollback) b i p
      rw [h6]
      exact h.reject h1 h2 y ho (by rw [h4, h5]; exact hy a (by simp))

/-- The cursor return of a slot that lies before the cursor point (R62). -/
theorem Behind.cursorReturn {s u : State} {b : BankId} {i p : Nat} (h : Behind s u b i p)
    (hp : (s.bank b).walkPosition i = some p) :
    (u.cursorReturn b i).feed.pointer = b ∧ (u.cursorReturn b i).feed.cursor = p := by
  have : u.returnPoint b i = some p := by
    unfold State.returnPoint
    rw [(h.walk b).walkPosition, hp]
    exact Option.filter_eq_some_iff.mpr ⟨rfl, h.before⟩
  unfold State.cursorReturn
  rw [this]
  exact u.moveCursor_point b p

end Sys2Proof.Machine
end

