-- ==== Sys2Proof/Laws/Follows.lean ====
section
/-! SUPPORT. What follows a brick-specific reject: the notices of a withdrawal and of a run of withdrawals, and the rollback
that a report of the reject brings. -/

namespace Sys2Proof.Machine

/-! ## Notices apart from those of the plan and the walk -/

/-- The notices raised from one state to the other that are not the plan's and the walk's. -/
def Raises (s t : State) (ns : List Notice) : Prop :=
  ∃ all, t.link = s.raisedLink all ∧ (all.filter fun n => !n.ofPlan) = ns

theorem PlanRaises.raises {s t : State} (h : PlanRaises s t) : Raises s t [] := by
  obtain ⟨ns, hn, hl⟩ := h
  exact ⟨ns, hl, List.filter_eq_nil_iff.mpr fun n hm => by simp [hn n hm]⟩

theorem Raises.trans {s t u : State} {ns ms : List Notice} (h : Raises s t ns) (k : Raises t u ms) :
    Raises s u (ns ++ ms) := by
  obtain ⟨a, h1, h2⟩ := h
  obtain ⟨b, k1, k2⟩ := k
  exact ⟨a ++ b, k1.trans (State.raisedLink_append a b h1), by rw [List.filter_append, h2, k2]⟩

/-- The notices raised from a state are told by its link. -/
theorem Raises.congr {s s' t : State} {ns : List Notice} (h : Raises s t ns) (e : s.link = s'.link) : Raises s' t ns := by
  obtain ⟨a, h1, h2⟩ := h
  exact ⟨a, h1.trans (State.raisedLink_congr a e), h2⟩

/-- A reject recorded raises notices of the plan and the walk alone. -/
theorem State.recordReject_planRaises (s : State) (b : BankId) (i : Nat) (r : RejectReason) :
    PlanRaises s (s.recordReject b i r) := by
  obtain ⟨ns, hn, hl⟩ := s.recordReject_notices b i r
  exact ⟨ns, hn.1, hl⟩

/-- A reject reported raises notices of the plan and the walk alone (R61). -/
theorem State.reportReject_planRaises (s : State) (b : Brick) (r : RejectReason) : PlanRaises s (s.reportReject b r) := by
  have k := s.recordReject_planRaises b.bank b.slot r
  unfold State.reportReject
  dsimp only
  split
  · exact k.trans (State.cursorReturn_spendMove _ _ _).planRaises
  · exact k

/-- A REJECTED raised, and the reject reported. -/
theorem State.raiseRejected_raises (s : State) (b : Brick) (r : RejectReason) :
    Raises s ((s.raiseRejected b r).reportReject b r) [.rejected b.tag b.bank b.slot r] := by
  have : Raises s (s.raiseRejected b r) [.rejected b.tag b.bank b.slot r] :=
    ⟨[.rejected b.tag b.bank b.slot r], State.raise_link_congr _ rfl, rfl⟩
  exact this.trans (State.reportReject_planRaises _ b r).raises

/-- The notices of a withdrawal of a live brick (R79, R84, R142). -/
theorem State.withdraw_raises (s : State) (x : Brick × BrickPlace) (r : RejectReason) (hr : r.brickSpecific = false)
    (ha : s.bricksApart) (hx : x ∈ s.liveBricks) :
    Raises s (s.withdraw x r) (if s.rejectedAtOnce x then [.rejected x.1.tag x.1.bank x.1.slot r] else []) := by
  obtain ⟨b, p⟩ := x
  obtain ⟨hm, hl⟩ := List.mem_filter.mp hx
  have hl : b.live = true := hl
  unfold State.withdraw
  rcases (s.mem_bricks b p).mp hm with ⟨rfl, g, hg', hgb⟩ | ⟨c, cb, rfl, hc, hcb, rfl⟩ | ⟨rfl, e, he, rfl⟩
  · rw [if_neg (show ¬ s.rejectedAtOnce (b, .gripper) = true from Bool.false_ne_true)]
    dsimp only
    unfold State.rejectInGripper
    rw [hg']
    dsimp only
    split
    · rw [State.enterAbandoning_eq, hr, if_neg (by simp)]
      exact (State.reportReject_planRaises _ _ _).raises.congr rfl
    · exact ⟨[], rfl, rfl⟩
  · have tipped : Raises s (((s.tip c cb r).raiseRejected cb.brick r).reportReject cb.brick r)
        [.rejected cb.brick.tag cb.brick.bank cb.brick.slot r] :=
      (State.raiseRejected_raises _ _ _).congr (by simp [State.tip])
    have once : s.rejectedAtOnce (cb.brick, .cradle c) =
        (match s.cradle c with | .ready _ _ => decide (s.place.pickCradle ≠ some c) | _ => true) := rfl
    dsimp only
    unfold State.rejectInCradle
    cases e : s.cradle c with
    | empty => rw [e] at hcb; cases hcb
    | tipping y d =>
      rw [e] at hcb; cases hcb
      exact absurd (by simpa [Brick.live] using hl) (ha.2.2 c _ _ e)
    | held y =>
      rw [e] at hcb once; cases hcb
      dsimp only
      rw [if_pos hl, if_pos once]
      exact tipped
    | gluing y =>
      rw [e] at hcb once; cases hcb
      dsimp only
      rw [if_pos hl, if_pos once]
      exact (State.raiseRejected_raises _ _ _).congr (by simp)
    | ready y d =>
      rw [e] at hcb once; cases hcb
      dsimp only at once ⊢
      rw [hl, once]
      simp only [Bool.not_true, Bool.false_eq_true, if_false]
      by_cases hp : s.place.pickCradle = some c
      · rw [if_pos hp, if_neg (by simpa using hp)]
        exact (State.reportReject_planRaises _ _ _).raises.congr (by simp)
      · rw [if_neg hp, if_pos (by simpa using hp)]
        exact tipped
  · have hf := find_brick _ e.brick e ha.1 he rfl
    rw [if_pos (show s.rejectedAtOnce (e.brick, .train) = true from rfl)]
    dsimp only
    unfold State.rejectInTrain
    rw [hf]
    dsimp only
    rw [hl]
    simp only [Bool.not_true, Bool.false_eq_true, if_false]
    split
    · exact (State.raiseRejected_raises _ _ _).congr rfl
    · exact (State.raiseRejected_raises _ _ _).congr rfl

theorem State.heldAs.rejectedAtOnce {s t : State} {x : Brick × BrickPlace} (k : s.heldAs t x) :
    t.rejectedAtOnce x = s.rejectedAtOnce x := by
  obtain ⟨b, p⟩ := x
  obtain ⟨_, kp, k'⟩ := k
  unfold State.rejectedAtOnce
  cases p with
  | gripper => rfl
  | train => rfl
  | cradle c =>
    have k' : t.cradle c = s.cradle c := k'
    dsimp only
    rw [k', kp]

/-- The notices of a run of withdrawals: a REJECTED for each brick that is rejected at once, in the run's order (R64). -/
theorem State.withdraw_fold_raises (s : State) (r : RejectReason) (hr : r.brickSpecific = false)
    (l : List (Brick × BrickPlace)) (hl : l.Pairwise separate) (hm : ∀ x ∈ l, x ∈ s.liveBricks)
    (u : State) (hu : u.bricksApart) (hk : ∀ x ∈ l, s.heldAs u x) (hc : u.mode.cradleCount = s.mode.cradleCount) :
    Raises u (l.foldl (fun s x => s.withdraw x r) u)
      ((l.filter s.rejectedAtOnce).map fun x => .rejected x.1.tag x.1.bank x.1.slot r) := by
  induction l generalizing u with
  | nil => exact ⟨[], rfl, rfl⟩
  | cons a l ih =>
    obtain ⟨l1, l2⟩ := List.pairwise_cons.mp hl
    have ka := hk a (by simp)
    have h1 := u.withdraw_raises a r hr hu (ka.live hc (hm a (by simp)))
    have h2 := ih l2 (fun y hy => hm y (by simp [hy])) (u.withdraw a r) ((u.withdraw_withdrawMove a r).apart hu)
      (fun y hy => (hk y (by simp [hy])).trans (u.withdraw_heldAs y a r hr (l1 y hy).symm))
      (by rw [(u.withdraw_withdrawMove a r).mode]; exact hc)
    have h3 := h1.trans h2
    rw [ka.rejectedAtOnce] at h3
    rw [List.filter_cons]
    by_cases e : s.rejectedAtOnce a = true
    · rw [if_pos e] at h3 ⊢
      exact h3
    · rw [if_neg e] at h3 ⊢
      exact h3

/-! ## The younger bricks -/

theorem insertInOrder_map (g : Brick × BrickPlace → Brick × BrickPlace) (hg : ∀ x, (g x).1.serial = x.1.serial)
    (x : Brick × BrickPlace) (l : List (Brick × BrickPlace)) :
    insertInOrder (g x) (l.map g) = (insertInOrder x l).map g := by
  induction l with
  | nil => rfl
  | cons a l ih =>
    rw [List.map_cons]
    unfold insertInOrder
    rw [hg, hg]
    split
    · rfl
    · rw [ih]; rfl

/-- Train order depends on the serial numbers alone (R51). -/
theorem insertAll_map (g : Brick × BrickPlace → Brick × BrickPlace) (hg : ∀ x, (g x).1.serial = x.1.serial)
    (l : List (Brick × BrickPlace)) : (l.map g).foldr insertInOrder [] = (l.foldr insertInOrder []).map g := by
  induction l with
  | nil => rfl
  | cons a l ih => rw [List.map_cons, List.foldr_cons, ih, insertInOrder_map g hg]; rfl

/-- A record changed that keeps its serial number, and is the only one changed, leaves the younger bricks. -/
theorem State.younger_of_map {s t : State} (b : Brick) (g : Brick × BrickPlace → Brick × BrickPlace)
    (hg : ∀ x, (g x).1.serial = x.1.serial) (hn : ∀ x, x.1.serial ≠ b.serial → g x = x) (h : t.bricks = s.bricks.map g) :
    t.younger b = s.younger b := by
  unfold State.younger State.liveBricks
  rw [h, List.filter_filter, List.filter_filter]
  generalize s.bricks = l
  induction l with
  | nil => rfl
  | cons a l ih =>
    rw [List.map_cons, List.filter_cons, List.filter_cons, ih, hg]
    by_cases e : b.serial < a.1.serial
    · rw [hn a (by omega)]
    · simp [e]

theorem PlanMove.bricks {s t : State} (h : PlanMove s t) : t.bricks = s.bricks := by
  unfold State.bricks State.cradlesInUse State.cradle
  rw [h.place, h.cradles, h.train, h.cradleCount]

/-! ## A brick-specific reject reported (R63, R64) -/

/-- The state in which a brick-specific reject is reported: the rejected brick's own record may have changed, and nothing else
that a rollback reads. -/
structure RejectPoint (s t : State) (b : Brick) : Prop where
  plan    : t.plan = s.plan
  feed    : t.feed = s.feed
  running : t.faulted = false
  apart   : t.bricksApart
  cradles : t.mode.cradleCount = s.mode.cradleCount
  held    : ∀ x ∈ s.liveBricks, x.1.serial ≠ b.serial → s.heldAs t x
  younger : t.younger b = s.younger b

theorem Slot.afterReject_specific (sl : Slot) (r : RejectReason) (h : r.brickSpecific = true) :
    sl.afterReject r = { sl with
      rejectCount := sl.rejectCount + 1
      status := if sl.rejectCount + 1 < 3 then .pending else .refused .repeated } := by
  cases r <;> simp [RejectReason.brickSpecific] at h <;> simp only [Slot.afterReject] <;> split <;> rfl

/-- A slot returned to PENDING by a brick-specific reject lies before the cursor point where it lay there before (R61). -/
theorem RejectPoint.behind {s t : State} {b : Brick} (h : RejectPoint s t b) (r : RejectReason) (p : Nat) (sl : Slot)
    (hs : s.slot? b.bank b.slot = some sl) (hf : sl.status.isFed = true) (hp : (sl.afterReject r).status = .pending)
    (hc : (sl.afterReject r).course = sl.course) (ha : (s.bank b.bank).state = .active)
    (hb : s.beforeCursor b.bank p = true) : Behind s (t.recordReject b.bank b.slot r) b.bank b.slot p := by
  have ts : t.slot? b.bank b.slot = some sl := by rw [State.slotsKept_of_plan h.plan]; exact hs
  have tb : ∀ c, t.bank c = s.bank c := fun c => State.bank_of_plan _ _ h.plan c
  unfold State.recordReject
  rw [ts]
  dsimp only
  rw [if_pos hf]
  have self := t.setSlot_slot?_self b.bank b.slot (sl.afterReject r) (by rw [ts]; rfl)
  have nd := State.spentDue_of_open (t.setSlot b.bank b.slot (sl.afterReject r)).evalSupply b.bank b.slot _
    (by rw [State.evalSupply_slot?]; exact self) (by rw [hp]; rfl)
  rw [(State.spendIfDue_point _ _).1 nd]
  have eb : ∀ c, (t.setSlot b.bank b.slot (sl.afterReject r)).evalSupply.bank c =
      (t.setSlot b.bank b.slot (sl.afterReject r)).bank c := fun c => State.bank_of_plan _ _ (State.evalSupply_plan _) c
  have hst : ∀ c, ((t.setSlot b.bank b.slot (sl.afterReject r)).bank c).state = (s.bank c).state := fun c => by
    rw [State.setSlot_state, tb]
  refine ⟨by rw [eb, hst]; exact ha, ⟨_, by rw [State.evalSupply_slot?]; exact self, hp⟩, fun c => ?_,
    .inl (by simp [State.setSlot, h.plan]), ?_⟩
  · rw [eb, ← tb]; exact State.setSlot_walkKept t b.bank b.slot _ sl ts hc c
  · rw [State.beforeCursor_congr (u := s) (by simp [State.setSlot, h.plan]) (fun c => by rw [eb, hst])
      (by rw [State.evalSupply_feed]; show t.feed.pointer = _; rw [h.feed])
      (by rw [State.evalSupply_feed]; show t.feed.cursor = _; rw [h.feed])]
    exact hb

/-- The report of a brick-specific reject of a FED slot: the rollback and its notices, or none (R63, R64). -/
theorem RejectPoint.follows {s t : State} {b : Brick} (h : RejectPoint s t b) (ha : s.bricksApart) (r : RejectReason)
    (hr : r.brickSpecific = true) (sl : Slot) (hs : s.slot? b.bank b.slot = some sl) (hst : sl.status = .fed)
    (first : List Notice) (hl : t.link = s.raisedLink first) :
    s.followsReject (t.reportBrickReject b r) b (sl.rejectCount + 1) first := by
  have hfed : sl.status.isFed = true := by rw [hst]; rfl
  have ts : ∀ c j, t.slot? c j = s.slot? c j := fun c j => State.slotsKept_of_plan h.plan c j
  have aft := sl.afterReject_specific r hr
  have rp := State.recordReject_planMove t b.bank b.slot r
  have rn := State.recordReject_planRaises t b.bank b.slot r
  have hother := State.recordReject_other t b.bank b.slot r
  have S_held : ∀ x ∈ s.liveBricks, x.1.serial ≠ b.serial → s.heldAs (t.recordReject b.bank b.slot r) x :=
    fun x hx hn => (h.held x hx hn).trans (rp.heldAs x)
  have S_cc : (t.recordReject b.bank b.slot r).mode.cradleCount = s.mode.cradleCount := by rw [rp.cradleCount, h.cradles]
  have S_apart := rp.toPathMove.apart h.apart
  have S_young : (t.recordReject b.bank b.slot r).younger b = s.younger b := by
    rw [← h.younger]; unfold State.younger State.liveBricks; rw [rp.bricks]
  have hret : t.rejectReturns b.bank b.slot r = decide (sl.rejectCount + 1 < 3) := by
    unfold State.rejectReturns
    rw [ts, hs]
    simp only [hfed, Bool.true_and, aft]
    by_cases k : sl.rejectCount + 1 < 3 <;> simp [k, SlotStatus.isPending]
  have close : ∀ {v : State} {ns : List Notice}, Raises t v ns → ∃ rest, v.link = s.raisedLink (first ++ rest) ∧
      (rest.filter fun n => !n.ofPlan) = ns := fun k => by
    obtain ⟨all, k1, k2⟩ := k
    exact ⟨all, by rw [k1, State.raisedLink_append first all hl], k2⟩
  by_cases h3 : sl.rejectCount + 1 < 3
  swap
  · have form : t.reportBrickReject b r = t.recordReject b.bank b.slot r := by
      unfold State.reportBrickReject
      dsimp only
      rw [hret, if_neg (by simpa using h3)]
    rw [form]
    refine ⟨fun k => absurd k h3, fun _ x hx hne => (S_held x hx hne).live S_cc hx, ?_⟩
    rw [if_neg h3]
    exact close rn.raises
  have form : t.reportBrickReject b r =
      ((t.recordReject b.bank b.slot r).rollback b.serial).cursorReturn b.bank b.slot := by
    unfold State.reportBrickReject
    dsimp only
    rw [hret, if_pos (by simpa using h3), h.running]
    rfl
  have hpend : (sl.afterReject r).status = .pending := by rw [aft]; simp [h3]
  have behind := fun p => h.behind r p sl hs hfed hpend (by rw [aft])
  rw [form, State.rollback_eq]
  show s.followsReject (State.cursorReturn (((t.recordReject b.bank b.slot r).younger b).foldl
    (fun s x => s.withdraw x .rollback) _) _ _) _ _ _
  rw [S_young]
  have pw : (s.younger b).Pairwise separate := (s.liveBricks_apart ha).filter _
  have mem : ∀ x, x ∈ s.younger b ↔ x ∈ s.liveBricks ∧ b.serial < x.1.serial ∧ x.2 ≠ .gripper := fun x => by
    unfold State.younger; rw [List.mem_filter]; simp
  have hm : ∀ x ∈ s.younger b, x ∈ s.liveBricks ∧ s.withdrawable x = true := fun x hx => by
    obtain ⟨k1, _, k3⟩ := (mem x).mp hx
    refine ⟨k1, ?_⟩
    obtain ⟨y, pl⟩ := x
    cases pl with
    | gripper => exact absurd rfl k3
    | cradle c => rfl
    | train => rfl
  have hk : ∀ x ∈ s.younger b, s.heldAs (t.recordReject b.bank b.slot r) x := fun x hx =>
    S_held x ((mem x).mp hx).1 (by have := ((mem x).mp hx).2.1; omega)
  have cr := fun u : State => State.cursorReturn_planMove u b.bank b.slot
  refine ⟨fun _ => ⟨fun x hx => ⟨?_, fun y hdiff hy hyf => ?_⟩, fun x hx hlt => ?_, fun p hp hbef hact hord hy => ?_⟩,
    fun k => absurd h3 (by omega), ?_⟩
  · exact State.withdrawn_of_heldAs (s.withdraw_fold .rollback rfl ha _ pw hm _ S_apart hk x hx) ((cr _).heldAs x)
  · rw [State.cursorReturn_slot?]
    exact (s.withdraw_fold_slots .rollback rfl ha _ pw hm _ S_apart hk S_cc).1 x hx y
      (by rw [hother _ _ hdiff, ts]; exact hy) (by rw [hyf]; rfl)
  · have k := State.withdraw_fold_heldAs .rollback rfl (s.younger b) (t.recordReject b.bank b.slot r) x fun y hy => by
      by_cases hp : x.2 = y.2
      · refine s.liveBricks_separate ha hx (hm y hy).1 ?_
        rintro rfl
        have := ((mem x).mp hy).2.1; omega
      · exact .inl hp
    refine ((((S_held x hx (by omega)).trans k)).trans ((cr _).heldAs x)).live ?_ hx
    rw [(cr _).cradleCount, (WithdrawMove.foldl _ (fun s a => s.withdraw_withdrawMove a .rollback) (s.younger b) _).mode]
    exact S_cc
  · exact (Behind.withdraw_fold hord _ pw (fun x hx => (hm x hx).1)
      (fun x hx => hy x (hm x hx).1 ((mem x).mp hx).2.1) _ (behind p hact hbef) hk S_cc).cursorReturn hp
  · rw [if_pos h3]
    have f := s.withdraw_fold_raises .rollback rfl _ pw (fun x hx => ((mem x).mp hx).1) _ S_apart hk
      S_cc
    have all := (rn.raises.trans f).trans (State.cursorReturn_spendMove
      ((s.younger b).foldl (fun s x => s.withdraw x .rollback) (t.recordReject b.bank b.slot r)) b.bank b.slot).planRaises.raises
    rw [List.nil_append, List.append_nil] at all
    exact close all

/-! ## The points at which the blocks report a brick-specific reject (R76, R100, R142) -/

/-- A REJECTED raised before the report. -/
theorem RejectPoint.raiseRejected {s t : State} {b : Brick} (h : RejectPoint s t b) (r : RejectReason) :
    RejectPoint s (t.raiseRejected b r) b where
  plan := by rw [← h.plan]; simp
  feed := by rw [← h.feed]; simp
  running := by
    have := (State.raiseRejected_pathMove t b r).mode_mode
    have k := h.running
    unfold State.faulted at *; rw [this]; exact k
  apart := (State.raiseRejected_pathMove t b r).apart h.apart
  cradles := by rw [(State.raiseRejected_pathMove t b r).mode]; exact h.cradles
  held x hx hn := (h.held x hx hn).trans (t.raiseRejected_heldAs b r x)
  younger := by
    rw [← h.younger]
    refine State.younger_of_map b id (fun _ => rfl) (fun _ _ => rfl) ?_
    unfold State.bricks State.cradlesInUse State.cradle
    rw [(State.raiseRejected_pathMove t b r).mode, List.map_id]
    simp

/-- The brick of a cradle in use, marked in its place or tipped. -/
theorem State.setCradle_rejectPoint (s : State) (c : CradleId) (z : Cradle) (cb cb' : CradleBrick) (hf : s.faulted = false)
    (ha : s.bricksApart) (hc : (s.cradle c).brick? = some cb) (hz : z.brick? = some cb')
    (hs : cb'.brick.serial = cb.brick.serial) (ht : ∀ y d, z = .tipping y d → y.brick.mark ≠ none) :
    RejectPoint s (s.setCradle c z) cb.brick where
  plan := by simp
  feed := by simp
  running := by unfold State.faulted at *; simpa using hf
  apart := (s.setCradle_pathMove c z ht).apart ha
  cradles := by simp
  held x hx hn := by
    refine s.setCradle_heldAs c z x fun hp => hn ?_
    obtain ⟨y, pl⟩ := x
    dsimp only at hp
    subst hp
    rcases (s.mem_bricks y _).mp ((s.mem_liveBricks _ _).mp hx).1 with ⟨h, _⟩ | ⟨c', cb'', h, _, h2, rfl⟩ | ⟨h, _⟩
    · cases h
    · cases h; rw [hc] at h2; cases h2; rfl
    · cases h
  younger := by
    refine State.younger_of_map cb.brick
      (fun x => if x.2 = .cradle c ∧ x.1.serial = cb.brick.serial then (cb'.brick, .cradle c) else x) (fun x => ?_)
      (fun x hn => if_neg fun h => hn h.2) ?_
    · split
      · rename_i h; rw [h.2]; exact hs
      · rfl
    · unfold State.bricks
      dsimp only
      rw [← insertAll_map _ (fun x => by
        split
        · rename_i h; rw [h.2]; exact hs
        · rfl)]
      congr 1
      rw [List.map_append, List.map_append]
      have use : (s.setCradle c z).cradlesInUse = s.cradlesInUse := by unfold State.cradlesInUse; simp
      refine congrArg₂ _ (congrArg₂ _ ?_ ?_) ?_
      · simp [List.map_map, Function.comp_def]
      · rw [use, List.map_filterMap]
        congr 1
        funext d
        by_cases e : d = c
        · subst e; rw [State.setCradle_self, hz, hc]; simp
        · rw [State.setCradle_other _ _ _ _ e]
          cases (s.cradle d).brick? <;> simp [e]
      · simp [List.map_map, Function.comp_def]

/-- The gripper's brick in ABANDONING. -/
theorem State.abandoningState_rejectPoint (s : State) (g : GripperBrick) (r : RejectReason) (hf : s.faulted = false)
    (ha : s.bricksApart) (hg : s.place.gripper = some g) : RejectPoint s (s.abandoningState g r) g.brick where
  plan := rfl
  feed := rfl
  running := hf
  apart := ha
  cradles := rfl
  held x hx hn := by
    obtain ⟨y, pl⟩ := x
    refine ⟨rfl, rfl, ?_⟩
    cases pl with
    | gripper =>
      rcases (s.mem_bricks y _).mp ((s.mem_liveBricks _ _).mp hx).1 with ⟨_, g', h, rfl⟩ | ⟨_, _, h, _⟩ | ⟨h, _⟩
      · rw [hg] at h; cases h; exact absurd rfl hn
      · cases h
      · cases h
    | cradle c => rfl
    | train => rfl
  younger := by
    refine State.younger_of_map g.brick
      (fun x => if x.2 = .gripper ∧ x.1.serial = g.brick.serial then ({ x.1 with mark := some r }, .gripper) else x)
      (fun x => by split <;> rfl) (fun x hn => if_neg fun h => hn h.2) ?_
    unfold State.bricks
    dsimp only
    rw [← insertAll_map _ (fun x => by split <;> rfl)]
    congr 1
    rw [List.map_append, List.map_append]
    refine congrArg₂ _ (congrArg₂ _ ?_ ?_) ?_
    · rw [hg]; simp [State.abandoningState]
    · rw [List.map_filterMap]
      show s.cradlesInUse.filterMap _ = _
      congr 1
      funext d
      show ((s.cradle d).brick?.map _) = _
      cases (s.cradle d).brick? <;> simp
    · simp [List.map_map, Function.comp_def, State.abandoningState, State.centre]

/-- A train entry loaded and marked, every entry keeping its serial number, the other ones theirs. -/
theorem State.setEntries_rejectPoint (s : State) (b : Brick) (es : List TrainEntry) (m : Brick → Brick)
    (hf : s.faulted = false) (ha : s.bricksApart) (hm : ∀ y, (m y).serial = y.serial)
    (hn : ∀ y, y.serial ≠ b.serial → m y = y)
    (hb : es.map TrainEntry.brick = s.train.entries.map fun e => m e.brick)
    (hk : ∀ n, n ≠ b.serial → es.filter (fun e => decide (e.brick.serial = n)) =
      s.train.entries.filter fun e => decide (e.brick.serial = n)) : RejectPoint s (s.setEntries es) b where
  plan := rfl
  feed := rfl
  running := hf
  apart := by
    have ser : es.map (fun e => e.brick.serial) = s.train.entries.map fun e => e.brick.serial := by
      have := congrArg (List.map Brick.serial) hb
      simpa [List.map_map, Function.comp_def, hm] using this
    refine ⟨by show (es.map _).Nodup; rw [ser]; exact ha.1, fun e he => ?_, ha.2.2⟩
    have : e.brick.serial ∈ s.train.entries.map fun e => e.brick.serial := by rw [← ser]; exact List.mem_map_of_mem he
    obtain ⟨z, hz, hzs⟩ := List.mem_map.mp this
    show e.brick.serial < s.train.nextSerial
    rw [← hzs]; exact ha.2.1 z hz
  cradles := rfl
  held x _ hx := s.setEntries_heldAs es x fun _ => hk _ hx
  younger := by
    refine State.younger_of_map b (fun x => if x.2 = .train then (m x.1, x.2) else x)
      (fun x => by split <;> simp [hm])
      (fun x h => by split <;> [rw [hn _ h]; rfl]) ?_
    unfold State.bricks
    dsimp only
    rw [← insertAll_map _ (fun x => by split <;> simp [hm])]
    congr 1
    rw [List.map_append, List.map_append]
    refine congrArg₂ _ (congrArg₂ _ ?_ ?_) ?_
    · simp [List.map_map, Function.comp_def, State.setEntries]
    · rw [List.map_filterMap]
      show s.cradlesInUse.filterMap _ = _
      congr 1
      funext d
      show ((s.cradle d).brick?.map _) = _
      cases (s.cradle d).brick? <;> simp
    · show es.map _ = _
      have := congrArg (List.map fun y => (y, BrickPlace.train)) hb
      simpa [List.map_map, Function.comp_def] using this

end Sys2Proof.Machine
end

