-- ==== Sys2Proof/Laws/Returns.lean ====
section
/-! SUPPORT. Where several returns to PENDING leave pointer and cursor: the returns of a flush, and those of PURGE. -/

namespace Sys2Proof.Machine

/-! ## The cursor point, bank by bank -/

/-- The bank precedes the other one in an order list. -/
def BankId.leads (c : BankId) (o : List BankId) : Prop := c ∈ o ∧ (c.other ∈ o → o.idxOf c < o.idxOf c.other)

theorem BankId.leads_not_other {c : BankId} {o : List BankId} (h : c.leads o) : ¬ c.other.leads o := by
  intro k
  have := h.2 k.1
  have := k.2 (by rw [BankId.other_other]; exact h.1)
  rw [BankId.other_other] at this
  omega

theorem BankId.eq_other {b c : BankId} (h : c ≠ b) : c = b.other := by cases b <;> cases c <;> simp_all [BankId.other]

/-- The bank has a place in the lay order where the pointer names it (R51). -/
def State.hasPlace (s : State) (b : BankId) : Prop := b ∈ s.plan.order ∨ (s.bank b).state = .ready

theorem bankIdx_of_mem {c : BankId} {o : List BankId} (h : c ∈ o) : o.idxOf? c = some (o.idxOf c) := by
  induction o with
  | nil => cases h
  | cons a o ih =>
    rw [List.idxOf?_cons, List.idxOf_cons]
    by_cases e : a = c
    · simp [e]
    · have : c ∈ o := by simpa [Ne.symm e] using h
      rw [ih this]
      have : (a == c) = false := by simpa using e
      simp [this]

/-- Before the cursor point (R51): earlier in the pointed bank, or in a bank that precedes it. -/
theorem State.beforeCursor_iff (v : State) (c : BankId) (q : Nat) : v.beforeCursor c q = true ↔
    (c = v.feed.pointer ∧ v.hasPlace c ∧ q < v.feed.cursor) ∨ (c ≠ v.feed.pointer ∧ c.leads v.plan.order) := by
  unfold State.beforeCursor State.hasPlace BankId.leads
  have lay : v.layBanks = v.plan.order ++ (if (v.bank v.feed.pointer).state = .ready then [v.feed.pointer] else []) := rfl
  generalize v.plan.order = o at lay ⊢
  by_cases hc : c = v.feed.pointer
  · subst hc
    by_cases hm : v.feed.pointer ∈ v.layBanks
    · rw [bankIdx_of_mem hm]
      have : v.feed.pointer ∈ o ∨ (v.bank v.feed.pointer).state = .ready := by
        rw [lay] at hm
        rcases List.mem_append.mp hm with k | k
        · exact .inl k
        · split at k
          · exact .inr (by assumption)
          · cases k
      simp [this]
    · have n : v.layBanks.idxOf? v.feed.pointer = none := by rw [List.idxOf?_eq_none_iff]; exact hm
      rw [n]
      have : ¬ (v.feed.pointer ∈ o ∨ (v.bank v.feed.pointer).state = .ready) := by
        rintro (k | k) <;> apply hm <;> rw [lay]
        · exact List.mem_append_left _ k
        · rw [if_pos k]; simp
      simp [this]
  · have ho : c.other = v.feed.pointer := by rw [BankId.eq_other hc, BankId.other_other]
    have idx : ∀ {d : BankId}, d ∈ o → v.layBanks.idxOf? d = some (o.idxOf d) := by
      intro d hd
      rw [bankIdx_of_mem (by rw [lay]; exact List.mem_append_left _ hd), lay, List.idxOf_append_of_mem hd]
    by_cases hm : c ∈ o
    · rw [idx hm]
      by_cases hx : v.feed.pointer ∈ o
      · rw [idx hx]
        have : o.idxOf c ≠ o.idxOf v.feed.pointer := fun e => hc (List.idxOf_inj hm |>.mp e)
        simp [hc, hm, ho, hx, this]
      · by_cases hr : (v.bank v.feed.pointer).state = .ready
        · have : v.layBanks.idxOf? v.feed.pointer = some o.length := by
            rw [bankIdx_of_mem (by rw [lay, if_pos hr]; simp), lay, if_pos hr, List.idxOf_append_of_notMem hx]
            simp
          rw [this]
          have := List.idxOf_lt_length_of_mem hm
          simp [hc, hm, ho, hx, this]
        · have : v.layBanks.idxOf? v.feed.pointer = none := by
            rw [List.idxOf?_eq_none_iff, lay, if_neg hr]; simpa using hx
          rw [this]
          simp [hc, hm, ho, hx]
    · have : v.layBanks.idxOf? c = none := by
        rw [List.idxOf?_eq_none_iff, lay]
        intro k
        rcases List.mem_append.mp k with k | k
        · exact hm k
        · split at k
          · exact hc (by simpa using k)
          · cases k
      rw [this]
      simp [hc, hm]

theorem State.beforeCursor_false (v : State) (c : BankId) (q : Nat) : v.beforeCursor c q = false ↔
    ¬ ((c = v.feed.pointer ∧ v.hasPlace c ∧ q < v.feed.cursor) ∨ (c ≠ v.feed.pointer ∧ c.leads v.plan.order)) := by
  rw [← State.beforeCursor_iff]; simp

@[simp] theorem State.cursorAt_beforeCursor_iff (s : State) (b : BankId) (p : Nat) (c : BankId) (q : Nat) :
    (s.cursorAt b p).beforeCursor c q = true ↔
      (c = b ∧ s.hasPlace c ∧ q < p) ∨ (c ≠ b ∧ c.leads s.plan.order) := State.beforeCursor_iff _ _ _

/-- A slot before a place that lies before the cursor point lies before the cursor point too. -/
theorem State.cursorAt_trans (s : State) {b c d : BankId} {k p q : Nat} (h : (s.cursorAt b k).beforeCursor c p = true)
    (g : (s.cursorAt c p).beforeCursor d q = true) : (s.cursorAt b k).beforeCursor d q = true := by
  rw [State.cursorAt_beforeCursor_iff] at *
  by_cases hcb : c = b
  · subst hcb
    rcases h with ⟨_, h1, h2⟩ | ⟨h1, _⟩
    · rcases g with ⟨rfl, g1, g2⟩ | g
      · exact .inl ⟨rfl, g1, by omega⟩
      · exact .inr g
    · exact absurd rfl h1
  · rcases h with ⟨h1, _⟩ | ⟨_, h1⟩
    · exact absurd h1 hcb
    · rcases g with ⟨rfl, _⟩ | ⟨g1, g2⟩
      · exact .inr ⟨hcb, h1⟩
      · rw [BankId.eq_other g1] at g2
        exact absurd g2 (BankId.leads_not_other h1)

theorem State.cursorAt_irrefl (s : State) (b : BankId) (p : Nat) : (s.cursorAt b p).beforeCursor b p = false := by
  rw [Bool.eq_false_iff]
  intro h
  rw [State.cursorAt_beforeCursor_iff] at h
  rcases h with ⟨_, _, h⟩ | ⟨h, _⟩
  · omega
  · exact h rfl

/-- Of two places before the cursor point one lies before the other, or they are one place. -/
theorem State.cursorAt_total (s : State) {b c d : BankId} {k p q : Nat} (h : (s.cursorAt b k).beforeCursor c p = true)
    (g : (s.cursorAt b k).beforeCursor d q = true) (n : (s.cursorAt c p).beforeCursor d q = false)
    (m : (s.cursorAt d q).beforeCursor c p = false) : c = d ∧ p = q := by
  rw [← Bool.not_eq_true, State.cursorAt_beforeCursor_iff] at n m
  rw [State.cursorAt_beforeCursor_iff] at h g
  by_cases e : c = d
  · subst e
    have place : s.hasPlace c := by
      rcases h with ⟨_, h, _⟩ | ⟨_, h⟩
      · exact h
      · exact .inl h.1
    refine ⟨rfl, ?_⟩
    have : ¬ q < p := fun k => n (.inl ⟨rfl, place, k⟩)
    have : ¬ p < q := fun k => m (.inl ⟨rfl, place, k⟩)
    omega
  · have n' : ¬ d.leads s.plan.order := fun k => n (.inr ⟨Ne.symm e, k⟩)
    have m' : ¬ c.leads s.plan.order := fun k => m (.inr ⟨e, k⟩)
    rcases h with ⟨rfl, _⟩ | ⟨_, h⟩
    · rcases g with ⟨rfl, _⟩ | ⟨_, g⟩
      · exact absurd rfl e
      · exact absurd g n'
    · exact absurd h m'

/-! ## Several returns -/

/-- A move of the pointer clears the bank-needed flag (R58, R62). -/
theorem State.placeCursor_needed (s : State) (b : BankId) (c : Nat) :
    (s.placeCursor b c).feed.bankNeeded = if b = s.feed.pointer then s.feed.bankNeeded else false := by
  unfold State.placeCursor; rw [State.evalSupply_feed]

/-- Some slots have been returned, each with its cursor return: pointer and cursor stand where the first state has them and
none of the slots lies before, or on one of the slots, which no other precedes. The banks are those of the slots still to be
returned and of those returned. -/
structure Returned (s u : State) (banks : BankId → Prop) (done : BankId → Nat → Prop) : Prop where
  walk   : ∀ c, WalkKept (s.bank c) (u.bank c)
  place  : ∀ c, banks c → (u.hasPlace c ↔ s.hasPlace c)
  order  : (∀ c : BankId, c.leads u.plan.order ↔ c.leads s.plan.order) ∨ ∀ c, banks c → c = u.feed.pointer
  none   : ∀ c i q, done c i → (s.bank c).walkPosition i = some q →
    (s.cursorAt u.feed.pointer u.feed.cursor).beforeCursor c q = false
  point  : (u.feed.pointer = s.feed.pointer ∧ u.feed.cursor = s.feed.cursor ∨
    ∃ i, done u.feed.pointer i ∧ (s.bank u.feed.pointer).walkPosition i = some u.feed.cursor ∧
      s.beforeCursor u.feed.pointer u.feed.cursor = true)
  needed : u.feed.bankNeeded = if u.feed.pointer = s.feed.pointer then s.feed.bankNeeded else false

theorem Returned.start (s : State) (banks : BankId → Prop) : Returned s s banks (fun _ _ => False) :=
  ⟨fun c => .refl _, fun _ _ => .rfl, .inl fun _ => .rfl, fun _ _ _ h => h.elim, .inl ⟨rfl, rfl⟩, by simp⟩

/-- Steps that leave pointer, cursor, bank-needed flag, bank states and the order list. -/
theorem Returned.keep {s u v : State} {banks : BankId → Prop} {done : BankId → Nat → Prop} (h : Returned s u banks done)
    (hw : ∀ c, WalkKept (u.bank c) (v.bank c)) (hs : ∀ c, (v.bank c).state = (u.bank c).state)
    (ho : v.plan.order = u.plan.order) (hp : v.feed.pointer = u.feed.pointer) (hc : v.feed.cursor = u.feed.cursor)
    (hn : v.feed.bankNeeded = u.feed.bankNeeded) : Returned s v banks done :=
  ⟨fun c => (h.walk c).trans (hw c), fun c hb => by unfold State.hasPlace at *; rw [ho, hs]; exact h.place c hb,
    by rw [ho, hp]; exact h.order, by rw [hp, hc]; exact h.none, by rw [hp, hc]; exact h.point, by rw [hn, hp]; exact h.needed⟩

/-- Whether a slot of the banks lies before the cursor point is told from the first state. -/
theorem Returned.before {s u : State} {banks : BankId → Prop} {done : BankId → Nat → Prop} (h : Returned s u banks done)
    (c : BankId) (hc : banks c) (q : Nat) :
    u.beforeCursor c q = (s.cursorAt u.feed.pointer u.feed.cursor).beforeCursor c q := by
  rw [Bool.eq_iff_iff, State.beforeCursor_iff, State.cursorAt_beforeCursor_iff, h.place c hc]
  rcases h.order with o | o
  · rw [o]
  · rw [o c hc]; simp

/-- One more return, without its spent test (R61, R62). -/
theorem Returned.step {s u : State} {banks : BankId → Prop} {done : BankId → Nat → Prop} (h : Returned s u banks done)
    (c : BankId) (hb : banks c) (i : Nat) : Returned s (u.cursorReturnInFlush c i) banks
      (fun d j => done d j ∨ d = c ∧ j = i) := by
  have self : s.cursorAt s.feed.pointer s.feed.cursor = s := rfl
  unfold State.cursorReturnInFlush
  cases hr : u.returnPoint c i with
  | none =>
    refine ⟨h.walk, h.place, h.order, fun d j q hd hq => ?_, ?_, h.needed⟩
    · rcases hd with hd | ⟨rfl, rfl⟩
      · exact h.none d j q hd hq
      · unfold State.returnPoint at hr
        rw [(h.walk d).walkPosition, hq] at hr
        rw [← h.before d hb q]
        simpa using hr
    · rcases h.point with k | ⟨j, k1, k2⟩
      · exact .inl k
      · exact .inr ⟨j, .inl k1, k2⟩
  | some q =>
    dsimp only
    obtain ⟨hq, hbq⟩ := Option.filter_eq_some_iff.mp hr
    rw [(h.walk c).walkPosition] at hq
    rw [h.before c hb q] at hbq
    have fd := State.placeCursor_feed u c q
    have pl := State.placeCursor_plan u c q
    have bk : ∀ d, (u.placeCursor c q).bank d = u.bank d := State.bank_of_plan _ _ pl
    have hp : (u.placeCursor c q).feed.pointer = c := by rw [fd]
    have hk : (u.placeCursor c q).feed.cursor = q := by rw [fd]
    have pt : s.beforeCursor c q = true := by
      rcases h.point with ⟨k1, k2⟩ | ⟨j, _, _, k⟩
      · rw [k1, k2, self] at hbq; exact hbq
      · exact State.cursorAt_trans s (b := s.feed.pointer) (k := s.feed.cursor) k hbq
    refine ⟨fun d => by rw [bk]; exact h.walk d, fun d hd => by unfold State.hasPlace; rw [pl, bk]; exact h.place d hd, ?_, ?_,
      ?_, ?_⟩
    · rw [pl, hp]
      rcases h.order with o | o
      · exact .inl o
      · exact .inr fun d hd => (o d hd).trans (o c hb).symm
    · intro d j r hd hr'
      rw [hp, hk]
      rcases hd with hd | ⟨rfl, rfl⟩
      · have := h.none d j r hd hr'
        rw [Bool.eq_false_iff] at this ⊢
        exact fun k => this (State.cursorAt_trans s hbq k)
      · rw [hq] at hr'; cases hr'
        exact State.cursorAt_irrefl s _ _
    · rw [hp, hk]
      exact .inr ⟨i, .inr ⟨rfl, rfl⟩, hq, pt⟩
    · rw [State.placeCursor_needed, hp, h.needed]
      by_cases e : c = s.feed.pointer
      · by_cases e' : u.feed.pointer = s.feed.pointer
        · simp [e, e']
        · exfalso
          rcases h.point with ⟨k, _⟩ | ⟨j, _, _, k⟩
          · exact e' k
          · rw [State.cursorAt_beforeCursor_iff] at hbq
            rw [State.beforeCursor_iff] at k
            have k' : u.feed.pointer.leads s.plan.order := by
              rcases k with ⟨k, _⟩ | ⟨_, k⟩
              · exact absurd k e'
              · exact k
            rcases hbq with ⟨g, _⟩ | ⟨g1, g2⟩
            · exact e' (g.symm.trans e)
            · rw [BankId.eq_other g1] at g2
              exact BankId.leads_not_other k' g2
      · rw [if_neg e]
        split
        · rename_i k; split
          · rename_i k'; exact absurd (k.trans k') e
          · rfl
        · rfl

/-- The statement's relation, from the invariant. -/
theorem Returned.returnedTo {s u : State} {banks : BankId → Prop} {done returned : BankId → Nat → Prop}
    (h : Returned s u banks done) (e : ∀ b i, done b i ↔ returned b i) : s.returnedTo u returned := by
  have self : s.cursorAt s.feed.pointer s.feed.cursor = s := rfl
  refine ⟨fun k => ?_, fun b i p hr hp hb hn => ?_, h.needed⟩
  · rcases h.point with g | ⟨i, g1, g2, g3⟩
    · exact g
    · rw [k _ i _ ((e _ _).mp g1) g2] at g3; cases g3
  · rcases h.point with ⟨g1, g2⟩ | ⟨j, g1, g2, g3⟩
    · have := h.none b i p ((e _ _).mpr hr) hp
      rw [g1, g2, self, hb] at this; cases this
    · exact State.cursorAt_total s (b := s.feed.pointer) (k := s.feed.cursor) g3 hb (h.none b i p ((e _ _).mpr hr) hp)
        (hn _ j _ ((e _ _).mp g1) g2)

theorem Returned.congr {s u : State} {banks : BankId → Prop} {done done' : BankId → Nat → Prop} (h : Returned s u banks done)
    (e : ∀ b i, done b i ↔ done' b i) : Returned s u banks done' := by
  have : done = done' := by funext b i; exact propext (e b i)
  rw [← this]; exact h

/-! ## The returns of a flush (R36) -/

/-- A slot record written, its course kept. -/
theorem Returned.setSlot {s u : State} {banks : BankId → Prop} {done : BankId → Nat → Prop} (h : Returned s u banks done)
    (b : BankId) (i : Nat) (x sl : Slot) (hs : u.slot? b i = some sl) (hc : x.course = sl.course) :
    Returned s (u.setSlot b i x) banks done :=
  h.keep (State.setSlot_walkKept u b i x sl hs hc) (State.setSlot_flushMove u b i x).state
    (State.setSlot_flushMove u b i x).order (by simp [State.setSlot]) (by simp [State.setSlot]) (by simp [State.setSlot])

/-- The supply evaluation. -/
theorem Returned.evalSupply {s u : State} {banks : BankId → Prop} {done : BankId → Nat → Prop} (h : Returned s u banks done) :
    Returned s u.evalSupply banks done :=
  h.keep (fun c => by rw [State.bank_of_plan _ _ (State.evalSupply_plan u)]; exact .refl _)
    (fun c => by rw [State.bank_of_plan _ _ (State.evalSupply_plan u)]) (by simp) (by rw [State.evalSupply_feed])
    (by rw [State.evalSupply_feed]) (by rw [State.evalSupply_feed])

/-- The slot is one that a flush returns. -/
def State.zoneRefused (s : State) (b : BankId) (i : Nat) : Prop :=
  ∃ sl, s.slot? b i = some sl ∧ sl.status = .refused .zone

/-- A slot written, recorded PENDING and returned in a flush. -/
theorem Returned.flushReturn {s u : State} {banks : BankId → Prop} {done : BankId → Nat → Prop} (h : Returned s u banks done)
    (b : BankId) (hb : banks b) (i : Nat) (x sl : Slot) (hs : u.slot? b i = some sl) (hc : x.course = sl.course) :
    Returned s (((u.setSlot b i x).recordStatus b i .pending).cursorReturnInFlush b i) banks
      (fun d j => done d j ∨ d = b ∧ j = i) := by
  have h1 := u.setSlot_slot?_self b i x (by rw [hs]; rfl)
  rw [State.recordStatus_pending _ b i _ h1]
  exact Returned.step (Returned.evalSupply ((h.setSlot b i x sl hs hc).setSlot b i { x with status := .pending } x h1 rfl)) b hb i

theorem FlushResult.slot_returned {s : State} {done : BankId → Nat → Prop} (b : BankId) (f : FlushResult) (i : Nat)
    (h : Returned s f.state (fun _ => True) done) (hs : f.state.slot? b i = s.slot? b i) :
    Returned s (f.slot b i).state (fun _ => True) (fun d j => done d j ∨ d = b ∧ j = i ∧ s.zoneRefused d j) := by
  have same : ¬ s.zoneRefused b i → Returned s f.state (fun _ => True)
      (fun d j => done d j ∨ d = b ∧ j = i ∧ s.zoneRefused d j) := fun n =>
    h.congr fun d j => ⟨.inl, fun k => k.elim id fun ⟨e1, e2, k⟩ => absurd (e1 ▸ e2 ▸ k) n⟩
  unfold FlushResult.slot
  cases e : f.state.slot? b i with
  | none => exact same fun ⟨sl, k, _⟩ => by rw [← hs, e] at k; cases k
  | some sl =>
    have no : sl.status ≠ .refused .zone → ¬ s.zoneRefused b i := fun n ⟨x, k, l⟩ => by
      rw [← hs, e] at k; cases k; exact n l
    dsimp only
    cases hst : sl.status with
    | pending =>
      dsimp only
      split
      · refine Returned.congr (done := done) (h.setSlot b i _ sl e rfl) fun d j => ⟨Or.inl, fun k => ?_⟩
        exact k.elim id fun ⟨e1, e2, k⟩ => absurd (e1 ▸ e2 ▸ k) (no (by rw [hst]; simp))
      · exact same (no (by rw [hst]; simp))
    | refused r =>
      cases r with
      | zone =>
        dsimp only
        refine Returned.congr (done := fun d j => done d j ∨ d = b ∧ j = i) (h.flushReturn b trivial i _ sl e rfl) fun d j => ?_
        refine or_congr_right ⟨fun ⟨e1, e2⟩ => ⟨e1, e2, ?_⟩, fun ⟨e1, e2, _⟩ => ⟨e1, e2⟩⟩
        rw [e1, e2]
        exact ⟨sl, by rw [← hs, e], hst⟩
      | repeated => exact same (no (by rw [hst]; simp))
    | fed => exact same (no (by rw [hst]; simp))
    | laid o => exact same (no (by rw [hst]; simp))
    | skipped => exact same (no (by rw [hst]; simp))

theorem FlushResult.fold_returned {s : State} {done : BankId → Nat → Prop} (b : BankId) (l : List Nat) (hl : l.Nodup)
    (f : FlushResult) (h : Returned s f.state (fun _ => True) done) (hs : ∀ i ∈ l, f.state.slot? b i = s.slot? b i) :
    Returned s (l.foldl (FlushResult.slot b) f).state (fun _ => True)
      (fun d j => done d j ∨ d = b ∧ j ∈ l ∧ s.zoneRefused d j) := by
  induction l generalizing f done with
  | nil => exact h.congr fun d j => by simp
  | cons a l ih =>
    obtain ⟨n1, n2⟩ := List.nodup_cons.mp hl
    refine (ih n2 (f.slot b a) (FlushResult.slot_returned b f a h (hs a (by simp))) fun i hi => ?_).congr fun d j => ?_
    · rw [(FlushResult.slot_moves b f a).2.1 b i (.inr fun e => n1 (e ▸ hi))]
      exact hs i (by simp [hi])
    · rw [List.mem_cons]; tauto

theorem FlushResult.bankIf_returned {s : State} {done : BankId → Nat → Prop} (p : BankId → Bool) (b : BankId) (f : FlushResult)
    (h : Returned s f.state (fun _ => True) done) (hs : ∀ i, f.state.slot? b i = s.slot? b i) :
    Returned s (FlushResult.bankIf p f b).state (fun _ => True)
      (fun d j => done d j ∨ d = b ∧ p b = true ∧ s.zoneRefused d j) := by
  unfold FlushResult.bankIf
  split
  · rename_i hp
    refine (FlushResult.fold_returned b _ List.nodup_range f h fun i _ => hs i).congr fun d j => or_congr_right ?_
    refine ⟨fun ⟨e, _, k⟩ => ⟨e, hp, k⟩, fun ⟨e, _, k⟩ => ⟨e, ?_, k⟩⟩
    obtain ⟨sl, k, _⟩ := k
    rw [e, ← hs] at k
    exact List.mem_range.mpr (List.getElem?_eq_some_iff.mp k).1
  · rename_i hp
    exact h.congr fun d j => ⟨.inl, fun k => k.elim id fun ⟨_, k, _⟩ => absurd k hp⟩

/-- The returns of a flush (R36, R62). -/
theorem State.flush_returned (s : State) (p : BankId → Bool) :
    Returned s (s.flush p).state (fun _ => True) (fun d j => p d = true ∧ s.zoneRefused d j) := by
  have h0 := FlushResult.bankIf_returned p .bank0 ⟨s, 0, 0⟩ (Returned.start s _) fun _ => rfl
  have kept : ∀ j, (FlushResult.bankIf p ⟨s, 0, 0⟩ .bank0).state.slot? .bank1 j = s.slot? .bank1 j := fun j => by
    unfold FlushResult.bankIf
    split
    · exact (FlushResult.bank_moves .bank0 ⟨s, 0, 0⟩).2.1 .bank1 (by decide) j
    · rfl
  exact (FlushResult.bankIf_returned p .bank1 _ h0 kept).congr fun d j => by cases d <;> simp

/-- The notices of a flush are the plan's (R70). -/
theorem State.flush_planRaises (s : State) (p : BankId → Bool) : PlanRaises s (s.flush p).state := by
  have one : ∀ (b : BankId) (f : FlushResult) (i : Nat), PlanRaises f.state (f.slot b i).state := by
    intro b f i
    have set : ∀ x, PlanRaises f.state (f.state.setSlot b i x) := fun x => .of_eq (by simp [State.setSlot])
    have ret : ∀ u : State, PlanRaises u (u.cursorReturnInFlush b i) := fun u => by
      unfold State.cursorReturnInFlush
      split
      · exact (State.placeCursor_spendMove _ _ _).planRaises
      · exact .of_eq rfl
    unfold FlushResult.slot
    split
    · exact .of_eq rfl
    · split
      · split
        · exact set _
        · exact .of_eq rfl
      · exact (set _).trans ((State.recordStatus_planRaises _ b i .pending).trans (ret _))
      all_goals exact .of_eq rfl
  have all : ∀ (b : BankId) (l : List Nat) (f : FlushResult), PlanRaises f.state (l.foldl (FlushResult.slot b) f).state := by
    intro b l
    induction l with
    | nil => exact fun f => .of_eq rfl
    | cons a l ih => exact fun f => (one b f a).trans (ih _)
  have bank : ∀ (b : BankId) (f : FlushResult), PlanRaises f.state (FlushResult.bankIf p f b).state := by
    intro b f
    unfold FlushResult.bankIf
    split
    · exact all b _ f
    · exact .of_eq rfl
  exact (bank .bank0 ⟨s, 0, 0⟩).trans (bank .bank1 _)

/-- The spent test of a move writes, of the Feed Sequencer, the supply evaluation alone. -/
theorem State.testMove_feed (s before : State) : (s.testMove before).feed.pointer = s.feed.pointer ∧
    (s.testMove before).feed.cursor = s.feed.cursor ∧ (s.testMove before).feed.bankNeeded = s.feed.bankNeeded := by
  unfold State.testMove
  split
  · exact ⟨rfl, rfl, rfl⟩
  · rw [State.testSpent_feed]; exact ⟨rfl, rfl, rfl⟩

theorem State.testMove_spendMove (s before : State) : SpendMove s (s.testMove before) := by
  unfold State.testMove
  split
  · exact .refl s
  · exact s.testSpent_spendMove _

/-- Which bank the spent test of a move makes SPENT (R14). -/
theorem State.testMove_spent (s before : State) (hs : ∀ b, (s.bank b).state = (before.bank b).state) (b : BankId) :
    (before.leavesBehind (s.testMove before) b → ((s.testMove before).bank b).state = .spent ∧
      (s.testMove before).plan.order = s.plan.order.erase b) ∧
    (¬ before.leavesBehind (s.testMove before) b → ((s.testMove before).bank b).state = (before.bank b).state) := by
  have hc : ((s.testMove before).bank b).slots = (s.bank b).slots := State.slots_of_slot? _ _ b fun j => s.testMove_slot? before b j
  have lb : before.leavesBehind (s.testMove before) b ↔
      (s.feed.pointer ≠ before.feed.pointer ∨ s.feed.cursor ≠ before.feed.cursor) ∧ s.feed.pointer = b.other ∧
        (s.bank b).state = .active ∧ (s.bank b).count SlotStatus.isOpen = 0 := by
    unfold State.leavesBehind Bank.count
    rw [(s.testMove_feed before).1, (s.testMove_feed before).2.1, hc, hs]
  rw [lb, ← hs]
  unfold State.testMove
  by_cases hm : s.feed.pointer = before.feed.pointer ∧ s.feed.cursor = before.feed.cursor
  · rw [if_pos hm]
    exact ⟨fun k => absurd k.1 (by simp [hm]), fun _ => rfl⟩
  · rw [if_neg hm]
    unfold State.testSpent
    by_cases ho : s.feed.pointer = b.other
    · have e : s.feed.pointer.other = b := by rw [ho, BankId.other_other]
      rw [e]
      have due : s.spentDue b = true ↔ (s.bank b).state = .active ∧ (s.bank b).count SlotStatus.isOpen = 0 := by
        unfold State.spentDue
        have : b ≠ s.feed.pointer := by rw [ho]; exact (BankId.other_ne b).symm
        simp [this]
      refine ⟨fun k => ?_, fun k => ?_⟩
      · rw [if_pos (due.mpr ⟨k.2.2.1, k.2.2.2⟩)]
        exact ⟨by rw [State.spend_state], s.spend_order b⟩
      · rw [if_neg fun d => k ⟨by tauto, ho, due.mp d⟩]
    · have e : b ≠ s.feed.pointer.other := fun k => ho (by rw [k, BankId.other_other])
      refine ⟨fun k => absurd k.2.1 ho, fun _ => ?_⟩
      split
      · rw [State.spend_bank_other _ _ _ e]
      · rfl

/-- What a flush and the report of its move leave (R14, R36, R37, R62). -/
theorem State.flush_flushedBy (s : State) (p : BankId → Bool) :
    s.flushedBy ((s.flush p).state.testMove s) p (s.flush p).removed (s.flush p).returned := by
  obtain ⟨m, h1, h2, h3⟩ := s.flush_moves p
  have st := State.testMove_spent (s.flush p).state s m.state
  have fd := State.testMove_feed (s.flush p).state s
  have rt := (s.flush_returned p).returnedTo fun _ _ => .rfl
  refine ⟨fun b i sl hs => (State.testMove_slot? _ _ _ _).trans (h1 b i sl hs), fun b => ⟨fun k => ?_, (st b).2⟩, fun k => ?_,
    ?_, ?_, h2, h3⟩
  · have := (st b).1 k
    exact ⟨this.1, this.2.trans (by rw [m.order])⟩
  · refine Eq.trans ?_ m.order
    have keep : ∀ b, ((State.testMove (s.flush p).state s).bank b).state = ((s.flush p).state.bank b).state :=
      fun b => ((st b).2 (k b)).trans (m.state b).symm
    show (State.testMove (s.flush p).state s).plan.order = _
    unfold State.testMove at keep ⊢
    split
    · rfl
    · rename_i hm
      rw [if_neg hm] at keep
      unfold State.testSpent at keep ⊢
      split
      · rename_i hd
        have := keep (s.flush p).state.feed.pointer.other
        rw [if_pos hd, State.spend_state, State.spentDue_active hd] at this
        cases this
      · rfl
  · unfold State.returnedTo
    show _ ∧ _ ∧ (State.testMove (s.flush p).state s).feed.bankNeeded = _
    rw [fd.2.2]
    have e1 : (State.testMove (s.flush p).state s).feed.pointer = (s.flush p).state.feed.pointer := fd.1
    have e2 : (State.testMove (s.flush p).state s).feed.cursor = (s.flush p).state.feed.cursor := fd.2.1
    rw [e1, e2]
    exact rt
  · obtain ⟨ns, hn, hl⟩ := s.flush_planRaises p
    have sm := State.testMove_spendMove (s.flush p).state s
    obtain ⟨ms, hm, hk⟩ := sm.raises
    refine ⟨ns ++ ms, ⟨fun n h => (List.mem_append.mp h).elim (hn n) (hm.1 n), fun b ha hb => ?_⟩, hk.trans ?_⟩
    · exact List.mem_append_right _ (hm.2 b ((m.state b).trans ha) hb)
    · exact State.raisedLink_append ns ms hl

/-! ## The returns of PURGE (R87) -/

/-- The spent test on the bank that the pointer does not name, where every bank of the slots holds an open slot. -/
theorem Returned.testSpent {s u : State} {banks : BankId → Prop} {done : BankId → Nat → Prop} (h : Returned s u banks done)
    (ho : ∀ c, banks c → ∃ i sl, u.slot? c i = some sl ∧ sl.status.isOpen = true) :
    Returned s (u.testSpent u.feed.pointer.other) banks done := by
  unfold State.testSpent
  split
  swap
  · exact h
  rename_i hd
  have only : ∀ c, banks c → c = u.feed.pointer := fun c hb => by
    by_contra hc
    obtain ⟨i, sl, h1, h2⟩ := ho c hb
    rw [← BankId.eq_other hc, State.spentDue_of_open u c i sl h1 h2] at hd
    cases hd
  have fd := State.spend_feed u u.feed.pointer.other
  have pt : (u.spend u.feed.pointer.other).feed.pointer = u.feed.pointer := by rw [fd]
  have cu : (u.spend u.feed.pointer.other).feed.cursor = u.feed.cursor := by rw [fd]
  have bn : (u.spend u.feed.pointer.other).feed.bankNeeded = u.feed.bankNeeded := by rw [fd]
  refine ⟨fun c => ?_, fun c hb => ?_, .inr fun c hb => by rw [pt]; exact only c hb, by rw [pt, cu]; exact h.none,
    by rw [pt, cu]; exact h.point, by rw [pt, bn]; exact h.needed⟩
  · by_cases hc : c = u.feed.pointer.other
    · rw [hc, State.spend_state]
      exact ⟨(h.walk _).setup, (h.walk _).course⟩
    · rw [State.spend_bank_other _ _ _ hc]; exact h.walk c
  · rw [← h.place c hb]
    unfold State.hasPlace
    have hc := only c hb
    have hn : c ≠ u.feed.pointer.other := by rw [hc]; exact (BankId.other_ne _).symm
    rw [State.spend_bank_other _ _ _ hn, State.spend_order, List.mem_erase_of_ne hn]

theorem State.cursorReturn_eq (s : State) (b : BankId) (i : Nat) : s.cursorReturn b i = s.cursorReturnInFlush b i ∨
    s.cursorReturn b i =
      (s.cursorReturnInFlush b i).testSpent (s.cursorReturnInFlush b i).feed.pointer.other := by
  unfold State.cursorReturn State.cursorReturnInFlush
  cases s.returnPoint b i with
  | none => exact .inl rfl
  | some p =>
    right
    dsimp only
    rw [State.placeCursor_feed]
    rfl

theorem Slot.afterReject_course (sl : Slot) (r : RejectReason) : (sl.afterReject r).course = sl.course := by
  cases r <;> simp [Slot.afterReject] <;> split <;> rfl

/-- A FED slot reported with a reject that returns it (R61, R62). -/
theorem Returned.report {s u : State} {banks : BankId → Prop} {done : BankId → Nat → Prop} (h : Returned s u banks done)
    (y : Brick) (r : RejectReason) (sl : Slot) (hr : (sl.afterReject r).status = .pending) (hs : u.slot? y.bank y.slot = some sl) (hf : sl.status.isFed = true) (hb : banks y.bank)
    (ho : ∀ c, banks c → ∃ i sl, u.slot? c i = some sl ∧ sl.status.isOpen = true) :
    Returned s (u.reportReject y r) banks (fun d j => done d j ∨ d = y.bank ∧ j = y.slot) := by
  have self := u.setSlot_slot?_self y.bank y.slot (sl.afterReject r) (by rw [hs]; rfl)
  have nd := State.spentDue_of_open (u.setSlot y.bank y.slot (sl.afterReject r)).evalSupply y.bank y.slot _
    (by rw [State.evalSupply_slot?]; exact self) (by rw [hr]; rfl)
  have recd : u.recordReject y.bank y.slot r = (u.setSlot y.bank y.slot (sl.afterReject r)).evalSupply := by
    unfold State.recordReject
    rw [hs]
    dsimp only
    rw [if_pos hf, (State.spendIfDue_point _ _).1 nd]
  have ret : u.rejectReturns y.bank y.slot r = true := by
    unfold State.rejectReturns
    rw [hs]
    simp [hf, hr, SlotStatus.isPending]
  unfold State.reportReject
  dsimp only
  rw [if_pos ret, recd]
  generalize hv : (u.setSlot y.bank y.slot (sl.afterReject r)).evalSupply = v
  have k : Returned s v banks done := by rw [← hv]; exact Returned.evalSupply (h.setSlot y.bank y.slot (sl.afterReject r) sl hs (Slot.afterReject_course sl r))
  have ov : ∀ c, banks c → ∃ i sl, v.slot? c i = some sl ∧ sl.status.isOpen = true := fun c hc => by
    obtain ⟨i, x, h1, h2⟩ := ho c hc
    rw [← hv]
    by_cases e : c = y.bank ∧ i = y.slot
    · exact ⟨i, _, by rw [State.evalSupply_slot?, e.1, e.2]; exact self, by rw [hr]; rfl⟩
    · exact ⟨i, x, by rw [State.evalSupply_slot?, State.setSlot_slot?_other _ _ _ _ c i (by tauto)]; exact h1, h2⟩
  have st := k.step y.bank hb y.slot
  rcases v.cursorReturn_eq y.bank y.slot with e | e
  · rw [e]; exact st
  · rw [e]
    exact st.testSpent fun c hc => by
      obtain ⟨i, x, h1, h2⟩ := ov c hc
      exact ⟨i, x, by rw [State.cursorReturnInFlush_slot?]; exact h1, h2⟩

/-- The slot of one of some bricks, FED. -/
def State.fedOf (s : State) (l : List (Brick × BrickPlace)) (b : BankId) (i : Nat) : Prop :=
  ∃ x ∈ l, x.1.bank = b ∧ x.1.slot = i ∧ ∃ sl, s.slot? b i = some sl ∧ sl.status = .fed

/-- A run of withdrawals that return their slots (R62, R87). -/
theorem State.purge_returned (s : State) (ha : s.bricksApart) (banks : BankId → Prop) (l : List (Brick × BrickPlace))
    (hl : l.Pairwise separate) (hm : ∀ x ∈ l, x ∈ s.liveBricks ∧ s.withdrawable x = true) (hb : ∀ b i, s.fedOf l b i → banks b)
    (u : State) (done : BankId → Nat → Prop) (hu : u.bricksApart) (hk : ∀ x ∈ l, s.heldAs u x)
    (hc : u.mode.cradleCount = s.mode.cradleCount) (h : Returned s u banks done)
    (hd : ∀ b i, done b i → ∃ sl, u.slot? b i = some sl ∧ sl.status = .pending)
    (hn : ∀ b i, ¬ done b i → u.slot? b i = s.slot? b i)
    (ho : ∀ c, banks c → ∃ i sl, u.slot? c i = some sl ∧ sl.status.isOpen = true) :
    Returned s (l.foldl (fun s x => s.withdraw x .purged) u) banks (fun b i => done b i ∨ s.fedOf l b i) := by
  induction l generalizing u done with
  | nil => exact h.congr fun b i => ⟨.inl, fun k => k.elim id fun ⟨_, k, _⟩ => by cases k⟩
  | cons a l ih =>
    obtain ⟨l1, l2⟩ := List.pairwise_cons.mp hl
    have ka := hk a (by simp)
    have alive : a ∈ u.liveBricks := ka.live hc (hm a (by simp)).1
    have hu' := (u.withdraw_withdrawMove a .purged).apart hu
    have hk' : ∀ x ∈ l, s.heldAs (u.withdraw a .purged) x := fun y hy =>
      (hk y (by simp [hy])).trans (u.withdraw_heldAs y a .purged rfl (l1 y hy).symm)
    have hc' : (u.withdraw a .purged).mode.cradleCount = s.mode.cradleCount := by
      rw [(u.withdraw_withdrawMove a .purged).mode]; exact hc
    have oth := u.withdraw_other a .purged rfl (List.mem_filter.mp alive).1
    have self := fun sl hs => State.withdraw_self s u a .purged rfl ha hu (hm a (by simp)).1 (hm a (by simp)).2 ka sl hs
    have go := ih l2 (fun x hx => hm x (by simp [hx])) (fun b i ⟨x, hx, k⟩ => hb b i ⟨x, by simp [hx], k⟩)
    have split : ∀ b i, s.fedOf (a :: l) b i ↔
        (a.1.bank = b ∧ a.1.slot = i ∧ ∃ sl, s.slot? b i = some sl ∧ sl.status = .fed) ∨ s.fedOf l b i := fun b i => by
      unfold State.fedOf; simp
    by_cases hfed : ∃ sl, u.slot? a.1.bank a.1.slot = some sl ∧ sl.status = .fed
    · obtain ⟨sl, hs, hst⟩ := hfed
      have hisf : sl.status.isFed = true := by rw [hst]; rfl
      have nd : ¬ done a.1.bank a.1.slot := fun k => by
        obtain ⟨x, h1, h2⟩ := hd _ _ k
        rw [hs] at h1; cases h1
        rw [hst] at h2; cases h2
      have hss : s.slot? a.1.bank a.1.slot = some sl := by rw [← hn _ _ nd]; exact hs
      have ss := self sl hs
      rw [if_pos hisf] at ss
      obtain ⟨v, y, h1, h2, _, h4, h5, h6⟩ : ∃ (v : State) (y : Brick), v.plan = u.plan ∧ v.feed = u.feed ∧
          v.mode.mode = u.mode.mode ∧ y.bank = a.1.bank ∧ y.slot = a.1.slot ∧ u.withdraw a .purged = v.reportReject y .purged := by
        rcases u.withdraw_reports a .purged rfl (List.mem_filter.mp alive).1 with e | k
        · rw [e, hs] at ss
          have := congrArg Slot.status (Option.some.inj ss)
          rw [hst] at this; cases this
        · exact k
      have vb : ∀ c, v.bank c = u.bank c := fun c => State.bank_of_plan _ _ h1 c
      have vs : ∀ c j, v.slot? c j = u.slot? c j := fun c j => State.slotsKept_of_plan h1 c j
      have hv : Returned s v banks done := h.keep (fun c => by rw [vb]; exact .refl _) (fun c => by rw [vb]) (by rw [h1])
        (by rw [h2]) (by rw [h2]) (by rw [h2])
      have k := hv.report y .purged sl rfl (by rw [h4, h5, vs]; exact hs) hisf
        (by rw [h4]; exact hb _ a.1.slot ⟨a, by simp, rfl, rfl, sl, hss, hst⟩)
        fun c hc => by simpa only [vs] using ho c hc
      rw [← h6, h4, h5] at k
      refine (go (u.withdraw a .purged) _ hu' hk' hc' k (fun b i k => ?_) (fun b i k => ?_) fun c hcb => ?_).congr fun b i => ?_
      · by_cases e : b = a.1.bank ∧ i = a.1.slot
        · rw [e.1, e.2]; exact ⟨_, ss, rfl⟩
        · rw [oth b i (by tauto)]
          exact hd b i (k.elim id fun k => absurd k e)
      · simp only [not_or] at k
        rw [oth b i (by tauto)]
        exact hn b i k.1
      · obtain ⟨i, x, g1, g2⟩ := ho c hcb
        by_cases e : c = a.1.bank ∧ i = a.1.slot
        · exact ⟨i, _, by rw [e.1, e.2]; exact ss, rfl⟩
        · exact ⟨i, x, by rw [oth c i (by tauto)]; exact g1, g2⟩
      · rw [split]
        constructor
        · rintro ((k | ⟨rfl, rfl⟩) | k)
          · exact .inl k
          · exact .inr (.inl ⟨rfl, rfl, sl, hss, hst⟩)
          · exact .inr (.inr k)
        · rintro (k | ⟨rfl, rfl, _⟩ | k)
          · exact .inl (.inl k)
          · exact .inl (.inr ⟨rfl, rfl⟩)
          · exact .inr k
    · have keep : ∀ b i, (u.withdraw a .purged).slot? b i = u.slot? b i := fun b i => by
        by_cases e : b = a.1.bank ∧ i = a.1.slot
        · rw [e.1, e.2]
          cases hs : u.slot? a.1.bank a.1.slot with
          | none =>
            rcases u.withdraw_reports a .purged rfl (List.mem_filter.mp alive).1 with e | ⟨v, y, h1, _, _, h4, h5, h6⟩
            · rw [e]; exact hs
            · have hv : v.slot? y.bank y.slot = none := by rw [h4, h5, State.slotsKept_of_plan h1]; exact hs
              rw [h6]
              unfold State.reportReject State.rejectReturns State.recordReject
              rw [hv]
              rw [← h4, ← h5]; exact hv
          | some sl =>
            rw [self sl hs, if_neg]
            intro k
            exact hfed ⟨sl, hs, (SlotStatus.isFed_iff _).mp k⟩
        · exact oth b i (by tauto)
      have same : Returned s (u.withdraw a .purged) banks done := by
        rcases u.withdraw_reports a .purged rfl (List.mem_filter.mp alive).1 with e | ⟨v, y, h1, h2, _, h4, h5, h6⟩
        · rw [e]; exact h
        · have vb : ∀ c, v.bank c = u.bank c := fun c => State.bank_of_plan _ _ h1 c
          have hv : Returned s v banks done := h.keep (fun c => by rw [vb]; exact .refl _) (fun c => by rw [vb]) (by rw [h1])
            (by rw [h2]) (by rw [h2]) (by rw [h2])
          have nf : ∀ sl, v.slot? y.bank y.slot = some sl → sl.status.isFed = false := fun sl k => by
            rw [h4, h5, State.slotsKept_of_plan h1] at k
            rw [Bool.eq_false_iff]
            exact fun f => hfed ⟨sl, k, (SlotStatus.isFed_iff _).mp f⟩
          have : v.reportReject y .purged = v := by
            unfold State.reportReject State.rejectReturns State.recordReject
            cases e : v.slot? y.bank y.slot with
            | none => simp
            | some sl => simp [nf sl e]
          rw [h6, this]; exact hv
      refine (go (u.withdraw a .purged) done hu' hk' hc' same (fun b i k => by rw [keep]; exact hd b i k)
        (fun b i k => by rw [keep]; exact hn b i k) (fun c k => by simpa only [keep] using ho c k)).congr fun b i => ?_
      rw [split]
      refine ⟨fun k => k.elim .inl fun k => .inr (.inr k), fun k => k.elim .inl fun k => k.elim (fun k => ?_) .inr⟩
      obtain ⟨rfl, rfl, sl, h1, h2⟩ := k
      left
      by_contra n
      exact hfed ⟨sl, (hn _ _ n).trans h1, h2⟩

end Sys2Proof.Machine
end

