-- ==== Sys2Proof/Laws/Faults.lean ====
section
/-! SUPPORT. The entry to FAULTED: its notices, what it makes of the plan and the walk, what it leaves. -/

namespace Sys2Proof.Machine

/-- In FAULTED a brick-specific reject brings no rollback (R63, assumption 21). -/
theorem State.reportBrickReject_faulted (s : State) (b : Brick) (r : RejectReason) (h : s.faulted = true) :
    PlanMove s (s.reportBrickReject b r) := by
  unfold State.reportBrickReject
  simp only [h, if_true]
  split
  · exact (s.recordReject_planMove _ _ _).trans (State.cursorReturn_planMove _ _ _)
  · exact s.recordReject_planMove _ _ _

/-- The stop of a running glue operation in FAULTED (R98): REJECTED with SPOILED of its live brick, and what the return of its
slot brings. -/
theorem State.stopGlue_notices (u : State) (hf : u.faulted = true) :
    (∀ b, u.gluedLive b → ∃ ns, u.planNotices u.stopGlue ns ∧
      u.stopGlue.link = u.raisedLink (.rejected b.brick.tag b.brick.bank b.brick.slot .spoiled :: ns)) ∧
    ((∀ b, ¬ u.gluedLive b) → u.stopGlue.link = u.link) := by
  refine ⟨fun b ⟨c, ho, hc, hm⟩ => ?_, fun hn => ?_⟩
  · have hl : b.brick.live = true := (Brick.live_iff _).mpr hm
    unfold State.stopGlue
    dsimp only
    rw [ho]
    dsimp only
    rw [hc]
    dsimp only
    rw [if_pos hl]
    generalize hw : State.raiseRejected (State.setCradle _ c (.gluing (b.marked .spoiled))) b.brick .spoiled = w
    have wf : w.faulted = true := by subst hw; rw [← hf]; simp [State.faulted, State.raiseRejected, State.learnReject]
    have wp : w.plan = u.plan := by subst hw; simp [State.raiseRejected, State.learnReject]
    have wl : w.link = u.raisedLink [.rejected b.brick.tag b.brick.bank b.brick.slot .spoiled] := by
      subst hw; exact State.raise_link_congr _ (by simp [State.learnReject])
    obtain ⟨ns, hns, hl⟩ := w.reportBrickReject_notices b.brick .spoiled wf
    refine ⟨ns, ⟨hns.1, fun d ha => hns.2 d ?_⟩, ?_⟩
    · unfold State.bank; rw [wp]; exact ha
    · rw [hl]; exact State.raisedLink_append [_] ns wl
  · unfold State.stopGlue
    dsimp only
    split
    · rename_i c ho
      split
      · rename_i b hb
        rw [if_neg fun hl => hn b ⟨c, ho, hb, (Brick.live_iff _).mp hl⟩]
      · rfl
    · rfl

/-- The notices at the entry to FAULTED (R98, R150, R162). -/
theorem State.reportCause_announcesFault (s : State) (c : FaultCause) (h : s.mode.mode ≠ .faulted) :
    s.announcesFault (s.reportCause c) c := by
  have hf : s.faulted = false := by simp [State.faulted, h]
  unfold State.reportCause
  rw [if_neg (by simp [hf])]
  dsimp only
  generalize hu : ((({ s with
      mode := { s.mode with fault := some { primary := c, further := 0, modeAtFault := s.mode.mode } }
      clock := { s.clock with stoppedAt := some s.clock.now } } :
          State).changeMode .faulted .fault).raise (.fault c c 0)).evalHold = u
  have hfu : u.faulted = true := by subst hu; simp [State.faulted, State.changeMode]
  have hp : u.plan = s.plan := by subst hu; simp [State.changeMode]
  have hl : u.link = s.raisedLink [.mode .faulted s.mode.mode .fault, .fault c c 0] := by
    subst hu
    rw [State.evalHold_link]
    refine State.raisedLink_congr (s := s.raise (.mode .faulted s.mode.mode .fault)) [.fault c c 0] ?_
    exact State.raise_link_congr _ rfl
  have hg : ∀ b, u.gluedLive b ↔ s.gluedLive b := by
    intro b
    have ho : u.adhesive = s.adhesive := by subst hu; simp [State.changeMode]
    have hc : ∀ d, u.cradle d = s.cradle d := by
      intro d; subst hu
      have : ∀ q : State, q.evalHold.cradle d = q.cradle d := fun q => by cases d <;> rfl
      rw [this]; exact State.cradle_of_cradles _ _ (by simp [State.changeMode]) d
    unfold State.gluedLive
    rw [ho]; simp only [hc]
  obtain ⟨k1, k2⟩ := u.stopGlue_notices hfu
  refine ⟨fun b hb => ?_, fun hn => ?_⟩
  · obtain ⟨ns, hns, hns'⟩ := k1 b ((hg b).mpr hb)
    refine ⟨ns, ⟨hns.1, fun d ha => hns.2 d (by unfold State.bank; rw [hp]; exact ha)⟩, ?_⟩
    exact hns'.trans (State.raisedLink_append _ _ hl)
  · exact (k2 fun b hb => hn b ((hg b).mp hb)).trans hl

/-- In FAULTED a brick-specific reject is reported as any other (R63, assumption 21). -/
theorem State.reportBrickReject_eq (s : State) (b : Brick) (r : RejectReason) (h : s.faulted = true) :
    s.reportBrickReject b r = s.reportReject b r := by
  unfold State.reportBrickReject State.reportReject
  simp only [h, if_true]

/-- What the stop of a running glue operation makes of the plan and the walk (R98). -/
theorem State.stopGlue_spoilsGlued (u : State) (hf : u.faulted = true) : u.spoilsGlued u.stopGlue := by
  refine ⟨fun b ⟨c, ho, hc, hm⟩ => ?_, fun hn => ?_⟩
  · have hl : b.brick.live = true := (Brick.live_iff _).mpr hm
    unfold State.stopGlue
    dsimp only
    rw [ho]
    dsimp only
    rw [hc]
    dsimp only
    rw [if_pos hl]
    generalize hw : State.raiseRejected (State.setCradle _ c (.gluing (b.marked .spoiled))) b.brick .spoiled = w
    have wf : w.faulted = true := by subst hw; rw [← hf]; simp [State.faulted, State.raiseRejected, State.learnReject]
    have wp : w.plan = u.plan := by subst hw; simp [State.raiseRejected, State.learnReject]
    have wd : w.feed = u.feed := by subst hw; simp [State.raiseRejected, State.learnReject]
    have ws : ∀ d j, w.slot? d j = u.slot? d j := fun d j => State.slotsKept_of_plan wp d j
    rw [State.reportBrickReject_eq w b.brick .spoiled wf]
    refine ⟨fun d j h => (State.reportReject_other w b.brick .spoiled d j h).trans (ws d j), fun sl hs => ⟨fun hst => ?_, fun hst => ?_⟩⟩
    · have hs' := (ws b.brick.bank b.brick.slot).trans hs
      have fed : sl.status.isFed = true := by rw [hst]; rfl
      have self := State.reportReject_self w b.brick .spoiled sl hs'
      rw [if_pos fed] at self
      refine ⟨?_, fun h3 => ?_⟩
      · rw [self, Slot.afterReject_specific sl .spoiled rfl]
      · have start : Returned u w (fun c => c = b.brick.bank) (fun _ _ => False) :=
          (Returned.start u _).keep (fun c => by rw [State.bank_of_plan _ _ wp]; exact .refl _)
            (fun c => by rw [State.bank_of_plan _ _ wp]) (by rw [wp]) (by rw [wd]) (by rw [wd]) (by rw [wd])
        have pend : (sl.afterReject .spoiled).status = .pending := by
          rw [Slot.afterReject_specific sl .spoiled rfl]; dsimp only; rw [if_pos h3]
        have k := start.report b.brick .spoiled sl pend hs' fed rfl fun c hc =>
          ⟨b.brick.slot, sl, by rw [hc]; exact hs', by rw [hst]; rfl⟩
        exact k.returnedTo fun c i => by simp
    · have nf : sl.status.isFed = false := by
        rw [Bool.eq_false_iff]; exact fun f => hst ((SlotStatus.isFed_iff _).mp f)
      have hs' := (ws b.brick.bank b.brick.slot).trans hs
      have : w.reportReject b.brick .spoiled = w := by
        unfold State.reportReject State.rejectReturns State.recordReject
        rw [hs']; simp [nf]
      rw [this]
      exact ⟨wp, wd⟩
  · unfold State.stopGlue
    dsimp only
    split
    · rename_i c ho
      split
      · rename_i b hb
        rw [if_neg fun hl => hn b ⟨c, ho, hb, (Brick.live_iff _).mp hl⟩]
        exact ⟨rfl, rfl⟩
      · exact ⟨rfl, rfl⟩
    · exact ⟨rfl, rfl⟩

/-- What returns leave is told from plan and feed of the state before, and from pointer and cursor of the state after. -/
theorem State.returnedTo_congr {s u t v : State} {returned : BankId → Nat → Prop} (h : u.returnedTo t returned)
    (hp : u.plan = s.plan) (hf : u.feed = s.feed) (hv : v.feed = t.feed) : s.returnedTo v returned := by
  have hb : ∀ b, u.bank b = s.bank b := State.bank_of_plan _ _ hp
  have bc : ∀ b p, u.beforeCursor b p = s.beforeCursor b p := fun b p =>
    State.beforeCursor_congr (by rw [hp]) (fun c => by rw [hb]) (by rw [hf]) (by rw [hf]) b p
  have ac : ∀ x k b p, (u.cursorAt x k).beforeCursor b p = (s.cursorAt x k).beforeCursor b p := fun x k b p =>
    State.beforeCursor_congr (u := s.cursorAt x k) (v := u.cursorAt x k) (congrArg PlanStore.order hp)
      (fun c => congrArg Bank.state (hb c)) rfl rfl b p
  unfold State.returnedTo at h ⊢
  simp only [hb, bc, ac, hf] at h
  rw [hv]
  exact h

theorem State.spoilsGlued_congr {s u t v : State} (h : u.spoilsGlued t) (hp : u.plan = s.plan) (hf : u.feed = s.feed)
    (hg : ∀ b, u.gluedLive b ↔ s.gluedLive b) (vp : v.plan = t.plan) (vf : v.feed = t.feed) : s.spoilsGlued v := by
  have us : ∀ b i, u.slot? b i = s.slot? b i := fun b i => State.slotsKept_of_plan hp b i
  have vs : ∀ b i, v.slot? b i = t.slot? b i := fun b i => State.slotsKept_of_plan vp b i
  refine ⟨fun b hb => ?_, fun hn => ?_⟩
  · obtain ⟨k1, k2⟩ := h.1 b ((hg b).mpr hb)
    refine ⟨fun c j hj => (vs c j).trans ((k1 c j hj).trans (us c j)), fun sl hs => ?_⟩
    obtain ⟨m1, m2⟩ := k2 sl ((us _ _).trans hs)
    refine ⟨fun hst => ⟨(vs _ _).trans (m1 hst).1, fun h3 => State.returnedTo_congr ((m1 hst).2 h3) hp hf vf⟩, fun hst => ?_⟩
    rw [vp, vf, (m2 hst).1, (m2 hst).2]
    exact ⟨hp, hf⟩
  · have := h.2 fun b k => hn b ((hg b).mp k)
    rw [vp, vf, this.1, this.2]
    exact ⟨hp, hf⟩

/-- What the entry to FAULTED makes of the plan and the walk (R98, R163). -/
theorem State.reportCause_spoilsGlued (s : State) (c : FaultCause) (h : s.mode.mode ≠ .faulted) :
    s.spoilsGlued (s.reportCause c) := by
  have hf : s.faulted = false := by simp [State.faulted, h]
  unfold State.reportCause
  rw [if_neg (by simp [hf])]
  dsimp only
  generalize hu : ((({ s with
      mode := { s.mode with fault := some { primary := c, further := 0, modeAtFault := s.mode.mode } }
      clock := { s.clock with stoppedAt := some s.clock.now } } :
          State).changeMode .faulted .fault).raise (.fault c c 0)).evalHold = u
  have hfu : u.faulted = true := by subst hu; simp [State.faulted, State.changeMode]
  have hp : u.plan = s.plan := by subst hu; simp [State.changeMode]
  have hd : u.feed = s.feed := by subst hu; simp [State.changeMode]
  have hg : ∀ b, u.gluedLive b ↔ s.gluedLive b := by
    intro b
    have ho : u.adhesive = s.adhesive := by subst hu; simp [State.changeMode]
    have hc : ∀ d, u.cradle d = s.cradle d := by
      intro d; subst hu
      have : ∀ q : State, q.evalHold.cradle d = q.cradle d := fun q => by cases d <;> rfl
      rw [this]; exact State.cradle_of_cradles _ _ (by simp [State.changeMode]) d
    unfold State.gluedLive
    rw [ho]; simp only [hc]
  exact State.spoilsGlued_congr (u.stopGlue_spoilsGlued hfu) hp hd hg rfl rfl

/-- A cause reported outside FAULTED enters FAULTED (R145, R162, R163). -/
theorem State.reportCause_entersFaulted (s : State) (c : FaultCause) (h : s.mode.mode ≠ .faulted) :
    s.entersFaulted (s.reportCause c) c := by
  have hann := And.intro (s.reportCause_spoilsGlued c h) (s.reportCause_announcesFault c h)
  have hf : s.faulted = false := by simp [State.faulted, h]
  unfold State.reportCause at hann ⊢
  rw [if_neg (by simp [hf])] at hann ⊢
  dsimp only at hann ⊢
  generalize hu : ((({ s with
      mode := { s.mode with fault := some { primary := c, further := 0, modeAtFault := s.mode.mode } }
      clock := { s.clock with stoppedAt := some s.clock.now } } :
          State).changeMode .faulted .fault).raise (.fault c c 0)).evalHold = u at hann ⊢
  have hm :
      u.mode = { s.mode with mode := .faulted, fault := some { primary := c, further := 0, modeAtFault := s.mode.mode } } :=
      by
    subst hu; simp [State.changeMode]
  have hfu : u.faulted = true := by simp [State.faulted, hm]
  have hh : u.cradles.hold = true := by subst hu; simp [State.changeMode, State.faulted]
  have hcr : ∀ d, u.cradle d = s.cradle d := by
    intro d; subst hu
    have : ∀ q : State, q.evalHold.cradle d = q.cradle d := fun q => by cases d <;> rfl
    rw [this]; exact State.cradle_of_cradles _ _ (by simp) d
  have hr : u.adhesive = s.adhesive ∧ u.place = { s.place with holdPaused := false } ∧
      u.clock = { s.clock with stoppedAt := some s.clock.now } ∧ u.comp = s.comp ∧ u.pose = s.pose ∧ u.train = s.train
      ∧ u.datum = s.datum ∧ u.zone = s.zone ∧ u.pending = s.pending := by
    subst hu; simp [State.changeMode]
  obtain ⟨r1, r2, r3, r4, r5, r6, r7, r8, r9⟩ := hr
  -- stopGlue
  have key : ∀ v : State, u.stopGlue = v → v.mode.mode = .faulted ∧ v.mode.fault = u.mode.fault ∧
      v.cradles.hold = true ∧ (∀ d, v.cradle d = s.glueStopped d) ∧ v.adhesive = { s.adhesive with pump := false } ∧
      v.place = u.place ∧ v.clock = u.clock ∧ v.comp = u.comp ∧ v.pose = u.pose ∧ v.train = u.train ∧
      v.datum = u.datum ∧ v.zone = u.zone ∧ v.pending = u.pending ∧ v.mode.watchEnables = u.mode.watchEnables ∧
      v.mode.watchStatus = u.mode.watchStatus ∧ v.mode.halt = u.mode.halt ∧ v.mode.cradleCount = u.mode.cradleCount ∧
      v.mode.travel = u.mode.travel ∧ v.mode.resetCause = u.mode.resetCause := by
    intro v hv
    have hv := hv.symm
    have stay : (∀ d, u.cradle d = s.glueStopped d) → v = { u with adhesive := { u.adhesive with pump := false } } →
        (v.mode.mode = .faulted ∧ v.mode.fault = u.mode.fault ∧ v.cradles.hold = true ∧
        (∀ d, v.cradle d = s.glueStopped d) ∧ v.adhesive = { s.adhesive with pump := false } ∧ v.place = u.place ∧
        v.clock = u.clock ∧ v.comp = u.comp ∧ v.pose = u.pose ∧ v.train = u.train ∧ v.datum = u.datum ∧
        v.zone = u.zone ∧ v.pending = u.pending ∧ v.mode.watchEnables = u.mode.watchEnables ∧
        v.mode.watchStatus = u.mode.watchStatus ∧ v.mode.halt = u.mode.halt ∧ v.mode.cradleCount = u.mode.cradleCount
        ∧ v.mode.travel = u.mode.travel ∧ v.mode.resetCause = u.mode.resetCause) := by
      intro hg hv
      subst hv
      exact ⟨by rw [hm], rfl, hh, hg, by rw [r1], rfl, rfl, rfl, rfl, rfl, rfl, rfl, rfl, rfl, rfl, rfl, rfl, rfl, rfl⟩
    unfold State.stopGlue at hv
    dsimp only at hv
    split at hv
    · rename_i o ho
      rw [r1] at ho
      split at hv
      · rename_i b hb
        rw [hcr] at hb
        split at hv
        · rename_i hl
          generalize hw : ((({ u with adhesive := { u.adhesive with pump := false } } :
              State).setCradle o (.gluing (b.marked .spoiled))).raiseRejected b.brick .spoiled) = w at hv
          have hwm : w.mode = { u.mode with watchStopped := w.mode.watchStopped, rejectSeen := w.mode.rejectSeen } := by
            subst hw; simp [State.raiseRejected, State.learnReject]
          have wf : w.faulted = true := by unfold State.faulted; rw [hwm, hm]; rfl
          have pm := State.reportBrickReject_faulted w b.brick .spoiled wf
          rw [← hv] at pm
          have wr : w.adhesive = { s.adhesive with pump := false } ∧ w.place = u.place ∧ w.clock = u.clock ∧
              w.comp = u.comp ∧ w.pose = u.pose ∧ w.train = u.train ∧ w.datum = u.datum ∧ w.zone = u.zone ∧
              w.pending = u.pending := by
            subst hw; simp [r1]
          obtain ⟨w1, w2, w3, w4, w5, w6, w7, w8, w9⟩ := wr
          have wc : w.cradles.hold = true ∧ ∀ d, w.cradle d = s.glueStopped d := by
            subst hw
            constructor
            · simp only [State.raiseRejected_cradles]
              have := State.setCradle_conveyorHeld ({ u with adhesive := { u.adhesive with pump := false } } :
                  State) o (.gluing (b.marked .spoiled))
              unfold State.conveyorHeld at this
              rw [this]
              have : (({ u with adhesive := { u.adhesive with pump := false } } :
                  State).setCradle o (.gluing (b.marked .spoiled))).faulted = true := by
                simp [State.faulted, hm]
              rw [this]; simp
            · intro d
              rw [State.cradle_of_cradles _ _ (State.raiseRejected_cradles _ _ _)]
              by_cases hd : d = o
              · subst hd
                rw [State.setCradle_self]
                unfold State.glueStopped
                rw [hb]; simp [ho, hl]
              · rw [State.setCradle_other _ _ _ _ hd]
                show u.cradle d = _
                rw [hcr]; unfold State.glueStopped
                cases e : s.cradle d <;> simp [ho, Ne.symm hd]
          refine ⟨by rw [pm.mode, hwm, hm], by rw [pm.mode, hwm], by rw [pm.cradles]; exact wc.1,
              fun d => by rw [State.cradle_of_cradles _ _ pm.cradles]; exact wc.2 d, by rw [pm.adhesive, w1], by rw [pm.place, w2], by rw [pm.clock, w3], by rw [pm.comp, w4], by rw [pm.pose, w5], by rw [pm.train, w6], by rw [pm.datum, w7], by rw [pm.zone, w8], by rw [pm.pending, w9], by rw [pm.mode, hwm], by rw [pm.mode, hwm], by rw [pm.mode, hwm], by rw [pm.mode, hwm], by rw [pm.mode, hwm], by rw [pm.mode, hwm]⟩
        · rename_i hl
          refine stay (fun d => ?_) hv
          rw [hcr]; unfold State.glueStopped
          cases e : s.cradle d <;> simp [ho]
          rename_i b'
          rintro rfl h
          rw [e] at hb; cases hb
          exact absurd h hl
      · rename_i hn
        refine stay (fun d => ?_) hv
        rw [hcr]; unfold State.glueStopped
        cases e : s.cradle d <;> simp [ho]
        rename_i b'
        rintro rfl h
        exact absurd ((hcr _).trans e) (hn _)
    · rename_i ho
      rw [r1] at ho
      refine stay (fun d => ?_) hv
      rw [hcr]; unfold State.glueStopped
      cases e : s.cradle d <;> simp [ho]
  obtain ⟨k1, k2, k3, k4, k5, k6, k7, k8, k9, k10, k11, k12, k13, k14, k15, k16, k17, k18, k19⟩ := key _ rfl
  refine ⟨k1, k2.trans (by rw [hm]), k3, k4, k5, ?_, k7.trans r3, k8.trans r4, k9.trans r5, k10.trans r6,
      k11.trans r7, k12.trans r8, k13.trans r9, k14.trans (by rw [hm]), k15.trans (by rw [hm]),
      k16.trans (by rw [hm]), k17.trans (by rw [hm]), k18.trans (by rw [hm]), k19.trans (by rw [hm]), hann⟩
  show ({ u.stopGlue.place with timer := none, stepTimer := .stopped } : PlacementSequencer) = _
  rw [k6, r2]

end Sys2Proof.Machine
end

