-- ==== Sys2Proof/Laws/Frames.lean ====
section
/-! SUPPORT. Command rows and the arrivals of their frames; fields of bodies read back from their bytes;
the receive framer taking bytes one by one. -/

namespace Sys2Proof.Machine

/-- The start of a frame does not read the command queue (R174). -/
theorem State.beginFrame_with_commands (s : State) (c : List Frame) :
    State.beginFrame { s with link := { s.link with commands := c } } = { s.beginFrame with link := { s.beginFrame.link with commands := c } } :=
    by
  unfold State.beginFrame
  cases s.link.sending
  · cases s.link.replies
    · cases s.link.notices <;> rfl
    · rfl
  · rfl

/-- A command row is the arrival of its frame, where its owner is what the frame is handed to (R172, R173). -/
theorem State.submit_eq_arriveFrame (s : State) (f : Frame) (own : State → State × Answer)
    (hk : isCommandKind f.kind = true) (ho : ∀ u, own u = State.perform f u) :
    s.submit f own = s.arriveFrame f := by
  unfold State.submit
  split
  · rename_i hp
    unfold State.arriveFrame State.admitFrame State.settleLink
    rw [if_pos hp]
    cases s.link.commands.length with
    | zero => rfl
    | succ n =>
      unfold State.settle
      dsimp only
      have : s.beginFrame.mayTake = false := by
        have := (s.beginFrame_resetPending)
        simp [State.mayTake, this, hp]
      split
      · rfl
      · rw [this]; rfl
  · rename_i hp
    split
    · rename_i he
      simp only [Bool.and_eq_true, List.isEmpty_iff] at he
      obtain ⟨hc, hr⟩ := he
      unfold State.arriveFrame State.admitFrame State.settleLink
      rw [if_neg hp, if_neg (by simp [hk]), if_neg (by simp [hr]), if_neg (by simp [hc]), hc]
      simp only [List.nil_append, List.length_singleton]
      unfold State.settle
      rw [State.beginFrame_with_commands s [f]]
      dsimp only
      have hm : State.mayTake { s.beginFrame with link := { s.beginFrame.link with commands := [f] } } = true := by
        have h1 := s.beginFrame_resetPending
        have h2 : s.beginFrame.link.replies = [] := by
          have := s.beginFrame_replies
          rw [hr] at this
          exact List.length_eq_zero_iff.mp (Nat.le_zero.mp this)
        simp [State.mayTake, h1, h2]; simpa using hp
      rw [hm]
      simp only [if_true]
      have hs : ({ s.beginFrame with link := { s.beginFrame.link with commands := [] } } : State) = s.beginFrame := by
        have := s.beginFrame_commands
        rw [hc] at this
        conv_rhs => rw [show s.beginFrame = { s.beginFrame with link := { s.beginFrame.link with commands := s.beginFrame.link.commands } } from rfl,
            this]
      rw [hs, ho]
      rfl
    · rfl

/-- The two bytes of a word put together again. -/
theorem bytes_of_word (x : BitVec 16) : x.extractLsb' 8 8 ++ x.extractLsb' 0 8 = x := by
  ext i; simp [BitVec.getElem_append, BitVec.getElem_extractLsb']; grind

/-- The four bytes of a long put together again. -/
theorem bytes_of_long (x : BitVec 32) : (x.extractLsb' 24 8 ++ x.extractLsb' 16 8 :
    BitVec 16) ++ (x.extractLsb' 8 8 ++ x.extractLsb' 0 8 : BitVec 16) = x := by
  ext i; simp [BitVec.getElem_append, BitVec.getElem_extractLsb']; grind

/-- The two longs of a quad put together again. -/
theorem longs_of_quad (x : BitVec 64) : (x.extractLsb' 32 32 ++ x.extractLsb' 0 32) = x := by
  ext i; simp [BitVec.getElem_append, BitVec.getElem_extractLsb']; grind

/-- The spare bits of a slot record put together again. -/
theorem spare_of_bytes (x : BitVec 48) : (x.extractLsb' 16 32 ++ x.extractLsb' 0 16) = x := by
  ext i; simp [BitVec.getElem_append, BitVec.getElem_extractLsb']; grind

theorem SlotRecord.toBytes_length (r : SlotRecord) : r.toBytes.length = 16 := rfl

theorem byteAt_append (p q : List Byte) (i k : Nat) (h : i = p.length + k) : byteAt (p ++ q) i = byteAt q k := by
  subst h; unfold byteAt
  rw [List.getD_eq_getElem?_getD, List.getD_eq_getElem?_getD, List.getElem?_append_right (by omega)]
  congr 2; omega

theorem wordAt_append (p q : List Byte) (i k : Nat) (h : i = p.length + k) : wordAt (p ++ q) i = wordAt q k := by
  unfold wordAt; rw [byteAt_append p q i k h, byteAt_append p q (i + 1) (k + 1) (by omega)]

theorem longAt_append (p q : List Byte) (i k : Nat) (h : i = p.length + k) : longAt (p ++ q) i = longAt q k := by
  unfold longAt; rw [wordAt_append p q i k h, wordAt_append p q (i + 2) (k + 2) (by omega)]

theorem slotRecordAt_append (p q : List Byte) (i k : Nat) (h : i = p.length + k) :
    slotRecordAt (p ++ q) i = slotRecordAt q k := by
  unfold slotRecordAt
  rw [byteAt_append p q i k h, byteAt_append p q (i + 1) (k + 1) (by omega), longAt_append p q (i + 2) (k + 2)
      (by omega), wordAt_append p q (i+6) (k+6) (by omega), wordAt_append p q (i+8) (k+8) (by omega),
      longAt_append p q (i + 10) (k + 10) (by omega), wordAt_append p q (i+14) (k+14) (by omega)]

/-- The fields of the flags byte of a slot record (R185). -/
theorem slotFlagsByte_fields (a b c : BitVec 2) (d e : Bool) : (slotFlagsByte a b c d e).extractLsb' 6 2 = a ∧
    (slotFlagsByte a b c d e).extractLsb' 4 2 = b ∧ (slotFlagsByte a b c d e).extractLsb' 2 2 = c ∧
    (slotFlagsByte a b c d e).getLsbD 1 = d ∧ (slotFlagsByte a b c d e).getLsbD 0 = e := by
  revert a b c d e; decide +kernel

/-- A slot record read back from its bytes (R185). -/
theorem slotRecordAt_toBytes (r : SlotRecord) (q : List Byte) : slotRecordAt (r.toBytes ++ q) 0 = r := by
  have h : slotRecordAt (r.toBytes ++ q) 0 = { course := r.course, rotation := (slotFlagsByte r.rotation r.kind r.adhesive r.attention r.alternate).extractLsb' 6 2, kind := (slotFlagsByte r.rotation r.kind r.adhesive r.attention r.alternate).extractLsb' 4 2, adhesive := (slotFlagsByte r.rotation r.kind r.adhesive r.attention r.alternate).extractLsb' 2 2, attention := (slotFlagsByte r.rotation r.kind r.adhesive r.attention r.alternate).getLsbD 1, alternate := (slotFlagsByte r.rotation r.kind r.adhesive r.attention r.alternate).getLsbD 0, along := (r.along.extractLsb' 24 8 ++ r.along.extractLsb' 16 8 : BitVec 16) ++ (r.along.extractLsb' 8 8 ++ r.along.extractLsb' 0 8 : BitVec 16), lateral := r.lateral.extractLsb' 8 8 ++ r.lateral.extractLsb' 0 8, planned := r.planned.extractLsb' 8 8 ++ r.planned.extractLsb' 0 8, spare := (((r.spare.extractLsb' 16 32).extractLsb' 24 8 ++ (r.spare.extractLsb' 16 32).extractLsb' 16 8 : BitVec 16) ++ ((r.spare.extractLsb' 16 32).extractLsb' 8 8 ++ (r.spare.extractLsb' 16 32).extractLsb' 0 8 : BitVec 16)) ++ ((r.spare.extractLsb' 0 16).extractLsb' 8 8 ++ (r.spare.extractLsb' 0 16).extractLsb' 0 8 : BitVec 16) } :=
      rfl
  obtain ⟨f1, f2, f3, f4, f5⟩ := slotFlagsByte_fields r.rotation r.kind r.adhesive r.attention r.alternate
  rw [h, f1, f2, f3, f4, f5, bytes_of_word, bytes_of_word, bytes_of_long, bytes_of_long, bytes_of_word, spare_of_bytes]

/-- Slot records read back from their bytes (R182, R185). -/
theorem slotRecordsAt_toBytes (rs : List SlotRecord) (p : List Byte) (i : Nat) (h : i = p.length) :
    slotRecordsAt (p ++ rs.flatMap SlotRecord.toBytes) i rs.length = rs := by
  induction rs generalizing p i with
  | nil => rfl
  | cons r rs ih =>
    simp only [List.flatMap_cons, List.length_cons, slotRecordsAt]
    rw [slotRecordAt_append p _ i 0 (by omega), slotRecordAt_toBytes, ← List.append_assoc, ih (p ++ r.toBytes)
        (i + 16) (by simp [SlotRecord.toBytes_length, h])]

theorem flatMap_toBytes_length (rs : List SlotRecord) : (rs.flatMap SlotRecord.toBytes).length = 16 * rs.length := by
  induction rs with
  | nil => rfl
  | cons r rs ih => simp [SlotRecord.toBytes_length, ih]; omega

/-! ## The receive framer -/

/-- Enough fuel is enough. -/
theorem scanBytes_fuel (n m : Nat) (l : List Byte) (h1 : l.length < n) (h2 : l.length < m) :
    scanBytes n l = scanBytes m l := by
  induction n generalizing m l with
  | zero => omega
  | succ n ih =>
    cases m with
    | zero => omega
    | succ m =>
      match l with
      | [] => rfl
      | [b] => rfl
      | b :: len :: rest =>
        simp only [List.length_cons] at h1 h2
        unfold scanBytes
        have e1 : scanBytes n (len :: rest) = scanBytes m (len :: rest) := ih m _ (by simp; omega) (by simp; omega)
        have e2 : scanBytes n (rest.drop (len.toNat + 2)) = scanBytes m (rest.drop (len.toNat + 2)) :=
            ih m _ (by simp; omega) (by simp; omega)
        rw [e1, e2]

/-- The scanAll of bytes with the fuel it needs. -/
def scanAll (l : List Byte) : List Frame × List Byte := scanBytes (l.length + 1) l

/-- The scanAll at its first two bytes (R171). -/
theorem scanAll_cons_cons (b len : Byte) (rest : List Byte) : scanAll (b :: len :: rest) =
    if b ≠ 0xC3#8 then scanAll (len :: rest)
    else if len.toNat < 2 ∨ 124 < len.toNat then scanAll (len :: rest)
    else if rest.length < len.toNat + 2 then ([], b :: len :: rest)
    else if be16 (crc (len :: rest.take len.toNat)) = (rest.drop len.toNat).take 2 then
        (⟨byteAt (rest.take len.toNat) 0, byteAt (rest.take len.toNat) 1, (rest.take len.toNat).drop 2⟩ ::
            (scanAll (rest.drop (len.toNat + 2))).1, (scanAll (rest.drop (len.toNat + 2))).2)
      else scanAll (len :: rest) := by
  have e1 : scanAll (len :: rest) = scanBytes (b :: len :: rest).length (len :: rest) :=
      scanBytes_fuel _ _ _ (by simp) (by simp)
  have e2 : scanAll (rest.drop (len.toNat + 2)) = scanBytes (b :: len :: rest).length (rest.drop (len.toNat + 2)) :=
      scanBytes_fuel _ _ _ (by simp) (by simp; omega)
  rw [e1, e2]
  unfold scanAll
  rw [scanBytes]

/-- The framer takes bytes one by one as it would take them together (R171). -/
theorem scanAll_append_one (n : Nat) (l : List Byte) (x : Byte) (hn : l.length < n) : scanAll (l ++ [x])
    = ((scanAll l).1 ++ (scanAll ((scanAll l).2 ++ [x])).1, (scanAll ((scanAll l).2 ++ [x])).2) := by
  induction n generalizing l with
  | zero => omega
  | succ n ih =>
    match l with
    | [] => simp [scanAll, scanBytes]
    | [b] =>
      by_cases hb : b = 0xC3#8
      · simp [scanAll, scanBytes, hb]
      · have : (scanAll [b]) = ([], []) := by simp [scanAll, scanBytes, hb]
        rw [this]
        show scanAll (b :: x :: []) = _
        rw [scanAll_cons_cons, if_pos hb]
        rfl
    | b :: len :: rest =>
      simp only [List.length_cons] at hn
      have h1 := ih (len :: rest) (by simp; omega)
      have h2 := ih (rest.drop (len.toNat + 2)) (by simp; omega)
      show scanAll (b :: len :: (rest ++ [x])) = _
      rw [scanAll_cons_cons, scanAll_cons_cons]
      by_cases c1 : b ≠ 0xC3#8
      · rw [if_pos c1, if_pos c1]; exact h1
      rw [if_neg c1, if_neg c1]
      by_cases c2 : len.toNat < 2 ∨ 124 < len.toNat
      · rw [if_pos c2, if_pos c2]; exact h1
      rw [if_neg c2, if_neg c2]
      by_cases c3 : rest.length < len.toNat + 2
      · rw [if_pos c3]
        show _ = ([] ++ (scanAll (b :: len :: (rest ++ [x]))).1, (scanAll (b :: len :: (rest ++ [x]))).2)
        rw [scanAll_cons_cons, if_neg c1, if_neg c2]
        rfl
      · rw [if_neg c3, if_neg (by simp; omega)]
        have t1 : (rest ++ [x]).take len.toNat = rest.take len.toNat := List.take_append_of_le_length (by omega)
        have t2 : ((rest ++ [x]).drop len.toNat).take 2 = (rest.drop len.toNat).take 2 := by
          rw [List.drop_append_of_le_length (by omega), List.take_append_of_le_length (by simp; omega)]
        have t3 : (rest ++ [x]).drop (len.toNat + 2) = rest.drop (len.toNat + 2) ++ [x] :=
            List.drop_append_of_le_length (by omega)
        rw [t1, t2, t3]
        by_cases c4 : be16 (crc (len :: rest.take len.toNat)) = (rest.drop len.toNat).take 2
        · rw [if_pos c4, if_pos c4, h2]; rfl
        · rw [if_neg c4, if_neg c4]; exact h1

theorem Framer.receive_eq (f : Framer) (x : Byte) :
    f.receive x = ((scanAll (f.bytes ++ [x])).1, ⟨(scanAll (f.bytes ++ [x])).2⟩) := rfl

/-- Bytes received one after the other. -/
def receiveAll (l : List Byte) (a : List Frame × Framer) :=
    l.foldl (fun (acc : List Frame × Framer) y => (acc.1 ++ (acc.2.receive y).1, (acc.2.receive y).2)) a

theorem receiveAll_from (l p : List Byte) : receiveAll l ((scanAll p).1, ⟨(scanAll p).2⟩)
    = ((scanAll (p ++ l)).1, ⟨(scanAll (p ++ l)).2⟩) := by
  induction l generalizing p with
  | nil => simp [receiveAll]
  | cons x l ih =>
    have := scanAll_append_one _ p x (Nat.lt_succ_self _)
    show receiveAll l ((scanAll p).1 ++ ((⟨(scanAll p).2⟩ : Framer).receive x).1,
        ((⟨(scanAll p).2⟩ : Framer).receive x).2) = _
    rw [Framer.receive_eq]
    dsimp only
    have e := ih (p ++ [x])
    rw [this] at e
    dsimp only at e
    rw [e]; simp

/-- Bytes received one after the other are scanned together. -/
theorem receiveAll_eq (l : List Byte) : receiveAll l ([], ⟨[]⟩) = ((scanAll l).1, ⟨(scanAll l).2⟩) :=
    receiveAll_from l []

/-- The bytes of a frame complete that frame (R169, R171). -/
theorem scanAll_frameBytes (k t : Byte) (body : List Byte) (h : body.length ≤ 122) : scanAll (frameBytes k t body)
    = ([⟨k, t, body⟩], []) := by
  unfold frameBytes
  dsimp only
  have hl : (BitVec.ofNat 8 (body.length + 2)).toNat = body.length + 2 := by
    rw [BitVec.toNat_ofNat, Nat.mod_eq_of_lt (by omega)]
  generalize BitVec.ofNat 8 (body.length + 2) = len at *
  show scanAll (0xC3#8 :: len :: (k :: t :: body ++ be16 _)) = _
  generalize hc : crc (len :: k :: t :: body) = c
  rw [scanAll_cons_cons, if_neg (by simp), if_neg (by omega), if_neg (by simp [be16]; omega)]
  have t1 : (k :: t :: body ++ be16 c).take len.toNat = k :: t :: body := by
    rw [hl, List.take_append_of_le_length (by simp), List.take_of_length_le (by simp)]
  have t2 : (k :: t :: body ++ be16 c).drop len.toNat = be16 c := by
    rw [hl, show body.length + 2 = (k :: t :: body).length from rfl, List.drop_left]
  have t3 : (k :: t :: body ++ be16 c).drop (len.toNat + 2) = [] := by
    rw [List.drop_eq_nil_of_le]; simp [be16]; omega
  rw [t1, t2, t3, hc]
  rw [if_pos (by simp [be16])]
  rfl

end Sys2Proof.Machine
end

