-- ==== Sys2Proof/Laws/Pose.lean ====
section
/-! SUPPORT. Pose samples and compensated samples: what each makes and leaves. -/

namespace Sys2Proof.Machine

/-- The screening of a sample (R107). -/
theorem Sample.passesScreening_iff (p : Sample) : p.passesScreening = true ↔ p.quality ≠ 0 ∧
    (p.hc * p.hc + p.hs * p.hs - 268435456).natAbs ≤ 5368709 ∧ p.tip.x.natAbs ≤ 1000000 ∧ p.tip.y.natAbs ≤ 1000000 ∧
    p.tip.z.natAbs ≤ 1000000 := by
  simp [Sample.passesScreening, headingNormOk, and_assoc]

/-- The class of a sequence distance that is not stale (R108). -/
theorem classOfDistance_of (d : Nat) (h1 : 1 ≤ d) (h2 : d < 1024) :
    classOfDistance d = if d ≤ 8 then .step d else .restart := by
  unfold classOfDistance; rw [if_neg (by omega)]

theorem State.reportPose_pose (s : State) : s.reportPose.pose = s.pose := by
  unfold State.reportPose State.enterPoseHold
  split
  · split
    · rfl
    · dsimp only; split
      · rfl
      · split
        · split
          · simp [State.raisePoseHold]
          · rfl
        · rfl
  · rfl

/-- In a pose state without the hold, the report lifts it (R120, R141). -/
theorem State.reportPose_lifts (s : State) (h : s.pose.state.carriesHold = false) :
    s.reportPose = { s with place := { s.place with holdPose := false } } := by
  unfold State.reportPose; rw [h]; rfl

theorem State.compensate_pose (s : State) (p : Sample) (v : Vec3) (r : Bool) : (s.compensate p v r).pose = s.pose ∧
    (s.compensate p v r).place.holdPose = s.place.holdPose := by
  unfold State.compensate
  split
  · split
    · unfold State.compensateWith
      dsimp only
      split <;> exact ⟨rfl, rfl⟩
    · exact ⟨rfl, rfl⟩
  · exact ⟨rfl, rfl⟩

/-- A sample that passes screening, by the pose state. -/
theorem exec_poseFrameArrival (s : State) (tag : Byte) (body : List Byte) (hb : body.length = 18)
    (h : (poseSampleOf body).passesScreening = true) (p : Sample) (hp : p = poseSampleOf body) :
   exec (.poseFrameArrival 0x60 tag body) s = .next (match s.pose.state, s.pose.last with
    | .none, _ => s.acceptFirst p
    | .lost, _ => s.acceptInLost p
    | .tracking, some last => s.judgeTracking last p
    | .coasting, some last => s.judgeTracking last p
    | .recovering, some last => s.judgeRecovering last p
    | .tracking, none => s
    | .coasting, none => s
    | .recovering, none => s).beginFrame := by
  subst hp
  show Host.Outcome.next (s.poseFrame ⟨0x60, tag, body⟩).beginFrame = _
  unfold State.poseFrame State.poseSample
  rw [if_pos ⟨rfl, hb⟩]
  dsimp only
  rw [if_pos h]
  all_goals (cases s.pose.state <;> cases s.pose.last <;> rfl)

/-- The entry to the POSE hold (R135, R141). -/
theorem State.enterPoseHold_moves (s : State) : s.enterPoseHold.place.holdPose = true ∧
    s.enterPoseHold.place.state = s.place.state ∧ s.enterPoseHold.comp.setpoints = s.comp.setpoints ∧
    (s.faulted = false → s.enterPoseHold.comp.counter = 0) ∧
    s.enterPoseHold.plan = s.plan ∧ s.enterPoseHold.feed = s.feed ∧ s.enterPoseHold.train = s.train ∧
        s.enterPoseHold.cradles = s.cradles ∧ s.enterPoseHold.mode = s.mode ∧ s.enterPoseHold.clock = s.clock := by
  unfold State.enterPoseHold
  dsimp only
  split
  · rename_i h; simp [h]
  · split
    · split <;> simp [State.raisePoseHold]
    · simp

/-- What a compensated sample leaves (R130). -/
theorem State.compensate_frame (s : State) (p : Sample) (v : Vec3) (r : Bool) (t : State)
    (ht : t = s.compensate p v r) :
    t.plan = s.plan ∧ t.feed = s.feed ∧ t.train = s.train ∧ t.cradles = s.cradles ∧ t.adhesive = s.adhesive ∧
      t.datum = s.datum ∧ t.zone = s.zone ∧ t.mode = s.mode ∧ t.clock = s.clock ∧ t.link = s.link ∧
          t.comp.settings = s.comp.settings ∧ t.comp.latched = s.comp.latched := by
  subst ht
  unfold State.compensate
  split
  · split
    · unfold State.compensateWith
      dsimp only
      split <;> simp [State.release, State.updateCounter, State.judgeState, State.writeSetpoints]
    · simp
  · simp

theorem clampInt_eq (b x : Int) (h : 0 ≤ b) : clampInt b x = max (-b) (min b x) := by unfold clampInt; omega

/-- The inputs of a compensated sample (R130). -/
theorem State.compensationInput_eq (s : State) (g : GripperBrick) (sl : Slot) (target : Vec3) (da : DatumEntry)
    (l : PlacementSettings)
  (hg : s.place.gripper = some g) (hs : s.slot? g.brick.bank g.brick.slot = some sl) (ht : sl.target = some target)
  (hd : s.datumOf g.brick.bank = some da) (hl : s.comp.latched = some l) :
      s.compensationInput = some ⟨l, target, sl.alternate, da.cx, da.cy⟩ := by
  unfold State.compensationInput; rw [hl, hg]; simp [hs, hd, ht]

/-- The conditions of a compensated sample (R130). -/
theorem State.compensates_of (s : State) (hm : s.mode.mode = .laying ∨ s.mode.mode = .paused)
    (hp : s.place.state = .approach ∨ s.place.state = .settling) : s.compensates = true := by
  unfold State.compensates
  rcases hm with h | h <;> rcases hp with h' | h' <;> simp [h, h', PlacementState.holdsBrick]

/-- A sample is compensated where the brick is steered, by what the Compensation Unit reads for it (R130). -/
theorem State.compensate_eq (s : State) (p : Sample) (v : Vec3) (r : Bool) (h : s.isSteered) {g : GripperBrick} {sl : Slot}
    {target : Vec3} {da : DatumEntry} {l : PlacementSettings} (k : s.steersBy g sl target da l) :
    s.compensate p v r = s.compensateWith ⟨l, target, sl.alternate, da.cx, da.cy⟩ p v r := by
  obtain ⟨k1, k2, k3, k4, k5⟩ := k
  unfold State.compensate
  rw [if_pos (s.compensates_of h.1 h.2), s.compensationInput_eq g sl target da l k1 k2 k3 k4 k5]

/-- A sample is not compensated where no brick is steered (R130). -/
theorem State.compensate_none (s : State) (p : Sample) (v : Vec3) (r : Bool) (h : ¬ s.isSteered) : s.compensate p v r = s := by
  have : s.compensates = false := by
    unfold State.isSteered at h
    unfold State.compensates
    cases e : s.place.state <;> cases k : s.mode.mode <;> simp_all [PlacementState.holdsBrick]
  unfold State.compensate
  rw [if_neg (by simp [this])]

/-- What the state in which a sample is compensated shares with the state before it, as far as the setpoints go. -/
theorem State.compensate_steers (s q : State) (p : Sample) (v : Vec3) (r : Bool) (hq : q.isSteered) (hm : q.mode = s.mode)
    (hc : q.comp = s.comp) {g : GripperBrick} {sl : Slot} {target : Vec3} {da : DatumEntry} {l : PlacementSettings}
    (k : q.steersBy g sl target da l) : s.steeredTo (q.compensate p v r) target da l p.tip v p.hc p.hs := by
  rw [q.compensate_eq p v r hq k]
  refine ⟨_, _, _, _, _, _, rfl, rfl, rfl, rfl, rfl, rfl, ?_⟩
  have e : ∀ i, (q.compensateWith i p v r).comp.setpoints = setpointsOf q.mode.travel (i.demands p v) ∧
      (q.compensateWith i p v r).comp.saturation = saturationOf q.mode.travel (i.demands p v) ∧
      (q.compensateWith i p v r).comp.lastStep =
        stepBetween (setpointsOf q.mode.travel (i.demands p v)) q.comp.setpoints := by
    intro i
    unfold State.compensateWith
    dsimp only
    split <;> exact ⟨rfl, rfl, rfl⟩
  obtain ⟨e1, e2, e3⟩ := e ⟨l, target, sl.alternate, da.cx, da.cy⟩
  refine ⟨?_, ?_, ?_⟩
  · rw [e1, hm]
    unfold setpointsOf travelXY travelZ travelWrist CompensationInput.demands demandsOf siteError
    cases s.mode.travel <;>
      simp only [clampInt_eq _ _ (by decide : (0 : Int) ≤ 400), clampInt_eq _ _ (by decide : (0 : Int) ≤ 600),
        clampInt_eq _ _ (by decide : (0 : Int) ≤ 300), clampInt_eq _ _ (by decide : (0 : Int) ≤ 1430)] <;> rfl
  · rw [e2, hm]
    unfold saturationOf travelXY travelZ travelWrist CompensationInput.demands demandsOf siteError outside
    cases s.mode.travel <;> simp
  · rw [e3, e1, hc]; rfl

/-- A real sample handed on: the Pose Filter in TRACKING with it, the POSE hold lifted, POSE RESTORED from RECOVERING, and the
compensation (R109, R111, R112, R119, R120). -/
theorem State.handsOn_compensated (s : State) (tag : Byte) (body : List Byte) (p : Sample) (v : Vec3) (restart : Bool)
    (hb : body.length = 18) (hp : p = poseSampleOf body) (h : s.handsOn p v restart) : ∃ (f : PoseFilter) (q : State),
    q = { s with
      pose := f, place := { s.place with holdPose := false }
      link := if s.pose.state = .recovering then s.raisedLink [.poseRestored p.sequence] else s.link } ∧
    exec (.poseFrameArrival 0x60 tag body) s = .next (q.compensate p v restart).beginFrame ∧
    f.state = .tracking ∧ f.last = some p ∧ f.previous = s.pose.last ∧ f.velocity = v := by
  obtain ⟨hs, h⟩ := h
  have hx := exec_poseFrameArrival s tag body hb (hp ▸ hs) p hp
  rcases h with ⟨h1, rfl, rfl⟩ | ⟨h1, last, d, h2, h3, d1, d2, rfl, rfl⟩ | ⟨h1, last, h2, h3, h4, rfl, rfl⟩
  · rw [h1] at hx
    refine ⟨{ s.pose.take p with velocity := ⟨0, 0, 0⟩, state := .tracking, timer := some s.poseDue }, _, rfl, ?_, rfl, rfl, rfl, rfl⟩
    rw [hx]
    dsimp only
    unfold State.acceptFirst
    dsimp only
    rw [State.reportPose_lifts _ rfl, if_neg (by simp [h1])]
  · have hc : s.judgeTracking last p =
        s.acceptTracking p (if d ≤ 8 then velocityOver p.tip last.tip d else ⟨0, 0, 0⟩) (decide (8 < d)) := by
      unfold State.judgeTracking
      rw [show sequenceDistance p.sequence last.sequence = d from h3.symm, classOfDistance_of d d1 d2]
      by_cases h8 : d ≤ 8
      · simp [h8, Nat.not_lt.mpr h8]
      · simp [h8, Nat.not_le.mp h8]
    have hx' : exec (.poseFrameArrival 0x60 tag body) s = .next (s.judgeTracking last p).beginFrame := by
      rw [hx, h2]; rcases h1 with h | h <;> rw [h]
    refine ⟨{ s.pose.take p with
      velocity := if d ≤ 8 then velocityOver p.tip last.tip d else ⟨0, 0, 0⟩
      synthesized := 0, realRun := 0, state := .tracking, timer := some s.poseDue }, _, rfl, ?_, rfl, rfl, rfl, rfl⟩
    rw [hx', hc]
    unfold State.acceptTracking
    dsimp only
    rw [State.reportPose_lifts _ rfl,
      if_neg (show ¬ s.pose.state = .recovering by rcases h1 with h | h <;> simp [h])]
  · have hc : s.judgeRecovering last p = s.restorePose p (velocityOver p.tip last.tip 1) := by
      unfold State.judgeRecovering
      rw [show sequenceDistance p.sequence last.sequence = 1 from h3, classOfDistance_of 1 (by omega) (by omega)]
      rw [if_pos (by omega)]
      dsimp only
      rw [if_neg (by simp), if_neg (by omega)]
    refine ⟨{ s.pose.take p with
      velocity := velocityOver p.tip last.tip 1
      synthesized := 0, realRun := 0, state := .tracking, timer := some s.poseDue }, _, rfl, ?_, rfl, rfl, rfl, rfl⟩
    rw [h1, h2] at hx
    rw [hx]
    dsimp only
    rw [hc]
    unfold State.restorePose
    dsimp only
    rw [State.reportPose_lifts _ (by rw [State.raise_pose]; rfl), if_pos h1]
    generalize hu : ({ s with pose := _ } : State) = u
    have hl : (u.raise (.poseRestored p.sequence)).link = s.raisedLink [.poseRestored p.sequence] :=
      State.raise_link_congr _ (by rw [← hu])
    rw [State.raise_eq, hl, ← hu]

/-- A synthesized sample handed on: the Pose Filter in COASTING with it, the POSE hold lifted, and the compensation (R116,
R120). -/
theorem State.poseTimerExpiry_compensated (s : State) (due : Time) (last : Sample) (h : s.pose.timer = some due)
    (hl : s.pose.last = some last) (h4 : s.pose.synthesized < 4) : ∃ (f : PoseFilter) (q : State),
    q = { s.runTo due with pose := f, place := { s.place with holdPose := false } } ∧
    exec .poseTimerExpiry s = .next (q.compensate (synthesize last s.pose.velocity) s.pose.velocity false).beginFrame ∧
    f.state = .coasting ∧ f.last = some (synthesize last s.pose.velocity) ∧ f.previous = some last ∧
    f.velocity = s.pose.velocity ∧ f.synthesized = s.pose.synthesized + 1 := by
  refine ⟨{ s.pose.take (synthesize last s.pose.velocity) with
    synthesized := s.pose.synthesized + 1, state := .coasting, timer := some (s.runTo due).poseDue }, _, rfl, ?_, rfl, rfl, hl,
    rfl, rfl⟩
  show Host.Outcome.next s.poseTimerExpiry.beginFrame = _
  unfold State.poseTimerExpiry
  rw [h, hl]
  dsimp only
  rw [if_pos h4]
  unfold State.acceptSynthesized
  dsimp only
  rw [State.reportPose_lifts _ rfl]
  rfl

end Sys2Proof.Machine
end

