-- ==== Sys2Proof/Tests/Slice0.lean ====
section
/-! SUPPORT. Tests: the ill-formed terms the check refuses, the worked cases of spec/ (each names its section), and, for every
statement of Certificates/Slice0/Obligations.lean with hypotheses, a state and operands that meet them. -/

set_option Elab.async false

namespace Sys2Proof.Tests

open Sys2Proof Sys2Proof.Machine

/-! ## Helpers -/

/-- The state a command or event leaves. -/
def after (i : Instr) (s : State) : State :=
  match exec i s with
  | .next t => t
  | .fault _ => s
  | .refused _ => s

/-- The reset state with its READY frame sent: SETUP, nothing waiting. -/
def quiet : State := { State.reset with link := { State.reset.link with sending := none } }

def inMode (s : State) (m : PartMode) : State :=
  { s with mode := { s.mode with mode := m }, place := { s.place with holdPaused := decide (m = PartMode.paused) } }

/-- FAULTED with cause OVERRUN, HALT deasserted. -/
def faulted : State :=
  { (inMode quiet .faulted) with
    mode := { quiet.mode with mode := .faulted, fault := some ⟨.overrun, 0, .laying⟩ }
    clock := { quiet.clock with stoppedAt := some 0 }
    cradles := { quiet.cradles with hold := true } }

/-- The code and fields of the frame being sent, where it is a reply. -/
def replyOf (s : State) : Option (ResultCode × List Int) :=
  match s.link.sending with
  | some (.reply r) => some (r.code, r.fields.map Field.value)
  | _ => none

/-- Datum entry 1 of the worked cases of 02 and 08. -/
def wallLine : DatumEntry := ⟨125000, 48000, 2000, 13107, 9830, 0, 750⟩

/-- The box and row 2 of the worked case of 03. -/
def zoneOfCase : ZoneUnit :=
  { box := some ⟨100000, 400000, 30000, 300000, 0, 60000⟩
    cells := (Vector.replicate 64 0#64).set 2 0xFFC0000000000000#64 }

def slotWith (course : Nat) (along : Int) (st : SlotStatus) : Slot :=
  { course := course, along := along, lateral := none, rotation := .deg0, kind := .stretcher, planned := 2150
    pattern := .double, attention := false, alternate := false, status := st, rejectCount := 0, target := none }

/-- A slot at the target of the worked case of 02. -/
def slotAtCase (st : SlotStatus) : Slot := { slotWith 3 11750 st with target := some ⟨134400, 55050, 4250⟩ }

def bankWith (st : BankState) (slots : List Slot) : Bank :=
  { state := st, setup := some { datum := 1, walk := .forward, width := 1000 }, slots := slots, refusedAtClose := 0 }

/-- Entry 1 SET, the zone of the worked case, bank 0 as given. -/
def siteWith (b : Bank) (order : List BankId) : State :=
  { quiet with
    plan := { quiet.plan with bank0 := b, order := order }
    datum := ⟨quiet.datum.entries.set 1 (some wallLine)⟩
    zone := zoneOfCase }

def brickWith (serial : Nat) (slot : Nat) : Brick :=
  { serial := serial, tag := BitVec.ofNat 8 serial, bank := .bank0, slot := slot, mark := none }

def cradleBrickWith (serial : Nat) (slot : Nat) : CradleBrick := ⟨brickWith serial slot, 2150, .double⟩

/-- LAYING: bank 0 ACTIVE with four slots, the first FED with its brick where the caller puts it. -/
def laying : State :=
  inMode (siteWith (bankWith .active
    [slotAtCase .fed, slotWith 3 14000 .pending, slotWith 4 11750 .pending, slotWith 4 14000 .pending]) [.bank0]) .laying

/-- One brick REQUESTED. -/
def requested : State :=
  { laying with
    feed := { laying.feed with cursor := 1, nextTag := 1 }
    train := { laying.train with nextSerial := 1
                                 entries := [⟨brickWith 0 0, 2150, none, .requested, none, false⟩] } }

/-- The same brick IN TRANSIT, its deadline at 30 s. -/
def onBoom : State :=
  { requested with train := { requested.train with
      entries := [⟨brickWith 0 0, 2150, some 2150, .inTransit, some 3000000, false⟩] } }

/-- The same brick in cradle 0, in some state. -/
def cradled (c : Cradle) : State :=
  { requested with
    train := { requested.train with entries := [] }
    cradles := { cradle0 := c, cradle1 := .empty, hold := false } }

/-- The same brick in the gripper, with the settings of reset latched and the pose of the worked case of 08. -/
def placing (st : PlacementState) : State :=
  { (cradled .empty) with
    comp := { quiet.comp with latched := some quiet.comp.settings, counter := 2, setpoints := ⟨27, -93, 60, 0⟩ }
    pose := { quiet.pose with
      state := .tracking, last := some ⟨311, ⟨134304, 55124, 4190⟩, 13107, 9830, 3, .real⟩, timer := some 300 }
    place := { quiet.place with
      state := st, gripper := some ⟨brickWith 0 0, .deg0, some 24000000⟩, timer := some 120000
      hasSettled := decide (st = PlacementState.settling), holdPose := false, grip := true, gripped := true } }

/-- The pose body of a sample of the worked case. -/
def poseBody (sequence : BitVec 16) (x y z : BitVec 32) (hc hs : BitVec 16) : List Byte :=
  be16 sequence ++ be32 x ++ be32 y ++ be32 z ++ be16 hc ++ be16 hs

/-- Sequence 312 of the worked case of 08, quality 3. -/
def body312 : List Byte := poseBody (0xC000#16 + 312#16) 134310 55120 4190 13107 9830

/-! ## Ill-formed terms -/

def record : SlotRecord := ⟨3, 0, 0, 2, false, false, 11750, 0x8000, 2150, 0⟩

theorem test_refused_eight_records : (Instr.loadSlots 0 0 0 8 (List.replicate 8 record)).wellFormed = false := by decide

theorem test_refused_named_kind : (Instr.unknownCommand 0x01 0 []).wellFormed = false := by decide

theorem test_refused_kind_of_replies : (Instr.unknownCommand 0x40 0 []).wellFormed = false := by decide

theorem test_refused_long_unknown_body : (Instr.unknownCommand 0x06 0 (List.replicate 123 0)).wellFormed = false := by decide +kernel

theorem test_refused_long_command_body : (Instr.commandFrameArrival 0x01 0 (List.replicate 123 0)).wellFormed = false := by
  decide +kernel

theorem test_refused_long_pose_body : (Instr.poseFrameArrival 0x60 0 (List.replicate 123 0)).wellFormed = false := by decide +kernel

theorem test_wellformed_terms :
    (Instr.loadSlots 0 0 0 7 (List.replicate 7 record)).wellFormed = true ∧
      (Instr.unknownCommand 0x06 0 (List.replicate 122 0)).wellFormed = true ∧
      (Instr.poseFrameArrival 0x60 0 (List.replicate 122 0)).wellFormed = true := by decide +kernel

/-! ## Worked cases of the spec: frames (10), walk order and feeding (04), targets (02), zone (03) -/

theorem test_crc_of_identify :
    crc [0x02] = 0xC1B2#16 ∧ crc [0x02, 0x01] = 0x6B4C#16 ∧ crc [0x02, 0x01, 0x00] = 0x91CD#16 ∧
      frameBytes 0x01 0x00 [] = [0xC3, 0x02, 0x01, 0x00, 0x91, 0xCD] := by decide +kernel

theorem test_framer_takes_identify :
    ([0x00, 0xC3, 0x02, 0x01, 0x00, 0x91, 0xCD].foldl
      (fun (acc : List Frame × Framer) (x : Byte) => (acc.1 ++ (acc.2.receive x).1, (acc.2.receive x).2)) ([], ⟨[]⟩)) =
      ([⟨0x01, 0x00, []⟩], ⟨[]⟩) := by decide +kernel

def walkCase (m : WalkMode) : Bank :=
  { (bankWith .active ([4, 4, 4, 5, 5, 5, 7, 7, 7].map fun c => slotWith c 0 .pending)) with
    setup := some { datum := 1, walk := m, width := 1000 } }

theorem test_walk_order_case :
    (walkCase .alternateF).walkOrder = [0, 1, 2, 5, 4, 3, 8, 7, 6] ∧
      (walkCase .alternateR).walkOrder = [2, 1, 0, 3, 4, 5, 6, 7, 8] ∧ (walkCase .alternateF).walkPosition 5 = some 3 ∧
      (walkCase .alternateF).walkPosition 6 = some 8 := by decide +kernel

theorem test_target_case :
    targetOn wallLine (slotWith 3 11750 .pending) = ⟨134400, 55050, 4250⟩ ∧ headingNormOk 13107 9830 = true ∧
      zoneOfCase.admits ⟨134400, 55050, 4250⟩ = true ∧ zoneOfCase.admits ⟨134070, 55490, 4250⟩ = true ∧
      zoneOfCase.admits ⟨200000, 55050, 4250⟩ = false := by decide +kernel

def overlapCase (a6 : Int) : List Slot :=
  [slotWith 2 1200 .pending, slotWith 2 3350 .pending, { slotWith 2 a6 .pending with rotation := .deg90 }]

theorem test_footprint_case :
    footprintFault 1100 4 (overlapCase 4950) = some (6, .overlap) ∧ footprintFault 1100 4 (overlapCase 4980) = none ∧
      courseOrderFault 0 (overlapCase 4950) = none := by decide +kernel

/-! ## Worked cases of the spec: glue (06), pose (07), compensation (08) -/

theorem test_glue_case :
    strokeCount 2150 2 50 = 86 ∧ strokeCount 2150 1 50 = 43 ∧ strokeCount 1075 1 50 = 22 ∧ strokePeriod 3596 = 1000 ∧
      strokeCount 2150 2 10 = 430 ∧ strokePeriod 4000 = 192 := by decide

theorem test_sequence_case :
    ([2047, 1, 2046, 2040, 10, 1021, 1022].map fun q : Seq => classOfDistance (sequenceDistance q 2046)) =
      [.step 1, .step 3, .stale, .stale, .restart, .restart, .stale] := by decide +kernel

theorem test_velocity_case :
    velocityOver ⟨134310, 55120, 4190⟩ ⟨134304, 55124, 4190⟩ 1 = ⟨6, -4, 0⟩ ∧
      velocityOver ⟨134329, 55113, 4191⟩ ⟨134310, 55120, 4190⟩ 3 = ⟨6, -2, 0⟩ ∧
      velocityOver ⟨134315, 55115, 4193⟩ ⟨134310, 55120, 4190⟩ 2 = ⟨3, -3, 2⟩ ∧
      velocityOver ⟨136910, 55120, 4190⟩ ⟨134310, 55120, 4190⟩ 1 = ⟨2000, 0, 0⟩ ∧
      velocityOver ⟨130309, 55120, 4190⟩ ⟨134310, 55120, 4190⟩ 2 = ⟨-2000, 0, 0⟩ := by decide +kernel

theorem test_compensation_case :
    setpointsOf .long (demandsOf (siteError ⟨134400, 55050, 4250⟩ ⟨134310, 55120, 4190⟩ ⟨6, -4, 0⟩ 2) 13107 9830 13107 9830) =
        ⟨25, -96, 60, 0⟩ ∧
      setpointsOf .long (demandsOf (siteError ⟨134400, 55050, 4250⟩ ⟨134314, 55116, 4190⟩ ⟨4, -4, 0⟩ 2) 13107 9830 13107 9830) =
        ⟨28, -93, 60, 0⟩ ∧
      (demandsOf ⟨0, 0, 0⟩ 13100 9840 13107 9830).wrist = -12 ∧ setpointsOf .long ⟨812, 0, 0, 0⟩ = ⟨600, 0, 0, 0⟩ ∧
      setpointsOf .short ⟨812, 0, 0, 0⟩ = ⟨400, 0, 0, 0⟩ ∧ (saturationOf .short ⟨812, 0, 0, 0⟩).any = true ∧
      (saturationOf .long ⟨600, 600, 400, 1430⟩).any = false := by decide +kernel

theorem test_compensated_sample_312 :
    (after (.poseFrameArrival 0x60 0 body312) (placing .settling)).comp.setpoints = ⟨25, -96, 60, 0⟩ ∧
      (after (.poseFrameArrival 0x60 0 body312) (placing .settling)).comp.lastStep = ⟨-2, -3, 0⟩ ∧
      (after (.poseFrameArrival 0x60 0 body312) (placing .settling)).comp.counter = 3 ∧
      (after (.poseFrameArrival 0x60 0 body312) (placing .settling)).place.state = .settling ∧
      (after (.poseFrameArrival 0x60 0 body312) (placing .settling)).pose.velocity = ⟨6, -4, 0⟩ := by decide +kernel

/-! ## Worked cases of the spec: admission (10), fault record (09), watch stop (11) -/

/-- The worked case of section 10.3: a FEED frame on the link, reply 0 waiting. -/
def admissionCase : State :=
  { quiet with link := { quiet.link with
      replies := [⟨0x01, 0, .ok, []⟩], sending := some (.notice (.feed 0 .bank0 0 .stretcher 2150 .deg0)) } }

def sixReads : List Instr := [1, 2, 3, 4, 5, 6].map fun t => .readStatus t 2

theorem test_admission_case :
    ((sixReads.foldl (fun s i => after i s) admissionCase).link.commands.map Frame.tag) = [1, 2, 3, 4] ∧
      ((sixReads.foldl (fun s i => after i s) admissionCase).link.replies.map fun r => (r.tag, r.code)) =
        [(0, .ok), (5, .queueFull), (6, .queueFull)] := by decide +kernel

theorem test_fault_record_case :
    (after .haltAssert (after (.transitExpiry 0) onBoom)).mode.fault = some ⟨.lostBrick, 1, .laying⟩ ∧
      (after .arrive (after .haltAssert (after (.transitExpiry 0) onBoom))).mode.fault =
        some ⟨.lostBrick, 9, .laying⟩ := by decide +kernel

/-! ## A state that meets the hypotheses of each statement, and what the row does there -/

theorem test_hyps_quiet_link :
    quiet.linkIdle ∧ faulted.linkIdle ∧ laying.linkIdle ∧ (inMode laying .paused).linkIdle ∧
      (inMode laying .stowed).linkIdle ∧ (placing .settling).linkIdle ∧ quiet.linkSettled ∧ admissionCase.linkSettled := by
  unfold State.linkIdle State.linkSettled; decide +kernel

theorem test_hyps_idle_step :
    quiet.ownEvents = [] ∧ quiet.pending = [] ∧ requested.ownEvents = [.feedRequest] ∧
      (cradled (.held (cradleBrickWith 0 0))).ownEvents = [.grant, .feedRequest] := by decide +kernel

theorem test_hyps_reset_falls :
    ({ quiet with link := { quiet.link with resetPending := true, sending := some (.reply ⟨0x02, 0, .ok, []⟩) } } :
        State).link.replies = [] ∧
      (after .frameTransmissionEnd
        { faulted with link := { quiet.link with resetPending := true, sending := some (.reply ⟨0x02, 0, .ok, []⟩) } }).link.sending =
        some (.notice (.ready .command .two .long .setup)) := by decide +kernel

theorem test_identify :
    replyOf (after (.identify 7) quiet) = some (.ok, [0x4C02, 4, 2, 1, 0]) := by decide +kernel

theorem test_reset_pends :
    (after (.reset 7) quiet).link.resetPending = true ∧ replyOf (after (.reset 7) quiet) = some (.ok, []) ∧
      after (.commandFrameArrival 0x01 0 []) (after (.reset 7) quiet) = after (.reset 7) quiet := by decide +kernel

theorem test_read_status :
    replyOf (after (.readStatus 0 4) quiet) = some (.range, []) ∧
      (∀ p ∈ [(0#8, 35), (1#8, 34), (2#8, 27), (3#8, 48)], ((quiet.statusPage p.1).map List.length) ≠ none) ∧
      (after (.readStatus 0 3) { quiet with link := { quiet.link with dropped := true } }).link.dropped = false := by
  decide +kernel

theorem test_read_bank :
    replyOf (after (.readBank 0 2) laying) = some (.range, []) ∧
      replyOf (after (.readBank 0 0) laying) = some (.ok, [0, 3, 1, 1, 0, 1000, 4, 0, 3, 1, 0, 0, 0, 1, 0]) ∧
      replyOf (after (.readBank 0 1) laying) = some (.ok, [1, 0, 0, 0, 0, 0, 0, 0, 0, 0, 0, 0, 0, 0, 2]) := by
  decide +kernel

theorem test_read_slot :
    replyOf (after (.readSlot 0 0 4) laying) = some (.range, []) ∧ replyOf (after (.readSlot 0 2 0) laying) = some (.range, []) ∧
      replyOf (after (.readSlot 0 0 0) laying) = some (.ok, [0, 0, 3, 3, 8, 11750, -32768, 2150, 0, 0, 1, 0, 0, 0, 1, 0, 1,
        134400, 55050, 4250, 0, 0, 0, 0, 0, 0, 0, 0, 0]) := by decide +kernel

theorem test_open_bank :
    (after (.openBank 0 1 3 3 1500) quiet).bank .bank1 = ⟨.loading, some ⟨3, .alternateR, 1500⟩, [], 0⟩ ∧
      replyOf (after (.openBank 0 1 3 3 600) quiet) = some (.ok, []) ∧
      replyOf (after (.openBank 0 1 3 3 599) quiet) = some (.range, []) ∧
      replyOf (after (.openBank 0 1 4 3 600) quiet) = some (.range, []) ∧
      replyOf (after (.openBank 0 0 1 0 600) laying) = some (.busy, [3]) := by decide +kernel

/-- Bank 0 LOADING with some slots. -/
def loadingWith (slots : List Slot) : State := siteWith (bankWith .loading slots) []

theorem test_load_slots :
    (after (.loadSlots 0 0 0 1 [record]) (loadingWith [])).slot? .bank0 0 = some (slotWith 3 11750 .pending) ∧
      replyOf (after (.loadSlots 0 0 1 1 [record]) (loadingWith [])) = some (.order, [0]) ∧
      replyOf (after (.loadSlots 0 0 0 2 [record, { record with planned := 499 }]) (loadingWith [])) = some (.range, [1]) ∧
      replyOf (after (.loadSlots 0 0 96 1 [record]) (loadingWith (List.replicate 96 (slotWith 0 0 .pending)))) =
        some (.range, [96]) ∧
      replyOf (after (.loadSlots 0 0 0 2 [record]) (loadingWith [])) = some (.length, []) ∧
      replyOf (after (.loadSlots 0 0 0 0 []) (loadingWith [])) = some (.range, []) ∧
      replyOf (after (.loadSlots 0 0 0 1 [record]) quiet) = some (.state, []) := by decide +kernel

theorem test_record_bounds :
    ({ record with along := 400000, lateral := 2000, planned := 3300 } : SlotRecord).toSlot.isSome = true ∧
      ({ record with along := 400001 } : SlotRecord).toSlot = none ∧
      ({ record with lateral := BitVec.ofInt 16 (-2001) } : SlotRecord).toSlot = none ∧
      ({ record with planned := 500 } : SlotRecord).toSlot.isSome = true ∧
      ({ record with kind := 3 } : SlotRecord).toSlot = none ∧ ({ record with adhesive := 3 } : SlotRecord).toSlot = none := by
  decide +kernel

theorem test_close_bank :
    (after (.closeBank 0 0) (loadingWith [slotWith 3 11750 .pending])).bank .bank0 =
        bankWith .ready [slotAtCase .pending] ∧
      (loadingWith [slotWith 3 11750 .pending]).closeFault .bank0 = none ∧
      replyOf (after (.closeBank 0 0) (loadingWith [])) = some (.invalidPlan, [0, 0]) ∧
      replyOf (after (.closeBank 0 0) { (loadingWith [slotWith 3 0 .pending]) with datum := quiet.datum }) =
        some (.invalidPlan, [1, 0]) ∧
      replyOf (after (.closeBank 0 0) { (loadingWith [slotWith 3 0 .pending]) with zone := quiet.zone }) = some (.state, []) ∧
      replyOf (after (.closeBank 0 0) (loadingWith [slotWith 3 200000 .pending])) = some (.ok, [1, 1]) := by decide +kernel

theorem test_close_bank_pairs :
    replyOf (after (.closeBank 0 0) (loadingWith [slotWith 3 0 .pending, slotWith 2 0 .pending])) =
        some (.invalidPlan, [2, 1]) ∧
      replyOf (after (.closeBank 0 0) (loadingWith [slotWith 3 5 .pending, slotWith 3 5 .pending])) =
        some (.invalidPlan, [3, 1]) ∧
      replyOf (after (.closeBank 0 0) (loadingWith (overlapCase 4950))) = some (.ok, [3, 1]) ∧
      replyOf (after (.closeBank 0 0) (loadingWith (overlapCase 4924))) = some (.invalidPlan, [4, 2]) := by decide +kernel

theorem test_discard_bank :
    (after (.discardBank 0 0) (loadingWith [])).bank .bank0 = Bank.reset ∧
      replyOf (after (.discardBank 0 0) laying) = some (.busy, []) ∧
      replyOf (after (.discardBank 0 1) laying) = some (.ok, []) ∧
      (after (.discardBank 0 0) (inMode (siteWith (bankWith .ready [slotAtCase .pending]) []) .laying)).feed.bankNeeded = true := by
  decide +kernel

theorem test_skip_slot :
    ((after (.skipSlot 0 0 1) laying).slot? .bank0 1).map Slot.status = some .skipped ∧
      replyOf (after (.skipSlot 0 0 0) laying) = some (.busy, []) ∧
      replyOf (after (.skipSlot 0 0 4) laying) = some (.range, []) ∧
      replyOf (after (.skipSlot 0 0 0) (loadingWith [slotWith 0 0 .pending])) = some (.state, []) ∧
      replyOf (after (.skipSlot 0 0 0) (siteWith (bankWith .ready [slotWith 0 0 .skipped]) [])) = some (.state, []) := by
  decide +kernel

theorem test_set_datum :
    replyOf (after (.setDatum 0 4 0 0 0 16384 0 0 1) quiet) = some (.range, [0]) ∧
      replyOf (after (.setDatum 0 1 0 0 0 16384 0 0 1) laying) = some (.state, [0]) ∧
      replyOf (after (.setDatum 0 0 1000001 0 0 16384 0 0 1) quiet) = some (.range, [1]) ∧
      replyOf (after (.setDatum 0 0 0 0 0 0 0 0 1) quiet) = some (.range, [2]) ∧
      replyOf (after (.setDatum 0 0 0 0 0 16384 0 50001 1) quiet) = some (.range, [3]) ∧
      replyOf (after (.setDatum 0 0 0 0 0 16384 0 50000 2001) quiet) = some (.range, [4]) ∧
      replyOf (after (.setDatum 0 3 1000000 1000000 100000 16384 0 50000 2000) quiet) = some (.ok, [3, 0, 0]) := by
  decide +kernel

/-- A READY bank on entry 1: two PENDING slots with caches, one REFUSED (ZONE), one SKIPPED. -/
def readyForFlush : State :=
  siteWith (bankWith .ready [slotAtCase .pending, slotAtCase .pending, slotAtCase (.refused .zone), slotAtCase .skipped]) []

theorem test_flush_counts :
    replyOf (after (.setDatum 0 1 125120 48000 2000 13107 9830 0 750) readyForFlush) = some (.ok, [1, 3, 1]) ∧
      (after (.setDatum 0 1 125120 48000 2000 13107 9830 0 750) readyForFlush).bank .bank0 =
        bankWith .ready ([slotAtCase .pending, slotAtCase .pending, slotAtCase (.refused .zone), slotAtCase .skipped].map
          Slot.flushed) ∧
      replyOf (after (.setZoneRow 0 2 0xFFC0000000000000) readyForFlush) = some (.ok, [2, 10, 3, 1]) ∧
      replyOf (after (.setZoneBox 0 0 400000 0 300000 0 60000) (inMode laying .stowed)) = some (.ok, [0, 0]) := by
  decide +kernel

theorem test_zone_refusals :
    replyOf (after (.setZoneBox 0 0 400000 0 300000 0 60000) laying) = some (.state, [1]) ∧
      replyOf (after (.setZoneBox 0 1 0 0 0 0 0) quiet) = some (.range, [0]) ∧
      replyOf (after (.setZoneBox 0 0 1000000 0 1000001 0 0) quiet) = some (.range, [1]) ∧
      replyOf (after (.setZoneBox 0 0 1000000 0 1000000 0 100001) quiet) = some (.range, [2]) ∧
      replyOf (after (.setZoneRow 0 64 0) quiet) = some (.range, [0]) ∧
      replyOf (after (.setZoneRow 0 63 1) quiet) = some (.ok, [63, 1, 0, 0]) ∧
      replyOf (after (.setZoneRow 0 63 1) laying) = some (.state, [1]) := by decide +kernel

theorem test_set_next_bank :
    replyOf (after (.setNextBank 0 1) quiet) = some (.ok, [3]) ∧ (after (.setNextBank 0 1) quiet).feed.pointer = .bank1 ∧
      replyOf (after (.setNextBank 0 2) quiet) = some (.range, []) ∧
      replyOf (after (.setNextBank 0 1) laying) = some (.state, []) := by decide +kernel

theorem test_settings :
    replyOf (after (.setFeed 0 12 100 120) quiet) = some (.ok, []) ∧
      replyOf (after (.setFeed 0 0 101 4) quiet) = some (.adjusted, [1, 100, 5]) ∧
      replyOf (after (.setAdhesive 0 4500 5 240) quiet) = some (.adjusted, [4000, 10, 240]) ∧
      replyOf (after (.setPlacement 0 7 100 100 15 3 120 10000) quiet) = some (.ok, [7, 100, 100, 15, 3, 120, 10000]) ∧
      replyOf (after (.setPlacement 0 8 0 0 0 0 0 0) quiet) = some (.adjusted, [7, 1, 1, 1, 1, 5, 200]) := by decide +kernel

theorem test_supply_mark :
    (after (.setSupplyMark 0 4 0 0) laying).feed.condition = true ∧
      (after (.setSupplyMark 0 4 0 0) laying).link.notices = [.supply 4 .bank] ∧
      replyOf (after (.setSupplyMark 0 97 1 1) laying) = some (.adjusted, [96]) ∧
      (after (.setSupplyMark 0 0xFF 1 1) laying).feed.mark.threshold = none ∧
      replyOf (after (.setSupplyMark 0 0 2 0) laying) = some (.range, []) := by decide +kernel

theorem test_watches :
    (after (.setWatch 0 31) quiet).mode.watchEnables = 31#5 ∧ replyOf (after (.setWatch 0 32) quiet) = some (.range, []) ∧
      replyOf (after (.clearWatch 0 4) { quiet with mode := { quiet.mode with watchStatus := 20 } }) = some (.ok, [16]) ∧
      replyOf (after (.clearWatch 0 32) quiet) = some (.range, []) := by decide +kernel

theorem test_set_notices :
    (after (.setNotices 0 3) quiet).link.enables = 3#14 ∧ replyOf (after (.setNotices 0 3) quiet) = some (.ok, [8195]) ∧
      replyOf (after (.setNotices 0 16384) quiet) = some (.range, []) := by decide +kernel

theorem test_refused_in_faulted :
    faulted.mode.mode = .faulted ∧ replyOf (after (.brickLoaded 0 0 2150) faulted) = some (.state, []) ∧
      replyOf (after (.purge 0) faulted) = some (.state, [4]) ∧ replyOf (after (.closeBank 0 2) quiet) = some (.range, []) := by
  decide +kernel

theorem test_brick_loaded :
    (after (.brickLoaded 0 0 2170) requested).train.entries =
        [⟨brickWith 0 0, 2150, some 2170, .inTransit, some 3000000, false⟩] ∧
      replyOf (after (.brickLoaded 0 0 2170) requested) = some (.ok, [0, 0, 20]) ∧
      replyOf (after (.brickLoaded 0 1 2150) requested) = some (.order, [1, 0]) ∧
      replyOf (after (.brickLoaded 0 0 2150) onBoom) = some (.order, [0, 0]) := by decide +kernel

theorem test_miscut :
    replyOf (after (.brickLoaded 0 0 2129) requested) = some (.ok, [0, 1, -21]) ∧
      ((after (.brickLoaded 0 0 2129) requested).slot? .bank0 0).map (fun sl => (sl.status, sl.rejectCount)) =
        some (.pending, 1) ∧
      ((after (.brickLoaded 0 0 2129) requested).train.entries.map fun e => e.brick.mark) = [some .miscut] ∧
      (after (.brickLoaded 0 0 2129) requested).feed.cursor = 0 := by decide +kernel

theorem test_end_course :
    requested.layCourse = some (.bank0, 3) ∧ replyOf (after (.endCourse 0) requested) = some (.ok, [0, 3, 2, 1]) ∧
      (((after (.endCourse 0) requested).bank .bank0).slots.map Slot.status) = [.skipped, .skipped, .pending, .pending] ∧
      (after (.endCourse 0) requested).feed.cursor = 2 ∧ quiet.layCourse = none ∧
      replyOf (after (.endCourse 0) (inMode requested .setup)) = some (.state, []) := by decide +kernel

theorem test_purge :
    replyOf (after (.purge 0) (inMode onBoom .paused)) = some (.ok, [1]) ∧
      ((after (.purge 0) (inMode onBoom .paused)).slot? .bank0 0).map Slot.status = some .pending ∧
      replyOf (after (.purge 0) onBoom) = some (.state, [1]) ∧
      replyOf (after (.purge 0) (inMode quiet .stowed)) = some (.ok, [0]) := by decide +kernel

theorem test_arrival :
    onBoom.cradles.hold = false ∧ onBoom.emptyCradle = some .cradle0 ∧
      (after .arrive onBoom).cradle .cradle0 = .gluing (cradleBrickWith 0 0) ∧
      (after .arrive (inMode onBoom .paused)).cradle .cradle0 = .held (cradleBrickWith 0 0) ∧
      (after .arrive onBoom).train.entries = [] ∧
      (after .arrive requested).mode.fault = some ⟨.strayArrival, 0, .laying⟩ := by decide +kernel

theorem test_tip_completion :
    (after (.tipCompletion .cradle0) (cradled (.tipping (cradleBrickWith 0 0) 40000))).cradle .cradle0 = .empty ∧
      (after (.tipCompletion .cradle0) (cradled (.tipping (cradleBrickWith 0 0) 40000))).clock.now = 40000 ∧
      after (.tipCompletion .cradle1) (cradled (.tipping (cradleBrickWith 0 0) 40000)) =
        cradled (.tipping (cradleBrickWith 0 0) 40000) := by decide +kernel

theorem test_grant :
    (after .grant (cradled (.held (cradleBrickWith 0 0)))).adhesive.operation = some ⟨86, 0, 1000⟩ ∧
      (after .grant (cradled (.held (cradleBrickWith 0 0)))).adhesive.owner = some .cradle0 ∧
      after .grant quiet = quiet := by decide +kernel

/-- Cradle 0 GLUING, its operation with some strokes done, PUMP asserted. -/
def gluing (done : Nat) : State :=
  { (cradled (.gluing (cradleBrickWith 0 0))) with
    adhesive := { quiet.adhesive with
      owner := some .cradle0, operation := some ⟨86, done, 1000⟩, pump := true, counter := 4095 } }

theorem test_pump_reload :
    (after .pumpCounterReload (gluing 84)).adhesive.operation = some ⟨86, 85, 1000⟩ ∧
      (after .pumpCounterReload (gluing 84)).adhesive.counter = 3596 ∧
      (after .pumpCounterReload (gluing 85)).cradle .cradle0 = .ready (cradleBrickWith 0 0) (some 24000001) ∧
      (after .pumpCounterReload (gluing 85)).adhesive.owner = none ∧
      (after .pumpCounterReload (after .pumpCounterReload (gluing 84))).adhesive.pump = true := by decide +kernel

/-- The brick READY in cradle 0 with its open-time deadline. -/
def readyBrick : State := cradled (.ready (cradleBrickWith 0 0) (some 24000000))

theorem test_open_time_expiry :
    (after (.openTimeExpiry (.cradle .cradle0)) readyBrick).cradle .cradle0 =
        .tipping ⟨{ brickWith 0 0 with mark := some .spoiled }, 2150, .double⟩ 24040000 ∧
      (after (.openTimeExpiry (.cradle .cradle0)) (after .pickDecision readyBrick)).cradle .cradle0 =
        .ready ⟨{ brickWith 0 0 with mark := some .spoiled }, 2150, .double⟩ none ∧
      ((after (.openTimeExpiry (.cradle .cradle0)) readyBrick).slot? .bank0 0).map
        (fun sl => (sl.status, sl.rejectCount)) = some (.pending, 1) := by decide +kernel

theorem test_pick_decision :
    readyBrick.pickDue = true ∧ readyBrick.pickCandidate = some (brickWith 0 0, .cradle0) ∧
      readyBrick.watchConditions (brickWith 0 0) = 1#5 ∧ (after .pickDecision readyBrick).place.state = .picking ∧
      (after .pickDecision readyBrick).place.stepTimer = .grip 50000 := by decide +kernel

theorem test_watch_stop :
    (after .pickDecision { readyBrick with mode := { readyBrick.mode with watchEnables := 1 } }).mode.mode = .paused ∧
      (after .pickDecision { readyBrick with mode := { readyBrick.mode with watchEnables := 1 } }).mode.watchStopped =
        some 0#8 ∧
      (after .pickDecision { readyBrick with zone := quiet.zone }).cradle .cradle0 =
        .tipping ⟨{ brickWith 0 0 with mark := some .zone }, 2150, .double⟩ 40000 ∧
      ((after .pickDecision { readyBrick with zone := quiet.zone }).slot? .bank0 0).map Slot.status =
        some (.refused .zone) := by decide +kernel

theorem test_pick_completion :
    (after .pickCompletion (after .pickDecision readyBrick)).place.state = .approach ∧
      (after .pickCompletion (after .pickDecision readyBrick)).place.timer = some 3000000 ∧
      (after .pickCompletion (after (.openTimeExpiry (.cradle .cradle0)) (after .pickDecision readyBrick))).place.stepTimer =
        .abandon 24150000 ∧
      (after .pickCompletion quiet).place.gripped = true := by decide +kernel

theorem test_pose_hypotheses :
    (poseSampleOf body312).passesScreening = true ∧ body312.length = 18 ∧
      ((poseSampleOf body312).sequence - 311#11).toNat = 1 ∧ (poseSampleOf body312).quality = 3 ∧
      after (.poseFrameArrival 0x61 0 body312) quiet = quiet ∧
      after (.poseFrameArrival 0x60 0 (poseBody 312 134310 55120 4190 13107 9830)) quiet = quiet ∧
      after (.poseFrameArrival 0x60 0 (poseBody (0xC000 + 311) 134310 55120 4190 13107 9830)) (placing .approach) =
        placing .approach := by decide +kernel

/-- The Pose Filter of the worked case in some state. -/
def posing (st : PoseState) (run : Nat) : State :=
  { (placing .settling) with
    pose := { (placing .settling).pose with state := st, realRun := run, timer := none }
    place := { (placing .settling).place with holdPose := st.carriesHold } }

theorem test_pose_filter_states :
    (after (.poseFrameArrival 0x60 0 body312) quiet).pose.state = .tracking ∧
      (after (.poseFrameArrival 0x60 0 body312) (posing .lost 0)).pose.state = .recovering ∧
      (after (.poseFrameArrival 0x60 0 body312) (posing .coasting 0)).pose.timer = some 300 ∧
      (after (.poseFrameArrival 0x60 0 body312) (posing .recovering 6)).pose.realRun = 7 ∧
      (after (.poseFrameArrival 0x60 0 body312) (posing .recovering 7)).pose.state = .tracking ∧
      (after (.poseFrameArrival 0x60 0 (poseBody (0xC000 + 320) 134310 55120 4190 13107 9830)) (posing .tracking 0)).pose.velocity =
        ⟨0, 0, 0⟩ := by decide +kernel

theorem test_pose_timer :
    (after .poseTimerExpiry (placing .settling)).pose.state = .coasting ∧
      (after .poseTimerExpiry (placing .settling)).comp.counter = 2 ∧
      (after .poseTimerExpiry { (placing .settling) with
        pose := { (placing .settling).pose with synthesized := 4 } }).pose.state = .lost ∧
      after .poseTimerExpiry quiet = quiet := by decide +kernel

/-- The worked case with the counter one below K. -/
def settling (counter : Nat) : State :=
  { (placing .settling) with comp := { (placing .settling).comp with counter := counter } }

theorem test_release_decision :
    (settling 3).compensationInput = some ⟨quiet.comp.settings, ⟨134400, 55050, 4250⟩, false, 13107, 9830⟩ ∧
      (after (.poseFrameArrival 0x60 0 body312) (settling 3)).place.state = .releasing ∧
      (after (.poseFrameArrival 0x60 0 body312) (settling 3)).comp.releaseSeq = some 312#11 ∧
      (after (.poseFrameArrival 0x60 0 body312) (inMode (settling 3) .paused)).place.state = .settling := by decide +kernel

/-- RELEASING, with GRIPPED at a level. -/
def releasing (gripped : Bool) : State :=
  { (placing .settling) with
    comp := { (placing .settling).comp with releaseSeq := some 312 }
    place := { (placing .settling).place with
      state := .releasing, stepTimer := .release 15000, gripped := gripped, grip := false, timer := none
      gripper := some ⟨brickWith 0 0, .deg0, none⟩ } }

theorem test_release_dwell :
    ((after .releaseDwellEnd (releasing false)).slot? .bank0 0).map Slot.status =
        some (.laid ⟨312, ⟨27, -93, 60, 0⟩, ⟨0, 0, 0⟩⟩) ∧
      (after .releaseDwellEnd (releasing false)).place.state = .idle ∧
      (after .releaseDwellEnd (releasing true)).mode.fault = some ⟨.releaseFail, 0, .laying⟩ ∧
      (after .grippedDeassert (releasing true)).mode.mode = .laying := by decide +kernel

theorem test_placement_timer :
    (after .placementTimerExpiry (placing .approach)).mode.mode = .paused ∧
      (after .placementTimerExpiry (placing .approach)).clock.now = 120000 ∧
      (after .placementTimerExpiry (placing .approach)).link.notices = [.hold .approachTimeout 0 .bank0 0] ∧
      after .placementTimerExpiry quiet = quiet := by decide +kernel

/-- A brick held in PAUSED. -/
def pausedHeld : State := inMode (placing .approach) .paused

theorem test_abandon :
    (after (.abandon 0) pausedHeld).place.state = .abandoning ∧
      (after (.abandon 0) pausedHeld).place.stepTimer = .abandon 150000 ∧
      (after .abandonCompletion (after (.abandon 0) pausedHeld)).place.state = .idle ∧
      replyOf (after (.abandon 0) (placing .approach)) = some (.state, []) ∧
      replyOf (after (.abandon 0) (inMode quiet .paused)) = some (.state, [0]) ∧
      (after (.openTimeExpiry .gripper) (placing .approach)).place.abandonReason = some .spoiled := by decide +kernel

theorem test_start_and_resume :
    (after (.start 0) quiet).mode.mode = .laying ∧ (after (.start 0) quiet).feed.bankNeeded = true ∧
      replyOf (after (.start 0) laying) = some (.state, [1]) ∧ replyOf (after (.resume 0) laying) = some (.state, [1]) ∧
      (after (.resume 0) pausedHeld).place.timer = some 3000000 ∧ laying.feedState ≠ .waiting := by decide +kernel

theorem test_pause_stow_setup :
    (after (.pause 0) laying).mode.mode = .paused ∧ replyOf (after (.pause 0) (inMode laying .paused)) = some (.ok, []) ∧
      replyOf (after (.pause 0) quiet) = some (.state, [0]) ∧ (after (.stow 0) laying).mode.mode = .stowed ∧
      replyOf (after (.stow 0) (placing .approach)) = some (.busy, [1, 2]) ∧
      replyOf (after (.enterSetup 0) quiet) = some (.state, [0]) ∧
      (after (.enterSetup 0) (inMode laying .stowed)).mode.mode = .setup := by decide +kernel

theorem test_causes :
    (after (.transitExpiry 0) onBoom).mode.fault = some ⟨.lostBrick, 0, .laying⟩ ∧
      (after .gripTimeout (after .pickDecision readyBrick)).mode.fault = some ⟨.gripFail, 0, .laying⟩ ∧
      (after .grippedDeassert (placing .settling)).mode.fault = some ⟨.gripFail, 0, .laying⟩ ∧
      (after .arrive { onBoom with cradles := { onBoom.cradles with hold := true } }).mode.fault =
        some ⟨.overrun, 0, .laying⟩ ∧
      (after .haltDeassert (after .haltAssert quiet)).mode.halt = false := by decide +kernel

theorem test_glue_spoiled_by_fault :
    (after .haltAssert (gluing 20)).cradle .cradle0 =
        .gluing ⟨{ brickWith 0 0 with mark := some .spoiled }, 2150, .double⟩ ∧
      (after .haltAssert (gluing 20)).adhesive.pump = false ∧
      ((after .haltAssert (gluing 20)).slot? .bank0 0).map (fun sl => (sl.status, sl.rejectCount)) =
        some (.pending, 1) := by decide +kernel

theorem test_clear_fault :
    replyOf (after (.clearFault 0) quiet) = some (.state, []) ∧ replyOf (after (.clearFault 0) faulted) = some (.ok, [3, 0]) ∧
      replyOf (after (.clearFault 0) { faulted with mode := { faulted.mode with halt := true } }) =
        some (.state, [1, 3, 0, 1, 1, 1]) ∧
      (after (.clearFault 0) faulted).mode.mode = .stowed ∧
      (after (.clearFault 0) { (after (.transitExpiry 0) onBoom) with link := quiet.link }).feed.cursor = 0 ∧
      replyOf (after (.clearFault 0) { (after (.transitExpiry 0) onBoom) with link := quiet.link }) = some (.ok, [1, 1]) := by
  decide +kernel

theorem test_feed_request :
    laying.feedRequestDue = true ∧ (laying.bank .bank0).firstPending laying.feed.cursor = some 1 ∧
      ((after .feedRequest requested).slot? .bank0 1).map Slot.status = some .fed ∧
      (after .feedRequest requested).feed.cursor = 2 ∧
      (after .feedRequest requested).train.entries.map (fun e => e.brick.tag) = [0, 1] ∧
      ((after .feedRequest { requested with zone := quiet.zone }).bank .bank0).slots.map Slot.status =
        [.fed, .refused .zone, .refused .zone, .refused .zone] ∧
      after .feedRequest quiet = quiet := by decide +kernel

theorem test_activation :
    (after .feedRequest (inMode (siteWith (bankWith .ready [slotAtCase .pending]) []) .laying)).plan.order = [.bank0] ∧
      ((after .feedRequest (inMode (siteWith (bankWith .ready [slotAtCase .pending]) []) .laying)).bank .bank0).state =
        .active ∧
      (after .feedRequest (inMode (siteWith (bankWith .ready [slotAtCase .pending]) []) .laying)).mode.bankSwitch0 = true := by
  decide +kernel

theorem test_frames_discarded_and_answered :
    after (.commandFrameArrival 0x40 0 []) quiet = quiet ∧
      replyOf (after (.unknownCommand 0x06 0 []) quiet) = some (.unknown, []) ∧
      replyOf (after (.commandFrameArrival 0x01 0 [0]) quiet) = some (.length, []) ∧
      after (.receiveFramerByte .site 0x00) quiet = quiet ∧
      (after (.receiveFramerByte .site 0xC3) quiet).link.siteFramer = ⟨[0xC3]⟩ ∧
      ([0xC3, 0x02, 0x01, 0x00, 0x91, 0xCD].foldl (fun s b => after (.receiveFramerByte .site b) s) quiet) =
        after (.identify 0) quiet := by decide +kernel

theorem test_transmission_end :
    (after .frameTransmissionEnd admissionCase).link.sending = some (.reply ⟨0x01, 0, .ok, []⟩) ∧
      after .frameTransmissionEnd quiet = quiet ∧
      (after .frameTransmissionEnd State.reset).link.sending = none := by decide +kernel

theorem test_power_on_under_halt :
    (after (.powerOnReset .one .short true) laying).mode.fault = some ⟨.halt, 0, .setup⟩ ∧
      (after (.powerOnReset .one .short true) laying).link.notices =
        [.mode .faulted .setup .fault, .fault .halt .halt 0] ∧
      after (.powerOnReset .two .long false) State.reset = State.reset := by decide +kernel

theorem test_step_takes_the_front :
    (match step { State.reset with pending := [.haltDeassert, .identify 0] } with
      | .next t => t.pending
      | .fault _ => []
      | .refused _ => []) = [.identify 0] ∧
      decodeTableWord 8 1 = none ∧ State.reset.withFetchWord 8 1 = State.reset := by decide +kernel

theorem test_hyps_over_banks :
    (∀ b, (readyForFlush.bank b).state = .active → (readyForFlush.bank b).names 1 = false) ∧
      (∀ b, (readyForFlush.bank b).state = .ready ∨ (readyForFlush.bank b).state = .active → b = .bank0) ∧
      (∀ b, (quiet.bank b).state ≠ .ready ∧ (quiet.bank b).state ≠ .active) ∧
      (laying.bank .bank0).names 1 = true ∧ (laying.bank .bank0).state = .active := by
  refine ⟨?_, ?_, ?_, ?_, ?_⟩
  · intro b; cases b <;> decide +kernel
  · intro b; cases b <;> decide +kernel
  · intro b; cases b <;> decide +kernel
  · decide +kernel
  · decide +kernel

theorem test_hyps_brick_path :
    (∀ x ∈ onBoom.train.entries, x.state = .inTransit) ∧
      (∀ x ∈ requested.train.entries, x.state = .requested ∧ x.brick.mark = none) ∧
      (∀ c ∈ quiet.cradlesInUse, quiet.cradle c = .empty) ∧ onBoom.liveBricks.filter onBoom.withdrawable ≠ [] ∧
      (gluing 85).cradle .cradle0 = .gluing (cradleBrickWith 0 0) ∧
      (onBoom.train.inTransitTagged 0).isSome = true ∧ quiet.cradles.hold = false ∧ faulted.cradles.hold = true := by
  decide +kernel

theorem test_hyps_frames :
    [0xC3#8, 0x02, 0x01, 0x00, 0x91] ++ [0xCD#8] = frameBytes 0x01 0x00 [] ∧
      be16 (crc [0x02, 0x01, 0x00]) ≠ [0x91, 0xCC] ∧
      namesNoCommand 0x06 = true ∧ namesNoCommand 0x3F = true ∧ namesNoCommand 0x01 = false ∧
      (sixReads.foldl (fun s i => after i s) admissionCase).link.commands.length = 4 := by decide +kernel

theorem test_hyps_placement :
    (settling 3).datumOf .bank0 = some wallLine ∧ (settling 3).comp.latched = some quiet.comp.settings ∧
      (settling 3).pose.last = some ⟨311, ⟨134304, 55124, 4190⟩, 13107, 9830, 3, .real⟩ ∧
      (placing .approach).place.gripper = some ⟨brickWith 0 0, .deg0, some 24000000⟩ ∧
      (placing .approach).slot? .bank0 0 = some (slotAtCase .fed) ∧ quiet.place.gripper = none := by decide +kernel

/-! ## The brick path with several bricks, the walk end, the flush of two banks, and the notices -/

/-- Slots 0 and 1 FED with their bricks REQUESTED, the cursor behind them. -/
def twoRequested : State :=
  { (inMode (siteWith (bankWith .active
      [slotAtCase .fed, slotAtCase .fed, slotWith 4 11750 .pending, slotWith 4 14000 .pending]) [.bank0]) .laying) with
    feed := { laying.feed with cursor := 2, nextTag := 2 }
    train := { laying.train with
      nextSerial := 2
      entries := [⟨brickWith 0 0, 2150, none, .requested, none, false⟩, ⟨brickWith 1 1, 2150, none, .requested, none, false⟩] } }

/-- Brick 0 HELD in cradle 1, brick 1 IN TRANSIT. -/
def heldAndBoom : State :=
  { twoRequested with
    train := { twoRequested.train with entries := [⟨brickWith 1 1, 2150, some 2150, .inTransit, some 3000000, false⟩] }
    cradles := { cradle0 := .empty, cradle1 := .held (cradleBrickWith 0 0), hold := false } }

theorem test_hyps_bricks_apart :
    requested.bricksApart ∧ onBoom.bricksApart ∧ twoRequested.bricksApart ∧ heldAndBoom.bricksApart ∧
      (placing .approach).bricksApart := by
  refine ⟨?_, ?_, ?_, ?_, ?_⟩ <;>
    exact ⟨by decide, by decide, fun c b d h => by cases c <;> exact nomatch h⟩

theorem test_rollback_of_the_younger_brick :
    twoRequested.beforeCursor .bank0 0 = true ∧ (twoRequested.bank .bank0).walkPosition 0 = some 0 ∧
      (twoRequested.bank .bank0).walkPosition 1 = some 1 ∧
      twoRequested.liveBricks = [(brickWith 0 0, .train), (brickWith 1 1, .train)] ∧
      ((after (.brickLoaded 0 0 2129) twoRequested).bank .bank0).slots.map (fun sl => (sl.status, sl.rejectCount)) =
        [(.pending, 1), (.pending, 0), (.pending, 0), (.pending, 0)] ∧
      (after (.brickLoaded 0 0 2129) twoRequested).train.entries.map (fun e => e.brick.serial) = [0] ∧
      (after (.brickLoaded 0 0 2129) twoRequested).feed.cursor = 0 := by decide +kernel

theorem test_third_reject_brings_no_rollback :
    ((after (.brickLoaded 0 0 2129) (twoRequested.setSlot .bank0 0 { slotAtCase .fed with rejectCount := 2 })).bank
        .bank0).slots.map Slot.status = [.refused .repeated, .fed, .pending, .pending] ∧
      (after (.brickLoaded 0 0 2129)
        (twoRequested.setSlot .bank0 0 { slotAtCase .fed with rejectCount := 2 })).train.entries.length = 2 := by
  decide +kernel

theorem test_end_course_and_purge_of_two :
    twoRequested.layCourse = some (.bank0, 3) ∧ (twoRequested.bank .bank0).courseRun 3 = [0, 1] ∧
      (heldAndBoom.liveBricks.map heldAndBoom.withdrawable) = [true, true] ∧
      replyOf (after (.endCourse 0) heldAndBoom) = some (.ok, [0, 3, 2, 2]) ∧
      (after (.endCourse 0) heldAndBoom).cradle .cradle1 =
        .tipping ((cradleBrickWith 0 0).withMark .courseEnded) 40000 ∧
      (after (.endCourse 0) heldAndBoom).feed.cursor = 2 ∧
      replyOf (after (.purge 0) (inMode heldAndBoom .stowed)) = some (.ok, [2]) ∧
      ((after (.purge 0) (inMode heldAndBoom .stowed)).bank .bank0).slots.map Slot.status =
        [.pending, .pending, .pending, .pending] ∧
      ((after (.endCourse 0) (releasing false)).slot? .bank0 0).map Slot.status = some .fed := by decide +kernel

theorem test_older_held_brick_takes_the_pump :
    heldAndBoom.emptyCradle = some .cradle0 ∧
      (after .arrive heldAndBoom).cradle .cradle0 = .held (cradleBrickWith 1 1) ∧
      (after .arrive heldAndBoom).cradle .cradle1 = .gluing (cradleBrickWith 0 0) ∧
      (after .arrive heldAndBoom).adhesive.owner = some .cradle1 := by decide +kernel

/-- Bank 0 with a last slot skipped under the cursor, the other bank as given. -/
def walkEnding (other : Bank) (order : List BankId) : State :=
  { (inMode (siteWith (bankWith .active [slotAtCase .fed, slotAtCase .skipped]) order) .laying) with
    plan := ⟨bankWith .active [slotAtCase .fed, slotAtCase .skipped], other, order⟩
    feed := { laying.feed with cursor := 1, nextTag := 1 }
    train := { laying.train with nextSerial := 1, entries := [⟨brickWith 0 0, 2150, none, .requested, none, false⟩] } }

theorem test_walk_end :
    (walkEnding Bank.reset [.bank0]).feedRequestDue = true ∧
      (after .feedRequest (walkEnding Bank.reset [.bank0])).feed.pointer = .bank1 ∧
      (after .feedRequest (walkEnding Bank.reset [.bank0])).feedState = .waiting ∧
      (after .feedRequest (walkEnding Bank.reset [.bank0])).link.sending = some (.notice (.bankNeeded .bank1)) ∧
      (walkEnding (bankWith .active [slotAtCase .fed]) [.bank1, .bank0]).feedRequestDue = true ∧
      (after .feedRequest (walkEnding (bankWith .active [slotAtCase .fed]) [.bank1, .bank0])).feedState = .ended ∧
      (after .feedRequest (walkEnding (bankWith .active [slotAtCase .fed]) [.bank1, .bank0])).feed.cursor = 2 := by
  decide +kernel

theorem test_handover :
    ((after .feedRequest (walkEnding (bankWith .ready [slotAtCase .pending, slotAtCase .pending]) [.bank0])).slot? .bank1
        0).map Slot.status = some .fed ∧
      (after .feedRequest (walkEnding (bankWith .ready [slotAtCase .pending, slotAtCase .pending]) [.bank0])).plan.order =
        [.bank0, .bank1] ∧
      (after .feedRequest (walkEnding (bankWith .ready [slotAtCase .pending, slotAtCase .pending]) [.bank0])).feed.cursor =
        1 := by decide +kernel

/-- A PENDING slot in front of a FED one. -/
def blocked : State := inMode (siteWith (bankWith .active [slotAtCase .pending, slotAtCase .fed]) [.bank0]) .laying

theorem test_order_blocked :
    (blocked.bank .bank0).firstPending 0 = some 0 ∧ (blocked.bank .bank0).walkOrder[1]? = some 1 ∧
      blocked.feedState = .held ∧ after .feedRequest blocked = blocked := by decide +kernel

/-- STOWED, both banks ACTIVE, each with a REFUSED (ZONE) slot and nothing to be laid in bank 1, which the pointer names. -/
def twoActive : State :=
  { (inMode (siteWith (bankWith .active [slotAtCase (.refused .zone), slotAtCase .fed]) [.bank0, .bank1]) .stowed) with
    plan := ⟨bankWith .active [slotAtCase (.refused .zone), slotAtCase .fed],
      bankWith .active [slotAtCase (.refused .zone)], [.bank0, .bank1]⟩
    feed := { quiet.feed with pointer := .bank1, cursor := 1 } }

theorem test_zone_flush_of_two_active_banks :
    replyOf (after (.setZoneRow 0 2 0) twoActive) = some (.ok, [2, 0, 2, 2]) ∧
      ((after (.setZoneRow 0 2 0) twoActive).bank .bank1).slots.map Slot.status = [.pending] ∧
      ((after (.setZoneRow 0 2 0) twoActive).bank .bank0).slots.map Slot.status = [.pending, .fed] ∧
      ((after (.setZoneRow 0 2 0) twoActive).bank .bank1).state = .active ∧
      (after (.setZoneRow 0 2 0) twoActive).feed.pointer = .bank0 := by decide +kernel

theorem test_raised_notices :
    (quiet.raise (.bankNeeded .bank0)).link.notices = [.bankNeeded .bank0] ∧
      ({ quiet with link := { quiet.link with enables := 0 } } : State).raise (.bankNeeded .bank0) =
        { quiet with link := { quiet.link with enables := 0 } } ∧
      (({ quiet with link := { quiet.link with enables := 0 } } : State).raise (.fault .halt .halt 0)).link.notices =
        [.fault .halt .halt 0] ∧
      (({ quiet with link := { quiet.link with notices := List.replicate 16 (.bankNeeded .bank0) } } : State).raise
        (.bankNeeded .bank0)).link.dropped = true ∧
      (after .pickCompletion (after .pickDecision readyBrick)).link.sending =
        some (.notice (.nextTarget 0 .bank0 0 ⟨134400, 55050, 4250⟩ .deg0)) ∧
      (after (.poseFrameArrival 0x60 0 body312) (posing .recovering 7)).link.sending =
        some (.notice (.poseRestored 312)) := by decide +kernel

theorem test_glued_live_brick_at_a_fault :
    (gluing 20).gluedLive (cradleBrickWith 0 0) ∧
      (after .haltAssert (gluing 20)).link.notices =
        [.fault .halt .halt 0, .rejected 0 .bank0 0 .spoiled] := by
  refine ⟨⟨.cradle0, rfl, rfl, rfl⟩, ?_⟩
  decide +kernel

theorem test_framer_stores :
    (after (.receiveFramerByte .tracker 0x02) (after (.receiveFramerByte .tracker 0xC3) quiet)).link.trackerFramer =
        ⟨[0xC3, 0x02]⟩ ∧
      (after (.receiveFramerByte .site 0x7D) (after (.receiveFramerByte .site 0xC3) quiet)).link.siteFramer = ⟨[]⟩ := by
  decide +kernel

/-! ## The walk end of a fed slot, rollbacks from the cradles and the gripper, the freed pump, and the samples handed on -/

/-- Bank 0 with its last slot PENDING under the cursor, the other bank as given. -/
def lastPending (st : SlotStatus) (other : Bank) (order : List BankId) : State :=
  { (inMode (siteWith (bankWith .active [slotAtCase st]) order) .laying) with
    plan := ⟨bankWith .active [slotAtCase st], other, order⟩ }

/-- Pointer, cursor, feed state and bank-needed flag. -/
def walkOf (s : State) : BankId × Nat × FeedState × Bool := (s.feed.pointer, s.feed.cursor, s.feedState, s.feed.bankNeeded)

theorem test_feed_of_the_last_walk_position :
    walkOf (after .feedRequest (lastPending .pending (bankWith .ready [slotAtCase .pending]) [.bank0])) =
        (.bank1, 0, .feeding, false) ∧
      walkOf (after .feedRequest (lastPending .pending Bank.reset [.bank0])) = (.bank1, 0, .waiting, true) ∧
      (after .feedRequest (lastPending .pending Bank.reset [.bank0])).link.notices = [.bankNeeded .bank1] ∧
      walkOf (after .feedRequest (lastPending .pending (bankWith .active [slotAtCase .fed]) [.bank1, .bank0])) =
        (.bank0, 1, .ended, false) ∧
      walkOf (after .feedRequest (lastPending .pending (bankWith .active [slotAtCase .pending]) [.bank0, .bank1])) =
        (.bank1, 0, .feeding, false) ∧
      (lastPending .pending (bankWith .active [slotAtCase .pending]) [.bank0, .bank1]).awaitsSpent .bank1 = false := by
  decide +kernel

theorem test_handover_to_a_bank_of_one_slot :
    walkOf (after .feedRequest (lastPending .skipped (bankWith .ready [slotAtCase .pending]) [.bank0])) =
        (.bank0, 0, .waiting, true) ∧
      ((after .feedRequest (lastPending .skipped (bankWith .ready [slotAtCase .pending]) [.bank0])).bank .bank0).state =
        .spent ∧
      walkOf (after .feedRequest (walkEnding (bankWith .ready [slotAtCase .pending]) [.bank0])) =
        (.bank1, 1, .ended, false) := by decide +kernel

/-- Brick 0 READY in cradle 0, brick 1 IN TRANSIT. -/
def readyAndBoom : State :=
  { heldAndBoom with cradles := { cradle0 := .ready (cradleBrickWith 0 0) (some 24000000), cradle1 := .empty, hold := false } }

/-- Brick 0 in the gripper, brick 1 IN TRANSIT. -/
def heldOverBoom (m : PartMode) : State :=
  inMode { (placing .approach) with plan := twoRequested.plan, feed := twoRequested.feed, train := heldAndBoom.train } m

theorem test_hyps_reject_with_a_younger_brick :
    readyAndBoom.bricksApart ∧ (heldOverBoom .paused).bricksApart ∧ (heldOverBoom .laying).bricksApart ∧
      (readyAndBoom.younger (brickWith 0 0)).filter readyAndBoom.rejectedAtOnce = [(brickWith 1 1, .train)] := by
  refine ⟨?_, ?_, ?_, by decide +kernel⟩ <;>
    exact ⟨by decide, by decide, fun c b d h => by cases c <;> exact nomatch h⟩

theorem test_spoiled_brick_rolls_the_younger_back :
    ((after (.openTimeExpiry (.cradle .cradle0)) readyAndBoom).bank .bank0).slots.map Slot.status =
        [.pending, .pending, .pending, .pending] ∧
      (after (.openTimeExpiry (.cradle .cradle0)) readyAndBoom).train.entries.map (fun e => e.brick.mark) =
        [some .rollback] ∧
      (after (.openTimeExpiry (.cradle .cradle0)) readyAndBoom).feed.cursor = 0 ∧
      (after (.openTimeExpiry (.cradle .cradle0)) readyAndBoom).link.sending =
        some (.notice (.rejected 0 .bank0 0 .spoiled)) ∧
      (after (.openTimeExpiry (.cradle .cradle0)) readyAndBoom).link.notices = [.rejected 1 .bank0 1 .rollback] := by
  decide +kernel

theorem test_abandoned_brick_rolls_the_younger_back :
    (after (.abandon 0) (heldOverBoom .paused)).train.entries.map (fun e => e.brick.mark) = [some .rollback] ∧
      (after (.abandon 0) (heldOverBoom .paused)).link.notices = [.rejected 1 .bank0 1 .rollback] ∧
      (after (.abandon 0) (heldOverBoom .paused)).feed.cursor = 0 ∧
      ((after (.openTimeExpiry .gripper) (heldOverBoom .laying)).bank .bank0).slots.map Slot.status =
        [.pending, .pending, .pending, .pending] := by decide +kernel

theorem test_last_stroke_passes_or_frees_the_pump :
    (after .pumpCounterReload (gluing 85)).adhesive.operation = none ∧
      (after .pumpCounterReload { (gluing 85) with
        cradles := { (gluing 85).cradles with cradle1 := .held (cradleBrickWith 1 1) } }).adhesive =
        { quiet.adhesive with owner := some .cradle1, operation := some ⟨86, 0, 1000⟩, pump := false, counter := 3596 } ∧
      (after .pumpCounterReload (inMode { (gluing 85) with
        cradles := { (gluing 85).cradles with cradle1 := .held (cradleBrickWith 1 1) } } .paused)).adhesive.owner = none := by
  decide +kernel

theorem test_hyps_samples_handed_on :
    (posing .none 0).handsOn (poseSampleOf body312) ⟨0, 0, 0⟩ true ∧
      (posing .coasting 0).handsOn (poseSampleOf body312) ⟨6, -4, 0⟩ false ∧
      (posing .recovering 7).handsOn (poseSampleOf body312) ⟨6, -4, 0⟩ false ∧ (placing .settling).isSteered ∧
      (placing .settling).steersBy ⟨brickWith 0 0, .deg0, some 24000000⟩ (slotAtCase .fed) ⟨134400, 55050, 4250⟩ wallLine
        quiet.comp.settings ∧ ¬ quiet.isSteered := by
  refine ⟨⟨by decide +kernel, .inl ⟨rfl, rfl, rfl⟩⟩,
    ⟨by decide +kernel, .inr (.inl ⟨.inr rfl, _, _, rfl, rfl, by decide +kernel, by decide +kernel, by decide +kernel,
      by decide +kernel⟩)⟩,
    ⟨by decide +kernel, .inr (.inr ⟨rfl, _, rfl, by decide +kernel, by decide +kernel, by decide +kernel, rfl⟩)⟩,
    ⟨.inl rfl, .inr rfl⟩, ⟨rfl, by decide +kernel, rfl, by decide +kernel, rfl⟩, fun h => ?_⟩
  rcases h.1 with h | h <;> exact nomatch h

theorem test_first_and_completing_samples_steer :
    (after (.poseFrameArrival 0x60 0 body312) (posing .none 0)).comp.counter = 0 ∧
      (after (.poseFrameArrival 0x60 0 body312) (posing .recovering 7)).comp.counter = 3 ∧
      (after (.poseFrameArrival 0x60 0 body312) (posing .recovering 7)).comp.setpoints =
        (after (.poseFrameArrival 0x60 0 body312) (posing .coasting 0)).comp.setpoints := by decide +kernel

theorem test_synthesized_sample_steers :
    ((after .poseTimerExpiry { (placing .settling) with
        pose := { (placing .settling).pose with velocity := ⟨6, -4, 0⟩ } }).pose.last.map Sample.tip) =
        some ⟨134310, 55120, 4190⟩ ∧
      (after .poseTimerExpiry { (placing .settling) with
        pose := { (placing .settling).pose with velocity := ⟨6, -4, 0⟩ } }).comp.setpoints =
        (after (.poseFrameArrival 0x60 0 body312) (placing .settling)).comp.setpoints := by decide +kernel

theorem test_notices_of_clear_fault_and_zone_failure :
    (after (.clearFault 0) faulted).link.notices = [.mode .stowed .faulted .command] ∧
      (after (.clearFault 0) faulted).feed = faulted.feed ∧
      (after .pickDecision { readyBrick with zone := quiet.zone }).link.sending =
        some (.notice (.rejected 0 .bank0 0 .zone)) := by decide +kernel

/-! ## The conditions of feeds, picks and courses, and where pointer and cursor end -/

theorem test_hyps_feed_request : laying.mayFeed ∧ requested.mayFeed ∧ ¬ quiet.mayFeed ∧
    (lastPending .pending Bank.reset [.bank0]).mayFeed ∧ (lastPending .skipped Bank.reset [.bank0]).mayFeed := by
  rw [← State.feedRequestDue_iff, ← State.feedRequestDue_iff, ← State.feedRequestDue_iff, ← State.feedRequestDue_iff,
    ← State.feedRequestDue_iff]
  decide +kernel

/-- The one live brick of a state is its oldest. -/
theorem isOldest_of_sole {s : State} {x : Brick × BrickPlace} (h : s.liveBricks = [x]) : s.isOldest x := by
  refine ⟨(s.heldLive_iff x).mpr (by simp [h]), fun y hy n => ?_⟩
  rw [State.heldLive_iff, h] at hy
  exact absurd (List.mem_singleton.mp hy) n

theorem test_hyps_pick_decision :
    readyBrick.mayPick (brickWith 0 0) .cradle0 ∧ (∀ y, ¬ laying.heldLive y) ∧
      readyBrick.watchConditions (brickWith 0 0) &&& readyBrick.mode.watchEnables = 0#5 ∧
      readyBrick.slot? .bank0 0 = some (slotAtCase .fed) := by
  refine ⟨⟨rfl, rfl, isOldest_of_sole (by decide +kernel), _, _, rfl⟩, fun y h => ?_, by decide +kernel, by decide +kernel⟩
  rw [State.heldLive_iff, show laying.liveBricks = [] by decide +kernel] at h
  cases h

theorem test_hyps_lay_course : onBoom.isLayCourse .bank0 3 ∧ laying.isLayCourse .bank0 3 := by
  refine ⟨.inl ⟨(brickWith 0 0, .train), slotAtCase .fed, isOldest_of_sole (by decide +kernel), rfl, by decide +kernel, rfl⟩,
    .inr ⟨fun y h => ?_, rfl, .inr rfl, 0, slotAtCase .fed, by decide +kernel, by decide +kernel, rfl⟩⟩
  rw [State.heldLive_iff, show laying.liveBricks = [] by decide +kernel] at h
  cases h

/-- The bricks of an ended course and of a PURGE are reported in walk order and in train order. -/
theorem test_notices_of_end_course_and_purge :
    (after (.endCourse 0) heldAndBoom).link.notices =
        [.rejected 0 .bank0 0 .courseEnded, .rejected 1 .bank0 1 .courseEnded] ∧
      (after (.purge 0) (inMode heldAndBoom .paused)).link.notices =
        [.rejected 0 .bank0 0 .purged, .rejected 1 .bank0 1 .purged] ∧
      (heldAndBoom.bank .bank0).walkPosition 0 = some 0 ∧ heldAndBoom.beforeCursor .bank0 0 = true ∧
      walkOf (after (.purge 0) (inMode heldAndBoom .paused)) = (.bank0, 0, .feeding, false) := by decide +kernel

theorem test_hyps_close_bank_pairs :
    (loadingWith (overlapCase 4980)).slot? .bank0 1 = some (slotWith 2 3350 .pending) ∧
      (loadingWith (overlapCase 4980)).slot? .bank0 2 = some { slotWith 2 4980 .pending with rotation := .deg90 } ∧
      2 * (3350 : Int) + 2150 ≤ 2 * 4980 - 1000 ∧
      (loadingWith (overlapCase 4980)).closeFault .bank0 = none := by decide +kernel

/-- Bank 0 with its one slot PENDING off the feed, the pointer on bank 1, which has walked to its end behind it. -/
def endedBehind : State :=
  { (inMode (siteWith (bankWith .active [slotAtCase .pending]) [.bank0, .bank1]) .laying) with
    plan := ⟨bankWith .active [slotAtCase .pending], bankWith .active [slotAtCase .fed], [.bank0, .bank1]⟩
    feed := { quiet.feed with pointer := .bank1, cursor := 1 } }

theorem test_hyps_skip_slot : endedBehind.lastOpen .bank0 0 ∧ endedBehind.feedState = .ended ∧ ¬ laying.lastOpen .bank0 1 := by
  refine ⟨⟨rfl, fun j sl n h => ?_, .inl (by decide)⟩, by decide +kernel, fun h => ?_⟩
  · rcases j with _ | j
    · exact absurd rfl n
    · cases h
  · exact absurd rfl (h.2.1 0 (slotAtCase .fed) (by decide) (by decide +kernel)).2

theorem test_skip_of_the_last_slot_lets_the_walk_go_on :
    walkOf (after (.skipSlot 0 0 0) endedBehind) = (.bank0, 0, .waiting, true) ∧
      ((after (.skipSlot 0 0 0) endedBehind).bank .bank0).state = .spent ∧
      (after (.skipSlot 0 0 0) endedBehind).plan.order = [.bank1] ∧
      walkOf (after (.skipSlot 0 0 1) laying) = walkOf laying := by decide +kernel

/-- STOWED, the pointer on an ACTIVE bank 1 with nothing to be laid, bank 0 with a REFUSED (ZONE) slot before it. -/
def leaving : State := { twoActive with
  plan := { twoActive.plan with bank1 := bankWith .active [slotAtCase .skipped] } }

theorem test_flush_spends_the_bank_it_leaves_behind :
    leaving.leavesBehind (after (.setZoneRow 0 2 0) leaving) .bank1 ∧
      ((after (.setZoneRow 0 2 0) leaving).bank .bank1).state = .spent ∧
      (after (.setZoneRow 0 2 0) leaving).plan.order = [.bank0] ∧
      walkOf (after (.setZoneRow 0 2 0) leaving) = (.bank0, 0, .held, false) ∧
      (after (.setZoneRow 0 2 0) leaving).link.notices = [.bankSpent .bank1 0 1 0] := by
  refine ⟨⟨.inl (by decide +kernel), by decide +kernel, rfl, by decide +kernel⟩, by decide +kernel⟩

/-- The flush itself leaves bank states and the order list (R36); the report of its move spends the bank (R14). -/
theorem test_flush_alone_keeps_the_bank_states :
    (leaving.zoneFlush.state.bank .bank1).state = .active ∧ leaving.zoneFlush.state.plan.order = [.bank0, .bank1] ∧
      ((leaving.zoneFlush.state.testMove leaving).bank .bank1).state = .spent := by decide +kernel

theorem test_glued_slot_at_a_fault :
    (gluing 20).slot? .bank0 0 = some (slotAtCase .fed) ∧ (gluing 20).beforeCursor .bank0 0 = true ∧
      (after .haltAssert (gluing 20)).feed.cursor = 0 ∧ (after .haltAssert laying).plan = laying.plan ∧
      (after .haltAssert laying).feed = laying.feed := by decide +kernel

theorem test_frozen_pick_cradle_is_shown :
    ((after .haltAssert (after .pickDecision readyBrick)).placementPage.map Field.value).drop
        (readyBrick.placementPage.length) = [1, 0] ∧
      ((after .haltAssert laying).placementPage.map Field.value).drop laying.placementPage.length = [0, 0] := by
  decide +kernel

theorem test_frame_end_under_a_pending_reset :
    (after .frameTransmissionEnd { admissionCase with link := { admissionCase.link with resetPending := true } }).link =
      { admissionCase.link with resetPending := true, replies := [], sending := some (.reply ⟨0x01, 0, .ok, []⟩) } := by
  decide +kernel

end Sys2Proof.Tests
end

