-- ==== Sys2Proof/Proofs/CloseBankPairs.lean ====
section
/-! CLOSE BANK's comparison of consecutive slots (R10): what makes a pair fail check 5, which refusal the first failing pair
of checks 4 and 5 gives, and the reply that carries it. -/

namespace Sys2Proof.Machine

/-! ## The checks on one pair -/

/-- The check of R9 that a failing pair is reported under. -/
def PairFault.check : PairFault → Nat
  | .alongOrder => 3
  | .overlap => 4

theorem Slot.extent_eq_ite (sl : Slot) (width : Nat) :
    sl.extent width = if sl.rotation = .deg0 ∨ sl.rotation = .deg180 then (sl.planned : Int) else width := by
  unfold Slot.extent
  cases sl.rotation <;> simp

theorem pairFault_eq_alongOrder {width : Nat} {x y : Slot} (hcourse : y.course = x.course) (halong : y.along ≤ x.along) :
    pairFault width x y = some .alongOrder := by
  simp [pairFault, hcourse, halong]

theorem pairFault_eq_overlap {width : Nat} {x y : Slot} (hcourse : y.course = x.course) (halong : x.along < y.along)
    (hover : 2 * y.along - y.extent width < 2 * x.along + x.extent width) :
    pairFault width x y = some .overlap := by
  have hnotLe : ¬ y.along ≤ x.along := by omega
  have hnotClear : ¬ 2 * x.along + x.extent width ≤ 2 * y.along - y.extent width := by omega
  simp [pairFault, hcourse, hnotLe, hnotClear]

/-! ## The checks on the bank -/

section Checks

variable {s : State} {b : BankId} {su : BankSetup} {d : DatumEntry} {i : Nat} {x y : Slot}

/-- Checks 1 to 3 passed (R9), a course order fault is what CLOSE BANK reports. -/
theorem State.closeFault_of_courseOrderFault (hne : (s.bank b).slots ≠ []) (hd : s.datumOf b = some d)
    (hbox : s.zone.box.isSome = true) (hcourse : courseOrderFault 0 (s.bank b).slots = some i) :
    s.closeFault b = some (invalidPlan 2 i) := by
  obtain ⟨box, hset⟩ := Option.isSome_iff_exists.mp hbox
  simp [State.closeFault, hne, hd, hset, hcourse]

/-- Checks 1 to 4 passed (R9), CLOSE BANK reports what check 5 finds under the setup's brick width. -/
theorem State.closeFault_of_footprintFault {f : PairFault} (hne : (s.bank b).slots ≠ []) (hd : s.datumOf b = some d)
    (hbox : s.zone.box.isSome = true) (hsetup : (s.bank b).setup = some su)
    (hcourse : courseOrderFault 0 (s.bank b).slots = none)
    (hpair : footprintFault su.width 0 (s.bank b).slots = some (i, f)) :
    s.closeFault b = some (invalidPlan f.check i) := by
  obtain ⟨box, hset⟩ := Option.isSome_iff_exists.mp hbox
  cases f <;> simp [State.closeFault, hne, hd, hset, hsetup, hcourse, hpair, PairFault.check]

theorem State.slots_ne_nil_of_slot? (hx : s.slot? b i = some x) : (s.bank b).slots ≠ [] :=
  fun hnil => by simp [State.slot?, hnil] at hx

/-- The first pair whose course falls is reported under COURSE ORDER with its later index. -/
theorem State.closeFault_of_first_course_fall (hd : s.datumOf b = some d) (hbox : s.zone.box.isSome = true)
    (hx : s.slot? b i = some x) (hy : s.slot? b (i + 1) = some y) (hfall : y.course < x.course)
    (hbefore : ∀ j, j < i → ∀ x' y', s.slot? b j = some x' → s.slot? b (j + 1) = some y' → x'.course ≤ y'.course) :
    s.closeFault b = some (invalidPlan 2 (i + 1)) := by
  have hfirst : courseOrderFault 0 (s.bank b).slots = some (0 + i + 1) :=
    courseOrderFault_some 0 i _ x y hx hy hfall hbefore
  rw [Nat.zero_add] at hfirst
  exact State.closeFault_of_courseOrderFault (State.slots_ne_nil_of_slot? hx) hd hbox hfirst

/-- In a bank in course order the first pair that fails check 5 is reported with its later index. -/
theorem State.closeFault_of_first_pairFault {f : PairFault} (hd : s.datumOf b = some d)
    (hbox : s.zone.box.isSome = true) (hsetup : (s.bank b).setup = some su)
    (hx : s.slot? b i = some x) (hy : s.slot? b (i + 1) = some y) (hf : pairFault su.width x y = some f)
    (horder : ∀ j x' y', s.slot? b j = some x' → s.slot? b (j + 1) = some y' → x'.course ≤ y'.course)
    (hbefore : ∀ j, j < i → ∀ x' y', s.slot? b j = some x' → s.slot? b (j + 1) = some y' →
      pairFault su.width x' y' = none) :
    s.closeFault b = some (invalidPlan f.check (i + 1)) := by
  have hcourse : courseOrderFault 0 (s.bank b).slots = none := courseOrderFault_none 0 _ horder
  have hfirst : footprintFault su.width 0 (s.bank b).slots = some (0 + i + 1, f) :=
    footprintFault_some su.width 0 i _ x y f hx hy hf hbefore
  rw [Nat.zero_add] at hfirst
  exact State.closeFault_of_footprintFault (State.slots_ne_nil_of_slot? hx) hd hbox hsetup hcourse hfirst

end Checks

/-! ## The reply -/

/-- A LOADING bank that fails validation is left as it is, and the fault is the answer (R9). -/
theorem State.takeCloseBank_of_closeFault {s : State} {bank : Byte} {b : BankId} {a : Answer}
    (hmode : s.mode.mode ≠ .faulted) (hcode : bank.toNat = b.code) (hload : (s.bank b).state = .loading)
    (hfault : s.closeFault b = some a) : s.takeCloseBank bank = (s, a) := by
  simp [State.takeCloseBank, State.faulted, hmode, BankId.ofByte_code bank b hcode, hload, hfault]

/-- The row CLOSE BANK on an idle link is taken by the Plan Store and answered at once (R173). -/
theorem exec_closeBank_of_take {s t : State} {tag bank : Byte} {a : Answer} (hidle : s.linkIdle)
    (htake : s.takeCloseBank bank = (t, a)) :
    exec (.closeBank tag bank) s = .next (t.replied 0x12 tag a.code a.fields) :=
  congrArg Host.Outcome.next (s.submit_answers hidle (Frame.closeBank tag bank) _ htake)

/-- A validation check that fails is answered INVALID PLAN with the check and the index, and nothing else changes (R9). -/
theorem exec_closeBank_invalidPlan {s : State} {tag bank : Byte} {b : BankId} {check index : Nat} (hidle : s.linkIdle)
    (hmode : s.mode.mode ≠ .faulted) (hcode : bank.toNat = b.code) (hload : (s.bank b).state = .loading)
    (hfault : s.closeFault b = some (invalidPlan check index)) :
    exec (.closeBank tag bank) s = .next (s.replied 0x12 tag .invalidPlan [⟨1, check⟩, ⟨1, index⟩]) :=
  exec_closeBank_of_take hidle (State.takeCloseBank_of_closeFault hmode hcode hload hfault)

/-- Settles O13: the first failing pair is the fault that CLOSE BANK's validation finds, and the reply carries it. -/
theorem closeBankComparesConsecutiveSlots : Obligations.CloseBankComparesConsecutiveSlots := by
  unfold Obligations.CloseBankComparesConsecutiveSlots
  intro s tag bank b su d hidle hmode hcode hload hsetup hd hbox i x y hx hy
  refine ⟨fun ⟨hfall, hbefore⟩ => ?courseOrder, fun horder hbefore => ⟨fun ⟨hcourse, halong⟩ => ?alongOrder,
    fun ⟨hcourse, halong, hover⟩ => ?overlap⟩⟩
  case courseOrder =>
    exact exec_closeBank_invalidPlan hidle hmode hcode hload
      (State.closeFault_of_first_course_fall hd hbox hx hy hfall hbefore)
  case alongOrder =>
    have hf : pairFault su.width x y = some .alongOrder := pairFault_eq_alongOrder hcourse halong
    exact exec_closeBank_invalidPlan hidle hmode hcode hload
      (State.closeFault_of_first_pairFault hd hbox hsetup hx hy hf horder hbefore)
  case overlap =>
    rw [← y.extent_eq_ite su.width, ← x.extent_eq_ite su.width] at hover
    have hf : pairFault su.width x y = some .overlap := pairFault_eq_overlap hcourse halong hover
    exact exec_closeBank_invalidPlan hidle hmode hcode hload
      (State.closeFault_of_first_pairFault hd hbox hsetup hx hy hf horder hbefore)

end Sys2Proof.Machine
end

