-- ==== Sys2Proof/Proofs/Rounding.lean ====
section
/-! Rounding half away from zero (R29): between which bounds a rounded division by any positive divisor lies, its symmetry
under a change of sign, and both for the velocity of a step sample (R110). -/

namespace Sys2Proof.Machine

/-! ## The rounded division (R29) -/

/-- For `n` not negative the result is the largest `q` with `2 d q` at most `2 n + d`. -/
theorem roundDiv_bounds {d n : Int} (hd : 0 < d) (hn : 0 ≤ n) :
    2 * d * roundDiv d n ≤ 2 * n + d ∧ 2 * n + d < 2 * d * (roundDiv d n + 1) := by
  have hpos : 0 < 2 * d := by omega
  rw [roundDiv, if_pos hn, mul_add, mul_one]
  exact ⟨Int.mul_ediv_self_le (by omega), Int.lt_mul_ediv_self_add hpos⟩

theorem roundDiv_zero {d : Int} (hd : 0 < d) : roundDiv d 0 = 0 := by
  have hhalf : d / (2 * d) = 0 := Int.ediv_eq_zero_of_lt (by omega) (by omega)
  simp [roundDiv, hhalf]

theorem roundDiv_neg {d : Int} (hd : 0 < d) (n : Int) : roundDiv d (-n) = -roundDiv d n := by
  obtain hneg | rfl | hpos := lt_trichotomy n 0
  · have hminus : 0 ≤ -n := by omega
    simp only [roundDiv, hminus, hneg.not_ge, if_true, if_false, neg_neg]
  · simp [roundDiv_zero hd]
  · have hminus : ¬ 0 ≤ -n := by omega
    simp only [roundDiv, hminus, hpos.le, if_true, if_false, neg_neg]

theorem roundDiv_nonneg {d n : Int} (hd : 0 < d) (hn : 0 ≤ n) : 0 ≤ roundDiv d n := by
  rw [roundDiv, if_pos hn]
  exact Int.ediv_nonneg (by omega) (by omega)

/-- R29's own divisor, with the factor 2 of `roundDiv_bounds` cancelled. -/
theorem roundQ14_bounds {n : Int} (hn : 0 ≤ n) :
    16384 * roundQ14 n ≤ n + 8192 ∧ n + 8192 < 16384 * (roundQ14 n + 1) := by
  obtain ⟨hle, hlt⟩ := roundDiv_bounds (d := 16384) (by decide) hn
  rw [roundQ14]
  omega

theorem roundQ14_neg (n : Int) : roundQ14 (-n) = -roundQ14 n := roundDiv_neg (by decide) n

/-! ## The velocity of a step sample (R110) -/

theorem clampInt_neg {k : Int} (hk : 0 ≤ k) (z : Int) : clampInt k (-z) = -clampInt k z := by
  unfold clampInt
  omega

theorem clampInt_of_nonneg {k z : Int} (hk : 0 ≤ k) (hz : 0 ≤ z) : clampInt k z = min k z := by
  unfold clampInt
  omega

theorem velocityComponent_of_le {new last : Int} {d : Nat} (hd : 1 ≤ d) (hle : last ≤ new) :
    velocityComponent new last d = min 2000 (roundDiv d (new - last)) :=
  clampInt_of_nonneg (by decide) (roundDiv_nonneg (by omega) (by omega))

theorem velocityComponent_swap (new last : Int) {d : Nat} (hd : 1 ≤ d) :
    velocityComponent last new d = -velocityComponent new last d := by
  rw [velocityComponent, ← neg_sub new last, roundDiv_neg (by omega), clampInt_neg (by decide), velocityComponent]

/-- Settles O21: the target rounding and the velocity rounding are one division by a positive divisor. -/
theorem roundingIsHalfAwayFromZero : Obligations.RoundingIsHalfAwayFromZero := by
  unfold Obligations.RoundingIsHalfAwayFromZero
  refine ⟨fun n hn => roundQ14_bounds hn, roundQ14_neg, fun new last d hd _ => ⟨fun hle => ?_, ?_⟩⟩
  · obtain ⟨hlo, hhi⟩ := roundDiv_bounds (d := d) (n := new - last) (by omega) (by omega)
    exact ⟨roundDiv d (new - last), hlo, hhi, velocityComponent_of_le hd hle⟩
  · exact velocityComponent_swap new last hd

end Sys2Proof.Machine
end

