-- ==== Sys2Proof/Proofs/SetDatum.lean ====
section
/-! SET DATUM's checks in their order (R25, R26), and the entry it writes where no READY bank names it (R27). -/

namespace Sys2Proof.Machine

/-! ## The ACTIVE bank that names the entry (R25) -/

theorem State.activeNaming_eq_some {s : State} {e : Fin 4} {b : BankId} (hactive : (s.bank b).state = .active)
    (hnames : (s.bank b).names e = true)
    (hlower : b = .bank0 ∨ (s.bank .bank0).state ≠ .active ∨ (s.bank .bank0).names e = false) :
    s.activeNaming e = some b := by
  cases b with
  | bank0 => simp [State.activeNaming, hactive, hnames]
  | bank1 =>
    have hnot0 : (decide ((s.bank .bank0).state = .active) && (s.bank .bank0).names e) = false := by
      rw [Bool.and_eq_false_iff, decide_eq_false_iff_not]
      exact hlower.resolve_left (by decide)
    simp only [State.activeNaming, List.find?, hnot0, hactive, hnames, decide_true, Bool.and_self]

theorem State.activeNaming_eq_none {s : State} {e : Fin 4}
    (hfree : ∀ b, (s.bank b).state = .active → (s.bank b).names e = false) : s.activeNaming e = none := by
  rw [State.activeNaming, List.find?_eq_none]
  intro b _
  simpa using hfree b

/-! ## The fields in order (R26): each fault is the first where the checks before it pass -/

theorem headingNormOk_eq_true {c s : Int} (h : (c * c + s * s - 268435456).natAbs ≤ 5368709) :
    headingNormOk c s = true := decide_eq_true h

theorem headingNormOk_eq_false {c s : Int} (h : 5368709 < (c * c + s * s - 268435456).natAbs) :
    headingNormOk c s = false := decide_eq_false h.not_ge

section Fields

variable {d : DatumEntry}

theorem DatumEntry.rangeFault_origin (horigin : 1000000 < d.ox.natAbs ∨ 1000000 < d.oy.natAbs ∨ 100000 < d.oz.natAbs) :
    d.rangeFault = some .origin := by
  rw [DatumEntry.rangeFault, if_pos horigin]

variable (horigin : ¬ (1000000 < d.ox.natAbs ∨ 1000000 < d.oy.natAbs ∨ 100000 < d.oz.natAbs))
include horigin

theorem DatumEntry.rangeFault_heading (hheading : headingNormOk d.cx d.cy = false) :
    d.rangeFault = some .heading := by
  simp only [DatumEntry.rangeFault, horigin, hheading, Bool.not_false, if_true, if_false]

variable (hheading : headingNormOk d.cx d.cy = true)
include hheading

theorem DatumEntry.rangeFault_baseHeight (hhz : d.hz < 0 ∨ 50000 < d.hz) : d.rangeFault = some .baseHeight := by
  simp [DatumEntry.rangeFault, horigin, hheading, hhz]

variable (hhz : ¬ (d.hz < 0 ∨ 50000 < d.hz))
include hhz

theorem DatumEntry.rangeFault_pitch (hp : d.p < 1 ∨ 2000 < d.p) : d.rangeFault = some .pitch := by
  simp only [DatumEntry.rangeFault, horigin, hheading, hhz, hp, Bool.not_true, Bool.false_eq_true, if_true, if_false]

theorem DatumEntry.rangeFault_none (hp : ¬ (d.p < 1 ∨ 2000 < d.p)) : d.rangeFault = none := by
  simp only [DatumEntry.rangeFault, horigin, hheading, hhz, hp, Bool.not_true, Bool.false_eq_true, if_false]

end Fields

/-! ## A flush of no bank (R36) -/

theorem State.flush_of_no_bank (s : State) {p : BankId → Bool} (hp : ∀ b, p b = false) : s.flush p = ⟨s, 0, 0⟩ := by
  simp [State.flush, FlushResult.bankIf, hp]

/-- Where pointer and cursor stay, the Feed Sequencer has no move to report (R52). -/
theorem State.testMove_self (s : State) : s.testMove s = s := by
  simp [State.testMove]

/-! ## What SET DATUM answers (R25 to R27) -/

section Taking

variable {s : State} {entry : Byte} {d : DatumEntry}

theorem State.takeSetDatum_of_no_entry (s : State) (d : DatumEntry) (hout : 3 < entry.toNat) :
    s.takeSetDatum entry d = (s, .refuse .range [fieldU8 DatumField.entry.code]) := by
  have hnot : ¬ entry.toNat < 4 := by omega
  rw [State.takeSetDatum, dif_neg hnot]

theorem State.takeSetDatum_of_activeNaming (d : DatumEntry) (hlt : entry.toNat < 4) {b : BankId}
    (hactive : s.activeNaming ⟨entry.toNat, hlt⟩ = some b) :
    s.takeSetDatum entry d = (s, .refuse .state [fieldU8 b.code]) := by
  simp only [State.takeSetDatum, hlt, hactive, dif_pos]

theorem State.takeSetDatum_of_rangeFault (hlt : entry.toNat < 4) (hfree : s.activeNaming ⟨entry.toNat, hlt⟩ = none)
    {f : DatumField} (hfault : d.rangeFault = some f) :
    s.takeSetDatum entry d = (s, .refuse .range [fieldU8 f.code]) := by
  simp only [State.takeSetDatum, hlt, hfree, hfault, dif_pos]

/-- With no READY bank to flush, the accepted command writes the entry and nothing else (R27). -/
theorem State.takeSetDatum_of_no_ready (hlt : entry.toNat < 4) (hfree : s.activeNaming ⟨entry.toNat, hlt⟩ = none)
    (hfields : d.rangeFault = none)
    (hready : ∀ b, (s.bank b).state = .ready → (s.bank b).names ⟨entry.toNat, hlt⟩ = false) :
    s.takeSetDatum entry d = ({ s with datum := ⟨s.datum.entries.set entry.toNat (some d)⟩ },
      .ok [fieldU8 entry.toNat, fieldU8 0, fieldU8 0]) := by
  have hnone : ∀ b, (decide ((s.bank b).state = .ready) && (s.bank b).names ⟨entry.toNat, hlt⟩) = false := by
    simpa using hready
  simp only [State.takeSetDatum, hlt, hfree, hfields, dif_pos, State.flush_of_no_bank _ hnone, State.testMove_self]

end Taking

/-! ## The row on an idle link (R173) -/

section Row

variable {s t : State} {tag entry : Byte} {ox oy oz : BitVec 32} {cx cy hz p : BitVec 16} {a : Answer}

theorem exec_setDatum_of_take (hidle : s.linkIdle)
    (htake : s.takeSetDatum entry (datumEntryOf ox oy oz cx cy hz p) = (t, a)) :
    exec (.setDatum tag entry ox oy oz cx cy hz p) s = .next (t.replied 0x08 tag a.code a.fields) :=
  congrArg Host.Outcome.next (s.submit_answers hidle (Frame.setDatum tag entry ox oy oz cx cy hz p) _ htake)

/-- A field that fails is answered RANGE with its code, and nothing else changes (R25). -/
theorem exec_setDatum_of_rangeFault (hidle : s.linkIdle) (hlt : entry.toNat < 4)
    (hfree : s.activeNaming ⟨entry.toNat, hlt⟩ = none) {f : DatumField}
    (hfault : (datumEntryOf ox oy oz cx cy hz p).rangeFault = some f) :
    exec (.setDatum tag entry ox oy oz cx cy hz p) s = .next (s.replied 0x08 tag .range [⟨1, f.code⟩]) :=
  exec_setDatum_of_take hidle (State.takeSetDatum_of_rangeFault hlt hfree hfault)

end Row

/-- Settles O16: each case is the first check of R25 and R26 that fails, or the entry written where none does. -/
theorem setDatumJudgesAndWritesTheEntry : Obligations.SetDatumJudgesAndWritesTheEntry := by
  unfold Obligations.SetDatumJudgesAndWritesTheEntry
  intro s tag entry ox oy oz cx cy hz p hidle
  refine ⟨fun hout => exec_setDatum_of_take hidle (s.takeSetDatum_of_no_entry _ hout), ?_⟩
  rintro ⟨_, hlt⟩ rfl
  refine ⟨fun b hactive hnames hlower => ?active, fun hnotActive => ?free⟩
  case active =>
    exact exec_setDatum_of_take hidle
      (State.takeSetDatum_of_activeNaming _ hlt (State.activeNaming_eq_some hactive hnames hlower))
  case free =>
    have hfree : s.activeNaming ⟨entry.toNat, hlt⟩ = none := State.activeNaming_eq_none hnotActive
    refine ⟨fun hbad => exec_setDatum_of_rangeFault hidle hlt hfree (DatumEntry.rangeFault_origin hbad),
      fun hox hoy hoz => ?_⟩
    have horigin : ¬ (1000000 < ox.toInt.natAbs ∨ 1000000 < oy.toInt.natAbs ∨ 100000 < oz.toInt.natAbs) := by omega
    refine ⟨fun hbad => exec_setDatum_of_rangeFault hidle hlt hfree
      (DatumEntry.rangeFault_heading horigin (headingNormOk_eq_false hbad)), fun hnorm => ?_⟩
    have hheading : headingNormOk cx.toInt cy.toInt = true := headingNormOk_eq_true hnorm
    refine ⟨fun hbad => ?baseHeight, fun hhz hbad => ?pitch, fun hhz hpLow hpHigh hready => ?accepted⟩
    case baseHeight =>
      have hhz : (hz.toNat : Int) < 0 ∨ 50000 < (hz.toNat : Int) := by omega
      exact exec_setDatum_of_rangeFault hidle hlt hfree (DatumEntry.rangeFault_baseHeight horigin hheading hhz)
    all_goals have hhzOk : ¬ ((hz.toNat : Int) < 0 ∨ 50000 < (hz.toNat : Int)) := by omega
    case pitch =>
      have hp : (p.toNat : Int) < 1 ∨ 2000 < (p.toNat : Int) := by omega
      exact exec_setDatum_of_rangeFault hidle hlt hfree (DatumEntry.rangeFault_pitch horigin hheading hhzOk hp)
    case accepted =>
      have hp : ¬ ((p.toNat : Int) < 1 ∨ 2000 < (p.toNat : Int)) := by omega
      exact exec_setDatum_of_take hidle (State.takeSetDatum_of_no_ready hlt hfree
        (DatumEntry.rangeFault_none horigin hheading hhzOk hp) hready)

end Sys2Proof.Machine
end

