-- ==== Sys2Proof/Proofs/ZoneCheck.lean ====
section
/-! The zone check (R44): the tests for a SET box one by one, and the row and column of the map as the 10,000 band that holds
the coordinate. -/

namespace Sys2Proof.Machine

/-- The map has a cell of this row, and it is permitted (R40): no row beyond the map has one. -/
theorem ZoneUnit.permitted_iff (z : ZoneUnit) (row col : Nat) :
    z.permitted row col = true ↔ ∃ cells, z.cells[row]? = some cells ∧ cells.getMsbD col = true := by
  cases h : z.cells[row]? <;> simp [ZoneUnit.permitted, h]

/-- Tests 2 to 5 in R44's order, with the divisions still in test 4. -/
theorem ZoneUnit.admitsIn_iff (z : ZoneUnit) (b : ZoneBox) (t : Vec3) :
    z.admitsIn b t = true ↔
      t.x.natAbs ≤ 1000000 ∧ t.y.natAbs ≤ 1000000 ∧ t.z.natAbs ≤ 100000 ∧
      (b.xmin ≤ t.x ∧ t.x ≤ b.xmax) ∧ (b.ymin ≤ t.y ∧ t.y ≤ b.ymax) ∧ (b.zmin ≤ t.z ∧ t.z ≤ b.zmax) ∧
      (t.x - b.xmin) / 10000 < 64 ∧ (t.y - b.ymin) / 10000 < 64 ∧
        z.permitted ((t.y - b.ymin) / 10000).toNat ((t.x - b.xmin) / 10000).toNat = true := by
  simp only [ZoneUnit.admitsIn, Bool.and_eq_true, decide_eq_true_eq, and_assoc]

/-- The quotient of test 4 counts the bands of 10,000 between the box's minimum and the coordinate. -/
theorem band_iff_ediv_eq (lo x : Int) (k : Nat) :
    (lo + 10000 * k ≤ x ∧ x < lo + 10000 * (k + 1)) ↔ (x - lo) / 10000 = k := by
  omega

/-- Tests 4 and 5 of a target not below the box's minimum: its cell lies in the map and is permitted. -/
theorem ZoneUnit.cell_iff (z : ZoneUnit) {xmin ymin x y : Int} (hx : xmin ≤ x) (hy : ymin ≤ y) :
    ((x - xmin) / 10000 < 64 ∧ (y - ymin) / 10000 < 64 ∧
        z.permitted ((y - ymin) / 10000).toNat ((x - xmin) / 10000).toNat = true) ↔
      ∃ row col : Nat, row < 64 ∧ col < 64 ∧
        (xmin + 10000 * col ≤ x ∧ x < xmin + 10000 * (col + 1)) ∧
        (ymin + 10000 * row ≤ y ∧ y < ymin + 10000 * (row + 1)) ∧
        ∃ cells, z.cells[row]? = some cells ∧ cells.getMsbD col = true := by
  simp only [band_iff_ediv_eq, ← z.permitted_iff]
  constructor
  · rintro ⟨hcol, hrow, hpermitted⟩
    exact ⟨_, _, by omega, by omega, by omega, by omega, hpermitted⟩
  · rintro ⟨row, col, hrow, hcol, hxcol, hyrow, hpermitted⟩
    rw [hxcol, hyrow]
    exact ⟨by omega, by omega, hpermitted⟩

/-- Settles O20: a target within the box is not below its minimum, so its quotients are a row and a column of the map. -/
theorem zoneCheckMakesFiveTests : Obligations.ZoneCheckMakesFiveTests := by
  unfold Obligations.ZoneCheckMakesFiveTests
  intro z t
  refine ⟨fun hunset => by rw [ZoneUnit.admits, hunset], fun b hset => ?_⟩
  have hadmits : z.admits t = z.admitsIn b t := by rw [ZoneUnit.admits, hset]
  rw [hadmits, z.admitsIn_iff]
  refine and_congr_right fun _ => and_congr_right fun _ => and_congr_right fun _ =>
    and_congr_right fun ⟨hxmin, _⟩ => and_congr_right fun ⟨hymin, _⟩ => and_congr_right fun _ => ?_
  exact z.cell_iff hxmin hymin

end Sys2Proof.Machine
end

