-- ==== Sys2Proof/Proofs/SetNextBank.lean ====
section
/-! SET NEXT BANK's refusals, and what the move it makes to a bank's first walk position writes and raises (R60). -/

namespace Sys2Proof.Machine

/-! ## The bank named, and the banks judged -/

theorem BankId.ofByte_eq_none {bank : Byte} (h : 1 < bank.toNat) : BankId.ofByte bank = none := by
  have hnot0 : bank.toNat ≠ 0 := by omega
  have hnot1 : bank.toNat ≠ 1 := by omega
  simp only [BankId.ofByte, hnot0, hnot1, if_false]

/-- Some bank is ACTIVE: the test SET NEXT BANK makes of the two banks one by one. -/
theorem State.exists_active_iff (s : State) :
    (∃ b, (s.bank b).state = .active) ↔ s.plan.bank0.state = .active ∨ s.plan.bank1.state = .active := by
  constructor
  · rintro ⟨b, hactive⟩
    cases b with
    | bank0 => exact .inl hactive
    | bank1 => exact .inr hactive
  · rintro (hactive | hactive)
    · exact ⟨.bank0, hactive⟩
    · exact ⟨.bank1, hactive⟩

/-! ## The move -/

/-- The state after SET NEXT BANK is taken (`State.takeSetNextBank_of_setup`): the bank-needed flag cleared, pointer and
cursor at the bank's first walk position. -/
def State.nextBank (s : State) (b : BankId) : State :=
  State.placeCursor { s with feed := { s.feed with bankNeeded := false } } b 0

theorem State.nextBank_point (s : State) (b : BankId) :
    (s.nextBank b).feed.pointer = b ∧ (s.nextBank b).feed.cursor = 0 := by
  rw [State.nextBank, State.placeCursor_feed]
  exact ⟨rfl, rfl⟩

/-- The flag is cleared before the move, so it is clear also where the pointer names the bank already. -/
theorem State.nextBank_bankNeeded (s : State) (b : BankId) : (s.nextBank b).feed.bankNeeded = false := by
  rw [State.nextBank, State.placeCursor_needed, ite_self]

theorem State.nextBank_feedKept (s : State) (b : BankId) : FeedKept s (s.nextBank b) :=
  State.placeCursor_feedKept _ _ _

theorem State.nextBank_plan (s : State) (b : BankId) : (s.nextBank b).plan = s.plan := State.placeCursor_plan _ _ _

theorem State.nextBank_mode (s : State) (b : BankId) : (s.nextBank b).mode = s.mode := State.placeCursor_mode _ _ _

theorem State.nextBank_planMove (s : State) (b : BankId) : PlanMove s (s.nextBank b) :=
  (PlanMove.of_plan_feed s s.plan _).trans (State.placeCursor_planMove _ b 0)

/-- The notices of the move (R70). -/
theorem State.nextBank_spendMove (s : State) (b : BankId) : SpendMove s (s.nextBank b) := by
  unfold State.nextBank
  refine SpendMove.trans ?_ (State.placeCursor_spendMove _ b 0)
  exact .of_plan rfl [] (fun _ h => nomatch h) rfl

/-! ## What SET NEXT BANK answers (R60) -/

section Taking

variable {s : State} {bank : Byte} {b : BankId}

theorem State.takeSetNextBank_of_no_bank (s : State) (hbank : 1 < bank.toNat) :
    s.takeSetNextBank bank = (s, .refuse .range []) := by
  simp only [State.takeSetNextBank, BankId.ofByte_eq_none hbank]

theorem State.takeSetNextBank_of_blocked (hcode : bank.toNat = b.code)
    (hblocked : s.mode.mode ≠ .setup ∨ ∃ b', (s.bank b').state = .active) :
    s.takeSetNextBank bank = (s, .refuse .state []) := by
  rw [s.exists_active_iff] at hblocked
  simp only [State.takeSetNextBank, BankId.ofByte_code bank b hcode, if_pos hblocked]

theorem State.takeSetNextBank_of_setup (hcode : bank.toNat = b.code) (hsetup : s.mode.mode = .setup)
    (hidle : ∀ b', (s.bank b').state ≠ .active) :
    s.takeSetNextBank bank = (s.nextBank b, .ok [fieldU8 (s.nextBank b).feedState.code]) := by
  have hfree : ¬ (s.mode.mode ≠ .setup ∨ s.plan.bank0.state = .active ∨ s.plan.bank1.state = .active) := by
    rw [← s.exists_active_iff]
    rintro (hmode | ⟨b', hactive⟩)
    · exact hmode hsetup
    · exact hidle b' hactive
  simp only [State.takeSetNextBank, BankId.ofByte_code bank b hcode, if_neg hfree, State.nextBank]

end Taking

/-- The row SET NEXT BANK on an idle link is taken by the Feed Sequencer and answered at once (R173). -/
theorem exec_setNextBank_of_take {s t : State} {tag bank : Byte} {a : Answer} (hidle : s.linkIdle)
    (htake : s.takeSetNextBank bank = (t, a)) :
    exec (.setNextBank tag bank) s = .next (t.replied 0x14 tag a.code a.fields) :=
  congrArg Host.Outcome.next (s.submit_answers hidle (Frame.setNextBank tag bank) _ htake)

/-- Settles O22: the two refusals of R60, or the move to the named bank, which is a move of the Feed Sequencer alone. -/
theorem setNextBankPlacesThePointer : Obligations.SetNextBankPlacesThePointer := by
  unfold Obligations.SetNextBankPlacesThePointer
  intro s tag bank hlink
  refine ⟨fun hout => exec_setNextBank_of_take hlink (s.takeSetNextBank_of_no_bank hout), fun b hcode =>
    ⟨fun hblocked => exec_setNextBank_of_take hlink (State.takeSetNextBank_of_blocked hcode hblocked),
      fun hsetup hidle => ?moved⟩⟩
  case moved =>
    have hexec : exec (.setNextBank tag bank) s =
        .next ((s.nextBank b).replied 0x14 tag .ok [⟨1, (s.nextBank b).feedState.code⟩]) :=
      exec_setNextBank_of_take hlink (State.takeSetNextBank_of_setup hcode hsetup hidle)
    have hmove : PlanMove s (s.nextBank b) := s.nextBank_planMove b
    obtain ⟨hpointer, hcursor⟩ := s.nextBank_point b
    obtain ⟨htag, hdepth, htolerance, hmark⟩ := s.nextBank_feedKept b
    exact ⟨s.nextBank b, hexec, hpointer, hcursor, s.nextBank_bankNeeded b, hdepth, htolerance, htag, hmark,
      s.nextBank_plan b, s.nextBank_mode b, hmove.train, hmove.cradles, hmove.adhesive, hmove.pose, hmove.comp,
      hmove.place, hmove.datum, hmove.zone, hmove.clock, (s.nextBank_spendMove b).raises⟩

end Sys2Proof.Machine
end

