-- ==== Sys2Proof/Proofs/RoutedArrival.lean ====
section
/-! The routed arrival (R81): the brick leaves the train list for its cradle, and only a SINGLE or DOUBLE live brick brings a
grant (R92), which in LAYING with the pump free goes to the older of the two bricks that wait (R93, R94). -/

namespace Sys2Proof.Machine

/-! ## Changes of the cradles and the Adhesive Unit alone -/

/-- The cradles and the Adhesive Unit alone may differ, and CONVEYOR HOLD still agrees with the cradles (R86). -/
structure PumpMove (s t : State) : Prop where
  plan    : t.plan = s.plan
  datum   : t.datum = s.datum
  zone    : t.zone = s.zone
  feed    : t.feed = s.feed
  train   : t.train = s.train
  pose    : t.pose = s.pose
  comp    : t.comp = s.comp
  place   : t.place = s.place
  mode    : t.mode = s.mode
  link    : t.link = s.link
  clock   : t.clock = s.clock
  pending : t.pending = s.pending
  held    : s.conveyorHeld → t.conveyorHeld

theorem PumpMove.refl (s : State) : PumpMove s s :=
  ⟨rfl, rfl, rfl, rfl, rfl, rfl, rfl, rfl, rfl, rfl, rfl, rfl, id⟩

theorem PumpMove.trans {s t u : State} (h : PumpMove s t) (k : PumpMove t u) : PumpMove s u where
  plan := k.plan.trans h.plan
  datum := k.datum.trans h.datum
  zone := k.zone.trans h.zone
  feed := k.feed.trans h.feed
  train := k.train.trans h.train
  pose := k.pose.trans h.pose
  comp := k.comp.trans h.comp
  place := k.place.trans h.place
  mode := k.mode.trans h.mode
  link := k.link.trans h.link
  clock := k.clock.trans h.clock
  pending := k.pending.trans h.pending
  held := k.held ∘ h.held

theorem PumpMove.of_adhesive (s : State) (a : AdhesiveUnit) : PumpMove s { s with adhesive := a } :=
  ⟨rfl, rfl, rfl, rfl, rfl, rfl, rfl, rfl, rfl, rfl, rfl, rfl, State.conveyorHeld_of_eq rfl rfl rfl⟩

theorem State.setCradle_pumpMove (s : State) (c : CradleId) (x : Cradle) : PumpMove s (s.setCradle c x) where
  plan := s.setCradle_plan c x
  datum := s.setCradle_datum c x
  zone := s.setCradle_zone c x
  feed := s.setCradle_feed c x
  train := s.setCradle_train c x
  pose := s.setCradle_pose c x
  comp := s.setCradle_comp c x
  place := s.setCradle_place c x
  mode := s.setCradle_mode c x
  link := s.setCradle_link c x
  clock := s.setCradle_clock c x
  pending := s.setCradle_pending c x
  held := fun _ => s.setCradle_conveyorHeld c x

theorem State.grantTo_pumpMove (s : State) (c : CradleId) : PumpMove s (s.grantTo c) := by
  unfold State.grantTo
  split
  · exact (PumpMove.of_adhesive s _).trans (State.setCradle_pumpMove _ c _)
  all_goals exact .refl s

theorem State.judgeGrant_pumpMove (s : State) : PumpMove s s.judgeGrant := by
  unfold State.judgeGrant
  split
  · split
    · exact s.grantTo_pumpMove _
    · exact .refl s
  · exact .refl s

/-! ## Rules about the cradles and the grant -/

/-- Of two writes to one cradle the later stands, CONVEYOR HOLD included. -/
theorem State.setCradle_setCradle (s : State) (c : CradleId) (x y : Cradle) :
    (s.setCradle c x).setCradle c y = s.setCradle c y := by
  cases c <;> rfl

@[simp] theorem State.setCradle_cradlesInUse (s : State) (c : CradleId) (x : Cradle) :
    (s.setCradle c x).cradlesInUse = s.cradlesInUse := by
  simp only [State.cradlesInUse, State.setCradle_mode]

/-- There are two cradles (R82). -/
theorem CradleId.eq_of_ne_of_ne {c d x : CradleId} (hd : d ≠ c) (hx : x ≠ d) : x = c := by
  cases c <;> cases d <;> cases x <;> trivial

theorem State.emptyCradle_mem {s : State} {c : CradleId} (h : s.emptyCradle = some c) : c ∈ s.cradlesInUse :=
  List.mem_of_find?_eq_some h

/-- Outside LAYING, and while the pump is owned, no grant is made (R93). -/
theorem State.judgeGrant_of_not_free {s : State} (h : s.mode.mode ≠ .laying ∨ s.adhesive.owner.isSome = true) :
    s.judgeGrant = s := by
  have hdue : s.grantDue = false := by
    rcases h with hmode | howner
    · simp [State.grantDue, hmode]
    · simp [State.grantDue, Option.isNone_eq_false_iff.mpr howner]
  simp [State.judgeGrant, hdue]

/-! ## The brick's passage into the cradle (R81) -/

/-- The state after the passage alone: the entry gone from the train list, its cradle in state `x`. What the routed arrival
makes of it, by the brick, is said by the `State.routeArrival_of` lemmas. -/
def State.routedTo (s : State) (c : CradleId) (e : TrainEntry) (x : Cradle) : State :=
  (s.setEntries (s.train.entries.filter fun y => y.brick.serial ≠ e.brick.serial)).setCradle c x

section Passage

variable (s : State) (c : CradleId) (e : TrainEntry) (x : Cradle)

@[simp] theorem State.routedTo_mode : (s.routedTo c e x).mode = s.mode := State.setCradle_mode _ c x

@[simp] theorem State.routedTo_adhesive : (s.routedTo c e x).adhesive = s.adhesive := State.setCradle_adhesive _ c x

@[simp] theorem State.routedTo_self : (s.routedTo c e x).cradle c = x := State.setCradle_self _ c x

@[simp] theorem State.routedTo_cradlesInUse : (s.routedTo c e x).cradlesInUse = s.cradlesInUse :=
  State.setCradle_cradlesInUse _ c x

theorem State.routedTo_other {d : CradleId} (hd : d ≠ c) : (s.routedTo c e x).cradle d = s.cradle d :=
  State.setCradle_other _ c d x hd

theorem State.routedTo_pumpMove :
    PumpMove (s.setEntries (s.train.entries.filter fun y => y.brick.serial ≠ e.brick.serial)) (s.routedTo c e x) :=
  State.setCradle_pumpMove _ c x

theorem State.routedTo_conveyorHeld : (s.routedTo c e x).conveyorHeld := State.setCradle_conveyorHeld _ c x

end Passage

/-! ## The routed arrival by the brick: marked, NONE, or with a pattern (R81, R92) -/

section Arriving

variable {s : State} {c : CradleId} {e : TrainEntry}

/-- The row ARRIVE of a routed arrival (R80). -/
theorem exec_arrive_of_routed (hhold : s.cradles.hold = false)
    (hboom : s.train.entries.find? TrainEntry.onBoom = some e) (hempty : s.emptyCradle = some c) :
    exec .arrive s = .next (s.routeArrival c e).beginFrame := by
  have harrival : s.arrival = s.routeArrival c e := by simp [State.arrival, hhold, hboom, hempty]
  rw [← harrival]
  rfl

theorem State.cradleBrickOf_pattern {sl : Slot} (hsl : s.slot? e.brick.bank e.brick.slot = some sl) :
    (s.cradleBrickOf e).pattern = sl.pattern := by
  simp [State.cradleBrickOf, hsl]

theorem State.routeArrival_of_marked (hmark : e.brick.mark ≠ none) :
    s.routeArrival c e = s.routedTo c e (.tipping (s.cradleBrickOf e) (s.clock.now + tipTicks)) := by
  have hdead : ¬ e.brick.live = true := fun h => hmark ((Brick.live_iff _).mp h)
  rw [State.routeArrival, if_neg hdead, State.routedTo]

/-- A live brick is HELD first, and is offered from there. -/
theorem State.routeArrival_of_live (hlive : e.brick.mark = none) :
    s.routeArrival c e = (s.routedTo c e (.held (s.cradleBrickOf e))).offer c (s.cradleBrickOf e) := by
  rw [State.routeArrival, if_pos ((Brick.live_iff _).mpr hlive), State.routedTo]

theorem State.routeArrival_of_no_pattern (hlive : e.brick.mark = none) (hp : (s.cradleBrickOf e).pattern = .none) :
    s.routeArrival c e = s.routedTo c e (.ready (s.cradleBrickOf e) none) := by
  rw [State.routeArrival_of_live hlive, State.offer, hp]
  exact State.setCradle_setCradle _ c _ _

theorem State.routeArrival_of_pattern (hlive : e.brick.mark = none) (hp : (s.cradleBrickOf e).pattern ≠ .none) :
    s.routeArrival c e = (s.routedTo c e (.held (s.cradleBrickOf e))).judgeGrant := by
  rw [State.routeArrival_of_live hlive, State.offer]
  cases h : (s.cradleBrickOf e).pattern with
  | none => exact absurd h hp
  | single => rfl
  | double => rfl

theorem State.routeArrival_of_pattern_not_free (hlive : e.brick.mark = none)
    (hp : (s.cradleBrickOf e).pattern ≠ .none) (hfree : s.mode.mode ≠ .laying ∨ s.adhesive.owner.isSome = true) :
    s.routeArrival c e = s.routedTo c e (.held (s.cradleBrickOf e)) := by
  rw [State.routeArrival_of_pattern hlive hp]
  exact State.judgeGrant_of_not_free (by simpa using hfree)

/-- Where the pump is not granted, the arrival is the passage alone. -/
theorem State.routeArrival_of_no_grant (h : e.brick.mark ≠ none ∨ (s.cradleBrickOf e).pattern = .none ∨
    s.mode.mode ≠ .laying ∨ s.adhesive.owner.isSome = true) : ∃ x, s.routeArrival c e = s.routedTo c e x := by
  by_cases hmark : e.brick.mark = none
  · by_cases hp : (s.cradleBrickOf e).pattern = .none
    · exact ⟨_, State.routeArrival_of_no_pattern hmark hp⟩
    · exact ⟨_, State.routeArrival_of_pattern_not_free hmark hp ((h.resolve_left (· hmark)).resolve_left hp)⟩
  · exact ⟨_, State.routeArrival_of_marked hmark⟩

/-- Every routed arrival is the passage, with or without a grant judged after it. -/
theorem State.routeArrival_cases (s : State) (c : CradleId) (e : TrainEntry) : ∃ x,
    s.routeArrival c e = s.routedTo c e x ∨ s.routeArrival c e = (s.routedTo c e x).judgeGrant := by
  by_cases h : e.brick.mark ≠ none ∨ (s.cradleBrickOf e).pattern = .none
  · obtain ⟨x, hx⟩ := State.routeArrival_of_no_grant (c := c) (h.imp_right .inl)
    exact ⟨x, .inl hx⟩
  · obtain ⟨hlive, hp⟩ := not_or.mp h
    exact ⟨_, .inr (State.routeArrival_of_pattern (not_not.mp hlive) hp)⟩

theorem State.routeArrival_pumpMove (s : State) (c : CradleId) (e : TrainEntry) :
    PumpMove (s.setEntries (s.train.entries.filter fun y => y.brick.serial ≠ e.brick.serial)) (s.routeArrival c e) := by
  obtain ⟨x, hx | hx⟩ := s.routeArrival_cases c e <;> rw [hx]
  · exact s.routedTo_pumpMove c e x
  · exact (s.routedTo_pumpMove c e x).trans (State.judgeGrant_pumpMove _)

theorem State.routeArrival_conveyorHeld (s : State) (c : CradleId) (e : TrainEntry) :
    (s.routeArrival c e).conveyorHeld := by
  obtain ⟨x, hx | hx⟩ := s.routeArrival_cases c e <;> rw [hx]
  · exact s.routedTo_conveyorHeld c e x
  · exact (State.judgeGrant_pumpMove _).held (s.routedTo_conveyorHeld c e x)

/-! ## Which brick the grant goes to (R93): the arriving one, HELD in its cradle, or the one in the other cradle -/

/-- No brick that waits in the other cradle is older: the grant goes to the arriving brick. -/
theorem State.routedTo_grantee_self {b : CradleBrick} (hc : c ∈ s.cradlesInUse) (hlive : b.brick.mark = none)
    (holdest : ∀ d ∈ s.cradlesInUse, d ≠ c → ∀ b', s.cradle d = .held b' → b'.brick.mark = none →
      b.brick.serial < b'.brick.serial) : (s.routedTo c e (.held b)).grantee = some c := by
  refine State.grantee_of_older _ c b (by simpa using hc) (s.routedTo_self c e _) hlive fun d hd hne b' hb' => ?_
  rw [State.routedTo_cradlesInUse] at hd
  rw [s.routedTo_other c e _ hne] at hb'
  exact holdest d hd hne b' hb'

/-- An older brick waits in the other cradle: the grant goes to it. -/
theorem State.routedTo_grantee_other {b b' : CradleBrick} {d : CradleId} (hd : d ∈ s.cradlesInUse) (hne : d ≠ c)
    (hb' : s.cradle d = .held b') (hlive : b'.brick.mark = none) (holder : b'.brick.serial < b.brick.serial) :
    (s.routedTo c e (.held b)).grantee = some d := by
  have hheld : (s.routedTo c e (.held b)).cradle d = .held b' := (s.routedTo_other c e _ hne).trans hb'
  refine State.grantee_of_older _ d b' (by simpa using hd) hheld hlive fun x _ hx y hy _ => ?_
  obtain rfl : x = c := CradleId.eq_of_ne_of_ne hne hx
  rw [State.routedTo_self] at hy
  cases hy
  exact holder

end Arriving

/-! ## The grant in the event of the arrival (R93, R94) -/

section Granting

variable {s : State} {c : CradleId} {e : TrainEntry} (hlive : e.brick.mark = none)
  (hp : (s.cradleBrickOf e).pattern ≠ .none) (hlaying : s.mode.mode = .laying) (howner : s.adhesive.owner = none)
include hlive hp hlaying howner

/-- The cradle that the grant goes to owns the pump and is GLUING; the pump is set up for its brick, and every other cradle
stands as the passage left it. -/
theorem State.routeArrival_of_grantee {d : CradleId} {b : CradleBrick}
    (hheld : (s.routedTo c e (.held (s.cradleBrickOf e))).cradle d = .held b)
    (hgrantee : (s.routedTo c e (.held (s.cradleBrickOf e))).grantee = some d) :
    (s.routeArrival c e).adhesive = { s.adhesive with
      owner := some d, operation := some (s.newOperation b), counter := s.adhesive.divisor, pump := false } ∧
    (s.routeArrival c e).cradle d = .gluing b ∧
    ∀ x, x ≠ d → (s.routeArrival c e).cradle x = (s.routedTo c e (.held (s.cradleBrickOf e))).cradle x := by
  obtain ⟨hadhesive, hgluing, hothers⟩ :=
    State.judgeGrant_to _ d b (by simpa using hlaying) (by simpa using howner) hheld hgrantee
  rw [State.routeArrival_of_pattern hlive hp]
  refine ⟨?_, hgluing, hothers⟩
  rw [hadhesive]
  simp only [State.newOperation, State.routedTo_adhesive]

theorem State.routeArrival_grants_arriving (hc : c ∈ s.cradlesInUse)
    (holdest : ∀ d ∈ s.cradlesInUse, d ≠ c → ∀ b', s.cradle d = .held b' → b'.brick.mark = none →
      e.brick.serial < b'.brick.serial) :
    (s.routeArrival c e).cradle c = .gluing (s.cradleBrickOf e) ∧ (s.routeArrival c e).adhesive.owner = some c ∧
      ∀ d, d ≠ c → (s.routeArrival c e).cradle d = s.cradle d := by
  obtain ⟨hadhesive, hgluing, hothers⟩ := State.routeArrival_of_grantee hlive hp hlaying howner
    (s.routedTo_self c e _) (State.routedTo_grantee_self hc hlive holdest)
  exact ⟨hgluing, by rw [hadhesive], fun d hd => (hothers d hd).trans (s.routedTo_other c e _ hd)⟩

theorem State.routeArrival_grants_other {d : CradleId} {b' : CradleBrick} (hd : d ∈ s.cradlesInUse) (hne : d ≠ c)
    (hb' : s.cradle d = .held b') (hlive' : b'.brick.mark = none) (holder : b'.brick.serial < e.brick.serial) :
    (s.routeArrival c e).cradle c = .held (s.cradleBrickOf e) ∧ (s.routeArrival c e).adhesive.owner = some d ∧
      (s.routeArrival c e).cradle d = .gluing b' := by
  obtain ⟨hadhesive, hgluing, hothers⟩ := State.routeArrival_of_grantee hlive hp hlaying howner
    ((s.routedTo_other c e _ hne).trans hb') (State.routedTo_grantee_other hd hne hb' hlive' holder)
  exact ⟨(hothers c hne.symm).trans (s.routedTo_self c e _), by rw [hadhesive], hgluing⟩

/-- Whichever cradle is granted, the operation is one that begins: no stroke completed, and the period of R94. -/
theorem State.routeArrival_begins_operation (hc : c ∈ s.cradlesInUse) :
    (s.routeArrival c e).adhesive = { s.adhesive with
      owner := (s.routeArrival c e).adhesive.owner, operation := (s.routeArrival c e).adhesive.operation
      counter := s.adhesive.divisor, pump := false } ∧
    (s.routeArrival c e).adhesive.operation.any
      (fun op => op.done = 0 && op.period = 2 * (4096 - s.adhesive.divisor)) = true := by
  have hsome := State.grantee_isSome (s.routedTo c e (.held (s.cradleBrickOf e))) c _ (by simpa using hc)
    (s.routedTo_self c e _) ((Brick.live_iff _).mpr hlive)
  obtain ⟨d, hgrantee⟩ := Option.isSome_iff_exists.mp hsome
  obtain ⟨_, b, hheld, _⟩ := State.grantee_held _ d hgrantee
  obtain ⟨hadhesive, _, _⟩ := State.routeArrival_of_grantee hlive hp hlaying howner hheld hgrantee
  rw [hadhesive]
  exact ⟨rfl, by simp [State.newOperation, strokePeriod, pumpTop]⟩

end Granting

/-- Settles O32: the passage by the brick's mark and pattern, then the grant by the bricks' train order. -/
theorem arrivalPassesTheOldestEntryIntoACradle : Obligations.ArrivalPassesTheOldestEntryIntoACradle := by
  unfold Obligations.ArrivalPassesTheOldestEntryIntoACradle
  intro s e c sl hhold hboom hempty hsl
  have hc : c ∈ s.cradlesInUse := State.emptyCradle_mem hempty
  have hmove : PumpMove _ (s.routeArrival c e) := s.routeArrival_pumpMove c e
  rw [← State.cradleBrickOf_pattern hsl]
  refine ⟨s.routeArrival c e, s.cradleBrickOf e, exec_arrive_of_routed hhold hboom hempty, rfl,
    congrArg TrainList.entries hmove.train, fun hmark => ?tipped, fun hlive hp => ?ready, fun hlive hp hfree => ?waits,
    fun hno => ?ungranted, fun hlive hp hlaying howner => ?granted, s.routeArrival_conveyorHeld c e, hmove.plan,
    hmove.feed, hmove.mode, hmove.place, hmove.comp, hmove.pose, hmove.datum, hmove.zone, hmove.clock, hmove.link⟩
  case tipped =>
    rw [State.routeArrival_of_marked hmark]
    exact s.routedTo_self c e _
  case ready =>
    rw [State.routeArrival_of_no_pattern hlive hp]
    exact s.routedTo_self c e _
  case waits =>
    rw [State.routeArrival_of_pattern_not_free hlive hp hfree]
    exact s.routedTo_self c e _
  case ungranted =>
    obtain ⟨x, hx⟩ := State.routeArrival_of_no_grant (c := c) hno
    rw [hx]
    exact ⟨s.routedTo_adhesive c e x, fun d hd => s.routedTo_other c e x hd⟩
  case granted =>
    exact ⟨State.routeArrival_grants_arriving hlive hp hlaying howner hc,
      fun _ _ => State.routeArrival_grants_other hlive hp hlaying howner,
      State.routeArrival_begins_operation hlive hp hlaying howner hc⟩

end Sys2Proof.Machine
end

