-- ==== Sys2Proof/Proofs/UnfitSamples.lean ====
section
/-! Pose frames without effect: those that carry no sample (R181), the samples that R107 screens out, and the stale ones of
R108. Each leaves the state as it was, so that the row does no more than let a free transmitter begin. -/

namespace Sys2Proof.Machine

/-! ## Which samples are screened out, and which are stale -/

/-- R107's three tests, each by its failure. -/
theorem Sample.passesScreening_eq_false_iff (p : Sample) :
    p.passesScreening = false ↔ p.quality = 0 ∨ 5368709 < (p.hc * p.hc + p.hs * p.hs - 268435456).natAbs ∨
      1000000 < p.tip.x.natAbs ∨ 1000000 < p.tip.y.natAbs ∨ 1000000 < p.tip.z.natAbs := by
  rw [← Bool.not_eq_true, p.passesScreening_iff]
  omega

theorem sequenceDistance_eq_zero_iff (new last : Seq) : sequenceDistance new last = 0 ↔ new = last := by
  unfold sequenceDistance
  bv_omega

theorem classOfDistance_eq_stale_iff (d : Nat) : classOfDistance d = .stale ↔ d = 0 ∨ 1024 ≤ d := by
  unfold classOfDistance
  split
  next hstale => exact iff_of_true rfl hstale
  next hlive => refine iff_of_false ?_ hlive; split <;> nofun

/-- R108's stale class, by the two sequence numbers. -/
theorem classOfDistance_sequenceDistance_eq_stale_iff (new last : Seq) :
    classOfDistance (sequenceDistance new last) = .stale ↔ new = last ∨ 1024 ≤ (new - last).toNat := by
  rw [classOfDistance_eq_stale_iff, sequenceDistance_eq_zero_iff]
  rfl

/-! ## What they leave -/

theorem State.judgeTracking_of_stale {s : State} {last p : Sample}
    (hstale : classOfDistance (sequenceDistance p.sequence last.sequence) = .stale) : s.judgeTracking last p = s := by
  rw [State.judgeTracking, hstale]

theorem State.judgeRecovering_of_stale {s : State} {last p : Sample}
    (hstale : classOfDistance (sequenceDistance p.sequence last.sequence) = .stale) : s.judgeRecovering last p = s := by
  rw [State.judgeRecovering, hstale]

theorem State.poseSample_of_screenedOut {s : State} {p : Sample} (hout : p.passesScreening = false) :
    s.poseSample p = s := by
  simp [State.poseSample, hout]

/-- A stale sample meets the judgement of its pose state only where it passes screening, and changes nothing in either case. -/
theorem State.poseSample_of_stale {s : State} {last p : Sample} (hlast : s.pose.last = some last)
    (hstate : s.pose.state = .tracking ∨ s.pose.state = .coasting ∨ s.pose.state = .recovering)
    (hstale : classOfDistance (sequenceDistance p.sequence last.sequence) = .stale) : s.poseSample p = s := by
  cases hpasses : p.passesScreening with
  | false => exact State.poseSample_of_screenedOut hpasses
  | true =>
    rw [State.poseSample, if_pos hpasses, hlast]
    obtain htracking | hcoasting | hrecovering := hstate
    · rw [htracking]; exact State.judgeTracking_of_stale hstale
    · rw [hcoasting]; exact State.judgeTracking_of_stale hstale
    · rw [hrecovering]; exact State.judgeRecovering_of_stale hstale

theorem State.poseFrame_of_no_sample {s : State} {f : Frame} (hunfit : f.kind ≠ 0x60#8 ∨ f.body.length ≠ 18) :
    s.poseFrame f = s :=
  if_neg fun ⟨hkind, hlength⟩ => hunfit.elim (· hkind) (· hlength)

theorem State.poseFrame_of_sample {s : State} {tag : Byte} {body : List Byte} (hlength : body.length = 18) :
    s.poseFrame ⟨0x60, tag, body⟩ = s.poseSample (poseSampleOf body) :=
  if_pos ⟨rfl, hlength⟩

/-! ## The row -/

/-- The row changes nothing but what a free transmitter begins, where the frame leaves the state as it was. -/
theorem exec_poseFrameArrival_of_no_effect {s : State} {k tag : Byte} {body : List Byte}
    (hsame : s.poseFrame ⟨k, tag, body⟩ = s) : exec (.poseFrameArrival k tag body) s = .next s.beginFrame :=
  congrArg (fun t : State => Host.Outcome.next t.beginFrame) hsame

/-- Settles O41: a frame without a sample, a sample screened out and a stale sample each leave the state as it was. -/
theorem unfitAndStaleSamplesHaveNoEffect : Obligations.UnfitAndStaleSamplesHaveNoEffect := by
  unfold Obligations.UnfitAndStaleSamplesHaveNoEffect
  intro s k tag body
  refine ⟨fun hunfit => exec_poseFrameArrival_of_no_effect (State.poseFrame_of_no_sample hunfit), ?_⟩
  rintro hlength p rfl
  have hsample : s.poseFrame ⟨0x60, tag, body⟩ = s.poseSample (poseSampleOf body) := State.poseFrame_of_sample hlength
  refine ⟨fun hout => ?screenedOut, fun last hlast hstate hdistance => ?stale⟩
  case screenedOut =>
    exact exec_poseFrameArrival_of_no_effect
      (hsample.trans (State.poseSample_of_screenedOut ((Sample.passesScreening_eq_false_iff _).mpr hout)))
  case stale =>
    have hstale := (classOfDistance_sequenceDistance_eq_stale_iff _ last.sequence).mpr hdistance
    exact exec_poseFrameArrival_of_no_effect (hsample.trans (State.poseSample_of_stale hlast hstate hstale))

end Sys2Proof.Machine
end

