-- ==== Sys2Proof/Proofs/StartAndResume.lean ====
section
/-! START and RESUME: the modes they are refused in, the entry to LAYING they make, and the BANK NEEDED it may bring
(R152, R154, R59). -/

namespace Sys2Proof.Machine

/-! ## BANK NEEDED (R59) -/

/-- The feed state is a function of the plan and the walk (R53). -/
theorem State.feedState_congr {s t : State} (hplan : t.plan = s.plan) (hfeed : t.feed = s.feed) :
    t.feedState = s.feedState := by
  unfold State.feedState State.orderBlocked State.bank
  rw [hplan, hfeed]

theorem State.bankNeededDue_iff (s : State) :
    s.bankNeededDue = true ↔ s.mode.mode = .laying ∧ s.feedState = .waiting ∧ s.feed.bankNeeded = false := by
  simp [State.bankNeededDue, and_assoc]

theorem State.needBank_of_due {s : State} (hmode : s.mode.mode = .laying) (hwaiting : s.feedState = .waiting)
    (hclear : s.feed.bankNeeded = false) :
    s.needBank = ({ s with feed := { s.feed with bankNeeded := true } } : State).raise (.bankNeeded s.feed.pointer) :=
  if_pos (s.bankNeededDue_iff.mpr ⟨hmode, hwaiting, hclear⟩)

theorem State.needBank_of_not_due {s : State} (hnot : s.feedState ≠ .waiting ∨ s.feed.bankNeeded = true) :
    s.needBank = s := by
  refine if_neg fun hdue => ?_
  obtain ⟨_, hwaiting, hclear⟩ := s.bankNeededDue_iff.mp hdue
  obtain hbusy | hset := hnot
  · exact hbusy hwaiting
  · exact absurd (hclear.symm.trans hset) Bool.false_ne_true

/-! ## The placement timer at RESUME (R154) -/

theorem PlacementState.holdsBrick_iff (p : PlacementState) : p.holdsBrick = true ↔ p = .approach ∨ p = .settling := by
  cases p <;> simp [PlacementState.holdsBrick]

/-- The placement timer that RESUME leaves (`State.restartPlacementTimer_eq`). -/
def State.resumedTimer (s : State) : Option Time :=
  if s.place.state = .approach ∨ s.place.state = .settling then
    s.comp.latched.map fun l => s.clock.now + (if s.place.hasSettled then l.settle * 100 else l.approach * 100000)
  else s.place.timer

theorem State.restartPlacementTimer_eq (s : State) :
    s.restartPlacementTimer = { s with place := { s.place with timer := s.resumedTimer } } := by
  simp only [State.restartPlacementTimer, State.resumedTimer, PlacementState.holdsBrick_iff]
  split <;> rfl

/-- A notice raised and the Placement Sequencer written, in either order. -/
theorem State.raise_with_place (s : State) (p : PlacementSequencer) (n : Notice) :
    State.raise { s with place := p } n = { s.raise n with place := p } := by
  have hlink := State.raise_link_congr (s := s) (t := { s with place := p }) n rfl
  rw [State.raise_eq { s with place := p }, hlink, State.raise_eq s]

/-- The timer's start reads nothing of the link, so the notice of the same event may stand before it or after it. -/
theorem State.restartPlacementTimer_raise (s : State) (n : Notice) :
    (s.raise n).restartPlacementTimer = s.restartPlacementTimer.raise n := by
  have htimer : (s.raise n).resumedTimer = s.resumedTimer := by simp [State.resumedTimer]
  rw [(s.raise n).restartPlacementTimer_eq, s.restartPlacementTimer_eq,
    s.raise_with_place { s.place with timer := s.resumedTimer } n, State.raise_place, htimer]

/-! ## The entry to LAYING -/

/-- The state at the entry to LAYING by a mode command, before the BANK NEEDED it may bring: `State.changeMode_laying` for
START, `State.restartPlacementTimer_changeMode` for RESUME. -/
def State.enterLaying (s : State) (timer : Option Time) : State :=
  ({ s with
      mode := { s.mode with mode := .laying }
      place := { s.place with holdPaused := false, timer := timer } } : State).raise
    (.mode .laying s.mode.mode .command)

theorem State.changeMode_laying (s : State) : s.changeMode .laying .command = s.enterLaying s.place.timer := rfl

theorem State.restartPlacementTimer_changeMode (s : State) :
    (s.changeMode .laying .command).restartPlacementTimer = s.enterLaying s.resumedTimer := by
  rw [State.changeMode_laying, State.enterLaying, State.restartPlacementTimer_raise, State.restartPlacementTimer_eq]
  rfl

section Entry

variable (s : State) (timer : Option Time)

@[simp] theorem State.enterLaying_mode_mode : (s.enterLaying timer).mode.mode = .laying := by simp [State.enterLaying]
@[simp] theorem State.enterLaying_feed : (s.enterLaying timer).feed = s.feed := by simp [State.enterLaying]
@[simp] theorem State.enterLaying_plan : (s.enterLaying timer).plan = s.plan := by simp [State.enterLaying]
@[simp] theorem State.enterLaying_feedState : (s.enterLaying timer).feedState = s.feedState :=
  State.feedState_congr (s.enterLaying_plan timer) (s.enterLaying_feed timer)

end Entry

/-- The entry to LAYING changes neither of R59's other two conditions, so what stood before it decides. -/
theorem State.needBank_enterLaying_of_not_due {s : State} (timer : Option Time)
    (hnot : s.feedState ≠ .waiting ∨ s.feed.bankNeeded = true) :
    (s.enterLaying timer).needBank = s.enterLaying timer :=
  State.needBank_of_not_due (by simpa using hnot)

theorem State.needBank_enterLaying_of_waiting {s : State} (timer : Option Time) (hwaiting : s.feedState = .waiting)
    (hclear : s.feed.bankNeeded = false) :
    (s.enterLaying timer).needBank =
      ({ s.enterLaying timer with feed := { (s.enterLaying timer).feed with bankNeeded := true } } : State).raise
        (.bankNeeded s.feed.pointer) := by
  rw [State.needBank_of_due (by simp) (by simpa using hwaiting) (by simpa using hclear), State.enterLaying_feed]

/-! ## What START and RESUME answer -/

section Taking

variable {s : State}

theorem State.takeStart_of_refused (hmode : s.mode.mode = .laying ∨ s.mode.mode = .paused ∨ s.mode.mode = .faulted) :
    s.takeStart = (s, .refuse .state [fieldU8 s.mode.mode.code]) := by
  refine if_neg ?_
  obtain hlaying | hpaused | hfaulted := hmode
  · simp [hlaying]
  · simp [hpaused]
  · simp [hfaulted]

theorem State.takeStart_of_accepted (hmode : s.mode.mode = .setup ∨ s.mode.mode = .stowed) :
    s.takeStart = ((s.enterLaying s.place.timer).needBank, .ok []) := by
  rw [← State.changeMode_laying]
  exact if_pos hmode

theorem State.takeResume_of_not_paused (hmode : s.mode.mode ≠ .paused) :
    s.takeResume = (s, .refuse .state [fieldU8 s.mode.mode.code]) :=
  if_neg hmode

theorem State.takeResume_of_paused (hmode : s.mode.mode = .paused) :
    s.takeResume = ((s.enterLaying s.resumedTimer).needBank, .ok []) := by
  rw [← State.restartPlacementTimer_changeMode]
  exact if_pos hmode

end Taking

/-! ## The rows on an idle link (R173) -/

section Rows

variable {s t : State} {tag : Byte} {a : Answer}

theorem exec_start_of_take (hidle : s.linkIdle) (htake : s.takeStart = (t, a)) :
    exec (.start tag) s = .next (t.replied 0x28 tag a.code a.fields) :=
  congrArg Host.Outcome.next (s.submit_answers hidle (Frame.start tag) _ htake)

theorem exec_resume_of_take (hidle : s.linkIdle) (htake : s.takeResume = (t, a)) :
    exec (.resume tag) s = .next (t.replied 0x2A tag a.code a.fields) :=
  congrArg Host.Outcome.next (s.submit_answers hidle (Frame.resume tag) _ htake)

theorem exec_start_of_accepted (hidle : s.linkIdle) (hmode : s.mode.mode = .setup ∨ s.mode.mode = .stowed)
    (hentry : (s.enterLaying s.place.timer).needBank = t) : exec (.start tag) s = .next (t.replied 0x28 tag .ok []) :=
  hentry ▸ exec_start_of_take hidle (State.takeStart_of_accepted hmode)

theorem exec_resume_of_paused (hidle : s.linkIdle) (hmode : s.mode.mode = .paused)
    (hentry : (s.enterLaying s.resumedTimer).needBank = t) : exec (.resume tag) s = .next (t.replied 0x2A tag .ok []) :=
  hentry ▸ exec_resume_of_take hidle (State.takeResume_of_paused hmode)

end Rows

/-- Settles O49: by the mode, the refusal, or the entry to LAYING with the BANK NEEDED of R59 where it is due. -/
theorem startAndResumeEnterLaying : Obligations.StartAndResumeEnterLaying := by
  unfold Obligations.StartAndResumeEnterLaying
  intro s tag hidle
  refine ⟨fun hmode => exec_start_of_take hidle (State.takeStart_of_refused hmode),
    fun hmode => exec_resume_of_take hidle (State.takeResume_of_not_paused hmode),
    fun hmode => ⟨s.enterLaying s.place.timer, rfl, fun hnot => ?startQuiet, fun hwaiting hclear => ?startNeeds⟩,
    fun hmode => ⟨s.enterLaying s.resumedTimer, by rw [State.enterLaying, hmode]; rfl, fun hnot => ?resumeQuiet,
      fun hwaiting hclear => ?resumeNeeds⟩⟩
  case startQuiet => exact exec_start_of_accepted hidle hmode (State.needBank_enterLaying_of_not_due _ hnot)
  case startNeeds => exact exec_start_of_accepted hidle hmode (State.needBank_enterLaying_of_waiting _ hwaiting hclear)
  case resumeQuiet => exact exec_resume_of_paused hidle hmode (State.needBank_enterLaying_of_not_due _ hnot)
  case resumeNeeds => exact exec_resume_of_paused hidle hmode (State.needBank_enterLaying_of_waiting _ hwaiting hclear)

end Sys2Proof.Machine
end

