-- ==== Sys2Proof/Proofs/StepInvariant.lean ====
section
/-! The invariants along every step: each row of the table is a command handed to the Site Link Interface, an event after
which a free transmitter begins a frame, or an event that leaves the link alone; and a step is a row, or a tick. -/

namespace Sys2Proof.Machine

/-- The row goes on, and to a state in which the invariants stand. -/
def goesOnInv (r : Result) : Prop := ∃ t, r = .next t ∧ t.Inv

/-! ## The rows by their shape -/

theorem EventMove.of_eq {s t : State} (h : t = s) : EventMove s t := h ▸ .refl s

section Shapes

variable {s : State} (h : s.Inv)
include h

theorem goesOnInv_submit (f : Frame) (own : State → State × Answer) (m : ∀ u, EventMove u (own u).1) :
    goesOnInv (.next (s.submit f own)) :=
  ⟨_, rfl, s.submit_inv f own m h⟩

theorem goesOnInv_event {t : State} (m : EventMove s t) : goesOnInv (.next t.beginFrame) :=
  ⟨_, rfl, m.inv h⟩

theorem goesOnInv_silent {t : State} (m : EventMove s t) (hlink : t.link = s.link) : goesOnInv (.next t) :=
  ⟨_, rfl, m.inv_of_link hlink h⟩

/-- A byte on either link: the framer written, then the completed frames one by one (R171). -/
theorem State.receiveByte_inv (link : Link) (b : Byte) : (s.receiveByte link b).Inv := by
  cases link with
  | site => exact State.arriveFrames_inv _ _ h
  | tracker =>
    have hframer : EventMove s { s with link := { s.link with trackerFramer := (s.link.trackerFramer.receive b).2 } } :=
      .of_link rfl rfl rfl rfl rfl id
    exact (hframer.trans (State.poseFrames_eventMove _ _ (hframer.body h.body))).inv h

/-- The end of a transmission: nothing, the reset of a pending RESET, or the next reply or notice (R174, R176). -/
theorem State.transmissionEnd_inv : s.transmissionEnd.Inv := by
  unfold State.transmissionEnd
  split
  · exact h
  · split
    · exact s.resetWith_inv _ _ _ _
    · have hfree : State.Body { s with link := { s.link with sending := none } } := h.body.with_link _ h.1.2.2
      exact State.settle_inv _ _ hfree h.1.2.1 h.1.1 (Nat.le_refl _)

end Shapes

/-! ## Every row, every step -/

/-- Every row of the table goes on and keeps the invariants. -/
theorem exec_keeps_inv (i : Instr) (s : State) (h : s.Inv) : goesOnInv (exec i s) := by
  cases i with
  | identify tag => exact goesOnInv_submit h _ State.takeIdentify fun u => .refl u
  | reset tag => exact goesOnInv_submit h _ _ State.takeReset_eventMove
  | readStatus tag page => exact goesOnInv_submit h _ _ fun u => u.takeReadStatus_eventMove _
  | readBank tag bank => exact goesOnInv_submit h _ _ fun u => .of_eq (u.takeReadBank_state bank)
  | readSlot tag bank index => exact goesOnInv_submit h _ _ fun u => .of_eq (u.takeReadSlot_state bank index)
  | setDatum tag entry ox oy oz cx cy hz p => exact goesOnInv_submit h _ _ fun u => u.takeSetDatum_eventMove _ _
  | setZoneBox tag xmin xmax ymin ymax zmin zmax => exact goesOnInv_submit h _ _ fun u => u.takeSetZoneBox_eventMove _
  | setZoneRow tag row cells => exact goesOnInv_submit h _ _ fun u => u.takeSetZoneRow_eventMove _ _
  | openBank tag bank datum walk w => exact goesOnInv_submit h _ _ fun u => (u.takeOpenBank_planMove _ _ _ _).eventMove
  | loadSlots tag bank first count records => 
    refine goesOnInv_submit h _ _ fun u => ?_
    split
    · exact (u.takeLoadSlots_planMove _ _ _).eventMove
    · exact .refl u
  | closeBank tag bank => exact goesOnInv_submit h _ _ fun u => (u.takeCloseBank_planMove _).eventMove
  | discardBank tag bank => exact goesOnInv_submit h _ _ fun u => (u.takeDiscardBank_planMove _).eventMove
  | setNextBank tag bank => exact goesOnInv_submit h _ _ fun u => (u.takeSetNextBank_planMove _).eventMove
  | skipSlot tag bank index => exact goesOnInv_submit h _ _ fun u => (u.takeSkipSlot_planMove _ _).eventMove
  | setPlacement tag lead window alternate count quality approach settle =>
    exact goesOnInv_submit h _ _ fun u => u.takeSetPlacement_eventMove _
  | setFeed tag depth tolerance timeout => exact goesOnInv_submit h _ _ fun u => u.takeSetFeed_eventMove _ _ _
  | setAdhesive tag divisor pitch openTime => exact goesOnInv_submit h _ _ fun u => u.takeSetAdhesive_eventMove _ _ _
  | setSupplyMark tag threshold scope sense =>
    exact goesOnInv_submit h _ _ fun u => (u.takeSetSupplyMark_planMove _ _ _).eventMove
  | setWatch tag conditions => exact goesOnInv_submit h _ _ fun u => u.takeSetWatch_eventMove _
  | clearWatch tag conditions => exact goesOnInv_submit h _ _ fun u => u.takeClearWatch_eventMove _
  | setNotices tag enables => exact goesOnInv_submit h _ _ fun u => u.takeSetNotices_eventMove _
  | brickLoaded tag feedTag measured => exact goesOnInv_submit h _ _ fun u => (u.takeBrickLoaded_pathMove _ _).eventMove
  | endCourse tag => exact goesOnInv_submit h _ _ State.takeEndCourse_eventMove
  | purge tag => exact goesOnInv_submit h _ _ State.takePurge_eventMove
  | abandon tag => exact goesOnInv_submit h _ _ State.takeAbandon_eventMove
  | start tag => exact goesOnInv_submit h _ _ State.takeStart_eventMove
  | pause tag => exact goesOnInv_submit h _ _ State.takePause_eventMove
  | resume tag => exact goesOnInv_submit h _ _ State.takeResume_eventMove
  | stow tag => exact goesOnInv_submit h _ _ State.takeStow_eventMove
  | enterSetup tag => exact goesOnInv_submit h _ _ State.takeEnterSetup_eventMove
  | clearFault tag => exact goesOnInv_submit h _ _ State.takeClearFault_eventMove
  | unknownCommand kind tag body => exact ⟨_, rfl, s.arriveFrame_inv _ h⟩
  | commandFrameArrival kind tag body => exact ⟨_, rfl, s.arriveFrame_inv _ h⟩
  | poseFrameArrival kind tag body => exact goesOnInv_event h (s.poseFrame_eventMove _ h.body.runs)
  | frameTransmissionEnd => exact ⟨_, rfl, State.transmissionEnd_inv h⟩
  | powerOnReset cradles travel halt => exact ⟨_, rfl, s.resetWith_inv _ _ _ _⟩
  | haltAssert => exact goesOnInv_event h s.haltAsserted_eventMove
  | haltDeassert => exact goesOnInv_silent h s.haltDeasserted_eventMove rfl
  | arrive => exact goesOnInv_event h s.arrival_eventMove
  | pickCompletion => exact goesOnInv_event h s.grippedAsserted_eventMove
  | grippedDeassert => exact goesOnInv_event h s.grippedDeasserted_eventMove
  | gripTimeout => exact goesOnInv_event h s.gripTimeout_eventMove
  | transitExpiry feedTag => exact goesOnInv_event h (s.transitExpiry_eventMove _)
  | tipCompletion c => exact goesOnInv_silent h (s.tipCompletion_eventMove c) (s.tipCompletion_link c)
  | pumpCounterReload => exact goesOnInv_silent h s.pumpReload_eventMove s.pumpReload_link
  | grant => exact goesOnInv_silent h s.judgeGrant_eventMove s.judgeGrant_link
  | openTimeExpiry place => exact goesOnInv_event h (s.openTimeExpiry_eventMove _)
  | abandonCompletion => exact goesOnInv_event h s.abandonCompletion_eventMove
  | placementTimerExpiry => exact goesOnInv_event h s.placementTimerExpiry_eventMove
  | releaseDwellEnd => exact goesOnInv_event h s.releaseDwellEnd_eventMove
  | poseTimerExpiry => exact goesOnInv_event h (s.poseTimerExpiry_eventMove h.body.runs)
  | feedRequest => exact goesOnInv_event h s.feedRequest_eventMove
  | pickDecision => exact goesOnInv_event h s.pickDecision_eventMove
  | receiveFramerByte link byte => exact ⟨_, rfl, State.receiveByte_inv h link byte⟩

/-- The empty-queue step is a tick or one of the rows, and the count of free choices is no part of the invariants. -/
theorem State.idle_keeps_inv (s : State) (h : s.Inv) : goesOnInv s.idle := by
  unfold State.idle
  split
  · exact goesOnInv_silent h (s.runTo_eventMove _) rfl
  · exact exec_keeps_inv _ s h
  · exact exec_keeps_inv _ s.drawChoice h

theorem step_keeps_inv (s : State) (h : s.Inv) : goesOnInv (step s) := by
  unfold step
  split
  · exact exec_keeps_inv _ _ h
  · exact s.idle_keeps_inv h

/-- Settles O60: what the step goes on to is the state that the invariants stand in. -/
theorem everyStepKeepsTheInvariant : Obligations.EveryStepKeepsTheInvariant := by
  unfold Obligations.EveryStepKeepsTheInvariant
  intro s t hs hstep
  obtain ⟨u, hu, hinv⟩ := step_keeps_inv s hs
  obtain rfl : u = t := by simpa [hu] using hstep
  exact hinv

/-- Settles O59: the reset state is the one that a power-on reset leaves (R167). -/
theorem invariantHoldsAtReset : Obligations.InvariantHoldsAtReset :=
  State.resetWith_inv State.reset .powerOn .two .long false

end Sys2Proof.Machine
end

