-- ==== Sys2Proof/Proofs/StepAndResets.lean ====
section
/-! The command rows on an idle link (R173), the step on a waiting and on an empty queue, what both resets leave, and the
answers of IDENTIFY and RESET. -/

namespace Sys2Proof.Machine

/-! ## The command rows on an idle link -/

/-- A command row on an idle link is taken by its owner and answered at once (R173), whatever the command. -/
theorem next_submit_of_take {s t : State} {a : Answer} (hidle : s.linkIdle) (f : Frame) (own : State → State × Answer)
    (htake : own s = (t, a)) :
    (.next (s.submit f own) : Result) = .next (t.replied f.kind f.tag a.code a.fields) :=
  congrArg Host.Outcome.next (s.submit_answers hidle f own htake)

section Rows

variable {s t : State} {tag : Byte} {r : Answer} (hidle : s.linkIdle)
include hidle

theorem exec_identify_of_take (htake : s.takeIdentify = (t, r)) :
    exec (.identify tag) s = .next (t.replied 0x01 tag r.code r.fields) :=
  next_submit_of_take hidle (Frame.identify tag) _ htake

theorem exec_reset_of_take (htake : s.takeReset = (t, r)) :
    exec (.reset tag) s = .next (t.replied 0x02 tag r.code r.fields) :=
  next_submit_of_take hidle (Frame.reset tag) _ htake

theorem exec_readStatus_of_take {page : Byte} (htake : s.takeReadStatus page = (t, r)) :
    exec (.readStatus tag page) s = .next (t.replied 0x03 tag r.code r.fields) :=
  next_submit_of_take hidle (Frame.readStatus tag page) _ htake

theorem exec_readBank_of_take {bank : Byte} (htake : s.takeReadBank bank = (t, r)) :
    exec (.readBank tag bank) s = .next (t.replied 0x04 tag r.code r.fields) :=
  next_submit_of_take hidle (Frame.readBank tag bank) _ htake

theorem exec_readSlot_of_take {bank index : Byte} (htake : s.takeReadSlot bank index = (t, r)) :
    exec (.readSlot tag bank index) s = .next (t.replied 0x05 tag r.code r.fields) :=
  next_submit_of_take hidle (Frame.readSlot tag bank index) _ htake

theorem exec_setZoneBox_of_take {x0 x1 y0 y1 z0 z1 : BitVec 32} (htake : s.takeSetZoneBox (zoneBoxOf x0 x1 y0 y1 z0 z1) = (t, r)) :
    exec (.setZoneBox tag x0 x1 y0 y1 z0 z1) s = .next (t.replied 0x09 tag r.code r.fields) :=
  next_submit_of_take hidle (Frame.setZoneBox tag x0 x1 y0 y1 z0 z1) _ htake

theorem exec_setZoneRow_of_take {row : Byte} {cells : BitVec 64} (htake : s.takeSetZoneRow row cells = (t, r)) :
    exec (.setZoneRow tag row cells) s = .next (t.replied 0x0A tag r.code r.fields) :=
  next_submit_of_take hidle (Frame.setZoneRow tag row cells) _ htake

theorem exec_openBank_of_take {bank datum walk : Byte} {w : BitVec 16} (htake : s.takeOpenBank bank datum walk w = (t, r)) :
    exec (.openBank tag bank datum walk w) s = .next (t.replied 0x10 tag r.code r.fields) :=
  next_submit_of_take hidle (Frame.openBank tag bank datum walk w) _ htake

theorem exec_discardBank_of_take {bank : Byte} (htake : s.takeDiscardBank bank = (t, r)) :
    exec (.discardBank tag bank) s = .next (t.replied 0x13 tag r.code r.fields) :=
  next_submit_of_take hidle (Frame.discardBank tag bank) _ htake

theorem exec_skipSlot_of_take {bank index : Byte} (htake : s.takeSkipSlot bank index = (t, r)) :
    exec (.skipSlot tag bank index) s = .next (t.replied 0x15 tag r.code r.fields) :=
  next_submit_of_take hidle (Frame.skipSlot tag bank index) _ htake

theorem exec_setPlacement_of_take {l w w' k q a : Byte} {u : BitVec 16} (htake : s.takeSetPlacement (settingsOf l w w' k q a u) = (t, r)) :
    exec (.setPlacement tag l w w' k q a u) s = .next (t.replied 0x18 tag r.code r.fields) :=
  next_submit_of_take hidle (Frame.setPlacement tag l w w' k q a u) _ htake

theorem exec_setFeed_of_take {a b c : Byte} (htake : s.takeSetFeed a b c = (t, r)) :
    exec (.setFeed tag a b c) s = .next (t.replied 0x19 tag r.code r.fields) :=
  next_submit_of_take hidle (Frame.setFeed tag a b c) _ htake

theorem exec_setAdhesive_of_take {a c : BitVec 16} {b : Byte} (htake : s.takeSetAdhesive a b c = (t, r)) :
    exec (.setAdhesive tag a b c) s = .next (t.replied 0x1A tag r.code r.fields) :=
  next_submit_of_take hidle (Frame.setAdhesive tag a b c) _ htake

theorem exec_setSupplyMark_of_take {a b c : Byte} (htake : s.takeSetSupplyMark a b c = (t, r)) :
    exec (.setSupplyMark tag a b c) s = .next (t.replied 0x1B tag r.code r.fields) :=
  next_submit_of_take hidle (Frame.setSupplyMark tag a b c) _ htake

theorem exec_setWatch_of_take {c : Byte} (htake : s.takeSetWatch c = (t, r)) :
    exec (.setWatch tag c) s = .next (t.replied 0x1C tag r.code r.fields) :=
  next_submit_of_take hidle (Frame.setWatch tag c) _ htake

theorem exec_clearWatch_of_take {c : Byte} (htake : s.takeClearWatch c = (t, r)) :
    exec (.clearWatch tag c) s = .next (t.replied 0x1D tag r.code r.fields) :=
  next_submit_of_take hidle (Frame.clearWatch tag c) _ htake

theorem exec_setNotices_of_take {e : BitVec 16} (htake : s.takeSetNotices e = (t, r)) :
    exec (.setNotices tag e) s = .next (t.replied 0x1E tag r.code r.fields) :=
  next_submit_of_take hidle (Frame.setNotices tag e) _ htake

theorem exec_brickLoaded_of_take {feedTag : Byte} {m : BitVec 16} (htake : s.takeBrickLoaded feedTag m = (t, r)) :
    exec (.brickLoaded tag feedTag m) s = .next (t.replied 0x20 tag r.code r.fields) :=
  next_submit_of_take hidle (Frame.brickLoaded tag feedTag m) _ htake

theorem exec_endCourse_of_take (htake : s.takeEndCourse = (t, r)) :
    exec (.endCourse tag) s = .next (t.replied 0x21 tag r.code r.fields) :=
  next_submit_of_take hidle (Frame.endCourse tag) _ htake

theorem exec_purge_of_take (htake : s.takePurge = (t, r)) :
    exec (.purge tag) s = .next (t.replied 0x22 tag r.code r.fields) :=
  next_submit_of_take hidle (Frame.purge tag) _ htake

theorem exec_abandon_of_take (htake : s.takeAbandon = (t, r)) :
    exec (.abandon tag) s = .next (t.replied 0x23 tag r.code r.fields) :=
  next_submit_of_take hidle (Frame.abandon tag) _ htake

theorem exec_pause_of_take (htake : s.takePause = (t, r)) :
    exec (.pause tag) s = .next (t.replied 0x29 tag r.code r.fields) :=
  next_submit_of_take hidle (Frame.pause tag) _ htake

theorem exec_stow_of_take (htake : s.takeStow = (t, r)) :
    exec (.stow tag) s = .next (t.replied 0x2B tag r.code r.fields) :=
  next_submit_of_take hidle (Frame.stow tag) _ htake

theorem exec_enterSetup_of_take (htake : s.takeEnterSetup = (t, r)) :
    exec (.enterSetup tag) s = .next (t.replied 0x2C tag r.code r.fields) :=
  next_submit_of_take hidle (Frame.enterSetup tag) _ htake

theorem exec_clearFault_of_take (htake : s.takeClearFault = (t, r)) :
    exec (.clearFault tag) s = .next (t.replied 0x2D tag r.code r.fields) :=
  next_submit_of_take hidle (Frame.clearFault tag) _ htake


theorem exec_loadSlots_of_take {bank first count : Byte} {rs : List SlotRecord} (hcount : rs.length = count.toNat)
    (htake : s.takeLoadSlots bank first rs = (t, r)) :
    exec (.loadSlots tag bank first count rs) s = .next (t.replied 0x11 tag r.code r.fields) :=
  next_submit_of_take hidle (Frame.loadSlots tag bank first count rs) _ ((if_pos hcount).trans htake)

end Rows

/-! ## The step -/

/-- Settles O1: the front of the queue is what `step` hands to `exec`. -/
theorem stepRunsTheFrontOfTheQueue : Obligations.StepRunsTheFrontOfTheQueue := by
  unfold Obligations.StepRunsTheFrontOfTheQueue
  intro s c rest
  rfl

theorem step_of_empty_queue {s : State} (h : s.pending = []) : step s = s.idle := by
  simp only [step, h]

/-- Among several events that stand due the free choice names one. -/
theorem State.idle_of_several {s : State} (h : 1 < s.ownEvents.length) :
    ∃ i ∈ s.ownEvents, s.idle = exec i s.drawChoice := by
  unfold State.idle
  match hev : s.ownEvents with
  | [] => simp [hev] at h
  | [i] => simp [hev] at h
  | i :: j :: rest =>
    have hlt : Config.freeChoice s.clock.choices % (rest.length + 2) < (i :: j :: rest).length :=
      Nat.mod_lt _ (Nat.succ_pos _)
    refine ⟨(i :: j :: rest)[_]'hlt, List.getElem_mem hlt, ?_⟩
    simp only [List.getElem?_eq_getElem hlt, Option.getD_some]

/-- Settles O2: by the number of own events that stand due. -/
theorem idleStepTicksOrTakesADueEvent : Obligations.IdleStepTicksOrTakesADueEvent := by
  unfold Obligations.IdleStepTicksOrTakesADueEvent
  intro s hempty
  rw [step_of_empty_queue hempty]
  refine ⟨fun hnone => ?tick, fun i hone => ?one, State.idle_of_several⟩
  case tick =>
    have hnow : max s.clock.now (s.clock.now + 1) = s.clock.now + 1 := max_eq_right (Nat.le_succ _)
    have hpassed : s.clock.now + 1 - s.clock.now = 1 := Nat.add_sub_cancel_left ..
    simp only [State.idle, hnone, State.tick, State.runTo, hnow, hpassed, pumpTop]
  case one => simp only [State.idle, hone]

/-! ## The resets (R167) -/

section Resets

variable (s : State) (cause : ResetCause) (cradles : CradleCount) (travel : Travel) (halt : Bool)

/-- The state after a reset (`State.resetWith_eq`): READY is being sent, and under HALT the part is FAULTED with its MODE and
FAULT notices waiting. -/
def State.afterReset : State :=
  { State.resetValues cause cradles travel halt s.place.gripped
      { s.clock with stoppedAt := if halt then some s.clock.now else none } s.pending with
    cradles := { CradleUnit.reset with hold := halt }
    mode := { ModeControl.reset cause cradles travel halt with
      mode := if halt then .faulted else .setup
      fault := if halt then some { primary := .halt, further := 0, modeAtFault := .setup } else none }
    link := { LinkInterface.reset with
      notices := if halt then [.mode .faulted .setup .fault, .fault .halt .halt 0] else []
      sending := some (.notice (.ready cause cradles travel .setup)) } }

theorem State.resetWith_eq : (s.resetWith cause cradles travel halt).beginFrame =
    s.afterReset cause cradles travel halt := by
  cases halt with
  | false =>
    simp [State.resetWith, State.afterReset, State.resetValues, LinkInterface.reset, State.raise, Notice.member,
      State.beginFrame]
    exact ⟨rfl, rfl⟩
  | true =>
    simp [State.resetWith, State.afterReset, State.resetValues, LinkInterface.reset, State.raise, Notice.member,
      State.beginFrame, State.reportCause, State.faulted, ModeControl.reset, State.changeMode, Notice.isFault,
      State.evalHold, State.stopGlue, AdhesiveUnit.reset, State.freezePlacement]
    rfl

theorem State.resetWith_holdsResetValues :
    (s.resetWith cause cradles travel halt).beginFrame.holdsResetValues cause cradles travel halt := by
  rw [State.resetWith_eq]
  exact ⟨rfl, rfl, rfl, rfl, rfl, rfl, rfl, rfl, rfl, rfl, rfl, rfl, rfl, rfl, rfl, rfl, rfl, rfl, rfl, rfl, rfl, rfl,
    rfl, rfl, rfl, rfl, rfl, rfl, rfl⟩

theorem State.resetWith_announcesReset :
    (s.resetWith cause cradles travel halt).beginFrame.announcesReset cause cradles travel halt := by
  rw [State.resetWith_eq]
  rfl

/-- The queue of waiting events and the clock are no block's (assumption 31). -/
theorem State.resetWith_outside : (s.resetWith cause cradles travel halt).beginFrame.pending = s.pending ∧
    (s.resetWith cause cradles travel halt).beginFrame.clock.now = s.clock.now := by
  rw [State.resetWith_eq]
  exact ⟨rfl, rfl⟩

end Resets

/-- The end of the RESET reply, the last in the reply list, is the reset (R176). -/
theorem exec_frameTransmissionEnd_of_reset {s : State} {r : Reply} (hpending : s.link.resetPending = true)
    (hsending : s.link.sending = some (.reply r)) (hlast : s.link.replies = []) :
    exec .frameTransmissionEnd s =
      .next (s.resetWith .command s.mode.cradleCount s.mode.travel s.mode.halt).beginFrame := by
  have hfalls : s.resetFalls = true := by simp [State.resetFalls, hpending, LinkInterface.sendingReply, hsending, hlast]
  have hend : s.transmissionEnd =
      (s.resetWith .command s.mode.cradleCount s.mode.travel s.mode.halt).beginFrame := by
    simp [State.transmissionEnd, hsending, hfalls]
  exact congrArg Host.Outcome.next hend

/-- Settles O3: both rows end in `State.resetWith`, whose values are the reset tables'. -/
theorem bothResetsSetTheSameValues : Obligations.BothResetsSetTheSameValues := by
  unfold Obligations.BothResetsSetTheSameValues
  refine ⟨fun s k t h => ?powerOn, fun s r hpending hsending hlast => ?command, rfl, rfl⟩
  case powerOn =>
    exact ⟨_, rfl, s.resetWith_holdsResetValues _ k t h, s.resetWith_announcesReset _ k t h, s.resetWith_outside _ k t h⟩
  case command =>
    exact ⟨_, exec_frameTransmissionEnd_of_reset hpending hsending hlast, s.resetWith_holdsResetValues _ _ _ _,
      s.resetWith_announcesReset _ _ _ _, s.resetWith_outside _ _ _ _⟩

/-! ## IDENTIFY and RESET (R166, R176) -/

theorem CradleCount.number_eq (k : CradleCount) : k.number = if k = .one then 1 else 2 := by cases k <;> rfl
theorem Travel.code_eq (t : Travel) : t.code = if t = .short then 0 else 1 := by cases t <;> rfl
theorem ResetCause.code_eq (c : ResetCause) : c.code = if c = .powerOn then 0 else 1 := by cases c <;> rfl

/-- Settles O4: the answer of Mode Control, its codes as the statement spells them. -/
theorem identifyCarriesPartRevisionStrapsAndCause : Obligations.IdentifyCarriesPartRevisionStrapsAndCause := by
  unfold Obligations.IdentifyCarriesPartRevisionStrapsAndCause
  intro s tag hidle
  have hrow : exec (.identify tag) s = .next (s.replied 0x01 tag .ok
      [⟨2, 0x4C02⟩, ⟨1, 4⟩, ⟨1, s.mode.cradleCount.number⟩, ⟨1, s.mode.travel.code⟩, ⟨1, s.mode.resetCause.code⟩]) :=
    exec_identify_of_take hidle rfl
  rw [hrow, CradleCount.number_eq, Travel.code_eq, ResetCause.code_eq]
  push_cast
  rfl

/-- While a RESET is pending no command is taken. -/
theorem State.settle_of_resetPending {s : State} (n : Nat) (hpending : s.link.resetPending = true) :
    s.settle n = s.beginFrame := by
  cases n with
  | zero => rfl
  | succ n =>
    have hnot : s.beginFrame.mayTake = false := by
      simp [State.mayTake, State.beginFrame_resetPending, hpending]
    simp only [State.settle, hnot, Bool.false_eq_true, if_false]
    split <;> rfl

/-- Settles O5: the answer of RESET, and the admission of a frame under a pending RESET. -/
theorem resetIsAnsweredAndPending : Obligations.ResetIsAnsweredAndPending := by
  unfold Obligations.ResetIsAnsweredAndPending
  refine ⟨fun s tag hidle => exec_reset_of_take hidle rfl,
    fun s k tag body hpending hsending => congrArg Host.Outcome.next ?_⟩
  have hadmit : s.admitFrame ⟨k, tag, body⟩ = s := by simp [State.admitFrame, hpending]
  rw [State.arriveFrame, hadmit, State.settleLink, State.settle_of_resetPending _ hpending,
    State.beginFrame_of_busy s hsending]

end Sys2Proof.Machine
end

