-- ==== Sys2Proof/Proofs/Reading.lean ====
section
/-! The read commands on an idle link: READ BANK (R21), READ SLOT (R22) and the four pages of READ STATUS (R179, R180), each
page shown item by item as the statement spells it. -/

namespace Sys2Proof.Machine

/-! ## How the replies show an item -/

theorem fieldFlag_eq_shownFlag (b : Bool) : fieldFlag b = shownFlag b := by cases b <;> rfl

theorem fieldFlag_decide (p : Prop) [Decidable p] : fieldFlag (decide p) = ⟨1, if p then 1 else 0⟩ := by
  by_cases h : p <;> simp [h, fieldFlag, fieldU8, boolCode]

theorem optionalU8_eq_shownByte (o : Option Nat) : optionalU8 o = shownByte o := by cases o <;> rfl

theorem State.timeLeftTo_eq_shownTime (s : State) (o : Option Time) : s.timeLeftTo o = s.shownTime o := by
  cases o <;> rfl

theorem sampleFields_eq_shownSample (o : Option Sample) : sampleFields o = shownSample o := by cases o <;> rfl

theorem PlacementSettings.fields_eq_shownSettings (p : PlacementSettings) : p.fields = shownSettings p := rfl

/-- FAULT is shown enabled (R178). -/
theorem LinkInterface.enablesShown_getLsbD (l : LinkInterface) (n : Nat) :
    l.enablesShown.getLsbD n = (l.enables.getLsbD n || decide (n = 13)) := by
  simp [LinkInterface.enablesShown, setOf, BitVec.getLsbD_twoPow, eq_comm]

/-! ## READ BANK (R21) -/

/-- Settles O7: the fields of `State.readBankFields`, the setup present or absent. -/
theorem readBankCarriesTheBankRecord : Obligations.ReadBankCarriesTheBankRecord := by
  unfold Obligations.ReadBankCarriesTheBankRecord
  intro s tag bank hidle
  refine ⟨fun hout => ?noBank, fun b hcode => ⟨(s.bank b).setupFields, ?fields, fun su hsetup => ?present,
    fun hsetup => ?absent⟩⟩
  case noBank =>
    have htake : s.takeReadBank bank = (s, .refuse .range []) := by
      simp only [State.takeReadBank, BankId.ofByte_eq_none hout]
    exact exec_readBank_of_take hidle htake
  case fields =>
    have htake : s.takeReadBank bank = (s, .ok (s.readBankFields b)) := by
      simp only [State.takeReadBank, BankId.ofByte_code bank b hcode]
    rw [State.readBankFields, fieldFlag_decide] at htake
    exact exec_readBank_of_take hidle htake
  case present =>
    simp only [Bank.setupFields, hsetup]
    rfl
  case absent =>
    simp only [Bank.setupFields, hsetup]
    rfl

/-! ## READ SLOT (R22) -/

section ReadSlot

variable {s : State} {bank index : Byte} {b : BankId}

theorem State.takeReadSlot_of_no_slot (hcode : bank.toNat = b.code) (hout : (s.bank b).slots.length ≤ index.toNat) :
    s.takeReadSlot bank index = (s, .refuse .range []) := by
  have hnone : s.slot? b index.toNat = none := List.getElem?_eq_none hout
  simp only [State.takeReadSlot, BankId.ofByte_code bank b hcode, hnone]

theorem State.takeReadSlot_of_slot {sl : Slot} (hcode : bank.toNat = b.code)
    (hslot : s.slot? b index.toNat = some sl) :
    s.takeReadSlot bank index = (s, .ok (s.readSlotFields b index.toNat sl)) := by
  simp only [State.takeReadSlot, BankId.ofByte_code bank b hcode, hslot]

end ReadSlot

theorem Bank.walkPositionFields_of_loading {b : Bank} (i : Nat) (h : b.state = .loading) :
    b.walkPositionFields i = [⟨1, 0⟩, ⟨1, 0⟩] := by
  simp only [Bank.walkPositionFields, h]
  rfl

theorem Bank.walkPositionFields_of_position {b : Bank} {i p : Nat} (h : b.state ≠ .loading)
    (hp : b.walkPosition i = some p) : b.walkPositionFields i = [⟨1, 1⟩, ⟨1, p⟩] := by
  cases hst : b.state with
  | loading => exact absurd hst h
  | _ => simp only [Bank.walkPositionFields, hst, hp]; rfl

/-- Settles O8: the fields of `State.readSlotFields`, the walk position absent in LOADING. -/
theorem readSlotCarriesTheSlotRecord : Obligations.ReadSlotCarriesTheSlotRecord := by
  unfold Obligations.ReadSlotCarriesTheSlotRecord
  intro s tag bank index hidle
  refine ⟨fun hout => ?noBank, fun b hcode => ⟨fun hout => ?noSlot, fun sl hslot =>
    ⟨(s.bank b).walkPositionFields index.toNat, ?fields, Bank.walkPositionFields_of_loading _,
      fun hstate p hp => Bank.walkPositionFields_of_position hstate hp⟩⟩⟩
  case noBank =>
    have htake : s.takeReadSlot bank index = (s, .refuse .range []) := by
      simp only [State.takeReadSlot, BankId.ofByte_eq_none hout]
    exact exec_readSlot_of_take hidle htake
  case noSlot =>
    exact exec_readSlot_of_take hidle (State.takeReadSlot_of_no_slot hcode hout)
  case fields =>
    exact exec_readSlot_of_take hidle (State.takeReadSlot_of_slot hcode hslot)

/-! ## READ STATUS: page 0 (R180) -/

section Held

variable {s : State}

theorem State.heldFields_of_held {p i : Nat} (hheld : s.feedState = .held)
    (hp : (s.bank s.feed.pointer).firstPending s.feed.cursor = some p)
    (hi : (s.bank s.feed.pointer).walkOrder[p]? = some i) :
    s.heldFields = [⟨1, 1⟩, ⟨1, s.feed.pointer.code⟩, ⟨1, i⟩] := by
  have hslot : s.heldSlot = some (s.feed.pointer, i) := by simp [State.heldSlot, hheld, hp, hi]
  simp only [State.heldFields, hslot]
  rfl

theorem State.heldFields_of_not_held (hheld : s.feedState ≠ .held) : s.heldFields = [⟨1, 0⟩, ⟨1, 0⟩, ⟨1, 0⟩] := by
  have hslot : s.heldSlot = none := by simp [State.heldSlot, hheld]
  simp only [State.heldFields, hslot]
  rfl

end Held

/-- The fault record as page 0 shows it. -/
def shownFault : Option FaultRecord → List Field
  | some f => [⟨1, 1⟩, ⟨1, f.primary.code⟩, ⟨1, f.further.toNat⟩, ⟨1, 1⟩, ⟨1, f.modeAtFault.code⟩]
  | none => [⟨1, 0⟩, ⟨1, 0⟩, ⟨1, 0⟩, ⟨1, 0⟩, ⟨1, 0⟩]

theorem faultFields_eq_shownFault (o : Option FaultRecord) : faultFields o = shownFault o := by cases o <;> rfl

theorem State.permittedCells_eq (s : State) : s.zone.permittedCells =
    (s.zone.cells.toList.map fun row => (List.range 64).countP fun c => row.getMsbD c).sum := rfl

/-- Page 0, item by item. -/
theorem State.partPage_eq (s : State) : s.partPage =
    [⟨1, s.mode.mode.code⟩] ++ shownFault s.mode.fault ++
      [shownFlag s.mode.halt, ⟨1, s.mode.watchEnables.toNat⟩, ⟨1, s.mode.watchStatus.toNat⟩] ++
      shownByte (s.mode.watchStopped.map fun tag => tag.toNat) ++
      [⟨1, if s.mode.cradleCount = .one then 1 else 2⟩, ⟨1, if s.mode.travel = .short then 0 else 1⟩,
        ⟨1, if s.mode.resetCause = .powerOn then 0 else 1⟩, ⟨2, s.link.enablesShown.toNat⟩, ⟨1, s.link.notices.length⟩,
        shownFlag s.zone.box.isSome, ⟨2, s.zone.permittedCells⟩, ⟨1, s.feedState.code⟩, ⟨1, s.feed.pointer.code⟩,
        ⟨1, s.feed.cursor⟩] ++ s.heldFields ++
      [⟨1, s.feed.nextTag.toNat⟩, shownFlag s.feed.bankNeeded, ⟨1, s.feed.depth⟩, ⟨1, s.feed.tolerance⟩,
        ⟨1, s.train.timeout⟩, ⟨1, s.feed.mark.threshold.getD 0xFF⟩, ⟨1, s.feed.mark.scope.code⟩,
        ⟨1, s.feed.mark.sense.code⟩, shownFlag s.feed.condition] ++ shownByte s.feed.lastCount := by
  have hcradles : fieldU8 s.mode.cradleCount.number = ⟨1, if s.mode.cradleCount = .one then 1 else 2⟩ := by
    cases s.mode.cradleCount <;> rfl
  have htravel : fieldU8 s.mode.travel.code = ⟨1, if s.mode.travel = .short then 0 else 1⟩ := by
    cases s.mode.travel <;> rfl
  have hcause : fieldU8 s.mode.resetCause.code = ⟨1, if s.mode.resetCause = .powerOn then 0 else 1⟩ := by
    cases s.mode.resetCause <;> rfl
  rw [State.partPage, hcradles, htravel, hcause]
  simp only [fieldFlag_eq_shownFlag, optionalU8_eq_shownByte, faultFields_eq_shownFault]
  rfl

/-! ## READ STATUS: page 1 (R180) -/

/-- The earliest transit deadline is that of an entry which has it, and there is none only where no entry has one. -/
theorem TrainList.earliestDeadline_spec (t : TrainList) : ∃ earliest : Option TrainEntry,
    earliest.bind TrainEntry.deadline = t.earliestDeadline ∧ (earliest = none → ∀ e ∈ t.entries, e.deadline = none) ∧
    ∀ x, earliest = some x → x ∈ t.entries ∧ x.deadline.isSome = true ∧
      ∀ e ∈ t.entries, ∀ d, e.deadline = some d → x.deadline.getD 0 ≤ d := by
  cases hmin : t.earliestDeadline with
  | none =>
    refine ⟨none, rfl, fun _ e he => ?_, fun x hx => nomatch hx⟩
    have hnil : t.entries.filterMap TrainEntry.deadline = [] := List.min?_eq_none_iff.mp hmin
    exact List.filterMap_eq_nil_iff.mp hnil e he
  | some d =>
    obtain ⟨hmem, hle⟩ := List.min?_eq_some_iff.mp hmin
    obtain ⟨x, hx, hdx⟩ := List.mem_filterMap.mp hmem
    refine ⟨some x, hdx, (nomatch ·), ?_⟩
    rintro _ ⟨⟩
    refine ⟨hx, by simp [hdx], fun e he d' hd' => ?_⟩
    rw [hdx]
    exact hle d' (List.mem_filterMap.mpr ⟨e, he, hd'⟩)

/-- A cradle as page 1 shows it. -/
def State.shownCradle (s : State) (c : CradleId) : List Field :=
  [⟨1, (s.cradle c).code⟩] ++
    (match (s.cradle c).brick? with
      | some b => [⟨1, 1⟩, ⟨1, b.brick.tag.toNat⟩, ⟨1, b.brick.bank.code⟩, ⟨1, b.brick.slot⟩,
          shownFlag b.brick.mark.isSome]
      | none => [⟨1, 0⟩, ⟨1, 0⟩, ⟨1, 0⟩, ⟨1, 0⟩, ⟨1, 0⟩]) ++ [s.shownTime (s.cradle c).deadline?]

theorem Brick.not_live_eq (b : Brick) : (!b.live) = b.mark.isSome := by simp [Brick.live]

theorem State.cradleFields_eq_shownCradle (s : State) (c : CradleId) : s.cradleFields c = s.shownCradle c := by
  simp only [State.cradleFields, State.shownCradle, State.timeLeftTo_eq_shownTime, fieldFlag_eq_shownFlag,
    Brick.not_live_eq]
  cases (s.cradle c).brick? <;> rfl

/-- The glue operation as page 1 shows it. -/
def shownOperation : Option GlueOperation → List Field
  | some op => [⟨1, 1⟩, ⟨2, op.strokes⟩, ⟨2, op.done⟩]
  | none => [⟨1, 0⟩, ⟨2, 0⟩, ⟨2, 0⟩]

theorem AdhesiveUnit.operationFields_eq (a : AdhesiveUnit) : a.operationFields = shownOperation a.operation := by
  unfold AdhesiveUnit.operationFields
  cases a.operation <;> rfl

theorem AdhesiveUnit.ownerCode_eq (a : AdhesiveUnit) : a.ownerCode = (a.owner.map CradleId.code).getD 2 := by
  unfold AdhesiveUnit.ownerCode
  cases a.owner <;> rfl

theorem TrainList.inTransit_length (t : TrainList) :
    t.inTransit.length = t.entries.countP fun e => decide (e.state = .inTransit) :=
  List.countP_eq_length_filter.symm

theorem TrainList.inTransit_marked (t : TrainList) : (t.inTransit.countP fun e => !e.brick.live) =
    t.entries.countP fun e => decide (e.state = .inTransit) && e.brick.mark.isSome := by
  simp only [TrainList.inTransit, List.countP_filter, Brick.not_live_eq, Bool.and_comm]

/-- Page 1, item by item. -/
theorem State.brickPathPage_eq (s : State) : s.brickPathPage =
    [⟨1, s.train.entries.length⟩, ⟨1, s.train.entries.countP fun e => decide (e.state = .inTransit)⟩,
        ⟨1, s.train.entries.countP fun e => decide (e.state = .inTransit) && e.brick.mark.isSome⟩] ++
      shownByte (s.train.oldestRequested.map fun e => e.brick.tag.toNat) ++ [s.shownTime s.train.earliestDeadline] ++
      s.cradlesInUse.flatMap s.shownCradle ++
      [shownFlag s.cradles.hold, ⟨1, (s.adhesive.owner.map CradleId.code).getD 2⟩] ++
      shownOperation s.adhesive.operation ++
      [shownFlag (s.adhesive.operation.isSome && decide (s.mode.mode = .faulted)), ⟨2, s.adhesive.divisor⟩,
        ⟨1, s.adhesive.pitch⟩, ⟨2, s.adhesive.openTime⟩, s.shownTime (s.place.gripper.bind GripperBrick.deadline)] := by
  have hcradles : s.cradleFields = s.shownCradle := funext s.cradleFields_eq_shownCradle
  simp only [State.brickPathPage, fieldFlag_eq_shownFlag, optionalU8_eq_shownByte, State.timeLeftTo_eq_shownTime,
    hcradles, AdhesiveUnit.operationFields_eq, AdhesiveUnit.ownerCode_eq, TrainList.inTransit_length,
    TrainList.inTransit_marked]
  rfl

/-! ## READ STATUS: pages 2 and 3 (R180) -/

theorem State.posePage_eq (s : State) : s.posePage =
    [⟨1, s.pose.state.code⟩] ++ shownSample s.pose.last ++ shownSample s.pose.previous ++
      [⟨2, s.pose.velocity.x⟩, ⟨2, s.pose.velocity.y⟩, ⟨2, s.pose.velocity.z⟩, ⟨1, s.pose.synthesized⟩,
        ⟨1, s.pose.realRun⟩] := by
  simp only [State.posePage, sampleFields_eq_shownSample, List.append_assoc]
  rfl

/-- The gripper brick as page 3 shows it. -/
def shownGripper : Option GripperBrick → List Field
  | some g => [⟨1, 1⟩, ⟨1, g.brick.tag.toNat⟩, ⟨1, g.brick.bank.code⟩, ⟨1, g.brick.slot⟩] ++
      shownByte (g.brick.mark.map RejectReason.code)
  | none => [⟨1, 0⟩, ⟨1, 0⟩, ⟨1, 0⟩, ⟨1, 0⟩, ⟨1, 0⟩, ⟨1, 0⟩]

theorem gripperFields_eq_shownGripper (o : Option GripperBrick) : gripperFields o = shownGripper o := by
  cases o with
  | none => rfl
  | some g =>
    simp only [gripperFields, shownGripper, optionalU8_eq_shownByte]
    rfl

/-- A release sequence as page 3 shows it. -/
def shownSequence : Option Seq → List Field
  | some q => [⟨1, 1⟩, ⟨2, q.toNat⟩]
  | none => [⟨1, 0⟩, ⟨2, 0⟩]

/-- The latched parameters as page 3 shows them. -/
def shownLatched : Option PlacementSettings → List Field
  | some l => ⟨1, 1⟩ :: shownSettings l
  | none => ⟨1, 0⟩ :: shownSettings ⟨0, 0, 0, 0, 0, 0, 0⟩

theorem latchedFields_eq_shownLatched (o : Option PlacementSettings) : latchedFields o = shownLatched o := by
  cases o <;> rfl

theorem PlacementSequencer.holdSet_eq (p : PlacementSequencer) : fieldU8 p.holdSet =
    ⟨1, (if p.holdPaused then 1 else 0) + (if p.holdPose then 2 else 0)⟩ := by
  unfold PlacementSequencer.holdSet
  cases p.holdPaused <;> cases p.holdPose <;> rfl

theorem State.frozenPickFields_eq (s : State) : s.frozenPickFields =
    if s.mode.mode = .faulted then shownByte (s.place.pickCradle.map CradleId.code) else [] := by
  simp only [State.frozenPickFields, State.faulted, decide_eq_true_eq, optionalU8_eq_shownByte]

/-- Page 3, item by item. -/
theorem State.placementPage_eq (s : State) : s.placementPage =
    [⟨1, s.place.state.code⟩] ++ shownGripper s.place.gripper ++
      [⟨1, (if s.place.holdPaused then 1 else 0) + (if s.place.holdPose then 2 else 0)⟩, shownFlag s.place.hasSettled,
        s.shownTime s.place.timer, ⟨1, s.comp.counter⟩] ++ shownByte (s.comp.latched.map PlacementSettings.count) ++
      [⟨2, s.comp.setpoints.x⟩, ⟨2, s.comp.setpoints.y⟩, ⟨2, s.comp.setpoints.z⟩, ⟨2, s.comp.setpoints.wrist⟩,
        ⟨2, s.comp.lastStep.x⟩, ⟨2, s.comp.lastStep.y⟩, ⟨2, s.comp.lastStep.z⟩, shownFlag s.comp.saturation.x,
        shownFlag s.comp.saturation.y, shownFlag s.comp.saturation.z, shownFlag s.comp.saturation.wrist] ++
      shownSequence s.comp.releaseSeq ++ [⟨1, s.place.quarterTurn.code⟩] ++ shownLatched s.comp.latched ++
      shownSettings s.comp.settings ++
      (if s.mode.mode = .faulted then shownByte (s.place.pickCradle.map CradleId.code) else []) := by
  rw [State.placementPage, PlacementSequencer.holdSet_eq, State.frozenPickFields_eq]
  simp only [fieldFlag_eq_shownFlag, optionalU8_eq_shownByte, State.timeLeftTo_eq_shownTime, gripperFields_eq_shownGripper,
    latchedFields_eq_shownLatched, PlacementSettings.fields_eq_shownSettings, fieldsSetpoints, fieldsStep,
    List.append_assoc]
  cases s.comp.releaseSeq <;> rfl

/-! ## READ STATUS: the command -/

theorem exec_readStatus_of_page {s : State} {tag page : Byte} {fields : List Field} (hidle : s.linkIdle)
    (hpage : s.statusPage page = some fields) :
    exec (.readStatus tag page) s = .next (({ s with link := { s.link with dropped := false } } : State).replied 0x03 tag .ok
      (shownFlag s.link.dropped :: fields)) := by
  have htake : s.takeReadStatus page =
      ({ s with link := { s.link with dropped := false } }, .ok (shownFlag s.link.dropped :: fields)) := by
    simp only [State.takeReadStatus, hpage, fieldFlag_eq_shownFlag]
  exact exec_readStatus_of_take hidle htake

theorem exec_readStatus_of_no_page {s : State} {tag page : Byte} (hidle : s.linkIdle)
    (hpage : s.statusPage page = none) : exec (.readStatus tag page) s = .next (s.replied 0x03 tag .range []) := by
  have htake : s.takeReadStatus page = (s, .refuse .range []) := by simp only [State.takeReadStatus, hpage]
  exact exec_readStatus_of_take hidle htake

/-- A page number above 3 names no page (R179). -/
theorem State.statusPage_eq_none (s : State) {page : Byte} (h : 3 < page.toNat) : s.statusPage page = none := by
  unfold State.statusPage
  split
  case h_5 => rfl
  all_goals omega

/-- Settles O6: the page that the number names, item by item. -/
theorem readStatusCopiesThePageAndClearsTheFlag : Obligations.ReadStatusCopiesThePageAndClearsTheFlag := by
  unfold Obligations.ReadStatusCopiesThePageAndClearsTheFlag
  intro s tag page hidle
  refine ⟨fun hout => exec_readStatus_of_no_page hidle (s.statusPage_eq_none hout), fun hin => ?_⟩
  have hnumber : page.toNat = 0 ∨ page.toNat = 1 ∨ page.toNat = 2 ∨ page.toNat = 3 := by omega
  obtain h | h | h | h := hnumber
  case inl =>
    refine ⟨s.partPage, exec_readStatus_of_page hidle (by simp only [State.statusPage, h]), ?_⟩
    refine ⟨fun _ => ⟨s.link.enablesShown, s.heldFields, fun n _ => s.link.enablesShown_getLsbD n,
      fun p i hheld => State.heldFields_of_held hheld, State.heldFields_of_not_held, ?_⟩, by omega, by omega, by omega⟩
    rw [s.partPage_eq]
    cases s.mode.fault <;> rfl
  case inr.inl =>
    refine ⟨s.brickPathPage, exec_readStatus_of_page hidle (by simp only [State.statusPage, h]), ?_⟩
    obtain ⟨earliest, hearliest, hnone, hsome⟩ := s.train.earliestDeadline_spec
    refine ⟨by omega, fun _ => ⟨_, earliest, rfl, hnone, hsome, ?_⟩, by omega, by omega⟩
    rw [s.brickPathPage_eq, hearliest]
    cases s.adhesive.operation <;> rfl
  case inr.inr.inl =>
    refine ⟨s.posePage, exec_readStatus_of_page hidle (by simp only [State.statusPage, h]), ?_⟩
    exact ⟨by omega, by omega, fun _ => s.posePage_eq, by omega⟩
  case inr.inr.inr =>
    refine ⟨s.placementPage, exec_readStatus_of_page hidle (by simp only [State.statusPage, h]), ?_⟩
    refine ⟨by omega, by omega, by omega, fun _ => ?_⟩
    rw [s.placementPage_eq]
    cases s.place.gripper <;> cases s.comp.releaseSeq <;> cases s.comp.latched <;> rfl

end Sys2Proof.Machine
end

