-- ==== Sys2Proof/Proofs/Settings.lean ====
section
/-! The settings of the blocks and the sets of Mode Control and the links: what each command takes and answers (R68, R71, R102,
R146, R157, R160, R178), what raising a notice does (R177), and the commands refused in FAULTED (section 9.2). -/

namespace Sys2Proof.Machine

theorem State.faulted_eq_false {s : State} (h : s.mode.mode ≠ .faulted) : s.faulted = false := decide_eq_false h

theorem State.faulted_eq_true {s : State} (h : s.mode.mode = .faulted) : s.faulted = true := decide_eq_true h

/-! ## SET FEED, SET ADHESIVE, SET PLACEMENT (R71, R102, R146) -/

section Clamped

variable {s : State} (hmode : s.mode.mode ≠ .faulted)
include hmode

/-- ADJUSTED carries the values taken, OK none (assumption 15). -/
theorem State.takeSetFeed_of_not_faulted (a b c : Byte) : s.takeSetFeed a b c =
    ({ s with feed := { s.feed with depth := clampNat 1 12 a.toNat, tolerance := clampNat 0 100 b.toNat }
              train := { s.train with timeout := clampNat 5 120 c.toNat } },
      ⟨if clampNat 1 12 a.toNat = a.toNat ∧ clampNat 0 100 b.toNat = b.toNat ∧ clampNat 5 120 c.toNat = c.toNat then .ok
          else .adjusted,
        if clampNat 1 12 a.toNat = a.toNat ∧ clampNat 0 100 b.toNat = b.toNat ∧ clampNat 5 120 c.toNat = c.toNat then []
          else [fieldU8 (clampNat 1 12 a.toNat), fieldU8 (clampNat 0 100 b.toNat), fieldU8 (clampNat 5 120 c.toNat)]⟩) := by
  simp only [State.takeSetFeed, State.faulted_eq_false hmode, Bool.false_eq_true, if_false]
  split <;> rfl

theorem State.takeSetAdhesive_of_not_faulted (a c : BitVec 16) (b : Byte) : s.takeSetAdhesive a b c =
    ({ s with adhesive := { s.adhesive with
        divisor := clampNat 0 4000 a.toNat, pitch := clampNat 10 200 b.toNat, openTime := clampNat 10 900 c.toNat } },
      ⟨if clampNat 0 4000 a.toNat = a.toNat ∧ clampNat 10 200 b.toNat = b.toNat ∧ clampNat 10 900 c.toNat = c.toNat
          then .ok else .adjusted,
        [fieldU16 (clampNat 0 4000 a.toNat), fieldU8 (clampNat 10 200 b.toNat), fieldU16 (clampNat 10 900 c.toNat)]⟩) := by
  simp only [State.takeSetAdhesive, State.faulted_eq_false hmode, Bool.false_eq_true, if_false]
  split <;> rfl

theorem State.takeSetPlacement_of_not_faulted (p : PlacementSettings) : s.takeSetPlacement p =
    ({ s with comp := { s.comp with settings := p.clamped } },
      ⟨if p.clamped = p then .ok else .adjusted, p.clamped.fields⟩) := by
  simp only [State.takeSetPlacement, State.faulted_eq_false hmode, Bool.false_eq_true, if_false]

end Clamped

/-- Settles O23: each command's answer outside FAULTED; `clampNat` is the nearest bound. -/
theorem settingsAreClampedAndTaken : Obligations.SettingsAreClampedAndTaken := by
  unfold Obligations.SettingsAreClampedAndTaken
  intro s tag hidle hmode
  refine ⟨fun a b c => ⟨_, _, _, rfl, rfl, rfl, ?feed⟩, fun a c b => ⟨_, _, _, rfl, rfl, rfl, ?adhesive⟩,
    fun l w w' k q a u => ⟨_, rfl, ?placement⟩⟩
  case feed => exact exec_setFeed_of_take hidle (State.takeSetFeed_of_not_faulted hmode a b c)
  case adhesive => exact exec_setAdhesive_of_take hidle (State.takeSetAdhesive_of_not_faulted hmode a c b)
  case placement => exact exec_setPlacement_of_take hidle (State.takeSetPlacement_of_not_faulted hmode _)

/-! ## SET SUPPLY MARK (R68 to R70) -/

theorem SupplyScope.ofByte_code {b : Byte} {sc : SupplyScope} (h : b.toNat = sc.code) : SupplyScope.ofByte b = some sc := by
  cases sc <;> simp only [SupplyScope.ofByte, h, SupplyScope.code]

theorem SupplySense.ofByte_code {b : Byte} {se : SupplySense} (h : b.toNat = se.code) : SupplySense.ofByte b = some se := by
  cases se <;> simp only [SupplySense.ofByte, h, SupplySense.code]

theorem SupplyScope.ofByte_eq_none {b : Byte} (h : 1 < b.toNat) : SupplyScope.ofByte b = none := by
  unfold SupplyScope.ofByte
  split
  case h_3 => rfl
  all_goals omega

theorem SupplySense.ofByte_eq_none {b : Byte} (h : 1 < b.toNat) : SupplySense.ofByte b = none := by
  unfold SupplySense.ofByte
  split
  case h_3 => rfl
  all_goals omega

theorem clampNat_zero (hi n : Nat) : clampNat 0 hi n = min hi n := by simp [clampNat]

/-- The supply condition for a count (R69). -/
theorem SupplyMark.holds_iff (m : SupplyMark) (count : Option Nat) : m.holds count = true ↔
    ∃ u n, m.threshold = some u ∧ count = some n ∧ (if m.sense = .atOrBelow then n ≤ u else u ≤ n) := by
  unfold SupplyMark.holds
  cases m.threshold with
  | none => simp
  | some u =>
    cases count with
    | none => simp
    | some n => cases m.sense <;> simp

/-- The count over the scope that a setting names (R69). -/
def State.countOver (s : State) (sc : SupplyScope) : Option Nat :=
  match sc with
  | .bank => s.plan.order.head?.map fun b => (s.bank b).count SlotStatus.isOpen
  | .course => s.layCourse.map fun bc => (s.bank bc.1).slots.countP fun sl => sl.course = bc.2 && sl.status.isOpen

/-- Writing the setting leaves the plan and the bricks, over which the supply is counted (R69). -/
theorem State.supplyCount_with_mark (s : State) (m : SupplyMark) :
    State.supplyCount { s with feed := { s.feed with mark := m } } = s.countOver m.scope := by
  unfold State.supplyCount State.countOver
  cases m.scope <;> rfl

section SupplyMark

variable {s : State} {threshold scope sense : Byte}

theorem State.takeSetSupplyMark_of_range (hmode : s.mode.mode ≠ .faulted) (hout : 1 < scope.toNat ∨ 1 < sense.toNat) :
    s.takeSetSupplyMark threshold scope sense = (s, .refuse .range []) := by
  simp only [State.takeSetSupplyMark, State.faulted_eq_false hmode, Bool.false_eq_true, if_false]
  obtain hscope | hsense := hout
  · simp only [SupplyScope.ofByte_eq_none hscope]
  · cases SupplyScope.ofByte scope <;> simp only [SupplySense.ofByte_eq_none hsense]

/-- The accepted command: the setting written and the condition re-evaluated, ADJUSTED with 96 where the threshold was
clamped. -/
theorem State.takeSetSupplyMark_of_accepted (hmode : s.mode.mode ≠ .faulted) {sc : SupplyScope} {se : SupplySense}
    (hscope : scope.toNat = sc.code) (hsense : sense.toNat = se.code) :
    s.takeSetSupplyMark threshold scope sense =
      (State.evalSupply { s with feed := { s.feed with
          mark := { threshold := thresholdOf threshold, scope := sc, sense := se } } },
        ⟨if threshold ≠ 0xFF#8 ∧ 96 < threshold.toNat then .adjusted else .ok,
          if threshold ≠ 0xFF#8 ∧ 96 < threshold.toNat then [fieldU8 96] else []⟩) := by
  simp only [State.takeSetSupplyMark, State.faulted_eq_false hmode, Bool.false_eq_true, if_false,
    SupplyScope.ofByte_code hscope, SupplySense.ofByte_code hsense]
  split <;> rfl

end SupplyMark

/-- Settles O24: the refusal, or the setting written with the condition of R69 evaluated on it. -/
theorem setSupplyMarkWritesAndReevaluates : Obligations.SetSupplyMarkWritesAndReevaluates := by
  unfold Obligations.SetSupplyMarkWritesAndReevaluates
  intro s tag threshold scope sense hidle hmode
  refine ⟨fun hout => exec_setSupplyMark_of_take hidle (State.takeSetSupplyMark_of_range hmode hout),
    fun sc se hscope hsense => ?_⟩
  have hrow := exec_setSupplyMark_of_take (tag := tag) hidle
    (State.takeSetSupplyMark_of_accepted (threshold := threshold) hmode hscope hsense)
  rw [thresholdOf, clampNat_zero, State.evalSupply] at hrow
  simp only [State.supplyCount_with_mark] at hrow
  exact ⟨_, s.countOver sc, _, _, rfl, rfl, SupplyMark.holds_iff _ _, rfl, hrow⟩

/-! ## SET WATCH and CLEAR WATCH (R157, R160) -/

theorem watchSetOfByte_eq_none {c : Byte} (h : 31 < c.toNat) : watchSetOfByte c = none := if_neg (by omega)

theorem watchSetOfByte_eq_some {c : Byte} (h : c.toNat ≤ 31) : watchSetOfByte c = some (c.setWidth 5) := if_pos (by omega)

section Watch

variable {s : State} {c : Byte}

theorem State.takeSetWatch_of_not_faulted (hmode : s.mode.mode ≠ .faulted) : s.takeSetWatch c =
    match watchSetOfByte c with
    | none => (s, .refuse .range [])
    | some w => ({ s with mode := { s.mode with watchEnables := w } }, .ok []) := by
  rw [State.takeSetWatch, State.faulted_eq_false hmode, if_neg Bool.false_ne_true] <;> rfl

end Watch

/-- Settles O25: by whether the byte names a code outside the five conditions. -/
theorem watchSetsAreReplacedAndCleared : Obligations.WatchSetsAreReplacedAndCleared := by
  unfold Obligations.WatchSetsAreReplacedAndCleared
  intro s tag c hidle
  refine ⟨fun hout => ⟨?clearRange, fun hmode => ?setRange⟩, fun hin => ⟨fun hmode => ⟨c.setWidth 5, ?number, ?set⟩,
    s.mode.watchStatus &&& ~~~(c.setWidth 5), fun n => ?member, ?clear⟩⟩
  case clearRange =>
    have htake : s.takeClearWatch c = (s, .refuse .range []) := by
      simp only [State.takeClearWatch, watchSetOfByte_eq_none hout]
    exact exec_clearWatch_of_take hidle htake
  case setRange =>
    have htake : s.takeSetWatch c = (s, .refuse .range []) := by
      simp only [State.takeSetWatch_of_not_faulted hmode, watchSetOfByte_eq_none hout]
    exact exec_setWatch_of_take hidle htake
  case number =>
    rw [BitVec.toNat_setWidth]
    exact Nat.mod_eq_of_lt (by omega)
  case set =>
    have htake : s.takeSetWatch c = ({ s with mode := { s.mode with watchEnables := c.setWidth 5 } }, .ok []) := by
      simp only [State.takeSetWatch_of_not_faulted hmode, watchSetOfByte_eq_some hin]
    exact exec_setWatch_of_take hidle htake
  case member =>
    by_cases hn : n < 5
    · simp [hn]
    · simp [BitVec.getLsbD_of_ge _ n (Nat.le_of_not_lt hn)]
  case clear =>
    have htake : s.takeClearWatch c =
        ({ s with mode := { s.mode with watchStatus := s.mode.watchStatus &&& ~~~(c.setWidth 5) } },
          .ok [fieldU8 (s.mode.watchStatus &&& ~~~(c.setWidth 5)).toNat]) := by
      simp only [State.takeClearWatch, watchSetOfByte_eq_some hin]
    exact exec_clearWatch_of_take hidle htake

/-! ## SET NOTICES and what raising a notice does (R177, R178) -/

theorem Notice.isFault_iff (n : Notice) : n.isFault = true ↔ n.member = 13 := by
  cases n <;> simp [Notice.isFault, Notice.member]

theorem State.raise_of_disabled {s : State} {n : Notice} (hkind : n.member ≠ 13)
    (hdisabled : s.link.enables.getLsbD n.member = false) : s.raise n = s := by
  have hfault : n.isFault = false := by
    rw [← Bool.not_eq_true, n.isFault_iff]
    exact hkind
  simp only [State.raise, hfault, hdisabled, Bool.or_self, Bool.false_eq_true, if_false]

theorem State.raise_of_enabled {s : State} {n : Notice} (h : n.member = 13 ∨ s.link.enables.getLsbD n.member = true) :
    s.raise n = if s.link.notices.length < 16 then
      { s with link := { s.link with notices := s.link.notices ++ [n] } }
    else { s with link := { s.link with dropped := true } } := by
  refine if_pos ?_
  rw [Bool.or_eq_true, n.isFault_iff]
  exact h

theorem noticeSetOfWord_eq_none {e : BitVec 16} (h : 16383 < e.toNat) : noticeSetOfWord e = none := if_neg (by omega)

theorem noticeSetOfWord_eq_some {e : BitVec 16} (h : e.toNat ≤ 16383) : noticeSetOfWord e = some (e.setWidth 14) :=
  if_pos (by omega)

/-- Settles O26: the answer of SET NOTICES, the three cases of `State.raise`, and the numbers of the fourteen kinds. -/
theorem setNoticesReplacesTheEnableSet : Obligations.SetNoticesReplacesTheEnableSet := by
  unfold Obligations.SetNoticesReplacesTheEnableSet
  refine ⟨fun s tag e hidle hmode => ⟨fun hout => ?range, fun hin => ?accepted⟩,
    fun s n => ⟨State.raise_of_disabled, fun henabled => ⟨fun hfull => ?dropped, fun hroom => ?appended⟩⟩, ?members⟩
  case range =>
    have htake : s.takeSetNotices e = (s, .refuse .range []) := by
      simp only [State.takeSetNotices, State.faulted_eq_false hmode, Bool.false_eq_true, if_false,
        noticeSetOfWord_eq_none hout]
    exact exec_setNotices_of_take hidle htake
  case accepted =>
    have htake : s.takeSetNotices e = ({ s with link := { s.link with enables := e.setWidth 14 } },
        .ok [fieldU16 ({ s.link with enables := e.setWidth 14 } : LinkInterface).enablesShown.toNat]) := by
      simp only [State.takeSetNotices, State.faulted_eq_false hmode, Bool.false_eq_true, if_false,
        noticeSetOfWord_eq_some hin]
    refine ⟨e.setWidth 14, _, ?_, fun n _ => LinkInterface.enablesShown_getLsbD _ n, exec_setNotices_of_take hidle htake⟩
    rw [BitVec.toNat_setWidth]
    exact Nat.mod_eq_of_lt (by omega)
  case dropped => rw [State.raise_of_enabled henabled, if_neg hfull.not_gt]
  case appended => rw [State.raise_of_enabled henabled, if_pos hroom]
  case members => intros; exact ⟨rfl, rfl, rfl, rfl, rfl, rfl, rfl, rfl, rfl, rfl, rfl, rfl, rfl, rfl⟩

/-! ## Commands refused in FAULTED, and for a bank that does not exist -/

section NoBank

variable {s : State} {bank : Byte} (hmode : s.mode.mode ≠ .faulted) (hbank : 1 < bank.toNat)
include hmode hbank

theorem State.takeLoadSlots_of_no_bank (first : Byte) (rs : List SlotRecord) :
    s.takeLoadSlots bank first rs = (s, .refuse .range []) := by
  simp only [State.takeLoadSlots, State.faulted_eq_false hmode, Bool.false_eq_true, if_false, BankId.ofByte_eq_none hbank]

theorem State.takeCloseBank_of_no_bank : s.takeCloseBank bank = (s, .refuse .range []) := by
  simp only [State.takeCloseBank, State.faulted_eq_false hmode, Bool.false_eq_true, if_false, BankId.ofByte_eq_none hbank]

theorem State.takeDiscardBank_of_no_bank : s.takeDiscardBank bank = (s, .refuse .range []) := by
  simp only [State.takeDiscardBank, State.faulted_eq_false hmode, Bool.false_eq_true, if_false, BankId.ofByte_eq_none hbank]

theorem State.takeSkipSlot_of_no_bank (index : Byte) : s.takeSkipSlot bank index = (s, .refuse .range []) := by
  simp only [State.takeSkipSlot, State.faulted_eq_false hmode, Bool.false_eq_true, if_false, BankId.ofByte_eq_none hbank]

end NoBank

/-- A refused mode command in FAULTED carries that mode. -/
theorem State.refuseMode_of_faulted {s : State} (hmode : s.mode.mode = .faulted) : s.refuseMode = .refuse .state [⟨1, 4⟩] := by
  rw [State.refuseMode, hmode]
  rfl

/-- Settles O27: the first check of each owner. -/
theorem commandsAreRefusedInFaultedAndForNoBank : Obligations.CommandsAreRefusedInFaultedAndForNoBank := by
  unfold Obligations.CommandsAreRefusedInFaultedAndForNoBank
  refine ⟨fun s tag bank first count index rs hidle hmode hbank => ⟨fun hcount => ?_, ?_, ?_, ?_⟩,
    fun s tag a b c d e f w v rs hidle hmode => ?faulted⟩
  · exact exec_loadSlots_of_take hidle hcount (State.takeLoadSlots_of_no_bank hmode hbank first rs)
  · exact exec_closeBank_of_take hidle (State.takeCloseBank_of_no_bank hmode hbank)
  · exact exec_discardBank_of_take hidle (State.takeDiscardBank_of_no_bank hmode hbank)
  · exact exec_skipSlot_of_take hidle (State.takeSkipSlot_of_no_bank hmode hbank index)
  case faulted =>
    have hf : s.faulted = true := State.faulted_eq_true hmode
    have hstart : s.takeStart = (s, .refuse .state [⟨1, 4⟩]) := by
      simp [State.takeStart, hmode, s.refuseMode_of_faulted hmode]
    have hpause : s.takePause = (s, .refuse .state [⟨1, 4⟩]) := by
      simp [State.takePause, hmode, s.refuseMode_of_faulted hmode]
    have hresume : s.takeResume = (s, .refuse .state [⟨1, 4⟩]) := by
      simp [State.takeResume, hmode, s.refuseMode_of_faulted hmode]
    have hstow : s.takeStow = (s, .refuse .state [⟨1, 4⟩]) := by
      simp [State.takeStow, hmode, s.refuseMode_of_faulted hmode]
    have henterSetup : s.takeEnterSetup = (s, .refuse .state [⟨1, 4⟩]) := by
      simp [State.takeEnterSetup, hmode, s.refuseMode_of_faulted hmode]
    have hpurge : s.takePurge = (s, .refuse .state [⟨1, 4⟩]) := by
      simp [State.takePurge, hmode, PartMode.code, fieldU8]
    have hendCourse : s.takeEndCourse = (s, .refuse .state []) := if_pos (.inr hmode)
    have habandon : s.takeAbandon = (s, .refuse .state []) := if_pos (by simp [hmode])
    exact ⟨exec_openBank_of_take hidle (if_pos hf), fun hcount => exec_loadSlots_of_take hidle hcount (if_pos hf),
      exec_closeBank_of_take hidle (if_pos hf), exec_discardBank_of_take hidle (if_pos hf),
      exec_skipSlot_of_take hidle (if_pos hf), exec_setPlacement_of_take hidle (if_pos hf),
      exec_setFeed_of_take hidle (if_pos hf), exec_setAdhesive_of_take hidle (if_pos hf),
      exec_setSupplyMark_of_take hidle (if_pos hf), exec_setWatch_of_take hidle (if_pos hf),
      exec_setNotices_of_take hidle (if_pos hf), exec_brickLoaded_of_take hidle (if_pos hf),
      exec_endCourse_of_take hidle hendCourse, exec_purge_of_take hidle hpurge, exec_abandon_of_take hidle habandon,
      exec_start_of_take hidle hstart, exec_pause_of_take hidle hpause, exec_resume_of_take hidle hresume,
      exec_stow_of_take hidle hstow, exec_enterSetup_of_take hidle henterSetup⟩

end Sys2Proof.Machine
end

