-- ==== Sys2Proof/Proofs/BuildingBanks.lean ====
section
/-! OPEN BANK, LOAD SLOTS, CLOSE BANK and DISCARD BANK: the checks in their order and what an accepted command makes of the
bank (R6 to R12). -/

namespace Sys2Proof.Machine

/-! ## OPEN BANK (R6) -/

theorem WalkMode.ofByte_code {b : Byte} {m : WalkMode} (h : b.toNat = m.code) : WalkMode.ofByte b = some m := by
  cases m <;> simp only [WalkMode.ofByte, h, WalkMode.code]

theorem WalkMode.ofByte_eq_none {b : Byte} (h : 3 < b.toNat) : WalkMode.ofByte b = none := by
  unfold WalkMode.ofByte
  split
  case h_5 => rfl
  all_goals omega

section OpenBank

variable {s : State} {bank datum walk : Byte} {w : BitVec 16} (hmode : s.mode.mode ≠ .faulted)
include hmode

theorem State.takeOpenBank_of_range
    (hout : 1 < bank.toNat ∨ 3 < datum.toNat ∨ 3 < walk.toNat ∨ w.toNat < 600 ∨ 1500 < w.toNat) :
    s.takeOpenBank bank datum walk w = (s, .refuse .range []) := by
  simp only [State.takeOpenBank, State.faulted_eq_false hmode, Bool.false_eq_true, if_false]
  cases hb : BankId.ofByte bank with
  | none => rfl
  | some b =>
    cases hm : WalkMode.ofByte walk with
    | none => rfl
    | some m =>
      have hbank : ¬ 1 < bank.toNat := fun h => nomatch hb.symm.trans (BankId.ofByte_eq_none h)
      have hwalk : ¬ 3 < walk.toNat := fun h => nomatch hm.symm.trans (WalkMode.ofByte_eq_none h)
      by_cases hd : datum.toNat < 4
      · have hw : w.toNat < 600 ∨ 1500 < w.toNat := by omega
        simp only [dif_pos hd, if_pos hw]
      · simp only [dif_neg hd]

variable {b : BankId} {m : WalkMode} {d : Fin 4} (hcode : bank.toNat = b.code) (hwalk : walk.toNat = m.code)
  (hdatum : datum.toNat = d.val) (hlow : 600 ≤ w.toNat) (hhigh : w.toNat ≤ 1500)
include hcode hwalk hdatum hlow hhigh

/-- With the operands in range the bank's state decides. -/
theorem State.takeOpenBank_of_operands : s.takeOpenBank bank datum walk w =
    match (s.bank b).state with
    | .empty => (s.openBank b { datum := d, walk := m, width := w.toNat }, .ok [])
    | .spent => (s.openBank b { datum := d, walk := m, width := w.toNat }, .ok [])
    | .loading => (s, .refuse .busy [fieldU8 (s.bank b).state.code])
    | .ready => (s, .refuse .busy [fieldU8 (s.bank b).state.code])
    | .active => (s, .refuse .busy [fieldU8 (s.bank b).state.code]) := by
  have hd : datum.toNat < 4 := by omega
  have hw : ¬ (w.toNat < 600 ∨ 1500 < w.toNat) := by omega
  have hentry : (⟨datum.toNat, hd⟩ : Fin 4) = d := Fin.ext hdatum
  simp only [State.takeOpenBank, State.faulted_eq_false hmode, Bool.false_eq_true, if_false,
    BankId.ofByte_code bank b hcode, WalkMode.ofByte_code hwalk, dif_pos hd, if_neg hw, hentry] <;>
  cases (s.bank b).state <;> rfl

theorem State.takeOpenBank_of_busy
    (hstate : (s.bank b).state = .loading ∨ (s.bank b).state = .ready ∨ (s.bank b).state = .active) :
    s.takeOpenBank bank datum walk w = (s, .refuse .busy [fieldU8 (s.bank b).state.code]) := by
  rw [State.takeOpenBank_of_operands hmode hcode hwalk hdatum hlow hhigh]
  obtain h | h | h := hstate <;> rw [h]

theorem State.takeOpenBank_of_free (hstate : (s.bank b).state = .empty ∨ (s.bank b).state = .spent) :
    s.takeOpenBank bank datum walk w = (s.openBank b { datum := d, walk := m, width := w.toNat }, .ok []) := by
  rw [State.takeOpenBank_of_operands hmode hcode hwalk hdatum hlow hhigh]
  obtain h | h := hstate <;> rw [h]

end OpenBank

/-- The opened bank is the one written: the cursor placed at 0 leaves the plan. -/
theorem State.openBank_plan (s : State) (b : BankId) (setup : BankSetup) : (s.openBank b setup).plan =
    s.plan.setBank b { state := .loading, setup := some setup, slots := [], refusedAtClose := 0 } := by
  unfold State.openBank
  split
  · exact State.placeCursor_plan _ _ _
  · rfl

theorem State.openBank_mode (s : State) (b : BankId) (setup : BankSetup) : (s.openBank b setup).mode = s.mode := by
  unfold State.openBank
  split
  · exact (State.placeCursor_mode _ _ _).trans (s.setBank_mode b _)
  · exact s.setBank_mode b _

theorem State.openBank_point (s : State) (b : BankId) (setup : BankSetup) :
    (s.openBank b setup).feed.pointer = s.feed.pointer ∧ (s.feed.pointer = b → (s.openBank b setup).feed.cursor = 0) ∧
      (s.feed.pointer ≠ b → (s.openBank b setup).feed = s.feed) := by
  unfold State.openBank
  split
  case isTrue h =>
    rw [State.placeCursor_feed]
    exact ⟨h.symm, fun _ => rfl, fun hne => absurd h hne⟩
  case isFalse h => exact ⟨rfl, fun heq => absurd heq h, fun _ => rfl⟩

/-- Settles O9: the refusals of R6, or the bank opened. -/
theorem openBankEmptiesAndBeginsLoading : Obligations.OpenBankEmptiesAndBeginsLoading := by
  unfold Obligations.OpenBankEmptiesAndBeginsLoading
  intro s tag bank datum walk w hidle hmode
  refine ⟨fun hout => exec_openBank_of_take hidle (State.takeOpenBank_of_range hmode hout),
    fun b m d hcode hwalk hdatum hlow hhigh => ⟨fun hbusy => exec_openBank_of_take hidle
      (State.takeOpenBank_of_busy hmode hcode hwalk hdatum hlow hhigh hbusy), fun hfree => ?opened⟩⟩
  case opened =>
    have hrow := exec_openBank_of_take (tag := tag) hidle
      (State.takeOpenBank_of_free hmode hcode hwalk hdatum hlow hhigh hfree)
    generalize hsetup : ({ datum := d, walk := m, width := w.toNat } : BankSetup) = setup at hrow
    have hplan := s.openBank_plan b setup
    have hmove := s.openBank_planMove b setup
    obtain ⟨hpointer, hcursor, hfeed⟩ := s.openBank_point b setup
    have hbanks (c : BankId) : (s.openBank b setup).bank c = (s.setBank b ⟨.loading, some setup, [], 0⟩).bank c :=
      State.bank_of_plan _ _ hplan c
    refine ⟨_, hrow, (hbanks b).trans (s.setBank_bank_self b _),
      (hbanks b.other).trans (s.setBank_bank_other b _ _ b.other_ne), ?_, hpointer, hcursor, hfeed,
      s.openBank_mode b setup, hmove.train, hmove.cradles, hmove.place, hmove.pose, hmove.datum, hmove.zone, hmove.comp,
      hmove.adhesive⟩
    rw [hplan]
    cases b <;> rfl

/-! ## LOAD SLOTS (R7, R8) -/

theorem slotsOfRecords_eq_ok (i : Nat) (rs : List SlotRecord) (sls : List Slot)
    (h : rs.map SlotRecord.toSlot = sls.map some) : slotsOfRecords i rs = .ok sls := by
  induction rs generalizing i sls with
  | nil =>
    obtain rfl : sls = [] := List.map_eq_nil_iff.mp h.symm
    rfl
  | cons r rs ih =>
    cases sls with
    | nil => exact nomatch h
    | cons sl sls =>
      obtain ⟨hr, hrs⟩ := List.cons.inj h
      simp only [slotsOfRecords, hr, ih (i + 1) sls hrs]

/-- The first record that makes no slot is the one reported. -/
theorem slotsOfRecords_eq_error (i k : Nat) (rs : List SlotRecord) (r : SlotRecord) (hr : rs[k]? = some r)
    (hbad : r.toSlot = none) (hbefore : ∀ j < k, ∀ q : SlotRecord, rs[j]? = some q → q.toSlot ≠ none) :
    slotsOfRecords i rs = .error (i + k) := by
  induction rs generalizing i k with
  | nil => exact nomatch hr
  | cons a rs ih =>
    cases k with
    | zero =>
      obtain rfl : a = r := by simpa using hr
      simp only [slotsOfRecords, hbad, Nat.add_zero]
    | succ k =>
      obtain ⟨sl, hsl⟩ := Option.ne_none_iff_exists'.mp (hbefore 0 (Nat.succ_pos k) a rfl)
      have hrest := ih (i + 1) k hr fun j hj q hq => hbefore (j + 1) (Nat.succ_lt_succ hj) q hq
      rw [Nat.add_right_comm, Nat.add_assoc] at hrest
      simp only [slotsOfRecords, hsl, hrest]

section LoadSlots

variable {s : State} {bank first : Byte} {rs : List SlotRecord} {b : BankId} (hmode : s.mode.mode ≠ .faulted)
  (hcode : bank.toNat = b.code)
include hmode hcode

theorem State.takeLoadSlots_of_count (hcount : rs.length < 1 ∨ 7 < rs.length) :
    s.takeLoadSlots bank first rs = (s, .refuse .range []) := by
  simp only [State.takeLoadSlots, State.faulted_eq_false hmode, Bool.false_eq_true, if_false,
    BankId.ofByte_code bank b hcode, if_pos hcount]

variable (hone : 1 ≤ rs.length) (hseven : rs.length ≤ 7)
include hone hseven

theorem State.takeLoadSlots_of_not_loading (hstate : (s.bank b).state ≠ .loading) :
    s.takeLoadSlots bank first rs = (s, .refuse .state []) := by
  have hcount : ¬ (rs.length < 1 ∨ 7 < rs.length) := by omega
  simp only [State.takeLoadSlots, State.faulted_eq_false hmode, Bool.false_eq_true, if_false,
    BankId.ofByte_code bank b hcode, if_neg hcount, if_pos hstate]

variable (hstate : (s.bank b).state = .loading)
include hstate

theorem State.takeLoadSlots_of_order (hfirst : first.toNat ≠ (s.bank b).slots.length) :
    s.takeLoadSlots bank first rs = (s, .refuse .order [fieldU8 (s.bank b).slots.length]) := by
  have hcount : ¬ (rs.length < 1 ∨ 7 < rs.length) := by omega
  simp only [State.takeLoadSlots, State.faulted_eq_false hmode, Bool.false_eq_true, if_false,
    BankId.ofByte_code bank b hcode, if_neg hcount, if_neg (not_not.mpr hstate), if_pos hfirst]

variable (hfirst : first.toNat = (s.bank b).slots.length)
include hfirst

theorem State.takeLoadSlots_of_full (hfull : 96 < (s.bank b).slots.length + rs.length) :
    s.takeLoadSlots bank first rs = (s, .refuse .range [fieldU8 (s.bank b).slots.length]) := by
  have hcount : ¬ (rs.length < 1 ∨ 7 < rs.length) := by omega
  simp only [State.takeLoadSlots, State.faulted_eq_false hmode, Bool.false_eq_true, if_false,
    BankId.ofByte_code bank b hcode, if_neg hcount, if_neg (not_not.mpr hstate), if_neg (not_not.mpr hfirst), if_pos hfull]

/-- Past the checks of R7 the records decide (R8). -/
theorem State.takeLoadSlots_of_records (hroom : (s.bank b).slots.length + rs.length ≤ 96) :
    s.takeLoadSlots bank first rs =
      match slotsOfRecords first.toNat rs with
      | .error i => (s, .refuse .range [fieldU8 i])
      | .ok sls => (s.setBank b { s.bank b with slots := (s.bank b).slots ++ sls },
          .ok [fieldU8 ((s.bank b).slots.length + rs.length)]) := by
  have hcount : ¬ (rs.length < 1 ∨ 7 < rs.length) := by omega
  have hfull : ¬ 96 < (s.bank b).slots.length + rs.length := by omega
  simp only [State.takeLoadSlots, State.faulted_eq_false hmode, Bool.false_eq_true, if_false,
    BankId.ofByte_code bank b hcode, if_neg hcount, if_neg (not_not.mpr hstate), if_neg (not_not.mpr hfirst), if_neg hfull] <;>
  cases slotsOfRecords first.toNat rs <;> rfl

end LoadSlots

/-- Settles O10: the checks of R7 in order, then R8 record by record. -/
theorem loadSlotsAppendsAllOrNone : Obligations.LoadSlotsAppendsAllOrNone := by
  unfold Obligations.LoadSlotsAppendsAllOrNone
  intro s tag bank first count rs b hidle hmode hcount hcode
  refine ⟨fun hbad => exec_loadSlots_of_take hidle hcount (State.takeLoadSlots_of_count hmode hcode hbad),
    fun hone hseven => ⟨fun hstate => exec_loadSlots_of_take hidle hcount
      (State.takeLoadSlots_of_not_loading hmode hcode hone hseven hstate), fun hstate =>
    ⟨fun hfirst => exec_loadSlots_of_take hidle hcount
      (State.takeLoadSlots_of_order hmode hcode hone hseven hstate hfirst), fun hfirst =>
    ⟨fun hfull => exec_loadSlots_of_take hidle hcount
      (State.takeLoadSlots_of_full hmode hcode hone hseven hstate hfirst hfull), fun hroom =>
    ⟨fun sls hsls => ?taken, fun k r hr hbad hbefore => ?refused⟩⟩⟩⟩⟩
  all_goals have htake := State.takeLoadSlots_of_records hmode hcode hone hseven hstate hfirst hroom
  case taken =>
    rw [slotsOfRecords_eq_ok _ rs sls hsls] at htake
    exact exec_loadSlots_of_take hidle hcount htake
  case refused =>
    rw [slotsOfRecords_eq_error _ k rs r hr hbad hbefore] at htake
    exact exec_loadSlots_of_take hidle hcount htake

/-! ## The slot that a record makes (R8) -/

theorem SlotKind.ofCode_eq_some_iff (c : BitVec 2) (k : SlotKind) : SlotKind.ofCode c = some k ↔ c.toNat = k.code := by
  revert c
  cases k <;> decide

theorem Pattern.ofCode_eq_some_iff (c : BitVec 2) (p : Pattern) : Pattern.ofCode c = some p ↔ c.toNat = p.code := by
  revert c
  cases p <;> decide

theorem SlotKind.ofCode_isSome_iff (c : BitVec 2) : (SlotKind.ofCode c).isSome = true ↔ c ≠ 3#2 := by
  revert c
  decide

theorem Pattern.ofCode_isSome_iff (c : BitVec 2) : (Pattern.ofCode c).isSome = true ↔ c ≠ 3#2 := by
  revert c
  decide

theorem Rotation.ofCode_code (c : BitVec 2) : (Rotation.ofCode c).code = c.toNat := by
  revert c
  decide

/-- The ranges of R8, the codes apart. -/
def recordInRange (r : SlotRecord) : Prop :=
  0 ≤ r.along.toInt ∧ r.along.toInt ≤ 400000 ∧ (∀ b ∈ r.lateralOffset, -2000 ≤ b ∧ b ≤ 2000) ∧
    500 ≤ r.planned.toNat ∧ r.planned.toNat ≤ 3300

/-- A record makes this slot. -/
theorem toSlot_eq_some_iff (r : SlotRecord) (sl : Slot) : r.toSlot = some sl ↔
    recordInRange r ∧ ∃ kind pattern, SlotKind.ofCode r.kind = some kind ∧ Pattern.ofCode r.adhesive = some pattern ∧
      sl = { course := r.course.toNat, along := r.along.toInt, lateral := r.lateralOffset
             rotation := Rotation.ofCode r.rotation, kind := kind, planned := r.planned.toNat, pattern := pattern
             attention := r.attention, alternate := r.alternate, status := .pending, rejectCount := 0
             target := none } := by
  unfold SlotRecord.toSlot recordInRange
  cases SlotKind.ofCode r.kind with
  | none => simp
  | some kind =>
    cases Pattern.ofCode r.adhesive with
    | none => simp
    | some pattern =>
      dsimp only
      by_cases h : 0 ≤ r.along.toInt ∧ r.along.toInt ≤ 400000 ∧ (∀ b ∈ r.lateralOffset, -2000 ≤ b ∧ b ≤ 2000) ∧
        500 ≤ r.planned.toNat ∧ r.planned.toNat ≤ 3300
      · rw [if_pos h]
        refine ⟨fun e => ⟨h, kind, pattern, rfl, rfl, (Option.some.inj e).symm⟩, ?_⟩
        rintro ⟨_, _, _, ⟨⟩, ⟨⟩, rfl⟩
        rfl
      · rw [if_neg h]
        exact ⟨nofun, fun hr => absurd hr.1 h⟩

theorem lateralOffset_inRange_iff (r : SlotRecord) : (∀ b ∈ r.lateralOffset, -2000 ≤ b ∧ b ≤ 2000) ↔
    (r.lateral ≠ 0x8000#16 → -2000 ≤ r.lateral.toInt ∧ r.lateral.toInt ≤ 2000) := by
  unfold SlotRecord.lateralOffset
  by_cases h : r.lateral = 0x8000#16 <;> simp [h]

/-- Settles O11: `toSlot_eq_some_iff`, with the codes read back. -/
theorem aRecordBecomesASlotWithinItsRanges : Obligations.ARecordBecomesASlotWithinItsRanges := by
  unfold Obligations.ARecordBecomesASlotWithinItsRanges
  intro r
  refine ⟨?_, fun sl hsl => ?_⟩
  · rw [Option.isSome_iff_exists, ← lateralOffset_inRange_iff, ← SlotKind.ofCode_isSome_iff, ← Pattern.ofCode_isSome_iff,
      Option.isSome_iff_exists, Option.isSome_iff_exists]
    simp only [toSlot_eq_some_iff, recordInRange]
    constructor
    · rintro ⟨sl, ⟨h0, h1, h2, h3, h4⟩, kind, pattern, hk, hp, -⟩
      exact ⟨⟨h0, h1⟩, h2, ⟨h3, h4⟩, ⟨kind, hk⟩, pattern, hp⟩
    · rintro ⟨⟨h0, h1⟩, h2, ⟨h3, h4⟩, ⟨kind, hk⟩, pattern, hp⟩
      exact ⟨_, ⟨h0, h1, h2, h3, h4⟩, kind, pattern, hk, hp, rfl⟩
  · obtain ⟨-, kind, pattern, hk, hp, rfl⟩ := (toSlot_eq_some_iff r sl).mp hsl
    exact ⟨rfl, rfl, rfl, rfl, Rotation.ofCode_code _, ((SlotKind.ofCode_eq_some_iff _ _).mp hk).symm,
      ((Pattern.ofCode_eq_some_iff _ _).mp hp).symm, rfl, rfl, rfl, rfl, rfl⟩

/-! ## DISCARD BANK (R12) -/

/-- Settles O14: by the state of the bank; BANK NEEDED is judged on the plan without it (R59). -/
theorem discardBankEmptiesTheBank : Obligations.DiscardBankEmptiesTheBank := by
  unfold Obligations.DiscardBankEmptiesTheBank
  intro s tag bank b hidle hmode hcode
  have htake : s.takeDiscardBank bank =
      match (s.bank b).state with
      | .active => (s, .refuse .busy [])
      | .empty => (s, .ok [])
      | .loading => ((s.setBank b .reset).needBank, .ok [])
      | .ready => ((s.setBank b .reset).needBank, .ok [])
      | .spent => ((s.setBank b .reset).needBank, .ok []) := by
    simp only [State.takeDiscardBank, State.faulted_eq_false hmode, Bool.false_eq_true, if_false,
      BankId.ofByte_code bank b hcode] <;>
    cases (s.bank b).state <;> rfl
  refine ⟨fun hactive => ?refused, fun hempty => ?untouched, fun hactive hempty => ⟨_, rfl, fun hnot => ?quiet,
    fun ⟨hlaying, hwaiting, hclear⟩ => ?needed⟩⟩
  case refused =>
    rw [hactive] at htake
    exact exec_discardBank_of_take hidle htake
  case untouched =>
    rw [hempty] at htake
    exact exec_discardBank_of_take hidle htake
  all_goals
    have hdiscard : s.takeDiscardBank bank = ((s.setBank b .reset).needBank, .ok []) := by
      rw [htake]
      cases hst : (s.bank b).state with
      | active => exact absurd hst hactive
      | empty => exact absurd hst hempty
      | _ => rfl
  case quiet =>
    have hnone : (s.setBank b .reset).needBank = s.setBank b .reset :=
      if_neg fun hdue => hnot ((State.bankNeededDue_iff _).mp hdue)
    rw [hnone] at hdiscard
    exact exec_discardBank_of_take hidle hdiscard
  case needed =>
    have hone := State.needBank_of_due (s := s.setBank b .reset) hlaying hwaiting hclear
    rw [hone] at hdiscard
    exact exec_discardBank_of_take hidle hdiscard

end Sys2Proof.Machine
end

