-- ==== Sys2Proof/Proofs/ClosingBanks.lean ====
section
/-! CLOSE BANK on a bank that passes the five checks of R10: every target computed, every target checked, READY (R11). -/

namespace Sys2Proof.Machine

/-! ## A bank in order passes checks 4 and 5 (R10) -/

theorem footprintFault_none (w k : Nat) (l : List Slot)
    (h : ∀ j x y, l[j]? = some x → l[j+1]? = some y → pairFault w x y = none) : footprintFault w k l = none := by
  induction l generalizing k with
  | nil => rfl
  | cons a l ih =>
    cases l with
    | nil => rfl
    | cons b l =>
      rw [footprintFault, h 0 a b rfl rfl]
      exact ih _ fun j x y h1 h2 => h (j + 1) x y h1 h2

theorem pairFault_eq_none {width : Nat} {x y : Slot} (h : y.course = x.course → x.along < y.along ∧
    2 * x.along + x.extent width ≤ 2 * y.along - y.extent width) : pairFault width x y = none := by
  unfold pairFault
  by_cases hc : y.course = x.course
  · obtain ⟨halong, hclear⟩ := h hc
    rw [if_neg (not_not.mpr hc), if_neg (by omega), if_pos hclear]
  · rw [if_pos hc]

section Validated

variable {s : State} {b : BankId} {su : BankSetup} {d : DatumEntry}

theorem State.closeFault_eq_none (hne : (s.bank b).slots ≠ []) (hd : s.datumOf b = some d) (hbox : s.zone.box ≠ none)
    (hsetup : (s.bank b).setup = some su)
    (horder : ∀ (i : Nat) (x y : Slot), s.slot? b i = some x → s.slot? b (i + 1) = some y → x.course ≤ y.course)
    (hpairs : ∀ (i : Nat) (x y : Slot), s.slot? b i = some x → s.slot? b (i + 1) = some y →
      pairFault su.width x y = none) : s.closeFault b = none := by
  obtain ⟨box, hset⟩ := Option.ne_none_iff_exists'.mp hbox
  have hcourse : courseOrderFault 0 (s.bank b).slots = none := courseOrderFault_none 0 _ horder
  have hfootprint : footprintFault su.width 0 (s.bank b).slots = none := footprintFault_none su.width 0 _ hpairs
  simp [State.closeFault, hne, hd, hset, hsetup, hcourse, hfootprint]

/-! ## The bank completed (R11) -/

/-- Step 1 of R11: every slot with its target. -/
def State.targeted (s : State) (b : BankId) (d : DatumEntry) : State := s.setBank b ((s.bank b).withTargets d)

/-- Steps 1 and 2 of R11: every slot with its target, and checked. -/
def State.checked (s : State) (b : BankId) (d : DatumEntry) : State :=
  (List.range (s.bank b).slots.length).foldl (State.refuseAtClose b) (s.targeted b d)

theorem State.targeted_slot? {i : Nat} {sl : Slot} (h : s.slot? b i = some sl) :
    (s.targeted b d).slot? b i = some { sl with target := some (targetOn d sl) } := by
  have hslots : (s.bank b).slots[i]? = some sl := h
  simp [State.targeted, State.slot?, Bank.withTargets, hslots]

theorem State.targeted_closeMove (s : State) (b : BankId) (d : DatumEntry) : CloseMove b s (s.targeted b d) where
  plan := s.setBank_planMove b _
  mode := s.setBank_mode b _
  other := s.setBank_bank_other b _ _ b.other_ne
  order := by cases b <;> rfl
  ptr := rfl
  cur := rfl
  setup := by rw [State.targeted, State.setBank_bank_self]; rfl
  state := by rw [State.targeted, State.setBank_bank_self]; rfl
  len := by rw [State.targeted, State.setBank_bank_self]; exact List.length_map _

variable (hstate : (s.bank b).state = .loading)
include hstate

theorem State.targeted_not_active (d : DatumEntry) : ((s.targeted b d).bank b).state ≠ .active := by
  rw [(s.targeted_closeMove b d).state, hstate]
  decide

theorem State.checked_closeMove (d : DatumEntry) : CloseMove b s (s.checked b d) :=
  (s.targeted_closeMove b d).trans
    (State.refuseAtClose_fold b _ List.nodup_range _ (State.targeted_not_active hstate d)).1

theorem State.checked_slot? {i : Nat} {sl : Slot} (h : s.slot? b i = some sl) : (s.checked b d).slot? b i =
    some (if s.zone.admits (targetOn d sl) then { sl with target := some (targetOn d sl) }
      else { sl with target := some (targetOn d sl), status := .refused .zone }) := by
  have hi : i ∈ List.range (s.bank b).slots.length := List.mem_range.mpr (List.getElem?_eq_some_iff.mp h).1
  obtain ⟨_, _, hin⟩ := State.refuseAtClose_fold b _ (List.nodup_range (n := (s.bank b).slots.length)) _
    (State.targeted_not_active hstate d)
  rw [State.checked, hin i hi _ (State.targeted_slot? h)]
  have hzone : (s.targeted b d).zone = s.zone := (s.targeted_closeMove b d).plan.zone
  cases hadmits : s.zone.admits (targetOn d sl) <;> simp [State.zoneFails, hzone, hadmits]

end Validated

theorem State.completeBank_eq (s : State) (b : BankId) (d : DatumEntry) : s.completeBank b d =
    (s.checked b d).setBank b { (s.checked b d).bank b with
      state := .ready, refusedAtClose := ((s.checked b d).bank b).count SlotStatus.isRefused } := rfl

theorem State.completeBank_slot? (s : State) (b : BankId) (d : DatumEntry) (i : Nat) :
    (s.completeBank b d).slot? b i = (s.checked b d).slot? b i := by
  simp only [State.slot?, State.completeBank_eq, State.setBank_bank_self]

/-- Settles O12: the refusals of R9 and R10 in order, or the bank completed. -/
theorem closeBankValidatesAndMakesReady : Obligations.CloseBankValidatesAndMakesReady := by
  unfold Obligations.CloseBankValidatesAndMakesReady
  intro s tag bank b hidle hmode hcode
  refine ⟨fun hstate => ?notLoading, fun hstate => ⟨fun hnil => ?noSlots, fun hne => ⟨fun hd => ?noDatum, fun d hd =>
    ⟨fun hbox => ?noBox, fun su hsetup hbox hpairs => ?completed⟩⟩⟩⟩
  case notLoading =>
    have htake : s.takeCloseBank bank = (s, .refuse .state []) := by
      simp only [State.takeCloseBank, State.faulted_eq_false hmode, Bool.false_eq_true, if_false,
        BankId.ofByte_code bank b hcode, if_pos hstate]
    exact exec_closeBank_of_take hidle htake
  case noSlots =>
    exact exec_closeBank_invalidPlan hidle hmode hcode hstate (by simp [State.closeFault, hnil])
  case noDatum =>
    exact exec_closeBank_invalidPlan hidle hmode hcode hstate (by simp [State.closeFault, hne, hd])
  case noBox =>
    have hfault : s.closeFault b = some (.refuse .state []) := by simp [State.closeFault, hne, hd, hbox]
    exact exec_closeBank_of_take hidle (State.takeCloseBank_of_closeFault hmode hcode hstate hfault)
  case completed =>
    have hvalid : s.closeFault b = none := by
      refine State.closeFault_eq_none hne hd hbox hsetup (fun i x y hx hy => (hpairs i x y hx hy).1)
        fun i x y hx hy => pairFault_eq_none ?_
      rw [x.extent_eq_ite su.width, y.extent_eq_ite su.width]
      exact (hpairs i x y hx hy).2
    have htake : s.takeCloseBank bank = (s.completeBank b d,
        .ok [fieldU8 ((s.completeBank b d).bank b).slots.length, fieldU8 ((s.completeBank b d).bank b).refusedAtClose]) := by
      simp only [State.takeCloseBank, State.faulted_eq_false hmode, Bool.false_eq_true, if_false,
        BankId.ofByte_code bank b hcode, if_neg (not_not.mpr hstate), hvalid, hd]
    have hmove := State.checked_closeMove hstate d
    have hplan : PlanMove s (s.completeBank b d) := hmove.plan.trans (State.setBank_planMove _ b _)
    have hself : (s.completeBank b d).bank b = { (s.checked b d).bank b with
        state := .ready, refusedAtClose := ((s.checked b d).bank b).count SlotStatus.isRefused } := by
      rw [State.completeBank_eq, State.setBank_bank_self]
    have hlength : ((s.completeBank b d).bank b).slots.length = (s.bank b).slots.length := by
      rw [hself]
      exact hmove.len
    rw [hlength] at htake
    refine ⟨s.completeBank b d, exec_closeBank_of_take hidle htake, by rw [hself], hlength, ?setup, ?count, ?slots,
      ?other, ?order, hplan.datum, hplan.zone, hmove.mode, hplan.train, hplan.cradles, hplan.place, hplan.pose,
      hplan.comp, hplan.adhesive, hmove.ptr, hmove.cur⟩
    case setup => rw [hself]; exact hmove.setup
    case count => rw [hself]; rfl
    case slots =>
      intro i sl hsl hpending
      rw [State.completeBank_slot?, State.checked_slot? hstate hsl]
      change some (if s.zone.admits (targetOn d sl) = true then _ else _) =
        some { sl with target := some (targetOn d sl)
                       status := if s.zone.admits (targetOn d sl) = true then .pending else .refused .zone }
      split
      · rw [← hpending]
      · rfl
    case other =>
      rw [State.completeBank_eq, State.setBank_bank_other _ _ _ _ b.other_ne]
      exact hmove.other
    case order =>
      have horder : (s.completeBank b d).plan.order = (s.checked b d).plan.order := by cases b <;> rfl
      exact horder.trans hmove.order

end Sys2Proof.Machine
end

