-- ==== Sys2Proof/Proofs/Modes.lean ====
section
/-! PAUSE, STOW and ENTER SETUP (R153, R155), and the fault causes inside and outside FAULTED (R161 to R163). -/

namespace Sys2Proof.Machine

/-- What an event row answers, its block's rule rewritten (R174). -/
theorem next_beginFrame_congr {s t : State} (h : s = t) :
    (.next s.beginFrame : Host.Outcome State Fault Refusal) = .next t.beginFrame := congrArg _ (congrArg _ h)

/-! ## The mode commands (R153, R155) -/

/-- Settles O50: by the mode, each command's rule read off its definition. -/
theorem pauseStowAndEnterSetup : Obligations.PauseStowAndEnterSetup := by
  unfold Obligations.PauseStowAndEnterSetup
  intro s tag hidle
  refine ⟨fun hm => ?pauses, fun hm => ?paused, fun hm => ⟨?noPause, ?noStow⟩, fun hm => ⟨fun hp => ?busy, fun hp => ?stows⟩,
    fun hm => ?noSetup, fun hm => ?setup⟩
  case pauses =>
    have htake : s.takePause = (s.changeMode .paused .command, .ok []) := if_pos hm
    rw [State.changeMode, hm] at htake
    exact exec_pause_of_take hidle htake
  case paused =>
    have htake : s.takePause = (s, .ok []) := by simp [State.takePause, hm]
    exact exec_pause_of_take hidle htake
  case noPause =>
    have htake : s.takePause = (s, s.refuseMode) := by
      obtain h | h | h := hm <;> simp [State.takePause, h]
    exact exec_pause_of_take hidle htake
  case noStow =>
    have htake : s.takeStow = (s, s.refuseMode) := by
      obtain h | h | h := hm <;> simp [State.takeStow, h]
    exact exec_stow_of_take hidle htake
  case busy =>
    have htake : s.takeStow = (s, .refuse .busy [fieldU8 s.mode.mode.code, fieldU8 s.place.state.code]) := by
      rw [State.takeStow, if_pos hm, if_neg hp]
    exact exec_stow_of_take hidle htake
  case stows =>
    have htake : s.takeStow = (s.changeMode .stowed .command, .ok []) := by rw [State.takeStow, if_pos hm, if_pos hp]
    exact exec_stow_of_take hidle htake
  case noSetup =>
    have htake : s.takeEnterSetup = (s, s.refuseMode) := if_neg hm
    exact exec_enterSetup_of_take hidle htake
  case setup =>
    have htake : s.takeEnterSetup = (s.changeMode .setup .command, .ok []) := if_pos hm
    rw [State.changeMode, hm] at htake
    exact exec_enterSetup_of_take hidle htake

/-! ## Causes outside FAULTED (R78, R80, R127, R138, R161 to R163) -/

theorem State.runTo_mode_mode (s : State) (due : Time) : (s.runTo due).mode.mode = s.mode.mode := rfl

theorem TrainList.inTransitTagged_none {t : TrainList} {tag : Byte}
    (h : ∀ x ∈ t.entries, x.brick.tag = tag → x.deadline = none) : t.inTransitTagged tag = none := by
  refine List.find?_eq_none.mpr fun x hx hfound => ?_
  simp only [Bool.and_eq_true, decide_eq_true_eq] at hfound
  obtain ⟨⟨htag, -⟩, hdue⟩ := hfound
  rw [h x hx htag] at hdue
  exact nomatch hdue

theorem PlacementState.holdsBrick_eq_false {p : PlacementState} (h : p ≠ .approach ∧ p ≠ .settling) : p.holdsBrick = false := by
  obtain ⟨ha, hs⟩ := h
  cases p with
  | approach => exact absurd rfl ha
  | settling => exact absurd rfl hs
  | _ => rfl

theorem State.arrival_of_stray {s : State} (hhold : s.cradles.hold = false)
    (h : ∀ x ∈ s.train.entries, x.state = .inTransit → x.lost = true) : s.arrival = s.reportCause .strayArrival := by
  have hnone : s.train.entries.find? TrainEntry.onBoom = none := by
    refine List.find?_eq_none.mpr fun x hx hboom => ?_
    simp only [TrainEntry.onBoom, Bool.and_eq_true, decide_eq_true_eq, Bool.not_eq_true'] at hboom
    obtain ⟨htransit, hlost⟩ := hboom
    rw [h x hx htransit] at hlost
    exact nomatch hlost
  simp only [State.arrival, hhold, Bool.false_eq_true, if_false, hnone]

section Causes

variable {s : State} (hmode : s.mode.mode ≠ .faulted)
include hmode

theorem State.transitExpiry_of_entry {tag : Byte} {e : TrainEntry} {due : Time} (hfind : s.train.inTransitTagged tag = some e)
    (hdue : e.deadline = some due) : s.transitExpiry tag =
      ((s.runTo due).setEntries (loseEntry e.brick.serial s.train.entries)).reportCause .lostBrick := by
  simp only [State.transitExpiry, State.faulted_eq_false hmode, Bool.false_eq_true, if_false, hfind, hdue, Option.getD_some,
    State.runTo_train]

theorem State.gripTimeout_of_running {due : Time} (h : s.place.stepTimer = .grip due) :
    s.gripTimeout = (s.runTo due).reportCause .gripFail := by
  simp only [State.gripTimeout, State.faulted_eq_false hmode, Bool.false_eq_true, if_false, h]

theorem State.grippedDeasserted_of_holding (h : s.place.state = .approach ∨ s.place.state = .settling) : s.grippedDeasserted =
    ({ s with place := { s.place with gripped := false } } : State).reportCause .gripFail := by
  have hholds : s.place.state.holdsBrick = true := (PlacementState.holdsBrick_iff _).mpr h
  simp only [State.grippedDeasserted, State.faulted_eq_false hmode, Bool.false_eq_true, if_false, hholds, if_true]

theorem State.releaseDwellEnd_of_gripped {due : Time} {g : GripperBrick} (h : s.place.stepTimer = .release due)
    (hg : s.place.gripper = some g) (hgripped : s.place.gripped = true) :
    s.releaseDwellEnd = (s.runTo due).reportCause .releaseFail := by
  simp only [State.releaseDwellEnd, State.faulted_eq_false hmode, Bool.false_eq_true, if_false, h, hg, hgripped, if_true]

end Causes

theorem State.gripTimeout_of_stopped {s : State} (h : s.mode.mode = .faulted ∨ ∀ due, s.place.stepTimer ≠ .grip due) :
    s.gripTimeout = s := by
  by_cases hf : s.mode.mode = .faulted
  · simp only [State.gripTimeout, State.faulted_eq_true hf, if_true]
  · simp only [State.gripTimeout, State.faulted_eq_false hf, Bool.false_eq_true, if_false]
    cases ht : s.place.stepTimer with
    | grip due => exact absurd ht (h.resolve_left hf due)
    | _ => rfl

theorem State.grippedDeasserted_of_not_holding {s : State}
    (h : s.mode.mode = .faulted ∨ s.place.state ≠ .approach ∧ s.place.state ≠ .settling) :
    s.grippedDeasserted = { s with place := { s.place with gripped := false } } := by
  by_cases hf : s.mode.mode = .faulted
  · simp only [State.grippedDeasserted, State.faulted_eq_true hf, if_true]
  · have hholds : s.place.state.holdsBrick = false := PlacementState.holdsBrick_eq_false (h.resolve_left hf)
    simp only [State.grippedDeasserted, State.faulted_eq_false hf, hholds, Bool.false_eq_true, if_false]

theorem State.transitExpiry_of_stopped {s : State} {tag : Byte}
    (h : s.mode.mode = .faulted ∨ ∀ x ∈ s.train.entries, x.brick.tag = tag → x.deadline = none) : s.transitExpiry tag = s := by
  by_cases hf : s.mode.mode = .faulted
  · simp only [State.transitExpiry, State.faulted_eq_true hf, if_true]
  · simp only [State.transitExpiry, State.faulted_eq_false hf, Bool.false_eq_true, if_false,
      TrainList.inTransitTagged_none (h.resolve_left hf)]

/-- Settles O51: each event is the report of its cause, which enters FAULTED (`State.reportCause_entersFaulted`). -/
theorem eachCauseEntersFaulted : Obligations.EachCauseEntersFaulted := by
  unfold Obligations.EachCauseEntersFaulted
  intro s
  refine ⟨rfl, fun hmode => ⟨?halt, fun tag e due hfind hdue => ?lost, fun hhold => ?overrun, fun hhold hlost => ?stray,
      fun due htimer => ?grip, fun hstate => ?dropped, fun due htimer hg hgripped => ?release⟩,
    fun h => ?deassert, fun h => ?noGrip, fun tag h => ?noTransit⟩
  case halt => exact ⟨_, rfl, State.reportCause_entersFaulted _ _ hmode⟩
  case lost =>
    refine ⟨_, _, ?_, rfl, State.reportCause_entersFaulted _ .lostBrick hmode⟩
    exact next_beginFrame_congr (State.transitExpiry_of_entry hmode hfind hdue)
  case overrun =>
    have harrive : s.arrival = s.reportCause .overrun := if_pos hhold
    exact ⟨_, next_beginFrame_congr harrive,
      State.reportCause_entersFaulted _ _ hmode⟩
  case stray =>
    exact ⟨_, next_beginFrame_congr (State.arrival_of_stray hhold hlost),
      State.reportCause_entersFaulted _ _ hmode⟩
  case grip =>
    exact ⟨_, next_beginFrame_congr (State.gripTimeout_of_running hmode htimer),
      State.reportCause_entersFaulted _ _ hmode⟩
  case dropped =>
    exact ⟨_, next_beginFrame_congr (State.grippedDeasserted_of_holding hmode hstate),
      State.reportCause_entersFaulted _ _ hmode⟩
  case release =>
    obtain ⟨g, hsome⟩ := Option.isSome_iff_exists.mp hg
    exact ⟨_, next_beginFrame_congr
      (State.releaseDwellEnd_of_gripped hmode htimer hsome hgripped), State.reportCause_entersFaulted _ _ hmode⟩
  case deassert =>
    exact next_beginFrame_congr (State.grippedDeasserted_of_not_holding h)
  case noGrip => exact next_beginFrame_congr (State.gripTimeout_of_stopped h)
  case noTransit => exact next_beginFrame_congr (State.transitExpiry_of_stopped h)

/-! ## Causes in FAULTED (R162) -/

theorem State.reportCause_of_faulted {s : State} {f : FaultRecord} (hmode : s.mode.mode = .faulted)
    (hfault : s.mode.fault = some f) (c : FaultCause) : s.reportCause c =
      ({ s with mode := { s.mode with fault := some { f with further := f.further ||| setOf c.code } } } : State).raise
        (.fault c f.primary (f.further ||| setOf c.code)) := by
  simp only [State.reportCause, State.faulted_eq_true hmode, if_true, hfault]

theorem setOf_getLsbD (k n : Nat) (hk : k < 6) (hn : n < 6) : (setOf k : BitVec 6).getLsbD n = decide (n = k) := by
  have hall : ∀ k n : Fin 6, (setOf k.val : BitVec 6).getLsbD n.val = decide (n.val = k.val) := by decide
  exact hall ⟨k, hk⟩ ⟨n, hn⟩

/-- Settles O52: the record's further set takes the member of the cause. -/
theorem furtherCausesJoinTheSet : Obligations.FurtherCausesJoinTheSet := by
  unfold Obligations.FurtherCausesJoinTheSet
  intro s f hmode hfault
  have hmember (k n : Nat) (hk : k < 6) (hn : n < 6) :
      (f.further ||| setOf k).getLsbD n = (f.further.getLsbD n || decide (n = k)) := by
    rw [BitVec.getLsbD_or, setOf_getLsbD k n hk hn]
  refine ⟨⟨f.further ||| setOf 0, fun n => hmember 0 n (by decide), ?halt⟩,
    fun hhold => ⟨f.further ||| setOf 3, fun n => hmember 3 n (by decide), ?overrun⟩⟩
  case halt =>
    exact next_beginFrame_congr (State.reportCause_of_faulted
      (s := { s with mode := { s.mode with halt := true } }) hmode hfault .halt)
  case overrun =>
    have harrive : s.arrival = s.reportCause .overrun := if_pos hhold
    exact next_beginFrame_congr
      (harrive.trans (State.reportCause_of_faulted hmode hfault .overrun))

end Sys2Proof.Machine
end

