-- ==== Sys2Proof/Proofs/Pump.lean ====
section
/-! The tip, the grant of the pump and the reload of the pump counter (R85, R86, R93 to R96). -/

namespace Sys2Proof.Machine

/-! ## The tip (R85, R86) -/

theorem State.tipCompletion_of_tipping {s : State} {c : CradleId} {b : CradleBrick} {done : Time}
    (hmode : s.mode.mode ≠ .faulted) (h : s.cradle c = .tipping b done) :
    s.tipCompletion c = (s.runTo done).setCradle c .empty := by
  simp only [State.tipCompletion, State.faulted_eq_false hmode, Bool.false_eq_true, if_false, h]

theorem State.tipCompletion_of_none {s : State} {c : CradleId}
    (h : s.mode.mode = .faulted ∨ ∀ b done, s.cradle c ≠ .tipping b done) : s.tipCompletion c = s := by
  by_cases hf : s.mode.mode = .faulted
  · simp only [State.tipCompletion, State.faulted_eq_true hf, if_true]
  · simp only [State.tipCompletion, State.faulted_eq_false hf, Bool.false_eq_true, if_false]
    cases hc : s.cradle c with
    | tipping b done => exact absurd hc (h.resolve_left hf b done)
    | _ => rfl

/-- Settles O33: the clock at the end of the tip, and the cradle's write. -/
theorem tipCompletionEmptiesTheCradle : Obligations.TipCompletionEmptiesTheCradle := by
  unfold Obligations.TipCompletionEmptiesTheCradle
  refine fun s c => ⟨fun b done hmode htip => ⟨(s.runTo done).setCradle c .empty, ?_, ?_, fun d hd => ?_,
    State.setCradle_conveyorHeld _ _ _, ?_, ?_⟩, fun h => congrArg Host.Outcome.next (State.tipCompletion_of_none h)⟩
  · exact congrArg Host.Outcome.next (State.tipCompletion_of_tipping hmode htip)
  · exact State.setCradle_self _ _ _
  · exact State.setCradle_other _ _ _ _ hd
  · rw [State.setCradle_clock, State.runTo_now]
  · simp

/-! ## The grant (R93, R94) -/

/-- The stroke count is the quotient rounded up. -/
theorem strokeCount_bounds (planned beads : Nat) {pitch : Nat} (h : 0 < pitch) :
    planned * beads ≤ strokeCount planned beads pitch * pitch ∧
      strokeCount planned beads pitch * pitch < planned * beads + pitch := by
  have hdiv := Nat.div_add_mod (planned * beads + pitch - 1) pitch
  have hmod := Nat.mod_lt (planned * beads + pitch - 1) h
  rw [strokeCount, Nat.mul_comm (_ / _) pitch]
  omega

/-- A grant is the write of the operation and of the cradle. -/
theorem State.judgeGrant_of_grantee {s : State} {c : CradleId} {b : CradleBrick} (hlaying : s.mode.mode = .laying)
    (howner : s.adhesive.owner = none) (hheld : s.cradle c = .held b) (hgrantee : s.grantee = some c) :
    s.judgeGrant = State.setCradle { s with adhesive := { s.adhesive with
      owner := some c, operation := some (s.newOperation b), counter := s.adhesive.divisor, pump := false } }
      c (.gluing b) := by
  rw [State.judgeGrant, if_pos (by simp [State.grantDue, hlaying, howner, hgrantee]), hgrantee]
  simp only [State.grantTo, hheld]

theorem State.judgeGrant_of_none {s : State} (h : ∀ c ∈ s.cradlesInUse, ∀ b, s.cradle c = .held b → b.brick.mark ≠ none) :
    s.judgeGrant = s := by
  rw [State.judgeGrant, if_neg (by simp [State.grantDue, State.grantee_none s h])]

/-- Settles O34: the grantee is the older held brick (`State.grantee_of_older`). -/
theorem grantServesTheOlderHeldBrick : Obligations.GrantServesTheOlderHeldBrick := by
  unfold Obligations.GrantServesTheOlderHeldBrick
  refine fun s => ⟨fun hnot => ?none, fun c b hlaying howner hc hheld hlive holder => ?granted⟩
  case none =>
    obtain hmode | howner | hnone := hnot
    · exact congrArg Host.Outcome.next (State.judgeGrant_of_not_free (.inl hmode))
    · exact congrArg Host.Outcome.next (State.judgeGrant_of_not_free (.inr howner))
    · exact congrArg Host.Outcome.next (State.judgeGrant_of_none hnone)
  case granted =>
    have hgrant := State.judgeGrant_of_grantee hlaying howner hheld
      (State.grantee_of_older s c b hc hheld hlive holder)
    have hmove := s.judgeGrant_pumpMove
    refine ⟨s.judgeGrant, strokeCount b.planned b.pattern.beads s.adhesive.pitch, rfl, strokeCount_bounds _ _, ?_, ?_,
      fun d hd => ?_, ?_, hmove.plan, hmove.feed, hmove.train, hmove.mode, hmove.place, hmove.comp, hmove.pose,
      hmove.datum, hmove.zone, hmove.link, hmove.clock⟩
    · rw [hgrant, State.setCradle_adhesive]
      rfl
    · rw [hgrant, State.setCradle_self]
    · rw [hgrant, State.setCradle_other _ _ _ _ hd]
      rfl
    · rw [hgrant]
      exact State.setCradle_conveyorHeld _ _ _

/-! ## The reload of the pump counter (R95, R96) -/

/-- The state at a reload that ends the last stroke: the pump freed, its cradle written (R96). -/
def State.glueEnded (s : State) (op : GlueOperation) (c : CradleId) (x : Cradle) : State :=
  State.setCradle
    { s with
      clock := { s.clock with now := s.clock.now + (pumpTop - s.adhesive.counter) }
      adhesive := { s.adhesive with owner := none, operation := none, counter := pumpTop - op.period / 2, pump := false } }
    c x

theorem max_self_add (a b : Nat) : max a (a + b) = a + b := Nat.max_eq_right (Nat.le_add_right a b)

section Reload

variable {s : State} {op : GlueOperation} (hmode : s.mode.mode ≠ .faulted) (hop : s.adhesive.operation = some op)
include hmode hop

theorem State.pumpReload_eq :
    s.pumpReload = (s.runTo (s.clock.now + (pumpTop - s.adhesive.counter))).reload op := by
  simp only [State.pumpReload, State.faulted_eq_false hmode, Bool.false_eq_true, if_false, hop]

theorem State.pumpReload_of_low (hlow : s.adhesive.pump = false) : s.pumpReload = { s with
    clock := { s.clock with now := s.clock.now + (pumpTop - s.adhesive.counter) }
    adhesive := { s.adhesive with counter := pumpTop - op.period / 2, pump := true } } := by
  rw [State.pumpReload_eq hmode hop, State.reload, if_neg (by simp [State.runTo, hlow]), State.runTo, max_self_add]

theorem State.pumpReload_of_stroke (hhigh : s.adhesive.pump = true) (hmore : op.done + 1 < op.strokes) :
    s.pumpReload = { s with
      clock := { s.clock with now := s.clock.now + (pumpTop - s.adhesive.counter) }
      adhesive := { s.adhesive with
        counter := pumpTop - op.period / 2, pump := false, operation := some { op with done := op.done + 1 } } } := by
  rw [State.pumpReload_eq hmode hop, State.reload, if_pos (by simp [State.runTo, hhigh]), if_neg (Nat.not_le.mpr hmore),
    State.runTo, max_self_add]

/-- The last stroke completes the glue (R96). -/
theorem State.pumpReload_of_last {c : CradleId} {b : CradleBrick} (hhigh : s.adhesive.pump = true)
    (hlast : op.strokes ≤ op.done + 1) (howner : s.adhesive.owner = some c) (hgluing : s.cradle c = .gluing b) :
    s.pumpReload = (s.glueEnded op c (if b.brick.mark = none then
        .ready b (some (s.clock.now + (pumpTop - s.adhesive.counter) + s.adhesive.openTime * ticksPerSecond))
      else .tipping b (s.clock.now + (pumpTop - s.adhesive.counter) + tipTicks))).judgeGrant := by
  rw [State.pumpReload_eq hmode hop, State.reload, if_pos (by simp [State.runTo, hhigh]), if_pos hlast, State.runTo,
    max_self_add]
  have hcradle (l : Clock) (a : AdhesiveUnit) : State.cradle { s with clock := l, adhesive := a } c = .gluing b := hgluing
  simp only [State.completeGlue, howner, State.freePump, hcradle]
  by_cases hmark : b.brick.mark = none
  · rw [if_pos hmark, if_pos ((Brick.live_iff _).mpr hmark)]
    rfl
  · rw [if_neg hmark, if_neg (mt (Brick.live_iff _).mp hmark)]
    rfl

end Reload

section GlueEnded

variable (s : State) (op : GlueOperation) (c : CradleId) (x : Cradle)

@[simp] theorem State.glueEnded_self : (s.glueEnded op c x).cradle c = x := State.setCradle_self _ _ _

theorem State.glueEnded_other {d : CradleId} (hd : d ≠ c) : (s.glueEnded op c x).cradle d = s.cradle d :=
  State.setCradle_other _ _ _ _ hd

theorem State.glueEnded_adhesive : (s.glueEnded op c x).adhesive = { s.adhesive with
    owner := none, operation := none, counter := pumpTop - op.period / 2, pump := false } := State.setCradle_adhesive _ _ _

theorem State.glueEnded_mode : (s.glueEnded op c x).mode = s.mode := State.setCradle_mode _ _ _

theorem State.glueEnded_cradlesInUse : (s.glueEnded op c x).cradlesInUse = s.cradlesInUse :=
  congrArg (fun m : ModeControl => [CradleId.cradle0, CradleId.cradle1].filter fun c => CradleCount.uses m.cradleCount c)
    (s.glueEnded_mode op c x)

variable {x} (hx : ∀ y, x ≠ .held y)
include hx

/-- With no other cradle waiting nothing is granted at the glue completion. -/
theorem State.glueEnded_judgeGrant_of_none (h : s.mode.mode ≠ .laying ∨
    ∀ d ∈ s.cradlesInUse, d ≠ c → ∀ b', s.cradle d = .held b' → b'.brick.mark ≠ none) :
    (s.glueEnded op c x).judgeGrant = s.glueEnded op c x := by
  obtain hmode | hnone := h
  · exact State.judgeGrant_of_not_free (.inl (by rwa [s.glueEnded_mode]))
  · refine State.judgeGrant_of_none fun d hd b' hb' => ?_
    rw [s.glueEnded_cradlesInUse] at hd
    by_cases hdc : d = c
    · subst hdc
      rw [s.glueEnded_self] at hb'
      exact absurd hb' (hx b')
    · rw [s.glueEnded_other op c x hdc] at hb'
      exact hnone d hd hdc b' hb'

theorem State.glueEnded_grantee {d : CradleId} {b' : CradleBrick} (hdc : d ≠ c) (hd : d ∈ s.cradlesInUse)
    (hheld : s.cradle d = .held b') (hlive : b'.brick.mark = none) : (s.glueEnded op c x).grantee = some d := by
  refine State.grantee_of_older _ d b' (by rwa [s.glueEnded_cradlesInUse]) (by rwa [s.glueEnded_other op c x hdc]) hlive
    fun e he hed y hy _ => ?_
  obtain rfl := CradleId.eq_of_ne_of_ne hdc hed
  rw [s.glueEnded_self] at hy
  exact absurd hy (hx y)

/-- The other cradle's brick is granted the pump at the glue completion. -/
theorem State.glueEnded_judgeGrant_of_held {d : CradleId} {b' : CradleBrick} (hlaying : s.mode.mode = .laying) (hdc : d ≠ c)
    (hd : d ∈ s.cradlesInUse) (hheld : s.cradle d = .held b') (hlive : b'.brick.mark = none) :
    (s.glueEnded op c x).judgeGrant = State.setCradle { s.glueEnded op c x with adhesive := { s.adhesive with
      owner := some d, operation := some (s.newOperation b'), counter := s.adhesive.divisor, pump := false } }
      d (.gluing b') := by
  have howner : (s.glueEnded op c x).adhesive.owner = none := by rw [s.glueEnded_adhesive]
  rw [State.judgeGrant_of_grantee (by rwa [s.glueEnded_mode]) howner (by rwa [s.glueEnded_other op c x hdc])
    (State.glueEnded_grantee s op c hx hdc hd hheld hlive), State.newOperation, s.glueEnded_adhesive]
  rfl

theorem State.glueEnded_judgeGrant_self : (s.glueEnded op c x).judgeGrant.cradle c = x := by
  by_cases h : s.mode.mode ≠ .laying ∨ ∀ d ∈ s.cradlesInUse, d ≠ c → ∀ b', s.cradle d = .held b' → b'.brick.mark ≠ none
  · rw [State.glueEnded_judgeGrant_of_none s op c hx h, s.glueEnded_self]
  · push Not at h
    obtain ⟨hlaying, d, hd, hdc, b', hheld, hlive⟩ := h
    rw [State.glueEnded_judgeGrant_of_held s op c hx hlaying hdc hd hheld hlive, State.setCradle_other _ _ _ _ hdc.symm]
    exact s.glueEnded_self op c x

end GlueEnded

/-- Settles O35: by the level of PUMP, the stroke, and the other cradle. -/
theorem pumpReloadCountsStrokesAndCompletesTheGlue : Obligations.PumpReloadCountsStrokesAndCompletesTheGlue := by
  unfold Obligations.PumpReloadCountsStrokesAndCompletesTheGlue
  refine fun s => ⟨fun hnot => ?stopped, fun op hmode hop => ⟨_, rfl,
    fun hlow => congrArg Host.Outcome.next (State.pumpReload_of_low hmode hop hlow),
    fun hhigh hmore => congrArg Host.Outcome.next (State.pumpReload_of_stroke hmode hop hhigh hmore),
    fun c b hhigh hlast howner hgluing => ?last⟩⟩
  case stopped =>
    refine congrArg Host.Outcome.next ?_
    by_cases hf : s.mode.mode = .faulted
    · simp only [State.pumpReload, State.faulted_eq_true hf, if_true]
    · simp only [State.pumpReload, State.faulted_eq_false hf, Bool.false_eq_true, if_false, hnot.resolve_left hf]
  case last =>
    have hend := State.pumpReload_of_last hmode hop hhigh hlast howner hgluing
    generalize hx : (if b.brick.mark = none then
        Cradle.ready b (some (s.clock.now + (pumpTop - s.adhesive.counter) + s.adhesive.openTime * ticksPerSecond))
      else .tipping b (s.clock.now + (pumpTop - s.adhesive.counter) + tipTicks)) = x at hend
    have hheld (y : CradleBrick) : x ≠ .held y := by
      rw [← hx]
      split <;> exact nofun
    have hmove := (State.setCradle_pumpMove _ c x).trans (s.glueEnded op c x).judgeGrant_pumpMove
    have hself := State.glueEnded_judgeGrant_self s op c hheld
    refine ⟨_, congrArg Host.Outcome.next hend, hmove.clock, fun hmark => ?ready, fun hmark => ?tipping,
      fun hnone => ?alone, fun d b' hlaying hdc hd hb' hlive => ?passed, ?held, hmove.plan, hmove.feed, hmove.train,
      hmove.mode, hmove.place, hmove.comp, hmove.pose, hmove.datum, hmove.zone, hmove.link⟩
    case ready =>
      rw [hself, ← hx, if_pos hmark]
      rfl
    case tipping =>
      rw [hself, ← hx, if_neg hmark]
      rfl
    case alone =>
      rw [State.glueEnded_judgeGrant_of_none s op c hheld hnone]
      exact ⟨s.glueEnded_adhesive op c x, fun d hdc => s.glueEnded_other op c x hdc⟩
    case passed =>
      rw [State.glueEnded_judgeGrant_of_held s op c hheld hlaying hdc hd hb' hlive, State.setCradle_self]
      exact ⟨rfl, strokeCount b'.planned b'.pattern.beads s.adhesive.pitch, strokeCount_bounds _ _,
        State.setCradle_adhesive _ _ _⟩
    case held => exact (s.glueEnded op c x).judgeGrant_pumpMove.held (State.setCradle_conveyorHeld _ _ _)

end Sys2Proof.Machine
end

