-- ==== Sys2Proof/Proofs/Loading.lean ====
section
/-! BRICK LOADED on a brick within tolerance (R75 to R77), the placement timer and the end of an abandonment (R140, R144). -/

namespace Sys2Proof.Machine

/-! ## BRICK LOADED within tolerance (R75, R77) -/

/-- The deadline of the entry just ahead, as R77 takes it. -/
theorem deadlineAhead_of_inTransit {x : TrainEntry} (h : x.state = .inTransit) :
    deadlineAhead (some x) = if x.lost then 0 else x.deadline.getD 0 := by
  cases hlost : x.lost <;> simp [deadlineAhead, TrainEntry.onBoom, h, hlost]

section Loaded

variable {s : State} {feedTag : Byte} {m : BitVec 16} (hmode : s.mode.mode ≠ .faulted)
include hmode

theorem State.takeBrickLoaded_of_none (h : ∀ x ∈ s.train.entries, x.state = .inTransit) :
    s.takeBrickLoaded feedTag m = (s, .refuse .order (fieldsOptional false [fieldU8 0])) := by
  have hnone : s.train.oldestRequested = none := List.find?_eq_none.mpr fun x hx => by simp [h x hx]
  simp only [State.takeBrickLoaded, State.faulted_eq_false hmode, Bool.false_eq_true, if_false, hnone]

variable {older younger : List TrainEntry} {e : TrainEntry} (hentries : s.train.entries = older ++ e :: younger)
  (holder : ∀ x ∈ older, x.state = .inTransit) (hrequested : e.state = .requested)
include hentries holder hrequested

theorem State.takeBrickLoaded_of_other_tag (htag : e.brick.tag ≠ feedTag) : s.takeBrickLoaded feedTag m =
    (s, .refuse .order (fieldsOptional true [fieldU8 e.brick.tag.toNat])) := by
  simp only [State.takeBrickLoaded, State.faulted_eq_false hmode, Bool.false_eq_true, if_false,
    TrainList.oldestRequested_append older younger e s.train hentries holder hrequested, if_pos htag]

/-- The train with the brick loaded (R75, R77). -/
def State.loadedTrain (s : State) (older younger : List TrainEntry) (e : TrainEntry) (m : BitVec 16) : State :=
  s.setEntries (older ++ { e with
    measured := some m.toNat, state := .inTransit
    deadline := some (max (s.clock.now + s.train.timeout * ticksPerSecond) (deadlineAhead older.getLast?)) } :: younger)

/-- The deviation judged, the entry loaded (R75). -/
theorem State.takeBrickLoaded_of_tag (htag : e.brick.tag = feedTag) : s.takeBrickLoaded feedTag m =
    if (deviation m.toNat e.planned).natAbs ≤ s.feed.tolerance then
      (s.loadedTrain older younger e m, .ok [fieldU8 feedTag.toNat, fieldU8 0, fieldI32 (deviation m.toNat e.planned)])
    else ((s.loadedTrain older younger e m).miscut e.brick,
      .ok [fieldU8 feedTag.toNat, fieldU8 1, fieldI32 (deviation m.toNat e.planned)]) := by
  have hload := loadOldest_append m.toNat (s.clock.now + s.train.timeout * ticksPerSecond) older younger e none holder
    hrequested
  rw [Option.or_none, ← hentries] at hload
  simp only [State.takeBrickLoaded, State.faulted_eq_false hmode, Bool.false_eq_true, if_false,
    TrainList.oldestRequested_append older younger e s.train hentries holder hrequested, if_neg (not_not.mpr htag), hload,
    State.loadedTrain]

end Loaded

/-- Settles O28: the oldest REQUESTED entry refused by its tag, or loaded. -/
theorem brickLoadedEntersTransit : Obligations.BrickLoadedEntersTransit := by
  unfold Obligations.BrickLoadedEntersTransit
  intro s tag feedTag m hidle hmode
  refine ⟨fun hnone => exec_brickLoaded_of_take hidle (State.takeBrickLoaded_of_none hmode hnone),
    fun older younger e hentries holder hrequested => ⟨fun htag => exec_brickLoaded_of_take hidle
      (State.takeBrickLoaded_of_other_tag hmode hentries holder hrequested htag), fun htag hdev =>
    ⟨deadlineAhead older.getLast?, ?first, ?behind, ?loaded⟩⟩⟩
  case first =>
    rintro rfl
    rfl
  case behind =>
    intro x hx
    rw [hx]
    exact deadlineAhead_of_inTransit (holder x (List.mem_of_getLast? hx))
  case loaded =>
    have htake := State.takeBrickLoaded_of_tag (m := m) hmode hentries holder hrequested htag
    change (deviation m.toNat e.planned).natAbs ≤ s.feed.tolerance at hdev
    rw [if_pos hdev] at htake
    exact exec_brickLoaded_of_take hidle htake

/-! ## The placement timer and the abandon time (R140, R144) -/

theorem State.returnToIdle_raise (s : State) (n : Notice) : (s.raise n).returnToIdle = s.returnToIdle.raise n := by
  have hlink : (s.raise n).link = (s.returnToIdle.raise n).link := State.raise_link_congr n rfl
  rw [State.raise_eq s n, hlink]
  exact (State.raise_eq s.returnToIdle n).symm

/-- What Mode Control learns of a reject, its reasons named (R159). -/
theorem State.learnReject_eq (s : State) (tag : Byte) (r : RejectReason) : s.learnReject tag r =
    { s with mode := { s.mode with
        watchStopped := if s.mode.watchStopped = some tag then none else s.mode.watchStopped
        rejectSeen := s.mode.rejectSeen || decide (r ≠ .courseEnded ∧ r ≠ .purged) } } := by
  cases r <;> rfl

section Timers

variable {s : State}

theorem State.placementTimerExpiry_of_stopped
    (h : s.mode.mode = .faulted ∨ s.place.timer = none ∨ s.place.gripper = none) : s.placementTimerExpiry = s := by
  unfold State.placementTimerExpiry
  by_cases hf : s.mode.mode = .faulted
  · rw [if_pos (State.faulted_eq_true hf)]
  · rw [State.faulted_eq_false hf, if_neg Bool.false_ne_true]
    obtain h | h := h.resolve_left hf <;> rw [h]
    cases s.place.timer <;> rfl

theorem State.abandonCompletion_of_stopped (h : s.mode.mode = .faulted ∨ s.place.gripper = none ∨
    s.place.abandonReason = none ∨ ∀ due, s.place.stepTimer ≠ .abandon due) : s.abandonCompletion = s := by
  unfold State.abandonCompletion
  by_cases hf : s.mode.mode = .faulted
  · rw [if_pos (State.faulted_eq_true hf)]
  · rw [State.faulted_eq_false hf, if_neg Bool.false_ne_true]
    split
    · next due g r ht hg hr =>
      obtain h | h | h := h.resolve_left hf
      · exact nomatch hg.symm.trans h
      · exact nomatch hr.symm.trans h
      · exact absurd ht (h due)
    · rfl

variable (hmode : s.mode.mode ≠ .faulted) {g : GripperBrick} (hg : s.place.gripper = some g) {due : Time}
include hmode hg

theorem State.placementTimerExpiry_of_running (htimer : s.place.timer = some due) : s.placementTimerExpiry =
    ((s.runTo due).changeMode .paused .timeout).raise
      (.hold (if s.place.hasSettled then .settleTimeout else .approachTimeout) g.brick.tag g.brick.bank g.brick.slot) := by
  simp only [State.placementTimerExpiry, State.faulted_eq_false hmode, Bool.false_eq_true, if_false, htimer, hg]

theorem State.abandonCompletion_of_running {r : RejectReason} (htimer : s.place.stepTimer = .abandon due)
    (hreason : s.place.abandonReason = some r) : s.abandonCompletion =
    (State.raiseRejected { s.runTo due with place := { (s.runTo due).place with grip := false } } g.brick r).returnToIdle := by
  simp only [State.abandonCompletion, State.faulted_eq_false hmode, Bool.false_eq_true, if_false, htimer, hg, hreason]

end Timers

/-- Settles O47: by whether each timer runs. -/
theorem placementTimerPausesAndAbandonTimeEnds : Obligations.PlacementTimerPausesAndAbandonTimeEnds := by
  unfold Obligations.PlacementTimerPausesAndAbandonTimeEnds
  refine fun s => ⟨fun h => next_beginFrame_congr (State.placementTimerExpiry_of_stopped h),
    fun h => next_beginFrame_congr (State.abandonCompletion_of_stopped h), fun due g hmode htimer hg => ⟨_, rfl, ?expires⟩,
    fun due g r hmode htimer hg hreason => ⟨_, rfl, ?ends⟩⟩
  case expires => exact next_beginFrame_congr (State.placementTimerExpiry_of_running hmode hg htimer)
  case ends =>
    refine next_beginFrame_congr ((State.abandonCompletion_of_running hmode hg htimer hreason).trans ?_)
    rw [State.raiseRejected, State.returnToIdle_raise, State.learnReject_eq]
    rfl

end Sys2Proof.Machine
end

