-- ==== Sys2Proof/Proofs/Picking.lean ====
section
/-! The pick decision, the watch stop and the pick completion (R126 to R129, R158). -/

namespace Sys2Proof.Machine

/-! ## The decision (R126, R158) -/

theorem State.pickDecision_of_mayPick {s : State} {b : Brick} {c : CradleId} (h : s.mayPick b c) :
    s.pickDecision = s.decidePick b c := by
  obtain ⟨hdue, hcandidate⟩ := State.mayPick_due h
  simp only [State.pickDecision, hdue, if_true, hcandidate]

/-- With no candidate in READY nothing is decided. -/
theorem State.pickDecision_of_not_due {s : State} (h : s.mode.mode ≠ .laying ∨ s.place.state ≠ .idle ∨
    ∀ b c, s.heldLive (b, .cradle c) → (∀ y, s.heldLive y → b.serial ≤ y.1.serial) → ∀ cb due, s.cradle c ≠ .ready cb due) :
    s.pickDecision = s := by
  refine if_neg fun hdue => ?_
  simp only [State.pickDue, Bool.and_eq_true, decide_eq_true_eq] at hdue
  obtain ⟨⟨hlaying, hidle⟩, hcandidate⟩ := hdue
  obtain h | h | h := h
  · exact h hlaying
  · exact h hidle
  · obtain ⟨⟨b, c⟩, hc⟩ := Option.isSome_iff_exists.mp hcandidate
    unfold State.pickCandidate at hc
    split at hc
    · next b' c' hold =>
      obtain ⟨hheld, hle⟩ := State.oldestLive_le hold
      cases hready : s.cradle c' with
      | ready cb due => exact h b' c' hheld hle cb due hready
      | _ => rw [hready] at hc; exact nomatch hc
    · exact nomatch hc

/-- The flags that the watch check clears (R158). -/
theorem State.clearWatchFlags_eq (s : State) (b : BankId) : s.clearWatchFlags b = { s with mode := { s.mode with
    rejectSeen := false
    bankSwitch0 := if b = .bank0 then false else s.mode.bankSwitch0
    bankSwitch1 := if b = .bank1 then false else s.mode.bankSwitch1 } } := by
  cases b <;> rfl

theorem State.zoneAdmits_eq {s : State} {b : Brick} {sl : Slot} {target : Vec3} (hsl : s.slot? b.bank b.slot = some sl)
    (htarget : sl.target = some target) : s.zoneAdmits b = s.zone.admits target := by
  simp [State.zoneAdmits, hsl, State.zoneFails, htarget]

theorem State.rotationOf_eq {s : State} {b : Brick} {sl : Slot} (hsl : s.slot? b.bank b.slot = some sl) :
    s.rotationOf b = sl.rotation := by
  rw [State.rotationOf, hsl]
  rfl

/-- The state in which a pick that no watch stops is re-checked (R126, R158). -/
def State.pickChecked (s : State) (b : Brick) : State := { s with mode := { s.mode with
  rejectSeen := false
  bankSwitch0 := if b.bank = .bank0 then false else s.mode.bankSwitch0
  bankSwitch1 := if b.bank = .bank1 then false else s.mode.bankSwitch1
  watchStopped := if s.mode.watchStopped = some b.tag then none else s.mode.watchStopped } }

theorem State.decidePick_of_unwatched {s : State} {b : Brick} (c : CradleId)
    (h : s.mode.watchStopped = some b.tag ∨ s.watchConditions b &&& s.mode.watchEnables = 0#5) :
    s.decidePick b c = (s.pickChecked b).recheckAndPick b c := by
  rw [State.decidePick, State.clearWatchFlags_eq]
  by_cases hstopped : s.mode.watchStopped = some b.tag
  · simp only [if_pos hstopped, State.pickChecked]
  · simp only [if_neg hstopped, State.pickChecked, h.resolve_left hstopped, ne_eq, not_true_eq_false, if_false]

/-- Settles O37: the decision is the re-check of the brick, which passes. -/
theorem pickDecisionStartsThePick : Obligations.PickDecisionStartsThePick := by
  unfold Obligations.PickDecisionStartsThePick
  refine ⟨fun s h => next_beginFrame_congr (State.pickDecision_of_not_due h),
    fun s b c sl target hpick hsl htarget hadmits hwatch => ⟨(s.pickChecked b).startPick b c, ?_, ?_, rfl, rfl, rfl, rfl, rfl,
      rfl, rfl, rfl, rfl, rfl, rfl, rfl⟩⟩
  · refine next_beginFrame_congr ?_
    have hzone : (s.pickChecked b).zoneAdmits b = true :=
      (State.zoneAdmits_eq (s := s.pickChecked b) hsl htarget).trans hadmits
    rw [State.pickDecision_of_mayPick hpick, State.decidePick_of_unwatched c hwatch, State.recheckAndPick, if_pos hzone]
  · have hturn : (s.pickChecked b).rotationOf b = sl.rotation := State.rotationOf_eq (s := s.pickChecked b) hsl
    rw [← hturn]
    rfl

/-- Settles O38: the watch stop, with its two notices. -/
theorem watchStopPausesBeforeThePick : Obligations.WatchStopPausesBeforeThePick := by
  unfold Obligations.WatchStopPausesBeforeThePick
  intro s b c hpick hstopped hmet
  have hlaying := hpick.1
  have hstop : s.pickDecision = (s.clearWatchFlags b.bank).watchStop b (s.watchConditions b &&& s.mode.watchEnables) := by
    rw [State.pickDecision_of_mayPick hpick, State.decidePick]
    simp only [if_neg hstopped, if_pos hmet]
  rw [State.clearWatchFlags_eq] at hstop
  refine ⟨_, next_beginFrame_congr hstop, ?_, ?_, ?_⟩
  · simp [State.watchStop, State.changeMode]
  · simp [State.watchStop, State.changeMode]
  · refine ⟨?_, ?_, ?_, ?_, ?_, ?_, ?_, ?_, ?_, ?_, ?_⟩
    case refine_11 =>
      rw [State.watchStop, State.changeMode, ← hlaying]
      exact State.raise_link_congr _ (State.raise_link_congr _ rfl)
    all_goals simp [State.watchStop]

/-! ## The completion (R127 to R129) -/

section Completion

variable (s : State) (c : CradleId) (b : CradleBrick)

theorem State.completePick_place : (s.completePick c b).place = { s.place with
    stepTimer := .stopped, pickCradle := none, hasSettled := false, state := .approach
    gripper := some ⟨b.brick, s.place.quarterTurn, (s.cradle c).deadline?⟩
    timer := if s.mode.mode = .laying then some (s.clock.now + s.comp.settings.approach * ticksPerSecond) else none } := by
  unfold State.completePick
  split <;> simp [State.raisePoseHold, State.enterApproach, State.raiseNextTarget, State.latch, State.takeFromCradle,
    State.gripperBrickOf]

theorem State.completePick_comp : (s.completePick c b).comp = { s.comp with
    latched := some s.comp.settings, counter := 0, lastStep := ⟨0, 0, 0⟩
    saturation := ⟨false, false, false, false⟩, releaseSeq := none } := by
  unfold State.completePick
  split <;> simp [State.raisePoseHold, State.enterApproach, State.raiseNextTarget, State.latch, State.takeFromCradle]

theorem State.completePick_cradles : (s.completePick c b).cradles = (s.takeFromCradle c b).cradles := by
  unfold State.completePick
  split <;> simp [State.raisePoseHold, State.enterApproach, State.raiseNextTarget, State.latch]

/-- What the pick completion leaves, of a live and of a marked brick alike. -/
structure PickMove (s t : State) : Prop where
  plan     : t.plan = s.plan
  feed     : t.feed = s.feed
  train    : t.train = s.train
  adhesive : t.adhesive = s.adhesive
  pose     : t.pose = s.pose
  datum    : t.datum = s.datum
  zone     : t.zone = s.zone
  mode     : t.mode = s.mode
  clock    : t.clock = s.clock

theorem State.completePick_pickMove : PickMove s (s.completePick c b) := by
  unfold State.completePick
  constructor <;> split <;>
    simp [State.raisePoseHold, State.enterApproach, State.raiseNextTarget, State.latch, State.takeFromCradle]

theorem State.abandonPick_pickMove (r : RejectReason) : PickMove s (s.abandonPick c b r) := by
  constructor <;> simp [State.abandonPick, State.takeFromCradle]

theorem State.abandonPick_place (r : RejectReason) : (s.abandonPick c b r).place = { s.place with
    pickCradle := none, state := .abandoning, abandonReason := some r
    gripper := some ⟨b.brick, s.place.quarterTurn, none⟩, stepTimer := .abandon (s.clock.now + abandonTicks) } := by
  simp [State.abandonPick, State.takeFromCradle, State.gripperBrickOf]

theorem State.completePick_link {sl : Slot} {target : Vec3} (hsl : s.slot? b.brick.bank b.brick.slot = some sl)
    (htarget : sl.target = some target) : (s.completePick c b).link =
      s.raisedLink (.nextTarget b.brick.tag b.brick.bank b.brick.slot target sl.rotation ::
        if s.place.holdPose then [.hold .pose b.brick.tag b.brick.bank b.brick.slot] else []) := by
  have hslot : ((s.takeFromCradle c b).latch).slot? b.brick.bank b.brick.slot = some sl :=
    (State.setCradle_slot? _ c .empty _ _).trans hsl
  have hnext : ((s.takeFromCradle c b).latch.raiseNextTarget b.brick (s.rotationOf b.brick)).enterApproach.link =
      (s.raise (.nextTarget b.brick.tag b.brick.bank b.brick.slot target sl.rotation)).link := by
    rw [State.rotationOf_eq hsl]
    simp only [State.enterApproach, State.raiseNextTarget, hslot, Option.bind_some, htarget, Option.getD_some]
    refine State.raise_link_congr _ ?_
    simp [State.latch, State.takeFromCradle]
  unfold State.completePick
  cases hhold : s.place.holdPose with
  | false => exact hnext
  | true => exact State.raise_link_congr _ hnext

end Completion

/-- The cradle emptied is the one that the pick completes from, and CONVEYOR HOLD is judged (R86, R128). -/
theorem State.takeFromCradle_cradles (s : State) (c : CradleId) (b : CradleBrick) {t : State}
    (h : t.cradles = (s.takeFromCradle c b).cradles) (hm : t.mode = s.mode) :
    t.cradle c = .empty ∧ (∀ d, d ≠ c → t.cradle d = s.cradle d) ∧ t.conveyorHeld := by
  have hcradle (d : CradleId) : t.cradle d = (s.takeFromCradle c b).cradle d := State.cradle_of_cradles _ _ h d
  have hmode : t.mode = (s.takeFromCradle c b).mode := hm.trans (by simp [State.takeFromCradle])
  refine ⟨(hcradle c).trans (State.setCradle_self _ _ _), fun d hd => (hcradle d).trans ?_, ?_⟩
  · exact State.setCradle_other _ _ _ _ hd
  · exact State.conveyorHeld_of_eq h (congrArg _ hmode) (congrArg _ hmode) (State.setCradle_conveyorHeld _ _ _)

/-- GRIPPED has no effect but its level in FAULTED and outside PICKING (R127). -/
theorem State.grippedAsserted_of_not_picking {s : State} (h : s.mode.mode = .faulted ∨ s.place.state ≠ .picking) :
    s.grippedAsserted = { s with place := { s.place with gripped := true } } := by
  by_cases hf : s.mode.mode = .faulted
  · simp only [State.grippedAsserted, State.faulted_eq_true hf, if_true]
  · simp only [State.grippedAsserted, State.faulted_eq_false hf, Bool.false_eq_true, if_false, if_pos (h.resolve_left hf)]

section Gripped

variable {s : State} {c : CradleId} {b : CradleBrick} {due : Option Time} (hmode : s.mode.mode ≠ .faulted)
  (hpicking : s.place.state = .picking) (hcradle : s.place.pickCradle = some c) (hready : s.cradle c = .ready b due)
include hmode hpicking hcradle hready

theorem State.grippedAsserted_of_live (hmark : b.brick.mark = none) :
    s.grippedAsserted = State.completePick { s with place := { s.place with gripped := true } } c b := by
  simp only [State.grippedAsserted, State.faulted_eq_false hmode, Bool.false_eq_true, if_false,
    if_neg (not_not.mpr hpicking), hcradle, hready, Cradle.brick?, hmark]

theorem State.grippedAsserted_of_marked {r : RejectReason} (hmark : b.brick.mark = some r) :
    s.grippedAsserted = State.abandonPick { s with place := { s.place with gripped := true } } c b r := by
  simp only [State.grippedAsserted, State.faulted_eq_false hmode, Bool.false_eq_true, if_false,
    if_neg (not_not.mpr hpicking), hcradle, hready, Cradle.brick?, hmark]

end Gripped

/-- Settles O40: by the mark of the brick in the pick cradle. -/
theorem pickCompletionTakesTheBrick : Obligations.PickCompletionTakesTheBrick := by
  unfold Obligations.PickCompletionTakesTheBrick
  refine fun s => ⟨fun h => next_beginFrame_congr (State.grippedAsserted_of_not_picking h),
    fun c b due hmode hpicking hcradle hready => ?_⟩
  generalize hu : ({ s with place := { s.place with gripped := true } } : State) = u
  have hdeadline : (u.cradle c).deadline? = due := by
    subst hu
    exact congrArg Cradle.deadline? hready
  cases hmark : b.brick.mark with
  | none =>
    have hassert := State.grippedAsserted_of_live hmode hpicking hcradle hready hmark
    have hmove := u.completePick_pickMove c b
    have hcradles := State.takeFromCradle_cradles u c b (u.completePick_cradles c b) hmove.mode
    have hplace := u.completePick_place c b
    have hcomp := u.completePick_comp c b
    have hlink (sl : Slot) (target : Vec3) := State.completePick_link u c b (sl := sl) (target := target)
    rw [hdeadline] at hplace
    subst hu
    obtain ⟨hempty, hothers, hheld⟩ := hcradles
    exact ⟨_, next_beginFrame_congr hassert, hempty, hothers, hheld, fun _ => ⟨hplace, hcomp,
      fun sl target hsl htarget => (hlink sl target hsl htarget).trans (State.raisedLink_congr _ rfl)⟩, nofun, hmove.plan,
      hmove.feed, hmove.train, hmove.adhesive, hmove.pose, hmove.datum, hmove.zone, hmove.mode, hmove.clock⟩
  | some r =>
    have hassert := State.grippedAsserted_of_marked hmode hpicking hcradle hready hmark
    have hmove := u.abandonPick_pickMove c b r
    have hcradles := State.takeFromCradle_cradles u c b (t := u.abandonPick c b r) rfl hmove.mode
    have hplace := u.abandonPick_place c b r
    have hcomp : (u.abandonPick c b r).comp = { u.comp with setpoints := ⟨0, 0, 0, 0⟩ } := by
      simp [State.abandonPick, State.takeFromCradle, State.centre]
    have hlink : (u.abandonPick c b r).link = u.link := by simp [State.abandonPick, State.takeFromCradle]
    subst hu
    obtain ⟨hempty, hothers, hheld⟩ := hcradles
    refine ⟨_, next_beginFrame_congr hassert, hempty, hothers, hheld, nofun, fun r' hr => ?_, hmove.plan,
      hmove.feed, hmove.train, hmove.adhesive, hmove.pose, hmove.datum, hmove.zone, hmove.mode, hmove.clock⟩
    obtain rfl := Option.some.inj hr
    exact ⟨hplace, hcomp, hlink⟩

end Sys2Proof.Machine
end

