-- ==== Sys2Proof/Proofs/Rejecting.lean ====
section
/-! The events that take a brick away or lay it: the zone re-check at the pick, the release dwell, MISCUT, the open time, ABANDON
(R17, R20, R47, R61 to R64, R76, R99 to R101, R138, R142, R143). -/

namespace Sys2Proof.Machine

/-- Which notices a change of the plan asks for depends on the two plans alone. -/
theorem State.planNotices_congr {s s' t t' : State} {ns : List Notice} (h : s.planNotices t ns) (hs : s'.plan = s.plan)
    (ht : t'.plan = t.plan) : s'.planNotices t' ns := by
  obtain ⟨hplan, hspent⟩ := h
  refine ⟨hplan, fun b hactive hnow => ?_⟩
  rw [State.bank_of_plan s s' hs] at hactive
  rw [State.bank_of_plan t t' ht] at hnow
  have hsame : t'.spentNotice b = t.spentNotice b := by simp only [State.spentNotice, State.bank_of_plan t t' ht]
  exact hsame ▸ hspent b hactive hnow

theorem PlanMove.fault {s t : State} (h : PlanMove s t) : t.mode.fault = s.mode.fault := by rw [h.mode]

theorem State.raiseRejected_mode_mode (s : State) (b : Brick) (r : RejectReason) :
    (s.raiseRejected b r).mode.mode = s.mode.mode := by
  rw [State.raiseRejected, State.raise_mode]
  rfl

/-- Every reject reason but COURSE ENDED and PURGED sets the reject-seen flag (R159). -/
theorem State.raiseRejected_sees (s : State) (b : Brick) {r : RejectReason} (h : r ≠ .courseEnded ∧ r ≠ .purged) :
    (s.raiseRejected b r).mode.rejectSeen = true := by
  rw [State.raiseRejected, State.raise_mode, State.learnReject_eq]
  simp [h]

theorem State.raiseRejected_link (s : State) (b : Brick) (r : RejectReason) :
    (s.raiseRejected b r).link = s.raisedLink [.rejected b.tag b.bank b.slot r] :=
  State.raise_link_congr _ (State.learnReject_link _ _ _)

/-- A live brick takes the mark (R82). -/
theorem CradleBrick.marked_of_live {b : CradleBrick} (h : b.brick.mark = none) (r : RejectReason) :
    b.marked r = { b with brick := { b.brick with mark := some r } } := by
  rw [CradleBrick.marked, h]
  rfl

/-! ## The zone re-check fails (R47) -/

theorem State.refusePick_eq {s : State} {b : Brick} {c : CradleId} {cb : CradleBrick} (h : (s.cradle c).brick? = some cb) :
    s.refusePick b c = ((s.tip c cb .zone).recordReject b.bank b.slot .zone).raiseRejected b .zone := by
  simp only [State.refusePick, h]

/-- Settles O39: the decision's re-check fails; the tip, the slot's refusal and REJECTED (ZONE). -/
theorem pickTimeZoneFailureTipsTheBrick : Obligations.PickTimeZoneFailureTipsTheBrick := by
  unfold Obligations.PickTimeZoneFailureTipsTheBrick
  intro s b c cb due sl target hpick hready hsl hfed htarget hfails hwatch
  obtain ⟨-, hcandidate⟩ := State.mayPick_due hpick
  obtain ⟨-, cb', due', hready', hbrick, hlive⟩ := s.pickCandidate_ready b c hcandidate
  obtain ⟨rfl, rfl⟩ := Cradle.ready.inj (hready'.symm.trans hready)
  have hmark : cb'.brick.mark = none := by rwa [hbrick, ← Brick.live_iff]
  generalize hv : (s.pickChecked b).tip c cb' .zone = v
  have hdecide : s.pickDecision = (v.recordReject b.bank b.slot .zone).raiseRejected b .zone := by
    have hzone : ¬ (s.pickChecked b).zoneAdmits b = true := by
      rw [State.zoneAdmits_eq (s := s.pickChecked b) hsl htarget]
      exact Bool.eq_false_iff.mp hfails
    have hcradle : ((s.pickChecked b).cradle c).brick? = some cb' := congrArg Cradle.brick? hready
    rw [State.pickDecision_of_mayPick hpick, State.decidePick_of_unwatched c hwatch, State.recheckAndPick, if_neg hzone,
      State.refusePick_eq hcradle, hv]
  have hvsl : v.slot? b.bank b.slot = some sl := by
    subst hv
    exact (State.setCradle_slot? _ c _ _ _).trans hsl
  have hmove := v.recordReject_planMove b.bank b.slot .zone
  refine ⟨_, next_beginFrame_congr hdecide, ?tipped, ?slot, ?others, ?notices, State.raiseRejected_sees _ _ (by decide), ?mode,
    ?place, ?comp, ?train, ?adhesive, ?pose, ?clock⟩
  case tipped =>
    have hcradles : ((v.recordReject b.bank b.slot .zone).raiseRejected b .zone).cradles = v.cradles := by
      rw [State.raiseRejected_cradles, hmove.cradles]
    rw [State.cradle_of_cradles _ _ hcradles, ← hv, State.tip, State.setCradle_self, CradleBrick.marked_of_live hmark]
    rfl
  case slot =>
    rw [State.raiseRejected_slot?, State.recordReject_self v b.bank b.slot .zone sl hvsl (by rw [hfed]; rfl)]
    rfl
  case others =>
    have hkept := v.recordReject_other b.bank b.slot .zone
    subst hv
    intro c' j hne
    rw [State.raiseRejected_slot?, hkept c' j hne]
    exact State.setCradle_slot? _ c _ _ _
  case notices =>
    obtain ⟨ns, hns, hlink⟩ := v.recordReject_notices b.bank b.slot .zone
    refine ⟨ns, State.planNotices_congr hns ?_ (State.raiseRejected_plan _ _ _), ?_⟩
    · subst hv
      exact (State.tip_plan (s.pickChecked b) _ _ _).symm
    · rw [State.raiseRejected_link, State.raisedLink_append _ _ hlink]
      subst hv
      exact State.raisedLink_congr _ (State.tip_link _ _ _ _)
  case mode =>
    rw [State.raiseRejected_mode_mode, hmove.mode_mode, ← hv, State.tip_mode]
    rfl
  all_goals
    simp only [State.raiseRejected_place, State.raiseRejected_comp, State.raiseRejected_train, State.raiseRejected_adhesive,
      State.raiseRejected_pose, State.raiseRejected_clock, hmove.place, hmove.comp, hmove.train, hmove.adhesive, hmove.pose,
      hmove.clock]
    subst hv
    simp only [State.tip_place, State.tip_comp, State.tip_train, State.tip_adhesive, State.tip_pose, State.tip_clock]
    rfl

/-! ## The end of the dwell (R20, R138) -/

theorem State.releaseDwellEnd_of_stopped {s : State} (h : s.mode.mode = .faulted ∨ s.place.gripper = none ∨
    ∀ due, s.place.stepTimer ≠ .release due) : s.releaseDwellEnd = s := by
  unfold State.releaseDwellEnd
  by_cases hf : s.mode.mode = .faulted
  · rw [if_pos (State.faulted_eq_true hf)]
  · rw [State.faulted_eq_false hf, if_neg Bool.false_ne_true]
    split
    · next due g ht hg =>
      obtain h | h := h.resolve_left hf
      · exact nomatch hg.symm.trans h
      · exact absurd ht (h due)
    · rfl

theorem State.releaseDwellEnd_of_running {s : State} {due : Time} {g : GripperBrick} (hmode : s.mode.mode ≠ .faulted)
    (htimer : s.place.stepTimer = .release due) (hg : s.place.gripper = some g) (hopen : s.place.gripped = false) :
    s.releaseDwellEnd = (s.runTo due).layBrick g := by
  simp only [State.releaseDwellEnd, State.faulted_eq_false hmode, Bool.false_eq_true, if_false, htimer, hg, hopen]

/-- Settles O46: PLACED, the slot's status and the return to IDLE. -/
theorem releaseDwellEndLaysTheBrick : Obligations.ReleaseDwellEndLaysTheBrick := by
  unfold Obligations.ReleaseDwellEndLaysTheBrick
  refine fun s => ⟨fun h => next_beginFrame_congr (State.releaseDwellEnd_of_stopped h),
    fun due g sl hmode htimer hg hopen hsl => ?_⟩
  generalize ho : s.comp.outcome = o
  generalize hv : (s.runTo due).raise (.placed g.brick.tag g.brick.bank g.brick.slot o) = v
  have hlay : s.releaseDwellEnd = (v.recordStatus g.brick.bank g.brick.slot (.laid o)).returnToIdle := by
    rw [State.releaseDwellEnd_of_running hmode htimer hg hopen, ← hv, ← ho]
    rfl
  have hvsl : v.slot? g.brick.bank g.brick.slot = some sl := by
    rw [← hv, State.raise_slot?]
    exact hsl
  have hmove := ((s.runTo due).raise_planMove (.placed g.brick.tag g.brick.bank g.brick.slot o)).trans
    (hv ▸ v.recordStatus_planMove g.brick.bank g.brick.slot (.laid o))
  rw [hv] at hmove
  refine ⟨_, o, next_beginFrame_congr hlay, ho.symm, ?slot, ?others, ?place, ?comp, ?now, hmove.train, hmove.cradles, hmove.pose,
    hmove.datum, hmove.zone, ?owner, ?operation, hmove.mode_mode, hmove.fault, ?notices⟩
  case slot => exact v.recordStatus_self g.brick.bank g.brick.slot (.laid o) sl hvsl
  case others =>
    intro c j hne
    refine ((v.recordStatus_other g.brick.bank g.brick.slot (.laid o)) c j hne).trans ?_
    rw [← hv, State.raise_slot?]
    rfl
  case place =>
    have hplace : (v.recordStatus g.brick.bank g.brick.slot (.laid o)).place = s.place := hmove.place
    rw [State.returnToIdle, State.centre_place, hplace]
  case comp =>
    have hcomp : (v.recordStatus g.brick.bank g.brick.slot (.laid o)).comp = s.comp := hmove.comp
    rw [State.returnToIdle, State.centre, hcomp]
  case now => exact (congrArg Clock.now hmove.clock).trans (s.runTo_now due)
  case owner => exact (congrArg AdhesiveUnit.owner hmove.adhesive :)
  case operation => exact (congrArg AdhesiveUnit.operation hmove.adhesive :)
  case notices =>
    obtain ⟨ns, hns, hlink⟩ := v.recordStatus_notices g.brick.bank g.brick.slot (.laid o)
    refine ⟨ns, State.planNotices_congr hns ?_ rfl, ?_⟩
    · rw [← hv, State.raise_plan]
      rfl
    · refine hlink.trans ((State.raisedLink_append [.placed g.brick.tag g.brick.bank g.brick.slot o] ns ?_))
      rw [← hv]
      exact State.raise_link_congr _ rfl

end Sys2Proof.Machine
end

