-- ==== Sys2Proof/Proofs/Spoiling.lean ====
section
/-! The brick-specific rejects and what follows them: the open-time expiry, ABANDON and MISCUT (R17, R61 to R64, R76, R99 to R101,
R142, R143). -/

namespace Sys2Proof.Machine

/-- A brick-specific reject of a FED slot: its count rises, and it is PENDING or REFUSED (REPEATED) (R5, R17). -/
theorem State.reportBrickReject_slot {s : State} {b : Brick} {r : RejectReason} {sl : Slot} (hr : r.brickSpecific = true)
    (hsl : s.slot? b.bank b.slot = some sl) (hfed : sl.status = .fed) :
    (s.reportBrickReject b r).slot? b.bank b.slot = some { sl with
      rejectCount := sl.rejectCount + 1
      status := if sl.rejectCount + 1 < 3 then .pending else .refused .repeated } := by
  rw [State.reportBrickReject_self s b r sl hsl ((SlotStatus.isFed_iff _).mpr hfed), Slot.afterReject_brickSpecific sl r hr]

theorem State.runTo_bricksApart {s : State} (h : s.bricksApart) (due : Time) : (s.runTo due).bricksApart :=
  State.bricksApart_of_eq rfl rfl h

/-! ## The open time of a cradle brick (R99 to R101) -/

theorem State.openTimeExpiry_of_ready {s : State} {c : CradleId} {b : CradleBrick} {due : Time} (hmode : s.mode.mode ≠ .faulted)
    (hready : s.cradle c = .ready b (some due)) : s.openTimeExpiry (.cradle c) = (s.runTo due).spoilInCradle c b := by
  simp only [State.openTimeExpiry, State.faulted_eq_false hmode, Bool.false_eq_true, if_false, hready]

section Spoiled

variable {v : State} {c : CradleId} {b : CradleBrick} (hlive : b.brick.mark = none)
include hlive

theorem State.spoilInCradle_of_pick (hpick : v.place.pickCradle = some c) : v.spoilInCradle c b =
    (v.setCradle c (.ready (b.withMark .spoiled) none)).reportBrickReject b.brick .spoiled := by
  rw [State.spoilInCradle, if_pos hpick, CradleBrick.marked_of_live hlive]
  rfl

theorem State.spoilInCradle_of_tip (hpick : v.place.pickCradle ≠ some c) : v.spoilInCradle c b =
    ((v.setCradle c (.tipping (b.withMark .spoiled) (v.clock.now + tipTicks))).raiseRejected b.brick
      .spoiled).reportBrickReject b.brick .spoiled := by
  rw [State.spoilInCradle, if_neg hpick, State.tip, CradleBrick.marked_of_live hlive]
  rfl

/-- What the expiry of a live cradle brick does to its slot and to the bricks behind it, in the pick cradle and in any other. -/
theorem State.spoilInCradle_follows {sl : Slot} {due : Option Time} (hf : v.faulted = false)
    (hready : v.cradle c = .ready b due) (hsl : v.slot? b.brick.bank b.brick.slot = some sl) (hfed : sl.status = .fed) :
    (v.spoilInCradle c b).slot? b.brick.bank b.brick.slot = some { sl with
      rejectCount := sl.rejectCount + 1
      status := if sl.rejectCount + 1 < 3 then .pending else .refused .repeated } ∧
    (v.bricksApart → v.followsReject (v.spoilInCradle c b) b.brick (sl.rejectCount + 1)
      (if v.place.pickCradle = some c then [] else [.rejected b.brick.tag b.brick.bank b.brick.slot .spoiled])) := by
  have hbrick : (v.cradle c).brick? = some b := congrArg Cradle.brick? hready
  by_cases hpick : v.place.pickCradle = some c
  · rw [State.spoilInCradle_of_pick hlive hpick, if_pos hpick]
    refine ⟨State.reportBrickReject_slot rfl ((State.setCradle_slot? _ _ _ _ _).trans hsl) hfed, fun hapart => ?_⟩
    have hpoint := v.setCradle_rejectPoint c (.ready (b.withMark .spoiled) none) b (b.withMark .spoiled) hf hapart hbrick rfl
      rfl nofun
    exact hpoint.follows hapart .spoiled rfl sl hsl hfed _ (State.setCradle_link _ _ _)
  · rw [State.spoilInCradle_of_tip hlive hpick, if_neg hpick]
    refine ⟨State.reportBrickReject_slot rfl ?_ hfed, fun hapart => ?_⟩
    · rw [State.raiseRejected_slot?, State.setCradle_slot?]
      exact hsl
    · have hpoint := v.setCradle_rejectPoint c (.tipping (b.withMark .spoiled) (v.clock.now + tipTicks)) b
        (b.withMark .spoiled) hf hapart hbrick rfl rfl (fun y d h => (Cradle.tipping.inj h).1 ▸ Option.some_ne_none _)
      refine (hpoint.raiseRejected .spoiled).follows hapart .spoiled rfl sl hsl hfed _ ?_
      rw [State.raiseRejected_link]
      exact State.raisedLink_congr _ (State.setCradle_link _ _ _)

end Spoiled

/-- Settles O36: the two ways of R100 and R101, and the reject that follows both. -/
theorem openTimeExpirySpoilsTheCradleBrick : Obligations.OpenTimeExpirySpoilsTheCradleBrick := by
  unfold Obligations.OpenTimeExpirySpoilsTheCradleBrick
  intro s c b due sl hmode hready hlive hsl hfed
  have hexpire := State.openTimeExpiry_of_ready hmode hready
  obtain ⟨hslot, hfollows⟩ := State.spoilInCradle_follows (v := s.runTo due) hlive (State.faulted_eq_false hmode) hready hsl hfed
  have hmove := (s.runTo due).spoilInCradle_pathMove c b
  refine ⟨_, next_beginFrame_congr hexpire, (congrArg Clock.now hmove.clock).trans (s.runTo_now due), fun hpick => ?tipped,
    fun hpick => ?marked, hslot, fun hapart => hfollows (State.runTo_bricksApart hapart due), fun hheld => hmove.held hheld,
    hmove.mode_mode, hmove.place, hmove.comp, hmove.pose, hmove.datum, hmove.zone⟩
  case tipped =>
    rw [State.spoilInCradle_of_tip (v := s.runTo due) hlive hpick]
    generalize hv : (s.runTo due).setCradle c (.tipping (b.withMark .spoiled) ((s.runTo due).clock.now + tipTicks)) = v
    have hcradle : (v.raiseRejected b.brick .spoiled).cradle c =
        .tipping (b.withMark .spoiled) ((s.runTo due).clock.now + tipTicks) := by
      rw [State.cradle_of_cradles _ _ (State.raiseRejected_cradles _ _ _), ← hv, State.setCradle_self]
    exact ⟨(State.reportBrickReject_cradle _ _ _ c (.inl ⟨_, _, hcradle⟩)).trans hcradle,
      State.reportBrickReject_rejectSeen _ _ _ (State.raiseRejected_sees _ _ (by decide))⟩
  case marked =>
    rw [State.spoilInCradle_of_pick (v := s.runTo due) hlive hpick]
    have hcradle := (s.runTo due).setCradle_self c (.ready (b.withMark .spoiled) none)
    exact (State.reportBrickReject_cradle _ _ _ c (.inr ⟨_, _, hcradle, rfl⟩)).trans hcradle

/-! ## ABANDON and the open time of the held brick (R101, R142, R143) -/

theorem State.openTimeExpiry_gripper_of_stopped {s : State} (h : s.mode.mode = .faulted ∨
    s.place.state ≠ .approach ∧ s.place.state ≠ .settling ∨ s.place.gripper.bind GripperBrick.deadline = none) :
    s.openTimeExpiry .gripper = s := by
  by_cases hf : s.mode.mode = .faulted
  · simp only [State.openTimeExpiry, State.faulted_eq_true hf, if_true]
  simp only [State.openTimeExpiry, State.faulted_eq_false hf, Bool.false_eq_true, if_false]
  cases hg : s.place.gripper with
  | none => rfl
  | some g =>
    cases hd : g.deadline with
    | none => simp only [hd]
    | some due =>
      obtain h | h := h.resolve_left hf
      · simp only [hd, PlacementState.holdsBrick_eq_false h, Bool.false_eq_true, if_false]
      · rw [hg] at h
        exact nomatch h.symm.trans hd

section Held

variable {s : State} {g : GripperBrick} (hstate : s.place.state = .approach ∨ s.place.state = .settling)
  (hg : s.place.gripper = some g)
include hstate hg

theorem State.openTimeExpiry_gripper_of_running {due : Time} (hmode : s.mode.mode ≠ .faulted) (hdue : g.deadline = some due) :
    s.openTimeExpiry .gripper = (s.runTo due).enterAbandoning g .spoiled := by
  have hholds : s.place.state.holdsBrick = true := (PlacementState.holdsBrick_iff _).mpr hstate
  simp only [State.openTimeExpiry, State.faulted_eq_false hmode, Bool.false_eq_true, if_false, hg, hdue, hholds, if_true]

theorem State.takeAbandon_of_held (hmode : s.mode.mode = .paused) : s.takeAbandon = (s.enterAbandoning g .abandoned,
    .ok [fieldU8 g.brick.tag.toNat, fieldU8 g.brick.bank.code, fieldU8 g.brick.slot]) := by
  have hholds : s.place.state.holdsBrick = true := (PlacementState.holdsBrick_iff _).mpr hstate
  simp only [State.takeAbandon, if_neg (not_not.mpr hmode), hholds, Bool.not_true, Bool.false_eq_true, if_false, hg]

omit hstate in
/-- The entry to ABANDONING for a brick-specific reason, at a time `v` that stands for `s` (R142). -/
theorem State.enterAbandoning_follows {r : RejectReason} {sl : Slot} (hr : r.brickSpecific = true) (hf : s.faulted = false)
    (hsl : s.slot? g.brick.bank g.brick.slot = some sl) (hfed : sl.status = .fed) :
    (s.enterAbandoning g r).slot? g.brick.bank g.brick.slot = some { sl with
      rejectCount := sl.rejectCount + 1
      status := if sl.rejectCount + 1 < 3 then .pending else .refused .repeated } ∧
    (s.bricksApart → s.followsReject (s.enterAbandoning g r) g.brick (sl.rejectCount + 1) []) := by
  rw [State.enterAbandoning_eq, if_pos hr]
  exact ⟨State.reportBrickReject_slot hr hsl hfed,
    fun hapart => (s.abandoningState_rejectPoint g r hf hapart hg).follows hapart r hr sl hsl hfed [] rfl⟩

end Held

/-- Settles O48: ABANDON refused by the mode and the placement state, and the entry to ABANDONING at either event. -/
theorem abandonCarriesTheHeldBrickAway : Obligations.AbandonCarriesTheHeldBrickAway := by
  unfold Obligations.AbandonCarriesTheHeldBrickAway
  refine fun s tag => ⟨fun hidle => ⟨fun hmode => ?notPaused, fun hmode ha hs => ?notHeld⟩,
    fun h => next_beginFrame_congr (State.openTimeExpiry_gripper_of_stopped h),
    fun g sl hstate hg hsl hfed => ⟨fun hidle hmode => ?abandon, fun due hmode hdue => ?expiry⟩⟩
  case notPaused => exact exec_abandon_of_take hidle (if_pos hmode)
  case notHeld =>
    have htake : s.takeAbandon = (s, .refuse .state [fieldU8 s.place.state.code]) := by
      simp only [State.takeAbandon, if_neg (not_not.mpr hmode), PlacementState.holdsBrick_eq_false ⟨ha, hs⟩, Bool.not_false,
        if_true]
    exact exec_abandon_of_take hidle htake
  case abandon =>
    have hf : s.faulted = false := State.faulted_eq_false (by rw [hmode]; decide)
    obtain ⟨hslot, hfollows⟩ := State.enterAbandoning_follows hg (r := .abandoned) rfl hf hsl hfed
    have hmove := s.enterAbandoning_pathMove g .abandoned
    exact ⟨_, exec_abandon_of_take hidle (State.takeAbandon_of_held hstate hg hmode), hmove.place, hmove.comp, hslot, hfollows,
      hmove.mode_mode.trans hmode, hmove.adhesive, hmove.pose, hmove.datum, hmove.zone, hmove.clock⟩
  case expiry =>
    obtain ⟨hslot, hfollows⟩ := State.enterAbandoning_follows (s := s.runTo due) hg (r := .spoiled) rfl
      (State.faulted_eq_false hmode) hsl hfed
    have hmove := (s.runTo due).enterAbandoning_pathMove g .spoiled
    exact ⟨_, next_beginFrame_congr (State.openTimeExpiry_gripper_of_running hstate hg hmode hdue), hmove.place, hmove.comp,
      hslot, fun hapart => hfollows (State.runTo_bricksApart hapart due), hmove.mode_mode,
      (congrArg Clock.now hmove.clock).trans (s.runTo_now due), hmove.pose, hmove.datum, hmove.zone⟩

end Sys2Proof.Machine
end

