-- ==== Sys2Proof/Proofs/Miscut.lean ====
section
/-! BRICK LOADED on a brick beyond tolerance: MISCUT and what follows it (R5, R17, R61 to R64, R76). -/

namespace Sys2Proof.Machine

/-- A reject mark written on the brick of a serial number (R74). -/
def markBrick (serial : Nat) (r : RejectReason) (b : Brick) : Brick :=
  if b.serial = serial then { b with mark := some (b.mark.getD r) } else b

theorem markBrick_serial (serial : Nat) (r : RejectReason) (b : Brick) : (markBrick serial r b).serial = b.serial := by
  unfold markBrick
  split <;> rfl

theorem markBrick_of_ne {serial : Nat} {r : RejectReason} {b : Brick} (h : b.serial ≠ serial) : markBrick serial r b = b :=
  if_neg h

theorem markEntry_eq (serial : Nat) (r : RejectReason) (es : List TrainEntry) :
    markEntry serial r es = es.map fun e => { e with brick := markBrick serial r e.brick } := by
  refine List.map_congr_left fun e _ => ?_
  unfold markBrick
  split <;> rfl

theorem markEntry_bricks (serial : Nat) (r : RejectReason) (es : List TrainEntry) :
    (markEntry serial r es).map TrainEntry.brick = es.map fun e => markBrick serial r e.brick := by
  rw [markEntry_eq, List.map_map]
  rfl

/-- The mark leaves the entries of every other serial number as they were. -/
theorem markEntry_filter (serial : Nat) (r : RejectReason) (es : List TrainEntry) {n : Nat} (h : n ≠ serial) :
    (markEntry serial r es).filter (fun e => decide (e.brick.serial = n)) =
      es.filter fun e => decide (e.brick.serial = n) := by
  induction es with
  | nil => rfl
  | cons e es ih =>
    rw [markEntry_eq] at ih ⊢
    by_cases he : e.brick.serial = n
    · have hne : e.brick.serial ≠ serial := he ▸ h
      simp [he, markBrick_of_ne hne, ih]
    · simp [he, markBrick_serial, ih]

section Loaded

variable {s : State} {older younger : List TrainEntry} {e : TrainEntry} (hentries : s.train.entries = older ++ e :: younger)

/-- The entries of the train once the miscut brick is loaded and marked (R75, R76). -/
def State.miscutEntries (s : State) (older younger : List TrainEntry) (e : TrainEntry) (m : BitVec 16) : List TrainEntry :=
  markEntry e.brick.serial .miscut (s.loadedTrain older younger e m).train.entries

theorem State.loadedTrain_miscut (m : BitVec 16) : (s.loadedTrain older younger e m).miscut e.brick =
    ((s.setEntries (s.miscutEntries older younger e m)).raiseRejected e.brick .miscut).reportBrickReject e.brick .miscut := rfl

include hentries in
theorem State.miscutEntries_rejectPoint (m : BitVec 16) (hf : s.faulted = false) (hapart : s.bricksApart) :
    RejectPoint s (s.setEntries (s.miscutEntries older younger e m)) e.brick := by
  refine s.setEntries_rejectPoint e.brick _ (markBrick e.brick.serial .miscut) hf hapart (markBrick_serial _ _)
    (fun y hy => markBrick_of_ne hy) ?_ fun n hn => ?_
  · rw [State.miscutEntries, markEntry_bricks, hentries]
    simp [State.loadedTrain]
  · rw [State.miscutEntries, markEntry_filter _ _ _ hn, hentries]
    simp [State.loadedTrain, hn.symm]

theorem State.mem_miscutEntries (m : BitVec 16) (hmark : e.brick.mark = none) : ∃ x ∈ s.miscutEntries older younger e m,
    x.brick.serial = e.brick.serial ∧ x.brick.mark = some .miscut ∧ x.state = .inTransit ∧ x.measured = some m.toNat := by
  rw [State.miscutEntries, markEntry_eq]
  refine ⟨_, List.mem_map.mpr ⟨_, List.mem_append_right older List.mem_cons_self, rfl⟩, ?_, ?_, rfl, rfl⟩
  · exact markBrick_serial _ _ _
  · simp [markBrick, hmark]

end Loaded

/-- Settles O29: the miscut brick's reject, from the train loaded and marked. -/
theorem miscutMarksTheEntryAndCountsAgainstTheSlot : Obligations.MiscutMarksTheEntryAndCountsAgainstTheSlot := by
  unfold Obligations.MiscutMarksTheEntryAndCountsAgainstTheSlot
  rintro s tag m older younger e _ _ sl hidle hmode hentries holder hrequested hmark rfl rfl hsl hfed hdev
  have htake := State.takeBrickLoaded_of_tag (m := m) hmode hentries holder hrequested rfl
  change s.feed.tolerance < (deviation m.toNat e.planned).natAbs at hdev
  rw [if_neg (Nat.not_le.mpr hdev), State.loadedTrain_miscut] at htake
  generalize hv : (s.setEntries (s.miscutEntries older younger e m)).raiseRejected e.brick .miscut = v at htake
  have hvsl : v.slot? e.brick.bank e.brick.slot = some sl := by
    rw [← hv, State.raiseRejected_slot?, State.setEntries_slot?]
    exact hsl
  have hmove := v.reportBrickReject_pathMove e.brick .miscut
  refine ⟨_, exec_brickLoaded_of_take hidle htake, State.reportBrickReject_slot rfl hvsl hfed, ?entry, fun hapart => ?follows,
    ?seen, ?frame⟩
  case entry =>
    obtain ⟨x, hx, hserial, hrest⟩ := State.mem_miscutEntries (s := s) (older := older) (younger := younger) m hmark
    refine ⟨x, State.reportBrickReject_keepsEntry v e.brick .miscut x ?_ hserial, hserial, hrest⟩
    rw [← hv, State.raiseRejected_train]
    exact hx
  case follows =>
    have hpoint := (State.miscutEntries_rejectPoint hentries m (State.faulted_eq_false hmode) hapart).raiseRejected .miscut
    rw [hv] at hpoint
    refine hpoint.follows hapart .miscut rfl sl hsl hfed _ ?_
    rw [← hv, State.raiseRejected_link]
    exact State.raisedLink_congr _ rfl
  case seen =>
    refine State.reportBrickReject_rejectSeen _ _ _ ?_
    rw [← hv]
    exact State.raiseRejected_sees _ _ (by decide)
  case frame =>
    rw [hmove.mode_mode, hmove.place, hmove.comp, hmove.pose, hmove.adhesive, hmove.datum, hmove.zone, hmove.clock]
    subst hv
    rw [State.raiseRejected_mode_mode]
    simp

end Sys2Proof.Machine
end

