-- ==== Sys2Proof/Proofs/SkipSlot.lean ====
section
/-! SKIP SLOT (R14, R18, R58, R65): the slot SKIPPED, and the bank that holds nothing to be laid any more. -/

namespace Sys2Proof.Machine

/-! ## The slot recorded, before the spent test -/

/-- The slot SKIPPED and the supply mark re-evaluated (R65, R70). -/
def State.slotSkipped (s : State) (b : BankId) (i : Nat) (sl : Slot) : State :=
  (s.setSlot b i { sl with status := .skipped }).evalSupply

theorem State.recordStatus_skipped {s : State} {b : BankId} {i : Nat} {sl : Slot} (h : s.slot? b i = some sl) :
    s.recordStatus b i .skipped = (s.slotSkipped b i sl).spendIfDue b := by
  simp only [State.recordStatus, h, State.slotSkipped]

/-- A bank holds nothing to be laid when none of its slots is PENDING or FED. -/
theorem State.count_isOpen_eq_zero_iff (s : State) (b : BankId) : (s.bank b).count SlotStatus.isOpen = 0 ↔
    ∀ j x, s.slot? b j = some x → x.status ≠ .pending ∧ x.status ≠ .fed := by
  have hopen (st : SlotStatus) : ¬ st.isOpen = true ↔ st ≠ .pending ∧ st ≠ .fed := by
    cases st <;> simp [SlotStatus.isOpen, SlotStatus.isPending, SlotStatus.isFed]
  rw [Bank.count, List.countP_eq_zero]
  simp only [hopen, List.mem_iff_getElem?, State.slot?]
  exact ⟨fun h j x hx => h x ⟨j, hx⟩, fun h x ⟨j, hx⟩ => h j x hx⟩

section Skipped

variable (s : State) (b : BankId) (i : Nat) (sl : Slot)

theorem State.slotSkipped_bank (c : BankId) :
    (s.slotSkipped b i sl).bank c = (s.setSlot b i { sl with status := .skipped }).bank c :=
  State.bank_of_plan _ _ (State.evalSupply_plan _) c

theorem State.slotSkipped_other : (s.slotSkipped b i sl).bank b.other = s.bank b.other :=
  (s.slotSkipped_bank b i sl b.other).trans (s.setBank_bank_other b _ _ b.other_ne)

theorem State.slotSkipped_state (c : BankId) : ((s.slotSkipped b i sl).bank c).state = (s.bank c).state := by
  rw [s.slotSkipped_bank b i sl c, State.setSlot_state]

theorem State.slotSkipped_length (c : BankId) : ((s.slotSkipped b i sl).bank c).slots.length = (s.bank c).slots.length := by
  by_cases h : c = b
  · subst h
    rw [s.slotSkipped_bank c i sl c, State.setSlot, State.setBank_bank_self]
    exact List.length_set
  · rw [s.slotSkipped_bank b i sl c, State.setSlot, State.setBank_bank_other _ _ _ _ h]

theorem State.slotSkipped_order : (s.slotSkipped b i sl).plan.order = s.plan.order :=
  (congrArg PlanStore.order (State.evalSupply_plan _)).trans (s.setBank_order b _)

theorem State.slotSkipped_mode : (s.slotSkipped b i sl).mode = s.mode := (State.evalSupply_mode _).trans (s.setSlot_mode b i _)

theorem State.slotSkipped_point : (s.slotSkipped b i sl).feed.pointer = s.feed.pointer ∧
    (s.slotSkipped b i sl).feed.cursor = s.feed.cursor ∧ (s.slotSkipped b i sl).feed.bankNeeded = s.feed.bankNeeded := by
  rw [State.slotSkipped, State.evalSupply_feed]
  exact ⟨rfl, rfl, rfl⟩

theorem State.slotSkipped_ended : (s.slotSkipped b i sl).feedState = .ended ↔ s.feedState = .ended := by
  obtain ⟨hpointer, hcursor, -⟩ := s.slotSkipped_point b i sl
  rw [State.feedState_ended, State.feedState_ended, hpointer, hcursor, s.slotSkipped_state b i sl, s.slotSkipped_length b i sl]

variable {s b i sl} (hsl : s.slot? b i = some sl)
include hsl

theorem State.slotSkipped_slot? (j : Nat) : (s.slotSkipped b i sl).slot? b j =
    if j = i then some { sl with status := .skipped } else s.slot? b j := by
  rw [State.slotSkipped, State.evalSupply_slot?]
  by_cases hj : j = i
  · rw [if_pos hj, hj, State.setSlot_slot?_self _ _ _ _ (by rw [hsl]; rfl)]
  · rw [if_neg hj, s.setSlot_slot?_other b i _ b j (.inr hj)]

/-- The bank becomes SPENT exactly where the slot was the last to be laid (R14). -/
theorem State.slotSkipped_spentDue : (s.slotSkipped b i sl).spentDue b = true ↔ s.lastOpen b i := by
  obtain ⟨hpointer, hcursor, -⟩ := s.slotSkipped_point b i sl
  have hnone : ((s.slotSkipped b i sl).bank b).count SlotStatus.isOpen = 0 ↔
      ∀ j x, j ≠ i → s.slot? b j = some x → x.status ≠ .pending ∧ x.status ≠ .fed := by
    rw [State.count_isOpen_eq_zero_iff]
    simp only [State.slotSkipped_slot? hsl]
    constructor
    · exact fun h j x hj hx => h j x (by rwa [if_neg hj])
    · intro h j x hx
      by_cases hj : j = i
      · rw [if_pos hj] at hx
        obtain rfl := Option.some.inj hx
        exact ⟨nofun, nofun⟩
      · rw [if_neg hj] at hx
        exact h j x hj hx
  simp only [State.spentDue, State.lastOpen, Bool.and_eq_true, Bool.or_eq_true, decide_eq_true_eq, hnone, hpointer, hcursor,
    s.slotSkipped_state b i sl, s.slotSkipped_length b i sl, and_assoc]

end Skipped

/-! ## The spent test where it is due -/

section Spending

variable {s : State} {b : BankId} (hdue : s.spentDue b = true)
include hdue

theorem State.spendIfDue_of_not_ended (h : ¬ (b ≠ s.feed.pointer ∧ s.feedState = .ended)) :
    s.spendIfDue b = (s.spend b).needBank := by
  have hended : ¬ (decide (s.feedState = .ended) && decide (b ≠ s.feed.pointer)) = true := by
    simpa [and_comm] using h
  simp only [State.spendIfDue, hdue, if_true, if_neg hended]

theorem State.spendIfDue_of_ended (hb : b ≠ s.feed.pointer) (hended : s.feedState = .ended) :
    s.spendIfDue b = (s.spend b).walkEnd := by
  simp [State.spendIfDue, hdue, hended, hb]

end Spending

theorem State.needBank_plan (s : State) : s.needBank.plan = s.plan := by
  unfold State.needBank
  split
  · exact State.raise_plan _ _
  · rfl

theorem State.feedState_of_spent {s : State} (h : (s.bank s.feed.pointer).state = .spent) : s.feedState = .waiting := by
  simp only [State.feedState, h]

/-- A walk that ends where the other bank is SPENT asks for a bank (R58, R59). -/
theorem State.walkEnd_needs {s : State} (h : (s.bank s.feed.pointer.other).state = .spent) :
    s.walkEnd.feed.bankNeeded = true ↔ s.mode.mode = .laying := by
  generalize hw : s.moveCursor s.feed.pointer.other 0 = w
  have hend : s.walkEnd = w.needBank := by simp only [State.walkEnd, h, hw]
  obtain ⟨hpointer, -⟩ := s.moveCursor_point s.feed.pointer.other 0
  have hmode := (s.moveCursor_planMove s.feed.pointer.other 0).mode_mode
  have hneeded : w.feed.bankNeeded = false := by
    rw [← hw, State.moveCursor, State.testSpent_feed]
    exact (State.placeCursor_needed _ _ _).trans (if_neg s.feed.pointer.other_ne)
  have hspent : (w.bank w.feed.pointer).state = .spent := by
    rw [hw] at hpointer
    rw [hpointer, ← hw]
    obtain hsame | ⟨hactive, -⟩ := (s.moveCursor_spendMove s.feed.pointer.other 0).states s.feed.pointer.other
    · exact hsame.trans h
    · exact nomatch hactive.symm.trans h
  rw [hw] at hmode
  rw [hend, ← hmode]
  by_cases hlaying : w.mode.mode = .laying
  · rw [State.needBank_of_due hlaying (State.feedState_of_spent hspent) hneeded]
    simp [hlaying]
  · have hnone : w.needBank = w := if_neg fun hdue => hlaying ((State.bankNeededDue_iff _).mp hdue).1
    simp [hnone, hneeded, hlaying]

/-! ## What the skip leaves -/

section Left

variable {s : State} {b : BankId} {i : Nat} {sl : Slot} (hsl : s.slot? b i = some sl)
include hsl

theorem State.skip_of_not_last (hlast : ¬ s.lastOpen b i) : s.recordStatus b i .skipped = s.slotSkipped b i sl := by
  rw [State.recordStatus_skipped hsl]
  refine (State.spendIfDue_point _ b).1 (Bool.eq_false_iff.mpr fun hdue => hlast ?_)
  exact (State.slotSkipped_spentDue hsl).mp hdue

variable (hlast : s.lastOpen b i)
include hlast

theorem State.skip_of_last_not_ended (h : ¬ (b ≠ s.feed.pointer ∧ s.feedState = .ended)) :
    s.recordStatus b i .skipped = ((s.slotSkipped b i sl).spend b).needBank := by
  rw [State.recordStatus_skipped hsl, State.spendIfDue_of_not_ended ((State.slotSkipped_spentDue hsl).mpr hlast)]
  rwa [(s.slotSkipped_point b i sl).1, s.slotSkipped_ended b i sl]

theorem State.skip_of_last_ended (hb : b ≠ s.feed.pointer) (hended : s.feedState = .ended) :
    s.recordStatus b i .skipped = ((s.slotSkipped b i sl).spend b).walkEnd := by
  rw [State.recordStatus_skipped hsl, State.spendIfDue_of_ended ((State.slotSkipped_spentDue hsl).mpr hlast)]
  · rwa [(s.slotSkipped_point b i sl).1]
  · exact (s.slotSkipped_ended b i sl).mpr hended

/-- The last slot skipped, no ENDED walk waiting: the bank SPENT, pointer and cursor as they were. -/
theorem State.skip_last_not_ended (h : ¬ (b ≠ s.feed.pointer ∧ s.feedState = .ended)) :
    ((s.recordStatus b i .skipped).bank b).state = .spent ∧
      (s.recordStatus b i .skipped).feed.pointer = s.feed.pointer ∧
      (s.recordStatus b i .skipped).feed.cursor = s.feed.cursor ∧
      ((s.recordStatus b i .skipped).bank b.other).state = (s.bank b.other).state ∧
      (s.recordStatus b i .skipped).plan.order = s.plan.order.erase b := by
  rw [State.skip_of_last_not_ended hsl hlast h]
  generalize hu : s.slotSkipped b i sl = u
  have hbank (c : BankId) : (u.spend b).needBank.bank c = (u.spend b).bank c :=
    State.bank_of_plan _ _ (State.needBank_plan _) c
  obtain ⟨hpointer, hcursor⟩ := (u.spend b).needBank_point
  obtain ⟨hpointer', hcursor', -⟩ := s.slotSkipped_point b i sl
  rw [hbank, hbank, State.spend_state, State.spend_bank_other _ _ _ b.other_ne, hpointer, hcursor, State.spend_feed,
    State.needBank_plan, State.spend_order, ← hu, s.slotSkipped_other b i sl, s.slotSkipped_order b i sl]
  exact ⟨rfl, hpointer', hcursor', rfl, rfl⟩

/-- The last slot skipped where an ENDED walk waited for the bank: the walk goes on (R58). -/
theorem State.skip_last_ended (hb : b ≠ s.feed.pointer) (hended : s.feedState = .ended) :
    ((s.recordStatus b i .skipped).bank b).state = .spent ∧ (s.recordStatus b i .skipped).feed.pointer = b ∧
      (s.recordStatus b i .skipped).feed.cursor = 0 ∧ (s.recordStatus b i .skipped).feedState = .waiting ∧
      ((s.recordStatus b i .skipped).feed.bankNeeded = true ↔ s.mode.mode = .laying) ∧
      ((s.bank b.other).count SlotStatus.isOpen ≠ 0 →
        ((s.recordStatus b i .skipped).bank b.other).state = .active ∧
        (s.recordStatus b i .skipped).plan.order = s.plan.order.erase b) := by
  have hdue := (State.slotSkipped_spentDue hsl).mpr hlast
  obtain ⟨hpoint, -, -⟩ := s.slotSkipped_point b i sl
  have hended' := (s.slotSkipped_ended b i sl).mpr hended
  obtain ⟨hpointer, hcursor, hspent⟩ := (State.spendIfDue_point (s.slotSkipped b i sl) b).2.2 hdue (by rwa [hpoint]) hended'
  rw [← State.recordStatus_skipped hsl] at hpointer hcursor hspent
  have hstate : ((s.recordStatus b i .skipped).bank b).state = .spent := by rw [hspent]
  refine ⟨hstate, hpointer, hcursor, State.feedState_of_spent (by rwa [hpointer]), ?_, fun hopen => ?_⟩
  all_goals
    rw [State.skip_of_last_ended hsl hlast hb hended]
    generalize hv : (s.slotSkipped b i sl).spend b = v
    have hfrom : v.feed.pointer = b.other := by
      rw [← hv, State.spend_feed]
      exact hpoint.trans (BankId.eq_other hb.symm)
    have hother : v.bank b.other = s.bank b.other := by
      rw [← hv, State.spend_bank_other _ _ _ b.other_ne, s.slotSkipped_other b i sl]
  · rw [State.walkEnd_needs, ← hv, ((s.slotSkipped b i sl).spend_planMove b).mode_mode, s.slotSkipped_mode b i sl]
    rw [hfrom, b.other_other, ← hv, State.spend_state]
  · obtain ⟨hactive, hpast⟩ := (State.feedState_ended s).mp hended
    rw [BankId.eq_other hb.symm] at hactive hpast
    have hcursor' : v.feed.cursor = s.feed.cursor := by
      rw [← hv, State.spend_feed]
      exact (s.slotSkipped_point b i sl).2.1
    obtain ⟨-, hplan, -⟩ := v.walkEnd_left (by rwa [hfrom, hother]) (by rwa [hfrom, hother, hcursor'])
    rw [hfrom, hother] at hplan
    refine ⟨?_, ?_⟩
    · rw [State.bank_of_plan _ _ (hplan hopen), hother]
      exact hactive
    · rw [hplan hopen, ← hv, State.spend_order, s.slotSkipped_order b i sl]

end Left

section Take

variable {s : State} {bank index : Byte} {b : BankId} {sl : Slot} (hmode : s.mode.mode ≠ .faulted) (hcode : bank.toNat = b.code)
include hmode hcode

theorem State.takeSkipSlot_of_range (h : s.slot? b index.toNat = none) : s.takeSkipSlot bank index = (s, .refuse .range []) := by
  simp only [State.takeSkipSlot, State.faulted_eq_false hmode, Bool.false_eq_true, if_false, BankId.ofByte_code bank b hcode, h]

variable (hsl : s.slot? b index.toNat = some sl)
include hsl

theorem State.takeSkipSlot_of_loading (h : (s.bank b).state = .loading) :
    s.takeSkipSlot bank index = (s, .refuse .state []) := by
  simp only [State.takeSkipSlot, State.faulted_eq_false hmode, Bool.false_eq_true, if_false, BankId.ofByte_code bank b hcode,
    hsl, if_pos h]

variable (hloaded : (s.bank b).state ≠ .loading)
include hloaded

theorem State.takeSkipSlot_of_fed (h : sl.status = .fed) : s.takeSkipSlot bank index = (s, .refuse .busy []) := by
  simp only [State.takeSkipSlot, State.faulted_eq_false hmode, Bool.false_eq_true, if_false, BankId.ofByte_code bank b hcode,
    hsl, if_neg hloaded, h]

theorem State.takeSkipSlot_of_settled (hfed : sl.status ≠ .fed) (hpending : sl.status ≠ .pending) :
    s.takeSkipSlot bank index = (s, .refuse .state []) := by
  simp only [State.takeSkipSlot, State.faulted_eq_false hmode, Bool.false_eq_true, if_false, BankId.ofByte_code bank b hcode,
    hsl, if_neg hloaded]
  cases hst : sl.status with
  | pending => exact absurd hst hpending
  | fed => exact absurd hst hfed
  | _ => rfl

theorem State.takeSkipSlot_of_pending (h : sl.status = .pending) :
    s.takeSkipSlot bank index = (s.recordStatus b index.toNat .skipped, .ok []) := by
  simp only [State.takeSkipSlot, State.faulted_eq_false hmode, Bool.false_eq_true, if_false, BankId.ofByte_code bank b hcode,
    hsl, if_neg hloaded, h]

end Take

/-- Settles O15: by the slot's status, and by whether it was the last to be laid of an ACTIVE bank. -/
theorem skipSlotWithdrawsOnlyPendingSlots : Obligations.SkipSlotWithdrawsOnlyPendingSlots := by
  unfold Obligations.SkipSlotWithdrawsOnlyPendingSlots
  intro s tag bank index b hidle hmode hcode
  refine ⟨fun hout => exec_skipSlot_of_take hidle
      (State.takeSkipSlot_of_range hmode hcode (List.getElem?_eq_none_iff.mpr hout)), fun sl hsl =>
    ⟨fun hloading => exec_skipSlot_of_take hidle (State.takeSkipSlot_of_loading hmode hcode hsl hloading), fun hloaded =>
    ⟨fun hfed => exec_skipSlot_of_take hidle (State.takeSkipSlot_of_fed hmode hcode hsl hloaded hfed),
    fun hfed hpending => exec_skipSlot_of_take hidle (State.takeSkipSlot_of_settled hmode hcode hsl hloaded hfed hpending),
    fun hpending => ?skipped⟩⟩⟩
  have hmove := s.recordStatus_planMove b index.toNat .skipped
  refine ⟨_, exec_skipSlot_of_take hidle (State.takeSkipSlot_of_pending hmode hcode hsl hloaded hpending),
    s.recordStatus_self b _ _ sl hsl, s.recordStatus_other b _ _, fun hlast => ?more, fun hlast => ⟨?spent,
    fun h => (State.skip_last_not_ended hsl hlast h).2, fun hb hended => (State.skip_last_ended hsl hlast hb hended).2⟩,
    s.recordStatus_notices b _ _, hmove.datum, hmove.zone, hmove.train, hmove.cradles, hmove.adhesive, hmove.pose, hmove.comp,
    hmove.place, hmove.mode_mode, hmove.clock⟩
  case more =>
    rw [State.skip_of_not_last hsl hlast]
    obtain ⟨hpointer, hcursor, hneeded⟩ := s.slotSkipped_point b index.toNat sl
    exact ⟨hpointer, hcursor, hneeded, s.slotSkipped_state b _ sl, s.slotSkipped_order b _ sl, s.slotSkipped_mode b _ sl⟩
  case spent =>
    by_cases h : b ≠ s.feed.pointer ∧ s.feedState = .ended
    · exact (State.skip_last_ended hsl hlast h.1 h.2).1
    · exact (State.skip_last_not_ended hsl hlast h).1

end Sys2Proof.Machine
end

