-- ==== Sys2Proof/Proofs/Flushing.lean ====
section
/-! The edits of the site geometry that flush targets: SET DATUM, SET ZONE BOX and SET ZONE ROW (R36, R37, R41 to R43, R61, R62). -/

namespace Sys2Proof.Machine

/-- What a flush leaves is told of the plan, the walk and the link alone, which a geometry edit does not touch. -/
theorem State.flushedBy_congr {s w t : State} {p : BankId → Bool} {removed returned : Nat}
    (h : w.flushedBy t p removed returned) (hplan : w.plan = s.plan) (hfeed : w.feed = s.feed) (hlink : w.link = s.link) :
    s.flushedBy t p removed returned := by
  obtain ⟨hslots, hstates, horder, hreturned, ⟨plan, hnotices, hraised⟩, hremovals, hreturns⟩ := h
  have hbank (b : BankId) : w.bank b = s.bank b := State.bank_of_plan _ _ hplan b
  have hslot (b : BankId) (i : Nat) : w.slot? b i = s.slot? b i := by rw [State.slot?, hbank, State.slot?]
  simp only [hslot, State.leavesBehind, hbank, hfeed, hplan, State.countIn] at hslots hstates horder hremovals hreturns hreturned
  exact ⟨hslots, hstates, horder, State.returnedTo_congr hreturned hplan hfeed rfl,
    ⟨plan, State.planNotices_congr hnotices hplan.symm rfl, hraised.trans (State.raisedLink_congr plan hlink)⟩, hremovals,
    hreturns⟩

/-! ## SET DATUM (R36, R37) -/

/-- The state with the entry written, and its flush (R27, R36). -/
def State.datumWritten (s : State) (e : Fin 4) (d : DatumEntry) : State :=
  { s with datum := { entries := s.datum.entries.set e (some d) } }

theorem State.takeSetDatum_of_accepted {s : State} {entry : Byte} {d : DatumEntry} (hlt : entry.toNat < 4)
    (hfree : s.activeNaming ⟨entry.toNat, hlt⟩ = none) (hfields : d.rangeFault = none) {f : FlushResult}
    (hf : f = (s.datumWritten ⟨entry.toNat, hlt⟩ d).flush
      fun b => decide ((s.bank b).state = .ready) && (s.bank b).names ⟨entry.toNat, hlt⟩) :
    s.takeSetDatum entry d = (f.state.testMove (s.datumWritten ⟨entry.toNat, hlt⟩ d),
      .ok [fieldU8 entry.toNat, fieldU8 f.removed, fieldU8 f.returned]) := by
  subst hf
  simp only [State.takeSetDatum, dif_pos hlt, hfree, hfields, State.datumWritten]

/-- Settles O17: the entry written and the flush of the READY banks that name it (`State.flush_flushedBy`). -/
theorem setDatumFlushesTheReadyBanksThatNameTheEntry : Obligations.SetDatumFlushesTheReadyBanksThatNameTheEntry := by
  unfold Obligations.SetDatumFlushesTheReadyBanksThatNameTheEntry
  rintro s tag entry ox oy oz cx cy hz p ⟨_, hlt⟩ hidle rfl hnotActive hox hoy hoz hnorm hhz hpLow hpHigh
  have hfields : (datumEntryOf ox oy oz cx cy hz p).rangeFault = none := by
    have horigin : ¬ (1000000 < ox.toInt.natAbs ∨ 1000000 < oy.toInt.natAbs ∨ 100000 < oz.toInt.natAbs) := by omega
    have hheight : ¬ ((hz.toNat : Int) < 0 ∨ 50000 < (hz.toNat : Int)) := by omega
    have hpitch : ¬ ((p.toNat : Int) < 1 ∨ 2000 < (p.toNat : Int)) := by omega
    exact DatumEntry.rangeFault_none horigin (headingNormOk_eq_true hnorm) hheight hpitch
  generalize hd : datumEntryOf ox oy oz cx cy hz p = d at hfields
  generalize hf : ((s.datumWritten ⟨entry.toNat, hlt⟩ d).flush
    fun b => decide ((s.bank b).state = .ready) && (s.bank b).names ⟨entry.toNat, hlt⟩) = f
  have htake := State.takeSetDatum_of_accepted hlt (State.activeNaming_eq_none hnotActive) hfields hf.symm
  rw [← hd] at htake
  have hflush := State.flush_flushedBy (s.datumWritten ⟨entry.toNat, hlt⟩ d)
    fun b => decide ((s.bank b).state = .ready) && (s.bank b).names ⟨entry.toNat, hlt⟩
  have hmove := State.flush_planMove (s.datumWritten ⟨entry.toNat, hlt⟩ d)
    fun b => decide ((s.bank b).state = .ready) && (s.bank b).names ⟨entry.toNat, hlt⟩
  rw [hf] at hflush hmove
  rw [← hd] at hflush hmove
  exact ⟨_, f.removed, f.returned, exec_setDatum_of_take hidle htake, State.flushedBy_congr hflush rfl rfl rfl,
    congrArg DatumTable.entries hmove.datum, hmove.zone, hmove.train, hmove.cradles, hmove.adhesive, hmove.pose, hmove.comp,
    hmove.place, hmove.mode_mode, hmove.fault⟩

/-! ## The zone edits (R41 to R43) -/

theorem axisFails_iff (bound lo hi : Int) : axisFails bound lo hi = true ↔
    bound < lo.natAbs ∨ bound < hi.natAbs ∨ hi < lo := by
  simp [axisFails, or_assoc]

/-- The banks that a zone edit flushes (R37). -/
def State.zoneFlushed (s : State) (b : BankId) : Bool := decide ((s.bank b).state = .ready ∨ (s.bank b).state = .active)

theorem State.zoneFlush_eq (s : State) : s.zoneFlush = s.flush s.zoneFlushed := by
  rw [State.zoneFlush]
  congr 1
  funext b
  rw [State.zoneFlushed, Bool.decide_or]

section ZoneEdit

variable {s : State}

theorem State.zoneEditable_eq_false (hsetup : s.mode.mode ≠ .setup) (hstowed : s.mode.mode ≠ .stowed) :
    s.zoneEditable = false := by
  simp [State.zoneEditable, hsetup, hstowed]

theorem State.zoneEditable_eq_true (h : s.mode.mode = .setup ∨ s.mode.mode = .stowed) : s.zoneEditable = true := by
  simpa [State.zoneEditable] using h

theorem State.takeSetZoneBox_of_refused (b : ZoneBox) (h : s.zoneEditable = false) :
    s.takeSetZoneBox b = (s, .refuse .state [fieldU8 s.mode.mode.code]) := by
  simp only [State.takeSetZoneBox, h, Bool.not_false, if_true]

theorem State.takeSetZoneBox_of_axisFault {b : ZoneBox} {axis : Nat} (h : s.zoneEditable = true) (hb : b.axisFault = some axis) :
    s.takeSetZoneBox b = (s, .refuse .range [fieldU8 axis]) := by
  simp only [State.takeSetZoneBox, h, hb, Bool.not_true, Bool.false_eq_true, if_false]

theorem State.takeSetZoneBox_of_accepted {b : ZoneBox} (h : s.zoneEditable = true) (hb : b.axisFault = none) {w : State}
    {f : FlushResult} (hw : w = { s with zone := { s.zone with box := some b } }) (hf : f = w.flush w.zoneFlushed) :
    s.takeSetZoneBox b = (f.state.testMove w, .ok [fieldU8 f.removed, fieldU8 f.returned]) := by
  subst hf hw
  simp only [State.takeSetZoneBox, h, hb, Bool.not_true, Bool.false_eq_true, if_false, State.zoneFlush_eq]

theorem State.takeSetZoneRow_of_refused (row : Byte) (cells : BitVec 64) (h : s.zoneEditable = false) :
    s.takeSetZoneRow row cells = (s, .refuse .state [fieldU8 s.mode.mode.code]) := by
  simp only [State.takeSetZoneRow, h, Bool.not_false, if_true]

theorem State.takeSetZoneRow_of_range {row : Byte} (cells : BitVec 64) (h : s.zoneEditable = true) (hrow : 63 < row.toNat) :
    s.takeSetZoneRow row cells = (s, .refuse .range [fieldU8 0]) := by
  have hout : ¬ row.toNat < 64 := by omega
  simp only [State.takeSetZoneRow, h, Bool.not_true, Bool.false_eq_true, if_false, dif_neg hout]

theorem State.takeSetZoneRow_of_accepted {row : Byte} {cells : BitVec 64} (h : s.zoneEditable = true) (hrow : row.toNat < 64)
    {w : State} {f : FlushResult} (hw : w = { s with zone := { s.zone with cells := s.zone.cells.set row.toNat cells } })
    (hf : f = w.flush w.zoneFlushed) : s.takeSetZoneRow row cells = (f.state.testMove w,
      .ok [fieldU8 row.toNat, fieldU8 (permittedIn cells), fieldU8 f.removed, fieldU8 f.returned]) := by
  subst hf hw
  simp only [State.takeSetZoneRow, h, Bool.not_true, Bool.false_eq_true, if_false, dif_pos hrow, State.zoneFlush_eq]

end ZoneEdit

section Axes

variable {b : ZoneBox}

theorem ZoneBox.axisFault_x (h : 1000000 < b.xmin.natAbs ∨ 1000000 < b.xmax.natAbs ∨ b.xmax < b.xmin) :
    b.axisFault = some 0 := if_pos ((axisFails_iff _ _ _).mpr (by omega))

variable (hx : ¬ (1000000 < b.xmin.natAbs ∨ 1000000 < b.xmax.natAbs ∨ b.xmax < b.xmin))
include hx

theorem ZoneBox.axisFault_y (h : 1000000 < b.ymin.natAbs ∨ 1000000 < b.ymax.natAbs ∨ b.ymax < b.ymin) :
    b.axisFault = some 1 := by
  rw [ZoneBox.axisFault, if_neg (mt (axisFails_iff _ _ _).mp (by omega)), if_pos ((axisFails_iff _ _ _).mpr (by omega))]

variable (hy : ¬ (1000000 < b.ymin.natAbs ∨ 1000000 < b.ymax.natAbs ∨ b.ymax < b.ymin))
include hy

theorem ZoneBox.axisFault_z (h : 100000 < b.zmin.natAbs ∨ 100000 < b.zmax.natAbs ∨ b.zmax < b.zmin) :
    b.axisFault = some 2 := by
  rw [ZoneBox.axisFault, if_neg (mt (axisFails_iff _ _ _).mp (by omega)), if_neg (mt (axisFails_iff _ _ _).mp (by omega)),
    if_pos ((axisFails_iff _ _ _).mpr (by omega))]

theorem ZoneBox.axisFault_none (hz : ¬ (100000 < b.zmin.natAbs ∨ 100000 < b.zmax.natAbs ∨ b.zmax < b.zmin)) :
    b.axisFault = none := by
  rw [ZoneBox.axisFault, if_neg (mt (axisFails_iff _ _ _).mp (by omega)), if_neg (mt (axisFails_iff _ _ _).mp (by omega)),
    if_neg (mt (axisFails_iff _ _ _).mp (by omega))]

end Axes

/-- Settles O18: the axes in order, and the box written with its flush. -/
theorem setZoneBoxJudgesTheAxesAndWritesTheBox : Obligations.SetZoneBoxJudgesTheAxesAndWritesTheBox := by
  unfold Obligations.SetZoneBoxJudgesTheAxesAndWritesTheBox
  intro s tag x0 x1 y0 y1 z0 z1 hidle
  refine ⟨fun hsetup hstowed => exec_setZoneBox_of_take hidle
    (State.takeSetZoneBox_of_refused _ (State.zoneEditable_eq_false hsetup hstowed)), fun hmode => ?_⟩
  have hedit := State.zoneEditable_eq_true hmode
  refine ⟨fun hbad => exec_setZoneBox_of_take hidle (State.takeSetZoneBox_of_axisFault hedit (ZoneBox.axisFault_x hbad)),
    fun h0 h1 h01 => ?_⟩
  have hx : ¬ (1000000 < x0.toInt.natAbs ∨ 1000000 < x1.toInt.natAbs ∨ x1.toInt < x0.toInt) := by omega
  refine ⟨fun hbad => exec_setZoneBox_of_take hidle (State.takeSetZoneBox_of_axisFault hedit (ZoneBox.axisFault_y hx hbad)),
    fun h2 h3 h23 => ?_⟩
  have hy : ¬ (1000000 < y0.toInt.natAbs ∨ 1000000 < y1.toInt.natAbs ∨ y1.toInt < y0.toInt) := by omega
  refine ⟨fun hbad => exec_setZoneBox_of_take hidle
    (State.takeSetZoneBox_of_axisFault hedit (ZoneBox.axisFault_z hx hy hbad)), fun h4 h5 h45 => ?_⟩
  have hz : ¬ (100000 < z0.toInt.natAbs ∨ 100000 < z1.toInt.natAbs ∨ z1.toInt < z0.toInt) := by omega
  generalize hw : ({ s with zone := { s.zone with box := some (zoneBoxOf x0 x1 y0 y1 z0 z1) } } : State) = w
  generalize hf : w.flush w.zoneFlushed = f
  have htake := State.takeSetZoneBox_of_accepted hedit (ZoneBox.axisFault_none hx hy hz) hw.symm hf.symm
  have hflush := w.flush_flushedBy w.zoneFlushed
  have hmove := w.flush_planMove w.zoneFlushed
  rw [hf] at hflush hmove
  have hempty (hnone : ∀ b, (s.bank b).state ≠ .ready ∧ (s.bank b).state ≠ .active) : f = ⟨w, 0, 0⟩ := by
    rw [← hf]
    refine State.flush_of_no_bank w fun b => decide_eq_false ?_
    rw [← hw]
    exact not_or.mpr (hnone b)
  refine ⟨_, f.removed, f.returned, exec_setZoneBox_of_take hidle htake, ?_⟩
  subst hw
  refine ⟨congrArg ZoneUnit.box hmove.zone, (congrArg ZoneUnit.cells hmove.zone :), State.flushedBy_congr hflush rfl rfl rfl,
    hmove.datum, hmove.train, hmove.cradles, hmove.adhesive, hmove.pose, hmove.comp, hmove.place, hmove.mode_mode,
    fun hnone => ?_⟩
  rw [hempty hnone, State.testMove_self]
  exact ⟨rfl, rfl, rfl, rfl⟩

/-- Settles O19: the row's range, and the row written with its flush. -/
theorem setZoneRowWritesOneRow : Obligations.SetZoneRowWritesOneRow := by
  unfold Obligations.SetZoneRowWritesOneRow
  intro s tag row cells hidle
  refine ⟨fun hsetup hstowed => exec_setZoneRow_of_take hidle
    (State.takeSetZoneRow_of_refused _ _ (State.zoneEditable_eq_false hsetup hstowed)), fun hmode =>
    ⟨fun hout => exec_setZoneRow_of_take hidle
      (State.takeSetZoneRow_of_range _ (State.zoneEditable_eq_true hmode) hout), fun hin => ?_⟩⟩
  have hrow : row.toNat < 64 := by omega
  generalize hw : ({ s with zone := { s.zone with cells := s.zone.cells.set row.toNat cells } } : State) = w
  generalize hf : w.flush w.zoneFlushed = f
  have htake := State.takeSetZoneRow_of_accepted (State.zoneEditable_eq_true hmode) hrow hw.symm hf.symm
  have hflush := w.flush_flushedBy w.zoneFlushed
  have hmove := w.flush_planMove w.zoneFlushed
  rw [hf] at hflush hmove
  refine ⟨_, permittedIn cells, f.removed, f.returned, exec_setZoneRow_of_take hidle htake, rfl, ?_⟩
  have hcells (r : Nat) : (f.state.testMove w).zone.cells[r]? = (s.zone.cells.set row.toNat cells)[r]? := by
    rw [hmove.zone, ← hw]
  have hbox : (f.state.testMove w).zone.box = s.zone.box := by rw [hmove.zone, ← hw]
  refine ⟨?_, fun r hr => ?_, hbox, ?_⟩
  · rw [hcells, Vector.getElem?_set_self]
  · rw [hcells, Vector.getElem?_set_ne _ hr.symm]
  · subst hw
    exact ⟨State.flushedBy_congr hflush rfl rfl rfl, hmove.datum, hmove.train, hmove.cradles, hmove.adhesive, hmove.pose,
      hmove.comp, hmove.place, hmove.mode_mode⟩

end Sys2Proof.Machine
end

