-- ==== Sys2Proof/Proofs/PoseStream.lean ====
section
/-! Accepted pose samples, the expiry timer, and the compensated samples with their release decision (R108 to R120, R130 to
R138). -/

namespace Sys2Proof.Machine

/-! ## Samples accepted (R109 to R112, R118, R119) -/

/-- A sample taken into TRACKING lifts the POSE hold and is compensated: what the Pose Filter and the link have after it. -/
theorem State.reportTracking_compensate (s : State) {f : PoseFilter} (hf : f.state.carriesHold = false) (p : Sample) (v : Vec3)
    (restart : Bool) {t : State} (ht : t = (State.reportPose { s with pose := f }).compensate p v restart) :
    t.pose = f ∧ t.place.holdPose = false ∧ t.link = s.link := by
  subst ht
  have hlift := State.reportPose_lifts { s with pose := f } hf
  obtain ⟨hpose, hhold⟩ := State.compensate_pose (State.reportPose { s with pose := f }) p v restart
  obtain ⟨-, -, -, -, -, -, -, -, -, hlink, -⟩ := State.compensate_frame (State.reportPose { s with pose := f }) p v restart _ rfl
  rw [hpose, hhold, hlink, hlift]
  exact ⟨rfl, rfl, rfl⟩

theorem sequenceDistance_eq (p last : Seq) : sequenceDistance p last = (p - last).toNat := rfl

section Accepted

variable {s : State} {last p : Sample} {d : Nat} (hd : d = (p.sequence - last.sequence).toNat) (hone : 1 ≤ d) (hfar : d < 1024)
include hd hone hfar

theorem State.judgeTracking_eq : s.judgeTracking last p =
    s.acceptTracking p (if d ≤ 8 then velocityOver p.tip last.tip d else ⟨0, 0, 0⟩) (decide (8 < d)) := by
  rw [State.judgeTracking, sequenceDistance_eq, ← hd, classOfDistance_of d hone hfar]
  by_cases h : d ≤ 8
  · simp [h, Nat.not_lt.mpr h]
  · simp [h, Nat.not_le.mp h]

theorem State.judgeRecovering_of_broken (h : d ≠ 1 ∨ s.pose.realRun < 7) : s.judgeRecovering last p =
    s.acceptRecovering p (if d ≤ 8 then velocityOver p.tip last.tip d else ⟨0, 0, 0⟩)
      (if d = 1 then s.pose.realRun + 1 else 0) := by
  rw [State.judgeRecovering, sequenceDistance_eq, ← hd, classOfDistance_of d hone hfar]
  by_cases hnear : d ≤ 8
  · by_cases hstep : d = 1
    · have hshort : s.pose.realRun + 1 < 8 := by have := h.resolve_left (not_not.mpr hstep); omega
      simp [hstep, hshort]
    · simp [hnear, hstep]
  · have hstep : d ≠ 1 := by omega
    simp [hnear, hstep]

omit hone hfar in
theorem State.judgeRecovering_of_run (hstep : d = 1) (hrun : 7 ≤ s.pose.realRun) :
    s.judgeRecovering last p = s.restorePose p (velocityOver p.tip last.tip d) := by
  have hdone : ¬ s.pose.realRun + 1 < 8 := by omega
  rw [State.judgeRecovering, sequenceDistance_eq, ← hd, hstep]
  simp [classOfDistance, hdone]

end Accepted

/-- The sample that completes the run of eight raises POSE RESTORED (R119). -/
theorem State.restorePose_eq (s : State) (p : Sample) (v : Vec3) : s.restorePose p v =
    (State.reportPose { s.raise (.poseRestored p.sequence) with pose := { s.pose.take p with
      velocity := v, synthesized := 0, realRun := 0, state := .tracking, timer := some s.poseDue } }).compensate p v false := by
  rw [State.restorePose, State.raise_with_pose]

theorem State.reportPose_of_lost (s : State) (h : s.pose.state.carriesHold = true) :
    s.reportPose = if s.place.holdPose then s else s.enterPoseHold := if_pos h

theorem State.reportPose_holds {s : State} (h : s.pose.state.carriesHold = true) : s.reportPose.place.holdPose = true := by
  rw [State.reportPose_of_lost s h]
  split
  · assumption
  · exact s.enterPoseHold_moves.1

/-- Settles O42: by the pose state and the class of the sequence distance. -/
theorem acceptedSamplesMoveThePoseFilter : Obligations.AcceptedSamplesMoveThePoseFilter := by
  unfold Obligations.AcceptedSamplesMoveThePoseFilter
  intro s tag body p hbody hp hquality hnorm hx hy hz
  have hscreen : (poseSampleOf body).passesScreening = true :=
    hp ▸ (Sample.passesScreening_iff p).mpr ⟨hquality, hnorm, hx, hy, hz⟩
  have hexec := exec_poseFrameArrival s tag body hbody hscreen p hp
  refine ⟨fun hstate => ?none, fun hstate => ?lost, fun last d hlast hd hone hfar => ⟨_, rfl, fun hstate => ?tracking,
    fun hstate => ⟨fun hstep hrun => ?restored, fun hbroken => ?recovering⟩⟩⟩
  case none =>
    have hfirst : exec (.poseFrameArrival 0x60 tag body) s = .next (s.acceptFirst p).beginFrame := by rw [hexec, hstate]
    exact ⟨_, hfirst, State.reportTracking_compensate s rfl p ⟨0, 0, 0⟩ true rfl⟩
  case lost =>
    have hlost : exec (.poseFrameArrival 0x60 tag body) s = .next (s.acceptInLost p).beginFrame := by rw [hexec, hstate]
    refine ⟨_, hlost, State.reportPose_pose _, State.reportPose_holds rfl, fun hhold => ?_⟩
    rw [State.acceptInLost, State.reportPose_of_lost _ rfl, if_pos hhold]
  case tracking =>
    have hjudge : exec (.poseFrameArrival 0x60 tag body) s = .next (s.judgeTracking last p).beginFrame := by
      rw [hexec]
      obtain h | h := hstate <;> rw [h, hlast]
    rw [State.judgeTracking_eq hd hone hfar] at hjudge
    generalize (if d ≤ 8 then velocityOver p.tip last.tip d else ⟨0, 0, 0⟩) = v at hjudge ⊢
    obtain ⟨hpose, hhold, hlink⟩ := State.reportTracking_compensate s (f := { s.pose.take p with
      velocity := v, synthesized := 0, realRun := 0, state := .tracking, timer := some s.poseDue }) rfl p v (decide (8 < d)) rfl
    refine ⟨_, hjudge, hpose.trans ?_, hhold, hlink⟩
    rw [PoseFilter.take, hlast]
    rfl
  case restored =>
    have hjudge : exec (.poseFrameArrival 0x60 tag body) s = .next (s.judgeRecovering last p).beginFrame := by
      rw [hexec, hstate, hlast]
    rw [State.judgeRecovering_of_run hd hstep hrun, State.restorePose_eq] at hjudge
    have hnear : d ≤ 8 := by omega
    obtain ⟨hpose, hhold, hlink⟩ := State.reportTracking_compensate (s.raise (.poseRestored p.sequence)) (f := { s.pose.take p with
      velocity := velocityOver p.tip last.tip d, synthesized := 0, realRun := 0, state := .tracking, timer := some s.poseDue })
      rfl p _ false rfl
    refine ⟨_, hjudge, ?_, hhold, hlink⟩
    rw [hpose, PoseFilter.take, hlast, if_pos hnear]
    rfl
  case recovering =>
    have hjudge : exec (.poseFrameArrival 0x60 tag body) s = .next (s.judgeRecovering last p).beginFrame := by
      rw [hexec, hstate, hlast]
    rw [State.judgeRecovering_of_broken hd hone hfar hbroken, State.acceptRecovering, PoseFilter.take, hlast] at hjudge
    exact hjudge

/-! ## The expiry timer (R115 to R117, R141) -/

theorem State.poseTimerExpiry_of_running {s : State} {due : Time} {last : Sample} (htimer : s.pose.timer = some due)
    (hlast : s.pose.last = some last) : s.poseTimerExpiry =
      if s.pose.synthesized < 4 then (s.runTo due).acceptSynthesized last else (s.runTo due).losePose last := by
  simp only [State.poseTimerExpiry, htimer, hlast]

section EntersHold

variable {s : State}

/-- The notice of a brick held at the entry to the POSE hold, and none in FAULTED or with no brick held (R141). -/
theorem State.enterPoseHold_link_of_held {g : GripperBrick} (hmode : s.mode.mode ≠ .faulted)
    (hstate : s.place.state = .approach ∨ s.place.state = .settling) (hg : s.place.gripper = some g) :
    s.enterPoseHold.link = (s.raise (.hold .pose g.brick.tag g.brick.bank g.brick.slot)).link := by
  have hholds : s.place.state.holdsBrick = true := (PlacementState.holdsBrick_iff _).mpr hstate
  simp only [State.enterPoseHold, State.faulted_eq_false hmode, Bool.false_eq_true, if_false, hg, hholds, if_true]
  exact State.raise_link_congr _ rfl

theorem State.enterPoseHold_link_of_not_held (h : s.mode.mode = .faulted ∨ s.place.state ≠ .approach ∧ s.place.state ≠ .settling) :
    s.enterPoseHold.link = s.link := by
  by_cases hf : s.mode.mode = .faulted
  · simp only [State.enterPoseHold, State.faulted_eq_true hf, if_true]
  · have hholds : s.place.state.holdsBrick = false := PlacementState.holdsBrick_eq_false (h.resolve_left hf)
    simp only [State.enterPoseHold, State.faulted_eq_false hf, Bool.false_eq_true, if_false, hholds]
    cases s.place.gripper <;> rfl

end EntersHold

/-- The pose lost, POSE LOST raised, the hold not yet reported (R117). -/
def State.poseLost (s : State) (last : Sample) : State :=
  State.raise { s with pose := { s.pose with state := .lost, timer := none } } (.poseLost last.sequence (last.sequence - 4))

section PoseLost

variable (s : State) (last : Sample)

theorem State.losePose_eq : s.losePose last =
    if s.place.holdPose then s.poseLost last else (s.poseLost last).enterPoseHold := by
  have hcarries : (s.poseLost last).pose.state.carriesHold = true := by rw [State.poseLost, State.raise_pose]; rfl
  have hplace : (s.poseLost last).place = s.place := by rw [State.poseLost, State.raise_place]
  rw [← hplace]
  exact if_pos hcarries

theorem State.poseLost_pose : (s.poseLost last).pose = { s.pose with state := .lost, timer := none } := by
  rw [State.poseLost, State.raise_pose]

theorem State.poseLost_link :
    (s.poseLost last).link = s.raisedLink [.poseLost last.sequence (last.sequence - 4)] := State.raise_link_congr _ rfl

/-- The loss of the pose leaves the blocks outside the Pose Filter and the hold as they were. -/
theorem State.losePose_moves : (s.losePose last).place.holdPose = true ∧ (s.losePose last).place.state = s.place.state ∧
    (s.losePose last).comp.setpoints = s.comp.setpoints ∧
    (s.place.holdPose = false → s.mode.mode ≠ .faulted → (s.losePose last).comp.counter = 0) ∧
    (s.losePose last).plan = s.plan ∧ (s.losePose last).feed = s.feed ∧ (s.losePose last).train = s.train ∧
    (s.losePose last).cradles = s.cradles ∧ (s.losePose last).mode = s.mode ∧ (s.losePose last).clock = s.clock := by
  rw [State.losePose_eq]
  split
  case isTrue h => simp [State.poseLost, h]
  case isFalse h =>
    obtain ⟨hhold, hstate, hset, hcounter, hplan, hfeed, htrain, hcradles, hmode, hclock⟩ := (s.poseLost last).enterPoseHold_moves
    rw [hstate, hset, hplan, hfeed, htrain, hcradles, hmode, hclock]
    refine ⟨hhold, ?_⟩
    refine ⟨by simp [State.poseLost], by simp [State.poseLost], fun _ hm => hcounter (State.faulted_eq_false ?_), ?_⟩
    · rwa [State.poseLost, State.raise_mode]
    · simp [State.poseLost]

theorem State.losePose_link_of_held {g : GripperBrick} (hhold : s.place.holdPose = false) (hmode : s.mode.mode ≠ .faulted)
    (hstate : s.place.state = .approach ∨ s.place.state = .settling) (hg : s.place.gripper = some g) :
    (s.losePose last).link = s.raisedLink [.poseLost last.sequence (last.sequence - 4),
      .hold .pose g.brick.tag g.brick.bank g.brick.slot] := by
  have hplace : (s.poseLost last).place = s.place := by rw [State.poseLost, State.raise_place]
  rw [State.losePose_eq, hhold, if_neg Bool.false_ne_true, State.enterPoseHold_link_of_held (g := g)]
  · exact State.raise_link_congr _ (s.poseLost_link last)
  · rwa [State.poseLost, State.raise_mode]
  · rwa [hplace]
  · rwa [hplace]

theorem State.losePose_link_of_not_held
    (h : s.place.holdPose = true ∨ s.mode.mode = .faulted ∨ s.place.state ≠ .approach ∧ s.place.state ≠ .settling) :
    (s.losePose last).link = s.raisedLink [.poseLost last.sequence (last.sequence - 4)] := by
  rw [State.losePose_eq, ← s.poseLost_link last]
  split
  · rfl
  · next hhold =>
    refine State.enterPoseHold_link_of_not_held ?_
    rw [State.poseLost, State.raise_mode, State.raise_place]
    exact h.resolve_left hhold

end PoseLost

/-- Settles O43: the fifth sample in a row synthesized is the loss. -/
theorem poseTimerSynthesizesOrLosesThePose : Obligations.PoseTimerSynthesizesOrLosesThePose := by
  unfold Obligations.PoseTimerSynthesizesOrLosesThePose
  refine fun s => ⟨fun hnone => next_beginFrame_congr (by simp only [State.poseTimerExpiry, hnone]),
    fun due last htimer hlast => ?_⟩
  refine ⟨_, next_beginFrame_congr (State.poseTimerExpiry_of_running htimer hlast), ?_⟩
  by_cases hfew : s.pose.synthesized < 4
  · rw [if_pos hfew]
    generalize ht : (s.runTo due).acceptSynthesized last = t
    obtain ⟨hpose, hhold, hlink⟩ := State.reportTracking_compensate (s.runTo due)
      (f := { s.pose.take (synthesize last s.pose.velocity) with
        synthesized := s.pose.synthesized + 1, state := .coasting, timer := some (s.runTo due).poseDue })
      rfl (synthesize last s.pose.velocity) s.pose.velocity false ht.symm
    obtain ⟨hplan, hfeed, htrain, hcradles, -, -, -, hmode, hclock, -⟩ := State.compensate_frame _ _ _ _ t ht.symm
    rw [State.reportPose_lifts _ rfl] at hplan hfeed htrain hcradles hmode hclock
    rw [PoseFilter.take, hlast, State.poseDue, State.runTo_now] at hpose
    refine ⟨(congrArg Clock.now hclock).trans (s.runTo_now due), fun _ => ⟨hpose, hhold, hlink⟩, fun hmany => ?_, hplan, hfeed,
      htrain, hcradles, hmode⟩
    exact absurd hfew (Nat.not_lt.mpr hmany)
  · rw [if_neg hfew]
    obtain ⟨hhold, hstate, hset, hcounter, hplan, hfeed, htrain, hcradles, hmode, hclock⟩ := (s.runTo due).losePose_moves last
    have hraised (ns : List Notice) : (s.runTo due).raisedLink ns = s.raisedLink ns := State.raisedLink_congr ns rfl
    refine ⟨(congrArg Clock.now hclock).trans (s.runTo_now due), fun h => absurd h hfew, fun _ => ⟨?pose, hhold, hstate, hset,
      hcounter, fun g hnot hm hs hg => ((s.runTo due).losePose_link_of_held last hnot hm hs hg).trans (hraised _),
      fun h => ((s.runTo due).losePose_link_of_not_held last h).trans (hraised _)⟩, hplan, hfeed, htrain, hcradles, hmode⟩
    exact (State.reportPose_pose _).trans ((s.runTo due).poseLost_pose last)

end Sys2Proof.Machine
end

