-- ==== Sys2Proof/Proofs/Compensation.lean ====
section
/-! The compensated sample: where it steers the fine axes, the settle counter and the release decision (R130 to R138). -/

namespace Sys2Proof.Machine

/-! ## Steering (R130 to R133) -/

/-- Settles O44: every sample handed on is compensated (`State.handsOn_compensated`, `State.poseTimerExpiry_compensated`). -/
theorem compensatedSampleSteersTheFineAxes : Obligations.CompensatedSampleSteersTheFineAxes := by
  unfold Obligations.CompensatedSampleSteersTheFineAxes
  refine ⟨fun s tag body p v restart hbody hp hands => ?real, fun s due last htimer hlast hfew => ?synthesized⟩
  case real =>
    obtain ⟨f, q, hq, hexec, hstate, hlastp, hprev, hvel⟩ := s.handsOn_compensated tag body p v restart hbody hp hands
    obtain ⟨hplan, hfeed, htrain, hcradles, hadhesive, hdatum, hzone, hmode, hclock, hlink, hsettings, hlatched⟩ :=
      q.compensate_frame p v restart _ rfl
    have hpose := (q.compensate_pose p v restart).1
    have hnone := q.compensate_none p v restart
    have hsteers (hs : q.isSteered) (hm : q.mode = s.mode) (hc : q.comp = s.comp) {g sl target da l}
        (k : q.steersBy g sl target da l) := State.compensate_steers s q p v restart hs hm hc k
    subst hq
    refine ⟨_, hexec, fun hs g sl target da l k => ?_, fun hs => ?_, by rw [hpose]; exact hstate, by rw [hpose]; exact hlastp,
      by rw [hpose]; exact hprev, by rw [hpose]; exact hvel, hlink, hsettings, hlatched, hplan, hfeed, htrain, hcradles,
      hadhesive, hdatum, hzone, hmode, hclock⟩
    · exact hsteers hs rfl rfl k
    · rw [hnone hs]
      exact ⟨rfl, rfl⟩
  case synthesized =>
    obtain ⟨f, q, hq, hexec, hstate, hlastp, hprev, hvel, hcount⟩ := s.poseTimerExpiry_compensated due last htimer hlast hfew
    generalize hp : synthesize last s.pose.velocity = p at hexec hlastp
    obtain ⟨hplan, hfeed, htrain, hcradles, hadhesive, hdatum, hzone, hmode, hclock, hlink, hsettings, hlatched⟩ :=
      q.compensate_frame p s.pose.velocity false _ rfl
    have hpose := (q.compensate_pose p s.pose.velocity false).1
    have hnone := q.compensate_none p s.pose.velocity false
    have hsteers (hs : q.isSteered) (hm : q.mode = s.mode) (hc : q.comp = s.comp) {g sl target da l}
        (k : q.steersBy g sl target da l) := State.compensate_steers s q p s.pose.velocity false hs hm hc k
    subst hq
    refine ⟨_, p, hexec, hp.symm, fun hs g sl target da l k => ?_, fun hs => ?_, by rw [hpose]; exact hstate,
      by rw [hpose]; exact hlastp, by rw [hpose]; exact hprev, by rw [hpose]; exact hvel, by rw [hpose]; exact hcount, hlink,
      hsettings, hlatched, hplan, hfeed, htrain, hcradles, ?_, hdatum, hzone, hmode, hclock⟩
    · exact hsteers hs rfl rfl k
    · rw [hnone hs]
      exact ⟨rfl, rfl⟩
    · rw [hadhesive]
      rfl

/-! ## The settle counter and the state judgement (R134 to R136) -/

/-- A compensated sample as it stands before the release decision (R130). -/
def State.countedSample (q : State) (i : CompensationInput) (p : Sample) (v : Vec3) (restart : Bool) : State :=
  ((q.writeSetpoints (i.demands p v)).judgeState i.latched p.origin
    (q.writeSetpoints (i.demands p v)).comp.saturation.any).updateCounter i p restart

/-- Whether the sample saturates an axis (R133). -/
def State.sampleSaturates (q : State) (i : CompensationInput) (p : Sample) (v : Vec3) : Bool :=
  (saturationOf q.mode.travel (i.demands p v)).any

/-- Whether the sample qualifies (R134). -/
def State.sampleQualifies (q : State) (i : CompensationInput) (p : Sample) (v : Vec3) : Bool :=
  qualifies p i.latched.quality i.window (saturationOf q.mode.travel (i.demands p v))
    (stepBetween (setpointsOf q.mode.travel (i.demands p v)) q.comp.setpoints)

theorem stateAfterSample_real {st : PlacementState} (h : st = .approach ∨ st = .settling) (saturated : Bool) :
    stateAfterSample st .real saturated = if saturated then .approach else .settling := by
  obtain rfl | rfl := h <;> cases saturated <;> rfl

theorem stateAfterSample_synthesized {st : PlacementState} (h : st = .approach ∨ st = .settling) (saturated : Bool) :
    stateAfterSample st .synthesized saturated = if saturated then .approach else st := by
  obtain rfl | rfl := h <;> cases saturated <;> rfl

theorem settleCounterAfter_real (saturated restart qualifying : Bool) (k counter : Nat) :
    settleCounterAfter saturated restart .real qualifying k counter =
      if saturated = true ∨ restart = true ∨ qualifying = false then 0 else min (counter + 1) k := by
  cases saturated <;> cases restart <;> cases qualifying <;> rfl

theorem settleCounterAfter_synthesized (saturated qualifying : Bool) (k counter : Nat) :
    settleCounterAfter saturated false .synthesized qualifying k counter = if saturated then 0 else counter := by
  cases saturated <;> rfl

theorem qualifies_real {p : Sample} (hp : p.origin = .real) (minQuality window : Nat) (sat : Saturation) (step : Vec3) :
    qualifies p minQuality window sat step = true ↔ minQuality ≤ p.quality ∧ sat.any = false ∧ step.x.natAbs ≤ window ∧
      step.y.natAbs ≤ window ∧ step.z.natAbs ≤ window := by
  simp [qualifies, hp, and_assoc]

section Counted

variable (q : State) (i : CompensationInput) (p : Sample) (v : Vec3) (restart : Bool)

theorem State.compensateWith_eq : q.compensateWith i p v restart =
    if (q.countedSample i p v restart).releaseDue i.latched p.origin then (q.countedSample i p v restart).release p.sequence
    else q.countedSample i p v restart := rfl

theorem State.countedSample_counter : (q.countedSample i p v restart).comp.counter =
    settleCounterAfter (q.sampleSaturates i p v) restart p.origin (q.sampleQualifies i p v) i.latched.count q.comp.counter := rfl

/-- The release decision leaves what the sample wrote and counted. -/
theorem State.compensateWith_comp : (q.compensateWith i p v restart).comp = { (q.countedSample i p v restart).comp with
    releaseSeq := (q.compensateWith i p v restart).comp.releaseSeq } := by
  rw [State.compensateWith_eq]
  split <;> rfl

theorem State.compensateWith_saturation :
    (q.compensateWith i p v restart).comp.saturation = saturationOf q.mode.travel (i.demands p v) := by
  rw [State.compensateWith_comp]
  rfl

theorem State.compensateWith_lastStep : (q.compensateWith i p v restart).comp.lastStep =
    stepBetween (setpointsOf q.mode.travel (i.demands p v)) q.comp.setpoints := by
  rw [State.compensateWith_comp]
  rfl

theorem State.compensateWith_counter :
    (q.compensateWith i p v restart).comp.counter = (q.countedSample i p v restart).comp.counter := by
  rw [State.compensateWith_comp]

variable {q p} (hstate : q.place.state = .approach ∨ q.place.state = .settling)
include hstate

/-- The placement after a real sample, the release apart (R136). -/
theorem State.countedSample_place_real (hp : p.origin = .real) : (q.countedSample i p v restart).place = { q.place with
    state := if q.sampleSaturates i p v then .approach else .settling
    hasSettled := q.place.hasSettled || !q.sampleSaturates i p v
    timer := if q.sampleSaturates i p v = false ∧ q.place.hasSettled = false ∧ q.mode.mode = .laying then
        some (q.clock.now + i.latched.settle * ticksPerMs)
      else q.place.timer } := by
  have hjudge : (q.countedSample i p v restart).place =
      (q.judgeState i.latched p.origin (q.sampleSaturates i p v)).place := rfl
  rw [hjudge, State.judgeState, hp, stateAfterSample_real hstate]
  cases q.sampleSaturates i p v <;> cases q.place.hasSettled <;> simp

/-- A synthesized sample can leave SETTLING and enters nothing else (R136). -/
theorem State.judgeState_synthesized (l : PlacementSettings) (hmarked : q.settledMarked) (saturated : Bool) :
    (q.judgeState l .synthesized saturated).place = { q.place with
      state := if saturated then .approach else q.place.state } := by
  rw [State.judgeState, stateAfterSample_synthesized hstate]
  obtain h | h := hstate
  · cases saturated <;> simp [h]
  · have hsettled := hmarked h
    cases saturated <;> simp [h, hsettled]

/-- The placement after a synthesized sample (R136). -/
theorem State.countedSample_place_synthesized (hp : p.origin = .synthesized) :
    (q.countedSample i p v restart).place = (q.judgeState i.latched .synthesized (q.sampleSaturates i p v)).place ∧
      (q.countedSample i p v restart).place.state =
        (if q.sampleSaturates i p v then .approach else q.place.state) := by
  have hjudge : (q.countedSample i p v restart).place =
      (q.judgeState i.latched p.origin (q.sampleSaturates i p v)).place := rfl
  rw [hjudge, hp]
  exact ⟨rfl, stateAfterSample_synthesized hstate _⟩

end Counted

/-! ## The release decision (R137, R138) -/

section Release

variable {q : State} {i : CompensationInput} {p : Sample} {v : Vec3} {restart : Bool}
  (hstate : q.place.state = .approach ∨ q.place.state = .settling) (hopen : q.place.holdPose = false)
include hstate hopen

/-- A real sample decides the release where it does not saturate, completes the count, and the part lays (R137). -/
theorem State.countedSample_releaseDue_real (hp : p.origin = .real) :
    (q.countedSample i p v restart).releaseDue i.latched p.origin = true ↔
      q.sampleSaturates i p v = false ∧ (q.countedSample i p v restart).comp.counter = i.latched.count ∧
        q.mode.mode = .laying ∧ q.place.holdPaused = false := by
  have hmode : (q.countedSample i p v restart).mode = q.mode := rfl
  rw [State.releaseDue, State.countedSample_place_real i v restart hstate hp, hmode, hp]
  cases q.sampleSaturates i p v <;> simp [hopen, and_assoc]

omit hstate hopen in
theorem State.countedSample_releaseDue_synthesized (hp : p.origin = .synthesized) :
    (q.countedSample i p v restart).releaseDue i.latched p.origin = false := by
  rw [State.releaseDue, hp]
  rfl

/-- What a real sample leaves where it decides the release (R138). -/
theorem State.compensateWith_of_release {g : GripperBrick} (hp : p.origin = .real) (hg : q.place.gripper = some g)
    (h : q.sampleSaturates i p v = false ∧ (q.countedSample i p v restart).comp.counter = i.latched.count ∧
      q.mode.mode = .laying ∧ q.place.holdPaused = false) :
    (q.compensateWith i p v restart).comp.releaseSeq = some p.sequence ∧
    (q.compensateWith i p v restart).place = { q.place with
      hasSettled := true, state := .releasing, grip := false, timer := none
      gripper := some { g with deadline := none }, stepTimer := .release (q.clock.now + releaseTicks) } := by
  rw [State.compensateWith_eq, if_pos ((State.countedSample_releaseDue_real hstate hopen hp).mpr h)]
  refine ⟨rfl, ?_⟩
  rw [State.release, State.countedSample_place_real i v restart hstate hp, hg, h.1]
  simp
  rfl

/-- What it leaves where it decides none. -/
theorem State.compensateWith_of_no_release (hp : p.origin = .real)
    (h : ¬ (q.sampleSaturates i p v = false ∧ (q.countedSample i p v restart).comp.counter = i.latched.count ∧
      q.mode.mode = .laying ∧ q.place.holdPaused = false)) :
    q.compensateWith i p v restart = q.countedSample i p v restart := by
  rw [State.compensateWith_eq, if_neg (mt (State.countedSample_releaseDue_real hstate hopen hp).mp h)]

end Release

/-- Settles O45: the compensated sample counted, and the release it decides. -/
theorem settleCounterAndReleaseDecision : Obligations.SettleCounterAndReleaseDecision := by
  unfold Obligations.SettleCounterAndReleaseDecision
  refine ⟨fun s tag body p v restart g sl target da l hbody hp hands hsteered hby => ?real,
    fun s due last g sl target da l htimer hlast hfew hsteered hby => ?synthesized⟩
  case real =>
    obtain ⟨f, q, hq, hexec, -⟩ := s.handsOn_compensated tag body p v restart hbody hp hands
    have hreal : p.origin = .real := by rw [hp]; rfl
    have hqs : q.isSteered := by subst hq; exact hsteered
    have hqby : q.steersBy g sl target da l := by subst hq; exact hby
    have hopen : q.place.holdPose = false := by rw [hq]
    generalize hi : (⟨l, target, sl.alternate, da.cx, da.cy⟩ : CompensationInput) = i
    rw [State.compensate_eq q p v restart hqs hqby, hi] at hexec
    have hcomp : q.comp = s.comp := by rw [hq]
    have hclock : q.clock = s.clock := by rw [hq]
    have hmode : q.mode = s.mode := by rw [hq]
    have hplace : q.place = { s.place with holdPose := false } := by rw [hq]
    have hlatched : i.latched = l := by rw [← hi]
    refine ⟨_, i.window, (q.countedSample i p v restart).comp.counter, q.sampleSaturates i p v, q.sampleQualifies i p v,
      hexec, ?window, ?saturated, ?qualifying, ?counter, q.compensateWith_counter i p v restart, fun h => ?release,
      fun h => ?stays⟩
    case window => rw [← hi]; rfl
    case saturated => rw [State.compensateWith_saturation]; rfl
    case qualifying =>
      rw [State.sampleQualifies, qualifies_real hreal, State.compensateWith_lastStep, hlatched]
      rfl
    case counter => rw [State.countedSample_counter, hreal, settleCounterAfter_real, hcomp, hlatched]
    case release =>
      rw [← hlatched, ← hmode] at h
      have h' : q.sampleSaturates i p v = false ∧ (q.countedSample i p v restart).comp.counter = i.latched.count ∧
          q.mode.mode = .laying ∧ q.place.holdPaused = false := by rw [hplace]; exact h
      obtain ⟨hseq, hreleased⟩ := State.compensateWith_of_release hqs.2 hopen hreal hqby.1 h'
      rw [hplace, hclock] at hreleased
      exact ⟨hseq, hreleased⟩
    case stays =>
      rw [← hlatched, ← hmode] at h
      have h' : ¬ (q.sampleSaturates i p v = false ∧ (q.countedSample i p v restart).comp.counter = i.latched.count ∧
          q.mode.mode = .laying ∧ q.place.holdPaused = false) := by rw [hplace]; exact h
      rw [State.compensateWith_of_no_release hqs.2 hopen hreal h', State.countedSample_place_real i v restart hqs.2 hreal,
        hplace, hclock, hmode, hlatched, ← hcomp]
      exact ⟨rfl, rfl⟩
  case synthesized =>
    obtain ⟨f, q, hq, hexec, -⟩ := s.poseTimerExpiry_compensated due last htimer hlast hfew
    generalize hp : synthesize last s.pose.velocity = p at hexec
    have hsynth : p.origin = .synthesized := by rw [← hp]; rfl
    have hqs : q.isSteered := by subst hq; exact hsteered
    have hqby : q.steersBy g sl target da l := by subst hq; exact hby
    generalize hi : (⟨l, target, sl.alternate, da.cx, da.cy⟩ : CompensationInput) = i
    rw [State.compensate_eq q p s.pose.velocity false hqs hqby, hi] at hexec
    have hcomp : q.comp = s.comp := by rw [hq]; rfl
    have hplace : q.place = { s.place with holdPose := false } := by rw [hq]
    have hkept : q.compensateWith i p s.pose.velocity false = q.countedSample i p s.pose.velocity false := by
      rw [State.compensateWith_eq, State.countedSample_releaseDue_synthesized hsynth, if_neg Bool.false_ne_true]
    obtain ⟨hjudged, hstate⟩ := State.countedSample_place_synthesized i s.pose.velocity false hqs.2 hsynth
    refine ⟨_, q.sampleSaturates i p s.pose.velocity, hexec, ?shown, ?counted, ?state, ?gripper, ?grip, ?stepTimer,
      fun hsettled => ?place, ?seq⟩
    case shown => rw [State.compensateWith_saturation]; rfl
    case counted =>
      rw [State.compensateWith_counter, State.countedSample_counter, hsynth, settleCounterAfter_synthesized, hcomp]
    all_goals rw [hkept]
    case state => rw [hstate, hplace]
    case gripper => rw [hjudged, State.judgeState, hplace]
    case grip => rw [hjudged, State.judgeState, hplace]
    case stepTimer => rw [hjudged, State.judgeState, hplace]
    case seq => rw [← hcomp]; rfl
    case place =>
      have hmarked : q.settledMarked := by subst hq; exact hsettled
      rw [hjudged, State.judgeState_synthesized hqs.2 i.latched hmarked, hplace]

end Sys2Proof.Machine
end

