-- ==== Sys2Proof/Proofs/Arrivals.lean ====
section
/-! Command rows and the arrivals of their frames (R172, R173): what each body gives its owner, read back from its bytes. -/

namespace Sys2Proof.Machine

/-! ## Long fields read back -/

/-- The eight bytes of a quad put together again. -/
theorem quadAt_be64_append (r : BitVec 64) (q : List Byte) : quadAt (be64 r ++ q) 0 = r := by
  have hhigh : longAt (be64 r ++ q) 0 = r.extractLsb' 32 32 := bytes_of_long _
  have hlow : longAt (be64 r ++ q) 4 = r.extractLsb' 0 32 := bytes_of_long _
  rw [quadAt, hhigh, hlow, longs_of_quad]

/-! ## Frames handed to their owners -/

section Owners
variable (s : State)

theorem State.perform_setDatum (tag a : Byte) (l m n : BitVec 32) (w x y z : BitVec 16) :
    s.perform (.setDatum tag a l m n w x y z) = s.takeSetDatum a (datumEntryOf l m n w x y z) := by
  have hl : longAt (Frame.setDatum tag a l m n w x y z).body 1 = l := bytes_of_long l
  have hm : longAt (Frame.setDatum tag a l m n w x y z).body 5 = m := bytes_of_long m
  have hn : longAt (Frame.setDatum tag a l m n w x y z).body 9 = n := bytes_of_long n
  have hw : wordAt (Frame.setDatum tag a l m n w x y z).body 13 = w := bytes_of_word w
  have hx : wordAt (Frame.setDatum tag a l m n w x y z).body 15 = x := bytes_of_word x
  have hy : wordAt (Frame.setDatum tag a l m n w x y z).body 17 = y := bytes_of_word y
  have hz : wordAt (Frame.setDatum tag a l m n w x y z).body 19 = z := bytes_of_word z
  conv_rhs => rw [← hl, ← hm, ← hn, ← hw, ← hx, ← hy, ← hz]
  rfl

theorem State.perform_setZoneBox (tag : Byte) (l m n o p q : BitVec 32) :
    s.perform (.setZoneBox tag l m n o p q) = s.takeSetZoneBox (zoneBoxOf l m n o p q) := by
  have hl : longAt (Frame.setZoneBox tag l m n o p q).body 0 = l := bytes_of_long l
  have hm : longAt (Frame.setZoneBox tag l m n o p q).body 4 = m := bytes_of_long m
  have hn : longAt (Frame.setZoneBox tag l m n o p q).body 8 = n := bytes_of_long n
  have ho : longAt (Frame.setZoneBox tag l m n o p q).body 12 = o := bytes_of_long o
  have hp : longAt (Frame.setZoneBox tag l m n o p q).body 16 = p := bytes_of_long p
  have hq : longAt (Frame.setZoneBox tag l m n o p q).body 20 = q := bytes_of_long q
  conv_rhs => rw [← hl, ← hm, ← hn, ← ho, ← hp, ← hq]
  rfl

theorem State.perform_setZoneRow (tag a : Byte) (r : BitVec 64) :
    s.perform (.setZoneRow tag a r) = s.takeSetZoneRow a r := by
  have hr : quadAt (Frame.setZoneRow tag a r).body 1 = r := quadAt_be64_append r []
  conv_rhs => rw [← hr]
  rfl

theorem State.perform_openBank (tag a b c : Byte) (w : BitVec 16) :
    s.perform (.openBank tag a b c w) = s.takeOpenBank a b c w := by
  have hw : wordAt (Frame.openBank tag a b c w).body 3 = w := bytes_of_word w
  conv_rhs => rw [← hw]
  rfl

theorem State.perform_setPlacement (tag a b c d e f : Byte) (w : BitVec 16) :
    s.perform (.setPlacement tag a b c d e f w) = s.takeSetPlacement (settingsOf a b c d e f w) := by
  have hw : wordAt (Frame.setPlacement tag a b c d e f w).body 6 = w := bytes_of_word w
  conv_rhs => rw [← hw]
  rfl

theorem State.perform_setAdhesive (tag a : Byte) (w x : BitVec 16) :
    s.perform (.setAdhesive tag w a x) = s.takeSetAdhesive w a x := by
  have hw : wordAt (Frame.setAdhesive tag w a x).body 0 = w := bytes_of_word w
  have hx : wordAt (Frame.setAdhesive tag w a x).body 3 = x := bytes_of_word x
  conv_rhs => rw [← hw, ← hx]
  rfl

theorem State.perform_setNotices (tag : Byte) (w : BitVec 16) :
    s.perform (.setNotices tag w) = s.takeSetNotices w := by
  have hw : wordAt (Frame.setNotices tag w).body 0 = w := bytes_of_word w
  conv_rhs => rw [← hw]
  rfl

theorem State.perform_brickLoaded (tag a : Byte) (w : BitVec 16) :
    s.perform (.brickLoaded tag a w) = s.takeBrickLoaded a w := by
  have hw : wordAt (Frame.brickLoaded tag a w).body 1 = w := bytes_of_word w
  conv_rhs => rw [← hw]
  rfl

/-- LOAD SLOTS: its frame is sized where its records number the count. -/
theorem State.perform_loadSlots (tag a b c : Byte) (rs : List SlotRecord) :
    s.perform (.loadSlots tag a b c rs) =
      if rs.length = c.toNat then s.takeLoadSlots a b rs else (s, .refuse .length []) := by
  have hperform : s.perform (.loadSlots tag a b c rs) = s.takeLoadSlotsFrame ([a, b, c] ++ rs.flatMap SlotRecord.toBytes) := rfl
  have hlength : ([a, b, c] ++ rs.flatMap SlotRecord.toBytes).length = 3 + 16 * rs.length := by
    rw [List.length_append, flatMap_toBytes_length]
    rfl
  have hcount : byteAt ([a, b, c] ++ rs.flatMap SlotRecord.toBytes) 2 = c := rfl
  rw [hperform, State.takeLoadSlotsFrame]
  simp only [hlength, hcount]
  by_cases hnumber : rs.length = c.toNat
  · rw [if_neg (by omega), if_pos hnumber, ← hnumber, slotRecordsAt_toBytes rs [a, b, c] 3 rfl]
    rfl
  · rw [if_pos (Or.inr (by omega)), if_neg hnumber]

end Owners

/-- A row whose meaning hands its frame's owner the fields of the body is the arrival of that frame. -/
theorem next_submit_eq_arrival (s : State) (f : Frame) (own : State → State × Answer)
    (hkind : isCommandKind f.kind = true) (hown : ∀ u, own u = State.perform f u) :
    (.next (s.submit f own) : Result) = exec (.commandFrameArrival f.kind f.tag f.body) s :=
  congrArg Host.Outcome.next (s.submit_eq_arriveFrame f own hkind hown)

/-- Settles O55: each row's owner is the one its frame is handed to. -/
theorem commandRowsAreTheArrivalsOfTheirFrames : Obligations.CommandRowsAreTheArrivalsOfTheirFrames := by
  unfold Obligations.CommandRowsAreTheArrivalsOfTheirFrames
  intro s tag a b c d e f w x y z l m n o p q r rs
  have row (g : Frame) (own : State → State × Answer) := next_submit_eq_arrival s g own
  exact ⟨
    row (.identify tag) _ rfl (fun _ => rfl),
    row (.reset tag) _ rfl (fun _ => rfl),
    row (.readStatus tag a) _ rfl (fun _ => rfl),
    row (.readBank tag a) _ rfl (fun _ => rfl),
    row (.readSlot tag a b) _ rfl (fun _ => rfl),
    row (.setDatum tag a l m n w x y z) _ rfl (fun u => (u.perform_setDatum tag a l m n w x y z).symm),
    row (.setZoneBox tag l m n o p q) _ rfl (fun u => (u.perform_setZoneBox tag l m n o p q).symm),
    row (.setZoneRow tag a r) _ rfl (fun u => (u.perform_setZoneRow tag a r).symm),
    row (.openBank tag a b c w) _ rfl (fun u => (u.perform_openBank tag a b c w).symm),
    row (.loadSlots tag a b c rs) _ rfl (fun u => (u.perform_loadSlots tag a b c rs).symm),
    row (.closeBank tag a) _ rfl (fun _ => rfl),
    row (.discardBank tag a) _ rfl (fun _ => rfl),
    row (.setNextBank tag a) _ rfl (fun _ => rfl),
    row (.skipSlot tag a b) _ rfl (fun _ => rfl),
    row (.setPlacement tag a b c d e f w) _ rfl (fun u => (u.perform_setPlacement tag a b c d e f w).symm),
    row (.setFeed tag a b c) _ rfl (fun _ => rfl),
    row (.setAdhesive tag w a x) _ rfl (fun u => (u.perform_setAdhesive tag a w x).symm),
    row (.setSupplyMark tag a b c) _ rfl (fun _ => rfl),
    row (.setWatch tag a) _ rfl (fun _ => rfl),
    row (.clearWatch tag a) _ rfl (fun _ => rfl),
    row (.setNotices tag w) _ rfl (fun u => (u.perform_setNotices tag w).symm),
    row (.brickLoaded tag a w) _ rfl (fun u => (u.perform_brickLoaded tag a w).symm),
    row (.endCourse tag) _ rfl (fun _ => rfl),
    row (.purge tag) _ rfl (fun _ => rfl),
    row (.abandon tag) _ rfl (fun _ => rfl),
    row (.start tag) _ rfl (fun _ => rfl),
    row (.pause tag) _ rfl (fun _ => rfl),
    row (.resume tag) _ rfl (fun _ => rfl),
    row (.stow tag) _ rfl (fun _ => rfl),
    row (.enterSetup tag) _ rfl (fun _ => rfl),
    row (.clearFault tag) _ rfl (fun _ => rfl)⟩

end Sys2Proof.Machine
end

