-- ==== Sys2Proof/Proofs/Framer.lean ====
section
/-! The receive framers (R171): what a byte completes, stores or discards, read from the scan of the bytes held. -/

namespace Sys2Proof.Machine

/-! ## The scan of the bytes a framer holds -/

/-- A byte other than SYNC begins no frame. -/
theorem scanAll_single_of_ne {x : Byte} (hx : x ≠ 0xC3#8) : scanAll [x] = ([], []) := by
  simp [scanAll, scanBytes, hx]

/-- Bytes from SYNC on that stand within LEN and check are kept. -/
theorem scanAll_of_partial {after : List Byte}
    (hpartial : ∀ len rest, after = len :: rest → 2 ≤ len.toNat ∧ len.toNat ≤ 124 ∧ rest.length < len.toNat + 2) :
    scanAll (0xC3#8 :: after) = ([], 0xC3#8 :: after) := by
  cases after with
  | nil => rfl
  | cons len rest =>
    obtain ⟨hlow, hhigh, hshort⟩ := hpartial len rest rfl
    rw [scanAll_cons_cons, if_neg (by simp), if_neg (by omega), if_pos hshort]

/-- After a discard hunting goes on from the byte that followed SYNC. -/
theorem scanAll_of_discard {len : Byte} {rest : List Byte} (hdiscard : (len.toNat < 2 ∨ 124 < len.toNat) ∨
    rest.length = len.toNat + 2 ∧ be16 (crc (len :: rest.take len.toNat)) ≠ rest.drop len.toNat) :
    scanAll (0xC3#8 :: len :: rest) = scanAll (len :: rest) := by
  rw [scanAll_cons_cons, if_neg (by simp)]
  by_cases hlen : len.toNat < 2 ∨ 124 < len.toNat
  · rw [if_pos hlen]
  · obtain ⟨hfull, hcheck⟩ := hdiscard.resolve_left hlen
    have hcheckBytes : (rest.drop len.toNat).take 2 = rest.drop len.toNat :=
      List.take_of_length_le (by rw [List.length_drop]; omega)
    rw [if_neg hlen, if_neg (by omega), hcheckBytes, if_neg hcheck]

/-! ## One byte received -/

section Byte
variable (s : State) (x : Byte)

theorem Framer.receive_of_frame {f : Framer} {kind tag : Byte} {body : List Byte} (hbody : body.length ≤ 122)
    (hlast : f.bytes ++ [x] = frameBytes kind tag body) : f.receive x = ([⟨kind, tag, body⟩], ⟨[]⟩) := by
  rw [Framer.receive_eq, hlast, scanAll_frameBytes _ _ _ hbody]

theorem Framer.receive_of_none {f : Framer} (hx : x ≠ 0xC3#8) (hhunt : f.bytes = []) : f.receive x = ([], f) := by
  obtain ⟨bytes⟩ := f
  subst hhunt
  rw [Framer.receive_eq]
  exact congrArg (fun r : List Frame × List Byte => (r.1, (⟨r.2⟩ : Framer))) (scanAll_single_of_ne hx)

theorem Framer.receive_of_partial {f : Framer} {after : List Byte} (hsync : f.bytes ++ [x] = 0xC3#8 :: after)
    (hpartial : ∀ len rest, after = len :: rest → 2 ≤ len.toNat ∧ len.toNat ≤ 124 ∧ rest.length < len.toNat + 2) :
    f.receive x = ([], ⟨f.bytes ++ [x]⟩) := by
  rw [Framer.receive_eq, hsync, scanAll_of_partial hpartial]

variable {x} in
theorem exec_receiveFramerByte_site {frames : List Frame} {held : Framer}
    (hreceive : s.link.siteFramer.receive x = (frames, held)) :
    exec (.receiveFramerByte .site x) s =
      .next (frames.foldl State.arriveFrame { s with link := { s.link with siteFramer := held } }) := by
  have hbyte : s.receiveByte .site x =
      frames.foldl State.arriveFrame { s with link := { s.link with siteFramer := held } } := by
    rw [State.receiveByte, hreceive]
  exact congrArg Host.Outcome.next hbyte

variable {x} in
theorem exec_receiveFramerByte_tracker {frames : List Frame} {held : Framer}
    (hreceive : s.link.trackerFramer.receive x = (frames, held)) :
    exec (.receiveFramerByte .tracker x) s =
      .next (frames.foldl State.poseFrame { s with link := { s.link with trackerFramer := held } }).beginFrame := by
  have hbyte : s.receiveByte .tracker x =
      (frames.foldl State.poseFrame { s with link := { s.link with trackerFramer := held } }).beginFrame := by
    rw [State.receiveByte, hreceive]
  exact congrArg Host.Outcome.next hbyte

end Byte

/-- Settles O56: the framer's scan of a whole frame, of a byte that begins none, of bytes within a frame and of a discard. -/
theorem framerTakesWholeFrames : Obligations.FramerTakesWholeFrames := by
  unfold Obligations.FramerTakesWholeFrames
  refine ⟨fun kind tag body hbody => ?whole, fun s x kind tag body hbody => ?completed, fun s x hx => ?hunting,
    fun s x held after hsync hpartial => ?stored, fun f x len rest hsync hdiscard => ?discarded⟩
  case whole =>
    have hscan := receiveAll_eq (frameBytes kind tag body)
    rwa [scanAll_frameBytes _ _ _ hbody] at hscan
  case completed =>
    exact ⟨fun hlast => exec_receiveFramerByte_site s (Framer.receive_of_frame x hbody hlast),
      fun hlast => exec_receiveFramerByte_tracker s (Framer.receive_of_frame x hbody hlast)⟩
  case hunting =>
    exact ⟨fun hhunt => exec_receiveFramerByte_site s (Framer.receive_of_none x hx hhunt),
      fun hhunt => exec_receiveFramerByte_tracker s (Framer.receive_of_none x hx hhunt)⟩
  case stored =>
    refine ⟨fun hheld => ?_, fun hheld => ?_⟩ <;> subst hheld
    · exact exec_receiveFramerByte_site s (Framer.receive_of_partial x hsync hpartial)
    · exact exec_receiveFramerByte_tracker s (Framer.receive_of_partial x hsync hpartial)
  case discarded =>
    have hreceived : f.receive x = ((scanAll (len :: rest)).1, ⟨(scanAll (len :: rest)).2⟩) := by
      rw [Framer.receive_eq, hsync, scanAll_of_discard hdiscard]
    exact hreceived.trans (receiveAll_eq (len :: rest)).symm

end Sys2Proof.Machine
end

