-- ==== Sys2Proof/Proofs/Admission.lean ====
section
/-! The Site Link Interface (R172 to R174): which frames are discarded, queued or answered at once, and what the end of a
transmission sends next. -/

namespace Sys2Proof.Machine

/-! ## When the link rests -/

/-- With a reply waiting no command is taken (R173). -/
theorem State.settle_of_reply {s : State} (n : Nat) (hwaits : s.beginFrame.link.replies ≠ []) : s.settle n = s.beginFrame := by
  cases n with
  | zero => rfl
  | succ n =>
    have hnot : s.beginFrame.mayTake = false := by simp [State.mayTake, hwaits]
    simp only [State.settle, hnot, Bool.false_eq_true, if_false]
    split <;> rfl

/-- With no command queued the transmitter may begin a frame, and that is all (R173, R174). -/
theorem State.settleLink_of_no_command {s : State} (hcommands : s.link.commands = []) : s.settleLink = s.beginFrame := by
  rw [State.settleLink, hcommands]
  rfl

/-- The transmitter of a settled link has nothing to begin. -/
theorem State.beginFrame_of_settled {s : State} (h : s.linkSettled) : s.beginFrame = s := by
  cases hsending : s.link.sending with
  | some f => exact s.beginFrame_of_busy (by rw [hsending]; rfl)
  | none =>
    obtain ⟨hreplies, hnotices⟩ := h.1 hsending
    simp [State.beginFrame, hsending, hreplies, hnotices]

/-- A settled link rests. -/
theorem State.settleLink_of_settled {s : State} (h : s.linkSettled) : s.settleLink = s := by
  have hbegin := State.beginFrame_of_settled h
  rcases h.2 with hcommands | hreplies | hpending
  · rw [State.settleLink_of_no_command hcommands, hbegin]
  · rw [State.settleLink, State.settle_of_reply _ (by rwa [hbegin]), hbegin]
  · rw [State.settleLink, State.settle_of_resetPending _ hpending, hbegin]

theorem State.sending_of_reply {s : State} (h : s.linkSettled) (hreplies : s.link.replies ≠ []) : s.link.sending ≠ none :=
  fun hfree => hreplies (h.1 hfree).1

/-! ## What a frame's command is answered without its owner -/

/-- The lengths of the bodies of the commands, LOAD SLOTS's apart (R182). -/
def commandBodyLengths : List (Nat × Nat) :=
  [(0x01, 0), (0x02, 0), (0x03, 1), (0x04, 1), (0x05, 2), (0x08, 21), (0x09, 24), (0x0A, 9), (0x10, 5), (0x12, 1),
    (0x13, 1), (0x14, 1), (0x15, 2), (0x18, 8), (0x19, 3), (0x1A, 5), (0x1B, 3), (0x1C, 1), (0x1D, 1), (0x1E, 2),
    (0x20, 3), (0x21, 0), (0x22, 0), (0x23, 0), (0x28, 0), (0x29, 0), (0x2A, 0), (0x2B, 0), (0x2C, 0), (0x2D, 0)]

/-- A body of another length than its command's is answered LENGTH (R173). -/
theorem State.perform_of_length (s : State) {f : Frame} {n : Nat} (hkind : (f.kind.toNat, n) ∈ commandBodyLengths)
    (hlength : f.body.length ≠ n) : s.perform f = (s, .refuse .length []) := by
  unfold State.perform
  generalize f.kind.toNat = k at hkind
  fin_cases hkind <;> exact if_neg hlength

/-- LOAD SLOTS with a body that its count does not suit is answered LENGTH (R173). -/
theorem State.perform_loadSlots_of_length (s : State) {f : Frame} (hkind : f.kind.toNat = 0x11)
    (hlength : f.body.length < 3 ∨ ∀ k, f.body[2]? = some k → f.body.length ≠ 3 + 16 * k.toNat) :
    s.perform f = (s, .refuse .length []) := by
  have hperform : s.perform f = s.takeLoadSlotsFrame f.body := by
    unfold State.perform
    generalize f.kind.toNat = k at hkind
    subst hkind
    rfl
  have hwrong : f.body.length < 3 ∨ f.body.length ≠ 3 + 16 * (byteAt f.body 2).toNat := by
    by_cases hshort : f.body.length < 3
    · exact Or.inl hshort
    · have hthird : f.body[2]? = some (byteAt f.body 2) := by
        rw [byteAt, List.getD_eq_getElem?_getD, List.getElem?_eq_getElem (by omega)]
        rfl
      exact Or.inr (hlength.resolve_left hshort _ hthird)
  rw [hperform]
  exact if_pos hwrong

/-- A KIND that names no command is answered UNKNOWN (R173). -/
theorem State.perform_of_unknown (s : State) {f : Frame} (hkind : namesNoCommand f.kind = true) :
    s.perform f = (s, .refuse .unknown []) := by
  have hnone : f.kind.toNat ∉ commandKinds := by
    simp only [namesNoCommand, Bool.and_eq_true, Bool.not_eq_true', List.contains_eq_mem, decide_eq_false_iff_not] at hkind
    exact hkind.2
  unfold State.perform
  split <;> simp_all [commandKinds]

/-! ## The arrival of a frame -/

section Arrival
variable {s : State}

theorem exec_commandFrameArrival (kind tag : Byte) (body : List Byte) :
    exec (.commandFrameArrival kind tag body) s = .next (s.arriveFrame ⟨kind, tag, body⟩) := rfl

/-- A frame that arrives where nothing waits is taken at once. -/
theorem State.arriveFrame_of_idle (hidle : s.linkIdle) {f : Frame} (hkind : isCommandKind f.kind = true) :
    s.arriveFrame f = ((s.perform f).1.appendReply f.kind f.tag (s.perform f).2).beginFrame := by
  obtain ⟨hcommands, hreplies, hpending, -⟩ := id hidle
  rw [← s.submit_eq_arriveFrame f (State.perform f) hkind fun _ => rfl, State.submit, hpending, hcommands, hreplies,
    State.beginFrame_of_idle s hidle]
  rfl

/-- A frame taken at once that its owner refuses without an effect. -/
theorem State.arriveFrame_of_refusal (hidle : s.linkIdle) {kind tag : Byte} {body : List Byte} {code : ResultCode}
    (hkind : isCommandKind kind = true) (hperform : s.perform ⟨kind, tag, body⟩ = (s, .refuse code [])) :
    s.arriveFrame ⟨kind, tag, body⟩ = s.replied kind tag code [] := by
  rw [State.arriveFrame_of_idle hidle hkind, hperform]
  rfl

end Arrival

theorem isCommandKind_of_bounds {kind : Byte} (hlow : 1 ≤ kind.toNat) (hhigh : kind.toNat ≤ 0x3F) : isCommandKind kind = true := by
  simp [isCommandKind, hlow, hhigh]

/-- Settles O57: the admission of a frame leaves a settled link settled, or the frame is taken where nothing waits. -/
theorem framesAreDiscardedQueuedOrAnswered : Obligations.FramesAreDiscardedQueuedOrAnswered := by
  unfold Obligations.FramesAreDiscardedQueuedOrAnswered
  intro s kind tag body hsettled hpending
  refine ⟨fun hdiscard => ?discarded, fun hlow hhigh hroom => ⟨fun hfull => ?full, fun hspace hwaits => ?queued,
    fun hcommands hreplies => ?taken⟩⟩
  case discarded =>
    have hadmit : s.admitFrame ⟨kind, tag, body⟩ = s := by
      rw [State.admitFrame, if_neg (by simp [hpending])]
      by_cases hkind : isCommandKind kind = true
      · have hbounds : 1 ≤ kind.toNat ∧ kind.toNat ≤ 0x3F := by simpa [isCommandKind] using hkind
        rw [if_neg (by simp [hkind]), if_pos (by omega)]
      · rw [if_pos (by simp [hkind])]
    rw [exec_commandFrameArrival, State.arriveFrame, hadmit, State.settleLink_of_settled hsettled]
  case full =>
    have hwaits : s.link.replies ≠ [] :=
      (hsettled.2.resolve_left fun hempty => by simp [hempty] at hfull).resolve_right (by simp [hpending])
    have hadmit : s.admitFrame ⟨kind, tag, body⟩ = s.appendReply kind tag (.refuse .queueFull []) := by
      rw [State.admitFrame, if_neg (by simp [hpending]), if_neg (by simp [isCommandKind_of_bounds hlow hhigh]),
        if_neg (by omega), if_pos hfull]
    have hstill : (s.appendReply kind tag (.refuse .queueFull [])).linkSettled :=
      ⟨fun hfree => absurd hfree (State.sending_of_reply (s := s) hsettled hwaits), Or.inr (Or.inl (by simp [State.appendReply]))⟩
    rw [exec_commandFrameArrival, State.arriveFrame, hadmit, State.settleLink_of_settled hstill]
    rfl
  case queued =>
    have hadmit : s.admitFrame ⟨kind, tag, body⟩ =
        { s with link := { s.link with commands := s.link.commands ++ [⟨kind, tag, body⟩] } } := by
      rw [State.admitFrame, if_neg (by simp [hpending]), if_neg (by simp [isCommandKind_of_bounds hlow hhigh]),
        if_neg (by omega), if_neg (by omega)]
    have hstill : State.linkSettled { s with link := { s.link with commands := s.link.commands ++ [⟨kind, tag, body⟩] } } :=
      ⟨fun hfree => absurd hfree (State.sending_of_reply (s := s) hsettled hwaits), Or.inr (Or.inl hwaits)⟩
    rw [exec_commandFrameArrival, State.arriveFrame, hadmit, State.settleLink_of_settled hstill]
  case taken =>
    have hidle : s.linkIdle := ⟨hcommands, hreplies, hpending, fun hfree => (hsettled.1 hfree).2⟩
    have hkind := isCommandKind_of_bounds hlow hhigh
    have answered {code : ResultCode} (hperform : s.perform ⟨kind, tag, body⟩ = (s, .refuse code [])) :
        exec (.commandFrameArrival kind tag body) s = .next (s.replied kind tag code []) :=
      congrArg Host.Outcome.next (State.arriveFrame_of_refusal hidle hkind hperform)
    exact ⟨fun hunknown => ⟨answered (s.perform_of_unknown hunknown), answered (s.perform_of_unknown hunknown)⟩,
      fun n hmem hlength => answered (s.perform_of_length hmem hlength),
      fun hload hlength => answered (s.perform_loadSlots_of_length hload hlength)⟩

/-! ## The end of a transmission -/

section TransmissionEnd
variable {s : State}

theorem exec_frameTransmissionEnd_of_free (hfree : s.link.sending = none) : exec .frameTransmissionEnd s = .next s := by
  have hend : s.transmissionEnd = s := by simp [State.transmissionEnd, hfree]
  exact congrArg Host.Outcome.next hend

/-- Where no reset falls the link settles with its transmitter free. -/
theorem exec_frameTransmissionEnd_of_sending (hsending : s.link.sending ≠ none) (hreset : s.resetFalls = false) :
    exec .frameTransmissionEnd s = .next (State.settleLink { s with link := { s.link with sending := none } }) := by
  have hend : s.transmissionEnd = State.settleLink { s with link := { s.link with sending := none } } := by
    simp [State.transmissionEnd, hsending, hreset]
  exact congrArg Host.Outcome.next hend

theorem State.freed_beginFrame_of_reply {r : Reply} {rs : List Reply} (hreplies : s.link.replies = r :: rs) :
    State.beginFrame { s with link := { s.link with sending := none } } =
      { s with link := { s.link with sending := some (.reply r), replies := rs } } := by
  simp [State.beginFrame, hreplies]

theorem State.freed_beginFrame_of_notice {n : Notice} {ns : List Notice} (hreplies : s.link.replies = [])
    (hnotices : s.link.notices = n :: ns) :
    State.beginFrame { s with link := { s.link with sending := none } } =
      { s with link := { s.link with sending := some (.notice n), notices := ns } } := by
  simp [State.beginFrame, hreplies, hnotices]

theorem State.freed_beginFrame_of_none (hreplies : s.link.replies = []) (hnotices : s.link.notices = []) :
    State.beginFrame { s with link := { s.link with sending := none } } =
      { s with link := { s.link with sending := none } } := by
  simp [State.beginFrame, hreplies, hnotices]

/-- The last reply begun, the next command is taken; its own reply then waits behind the one being sent. -/
theorem State.freed_settleLink_of_command {r : Reply} {f : Frame} {fs : List Frame} {u : State}
    (hpending : s.link.resetPending = false) (hreplies : s.link.replies = [r]) (hcommands : s.link.commands = f :: fs)
    (hu : u = { s with link := { s.link with sending := some (.reply r), replies := [], commands := fs } }) :
    State.settleLink { s with link := { s.link with sending := none } } =
      (u.perform f).1.appendReply f.kind f.tag (u.perform f).2 := by
  subst hu
  have hlength : State.settleLink { s with link := { s.link with sending := none } } =
      State.settle (fs.length + 1) { s with link := { s.link with sending := none } } := by
    rw [State.settleLink, hcommands]
    rfl
  generalize hu : ({ s with link := { s.link with sending := some (.reply r), replies := [], commands := fs } } : State) = u
  have htake : State.settle (fs.length + 1) { s with link := { s.link with sending := none } } =
      State.settle fs.length ((u.perform f).1.appendReply f.kind f.tag (u.perform f).2) := by
    rw [State.settle, State.freed_beginFrame_of_reply hreplies]
    simp only [hcommands]
    rw [if_pos (by simp [State.mayTake, hpending]), ← hu]
    rfl
  have hsends : (u.perform f).1.link.sending = u.link.sending := (State.perform_eventMove f u).sending
  have hbusy : ((u.perform f).1.appendReply f.kind f.tag (u.perform f).2).beginFrame =
      (u.perform f).1.appendReply f.kind f.tag (u.perform f).2 :=
    State.beginFrame_of_busy _ (by
      show (u.perform f).1.link.sending.isSome = true
      rw [hsends, ← hu]
      rfl)
  have hwaits : ((u.perform f).1.appendReply f.kind f.tag (u.perform f).2).beginFrame.link.replies ≠ [] := by
    rw [hbusy]
    simp [State.appendReply]
  rw [hlength, htake, State.settle_of_reply _ hwaits, hbusy]

end TransmissionEnd

/-- Settles O58: the transmitter freed, the link settles as `State.settle_of_reply` and its companions say. -/
theorem transmissionEndSendsTheNext : Obligations.TransmissionEndSendsTheNext := by
  unfold Obligations.TransmissionEndSendsTheNext
  intro s hsettled
  refine ⟨exec_frameTransmissionEnd_of_free, fun hsending hpending r rs hreplies => ?pending, fun hsending hpending => ?free⟩
  case pending =>
    rw [exec_frameTransmissionEnd_of_sending hsending (by simp [State.resetFalls, hreplies]),
      ← State.freed_beginFrame_of_reply hreplies]
    refine congrArg Host.Outcome.next (State.settle_of_resetPending _ ?_)
    exact hpending
  case free =>
    rw [exec_frameTransmissionEnd_of_sending hsending (by simp [State.resetFalls, hpending])]
    have nothingQueued (hreplies : s.link.replies = []) :
        State.settleLink { s with link := { s.link with sending := none } } =
          State.beginFrame { s with link := { s.link with sending := none } } :=
      State.settleLink_of_no_command (hsettled.2.resolve_right (by simp [hreplies, hpending]))
    refine ⟨fun r rs hreplies => ⟨fun hstays => congrArg Host.Outcome.next ?_,
      fun f fs hlast hcommands => ⟨_, rfl, congrArg Host.Outcome.next ?_⟩⟩,
      fun n ns hreplies hnotices => congrArg Host.Outcome.next ?_, fun hreplies hnotices => congrArg Host.Outcome.next ?_⟩
    · have hbegin := State.freed_beginFrame_of_reply hreplies
      rw [← hbegin]
      rcases hstays with hmore | hnone
      · exact State.settle_of_reply _ (by rw [hbegin]; exact hmore)
      · exact State.settleLink_of_no_command hnone
    · exact State.freed_settleLink_of_command hpending (hlast ▸ hreplies) hcommands rfl
    · rw [nothingQueued hreplies, State.freed_beginFrame_of_notice hreplies hnotices]
    · rw [nothingQueued hreplies, State.freed_beginFrame_of_none hreplies hnotices]

end Sys2Proof.Machine
end

