-- ==== Sys2Proof/Proofs/ClearingFaults.lean ====
section
/-! CLEAR FAULT (R88, R98, R145, R164): the brick path cleared, the FED slots returned, the cursor on the lay bank, STOWED. -/

namespace Sys2Proof.Machine

/-! ## The cursor on the lay bank (step 3) -/

section LayBank
variable {s : State}

/-- The spent test of the other bank leaves the lay bank at the head of the order. -/
theorem State.moveCursor_head {b : BankId} (c : Nat) (hhead : s.plan.order.head? = some b) :
    (s.moveCursor b c).plan.order.head? = some b := by
  rw [State.moveCursor, State.testSpent]
  split
  · obtain ⟨rest, horder⟩ := List.head?_eq_some_iff.mp hhead
    rw [State.spend_order, State.placeCursor_plan, horder, List.erase_cons_tail (by simpa using (BankId.other_ne b).symm)]
    rfl
  · rwa [State.placeCursor_plan]

/-- The cursor stands on the earliest PENDING slot of the lay bank (R164). -/
theorem State.cursorToLayBank_point {b : BankId} {p : Nat} (hhead : s.cursorToLayBank.plan.order.head? = some b)
    (hpending : (s.cursorToLayBank.bank b).firstPending 0 = some p) :
    s.cursorToLayBank.feed.pointer = b ∧ s.cursorToLayBank.feed.cursor = p := by
  cases hlay : s.plan.order.head? with
  | none =>
    have hstays : s.cursorToLayBank = s := by simp [State.cursorToLayBank, State.layBank, hlay]
    rw [hstays, hlay] at hhead
    cases hhead
  | some lay =>
    cases hfirst : (s.bank lay).firstPending 0 with
    | none =>
      have hstays : s.cursorToLayBank = s := by simp [State.cursorToLayBank, State.layBank, hlay, hfirst]
      rw [hstays, hlay] at hhead
      cases hhead
      rw [hstays, hfirst] at hpending
      cases hpending
    | some q =>
      have hmoves : s.cursorToLayBank = s.moveCursor lay q := by simp [State.cursorToLayBank, State.layBank, hlay, hfirst]
      rw [hmoves, State.moveCursor_head q hlay] at hhead
      cases hhead
      rw [hmoves, (s.moveCursor_bankKept b q).bank, hfirst] at hpending
      cases hpending
      rw [hmoves]
      exact s.moveCursor_point b p

theorem State.cursorToLayBank_slot? (b : BankId) (i : Nat) : s.cursorToLayBank.slot? b i = s.slot? b i := by
  rw [State.cursorToLayBank]
  split
  · split
    · exact State.moveCursor_slot? _ _ _ _ _
    · rfl
  · rfl

theorem State.cursorToLayBank_feedKept : FeedKept s s.cursorToLayBank := by
  rw [State.cursorToLayBank]
  split
  · split
    · exact State.moveCursor_feedKept _ _ _
    · exact .refl s
  · exact .refl s

end LayBank

/-! ## Steps 1 to 3 together -/

/-- The state of CLEAR FAULT with the bricks cleared, the slots returned and the cursor placed. -/
def State.cleared (s : State) : State := s.clearBricks.returnFedSlots.cursorToLayBank

section Cleared
variable (s : State)

theorem State.cleared_planMove : PlanMove s.clearBricks s.cleared :=
  (State.returnFedSlots_planMove _).trans (State.cursorToLayBank_planMove _)

theorem State.cleared_planRaises : PlanRaises s.clearBricks s.cleared :=
  (State.returnFedSlots_planRaises _).trans (State.cursorToLayBank_planRaises _)

theorem State.cleared_nextTag : s.cleared.feed.nextTag = s.feed.nextTag :=
  ((State.returnFedSlots_moves s.clearBricks).2.1.trans State.cursorToLayBank_feedKept).1

theorem State.cleared_slot? {b : BankId} {i : Nat} {sl : Slot} (hslot : s.slot? b i = some sl) :
    s.cleared.slot? b i = some (if sl.status = .fed then { sl with status := .pending } else sl) :=
  (State.cursorToLayBank_slot? b i).trans ((State.returnFedSlots_moves s.clearBricks).2.2 b i sl hslot)

theorem State.cleared_of_none (hfed : ∀ (b : BankId) (i : Nat) (sl : Slot), s.slot? b i = some sl → sl.status ≠ .fed)
    (hpending : ∀ b, s.plan.order.head? = some b → ∀ sl ∈ (s.bank b).slots, sl.status ≠ .pending) :
    s.cleared = s.clearBricks := by
  rw [State.cleared, State.returnFedSlots_none s.clearBricks hfed]
  exact State.cursorToLayBank_none s.clearBricks hpending

theorem State.takeClearFault_of_not_faulted (hmode : s.mode.mode ≠ .faulted) :
    s.takeClearFault = (s, .refuse .state []) := by
  simp [State.takeClearFault, State.faulted, hmode]

variable {s}

theorem State.takeClearFault_of_halt {f : FaultRecord} (hmode : s.mode.mode = .faulted) (hfault : s.mode.fault = some f)
    (hhalt : s.mode.halt = true) : s.takeClearFault = (s, .refuse .state
      [⟨1, 1⟩, ⟨1, f.primary.code⟩, ⟨1, f.further.toNat⟩, ⟨1, 1⟩, ⟨1, f.modeAtFault.code⟩, ⟨1, 1⟩]) := by
  simp only [State.takeClearFault, State.faulted, hmode, hfault, hhalt, decide_true, Bool.not_true, Bool.false_eq_true,
    if_false, if_true]
  rfl

theorem State.takeClearFault_accepted {f : FaultRecord} (hmode : s.mode.mode = .faulted) (hfault : s.mode.fault = some f)
    (hhalt : s.mode.halt = false) : s.takeClearFault = (s.cleared.leaveFaulted, .ok [⟨1, f.primary.code⟩,
      ⟨1, ((s.bank .bank0).count SlotStatus.isFed + (s.bank .bank1).count SlotStatus.isFed : Nat)⟩]) := by
  simp only [State.takeClearFault, State.faulted, hmode, hfault, hhalt, decide_true, Bool.not_true, Bool.false_eq_true,
    if_false, State.fedSlots_length]
  rfl

end Cleared

/-! ## Steps 4 to 6 -/

/-- Cradle 0 is always in use. -/
theorem State.emptyCradle_of_cradle0 {v : State} (hempty : v.cradle .cradle0 = .empty) : v.emptyCradle = some .cradle0 := by
  rw [State.emptyCradle, State.cradlesInUse]
  cases v.mode.cradleCount <;> simp [CradleCount.uses, hempty, Cradle.isEmpty]

section Leaving
variable (v : State)

/-- What leaving FAULTED changes: the record, the stopped clock, the mode and its hold, CONVEYOR HOLD and one MODE notice. -/
theorem State.leaveFaulted_eq : v.leaveFaulted = { v with
    mode := { v.mode with mode := .stowed, watchStopped := none, fault := none }
    clock := { v.clock with stoppedAt := none }
    place := { v.place with holdPaused := false }
    cradles := { v.cradles with hold := v.emptyCradle.isNone }
    link := v.raisedLink [.mode .stowed v.mode.mode .command] } := by
  have hraise := State.raise_link_congr (s := v) (.mode .stowed v.mode.mode .command)
    (t := { v with
      mode := { v.mode with mode := .stowed, watchStopped := none, fault := none }
      clock := { v.clock with stoppedAt := none }
      place := { v.place with holdPaused := false } }) rfl
  have hfree (n : Notice) (u : State) : (u.raise n).evalHold = { u.evalHold with link := (u.raise n).link } := by
    rw [State.raise_eq u]
    rfl
  rw [State.leaveFaulted, State.changeMode, hfree]
  simp only [reduceCtorEq, decide_false, if_false]
  rw [hraise]
  simp [State.evalHold, State.faulted, State.raisedLink]
  rfl

end Leaving

/-- Settles O53: the refusals, and `State.cleared` followed by `State.leaveFaulted_eq`. -/
theorem clearFaultReturnsTheFedSlots : Obligations.ClearFaultReturnsTheFedSlots := by
  unfold Obligations.ClearFaultReturnsTheFedSlots
  intro s tag hidle
  refine ⟨fun hmode => exec_clearFault_of_take hidle (s.takeClearFault_of_not_faulted hmode), fun f hmode hfault =>
    ⟨fun hhalt => exec_clearFault_of_take hidle (State.takeClearFault_of_halt hmode hfault hhalt), fun hhalt =>
      ⟨s.cleared.leaveFaulted, exec_clearFault_of_take hidle (State.takeClearFault_accepted hmode hfault hhalt), ?_⟩⟩⟩
  have hmove := s.cleared_planMove
  have hempty : s.cleared.emptyCradle = some .cradle0 := State.emptyCradle_of_cradle0 (by
    rw [State.cradle_of_cradles _ _ hmove.cradles]
    rfl)
  obtain ⟨plan, hplan, hlink⟩ := s.cleared_planRaises
  have hmodeWas : s.cleared.mode.mode = .faulted := by
    rw [hmove.mode]
    exact hmode
  have hslot (b : BankId) (i : Nat) (sl : Slot) := s.cleared_slot? (b := b) (i := i) (sl := sl)
  have hpoint (b : BankId) (p : Nat) := State.cursorToLayBank_point (s := s.clearBricks.returnFedSlots) (b := b) (p := p)
  have hnone := s.cleared_of_none
  have hnextTag := s.cleared_nextTag
  rw [State.leaveFaulted_eq]
  refine ⟨?train, ?cradles, ?adhesive, ?place, ?comp, hslot, hpoint, fun hfed hpending => ?stays,
    ⟨plan, hplan, ?link⟩, hnextTag, rfl, rfl, rfl, ?watchEnables, ?watchStatus, ?rejectSeen, ?halt, ?clock, hmove.pose,
    hmove.datum, hmove.zone⟩
  case train => exact congrArg TrainList.entries hmove.train
  case cradles =>
    show { s.cleared.cradles with hold := s.cleared.emptyCradle.isNone } = _
    rw [hempty, hmove.cradles]
    rfl
  case adhesive => exact hmove.adhesive
  case place =>
    show { s.cleared.place with holdPaused := false } = _
    rw [hmove.place]
    rfl
  case comp => exact hmove.comp
  case stays =>
    rw [hnone hfed hpending]
    exact ⟨rfl, rfl⟩
  case link =>
    show s.cleared.raisedLink [.mode .stowed s.cleared.mode.mode .command] = _
    rw [hmodeWas]
    exact (State.raisedLink_append plan _ hlink).trans (State.raisedLink_congr _ rfl)
  case watchEnables => exact (congrArg ModeControl.watchEnables hmove.mode :)
  case watchStatus => exact (congrArg ModeControl.watchStatus hmove.mode :)
  case rejectSeen => exact (congrArg ModeControl.rejectSeen hmove.mode :)
  case halt => exact ((congrArg ModeControl.halt hmove.mode).trans hhalt :)
  case clock =>
    show { s.cleared.clock with stoppedAt := none } = _
    rw [hmove.clock]
    rfl

end Sys2Proof.Machine
end

