-- ==== Sys2Proof/Proofs/Purging.lean ====
section
/-! PURGE (R62, R79, R84, R87, R142): a run of withdrawals over the live bricks that can be withdrawn. -/

namespace Sys2Proof.Machine

/-! ## What a run of withdrawals leaves alone -/

section Records
variable {s : State} {l : List (Brick × BrickPlace)} {r : RejectReason}

/-- A marked entry is none of the live bricks, and keeps its record while these are withdrawn. -/
theorem State.withdraw_fold_keepsMarkedEntry (hr : r.brickSpecific = false) (ha : s.bricksApart)
    (hl : ∀ x ∈ l, x ∈ s.liveBricks) {e : TrainEntry} (he : e ∈ s.train.entries) (hmark : e.brick.mark ≠ none) :
    e ∈ (l.foldl (fun s x => s.withdraw x r) s).train.entries := by
  have hapart : ∀ y ∈ l, separate (e.brick, .train) y := by
    rintro ⟨b, place⟩ hy
    obtain ⟨hbrick, hlive⟩ := (s.mem_liveBricks b place).mp (hl _ hy)
    rcases (s.mem_bricks b place).mp hbrick with ⟨rfl, -⟩ | ⟨c, -, rfl, -⟩ | ⟨rfl, e', he', hb⟩
    · exact .inl nofun
    · exact .inl nofun
    · refine .inr ⟨rfl, fun hserial => hmark ?_⟩
      have hsame : e = e' := List.inj_on_of_nodup_map ha.1 he he' (hserial.trans (congrArg Brick.serial hb.symm))
      rw [hsame, hb, hlive]
  have hkept := (s.withdraw_fold_heldAs r hr l (e.brick, .train) hapart).2.2
  have hmem : e ∈ s.train.entries.filter fun x => decide (x.brick.serial = e.brick.serial) := by simp [he]
  exact (List.mem_filter.mp ((show _ = _ from hkept) ▸ hmem)).1

/-- A cradle that holds a marked brick holds none of the live ones. -/
theorem State.withdraw_fold_keepsMarkedCradle (hr : r.brickSpecific = false) (hl : ∀ x ∈ l, x ∈ s.liveBricks)
    {c : CradleId} {cb : CradleBrick} (hcradle : (s.cradle c).brick? = some cb) (hmark : cb.brick.mark ≠ none) :
    (l.foldl (fun s x => s.withdraw x r) s).cradle c = s.cradle c := by
  refine (s.withdraw_fold_heldAs r hr l (cb.brick, .cradle c) fun y hy => .inl fun hplace => hmark ?_).2.2
  obtain ⟨b, place⟩ := y
  obtain rfl : BrickPlace.cradle c = place := hplace
  obtain ⟨hbrick, hlive⟩ := (s.mem_liveBricks b _).mp (hl _ hy)
  rcases (s.mem_bricks b _).mp hbrick with ⟨hgripper, -⟩ | ⟨d, cb', hd, -, hcradle', hb⟩ | ⟨htrain, -⟩
  · cases hgripper
  · cases hd
    rw [hcradle] at hcradle'
    cases hcradle'
    rw [hb, hlive]
  · cases htrain

/-- Where the gripper's brick is not among them the placement stays. -/
theorem State.withdraw_fold_keepsPlacement (hr : r.brickSpecific = false) (hl : ∀ x ∈ l, x.2 ≠ .gripper) :
    (l.foldl (fun s x => s.withdraw x r) s).place = s.place ∧ (l.foldl (fun s x => s.withdraw x r) s).comp = s.comp :=
  (s.withdraw_fold_heldAs r hr l (⟨0, 0, .bank0, 0, none⟩, .gripper) fun y hy => .inl (Ne.symm (hl y hy))).2.2

end Records

/-! ## PURGE -/

/-- The live bricks that a withdrawal can take, in train order. -/
def State.purgeable (s : State) : List (Brick × BrickPlace) := s.liveBricks.filter s.withdrawable

/-- The state after their withdrawal as PURGED. -/
def State.purged (s : State) : State := s.purgeable.foldl (fun s x => s.withdraw x .purged) s

section Purge
variable (s : State)

theorem State.mem_purgeable {x : Brick × BrickPlace} : x ∈ s.purgeable ↔ x ∈ s.liveBricks ∧ s.withdrawable x = true := by
  rw [State.purgeable, List.mem_filter]

theorem State.purgeable_live : ∀ x ∈ s.purgeable, x ∈ s.liveBricks := fun _ hx => (s.mem_purgeable.mp hx).1

theorem State.takePurge_accepted (hmode : s.mode.mode = .paused ∨ s.mode.mode = .stowed) :
    s.takePurge = (s.purged, .ok [⟨1, s.purgeable.length⟩]) := by
  rw [State.takePurge, if_pos hmode]
  rfl

theorem State.takePurge_refused (hpaused : s.mode.mode ≠ .paused) (hstowed : s.mode.mode ≠ .stowed) :
    s.takePurge = (s, .refuse .state [⟨1, s.mode.mode.code⟩]) := by
  rw [State.takePurge, if_neg (by simp [hpaused, hstowed])]
  rfl

theorem State.purged_withdrawMove : WithdrawMove s s.purged :=
  .foldl _ (fun u x => u.withdraw_withdrawMove x .purged) _ s

theorem State.purged_slotsRejected : s.slotsRejected s.purged .purged :=
  State.foldl_slotsRejected _ _ (fun u x => u.withdraw_slotsRejected x .purged rfl) _ _

variable {s}

theorem State.purgeable_separate (ha : s.bricksApart) : s.purgeable.Pairwise separate := (s.liveBricks_apart ha).filter _

theorem State.purged_withdrawn (ha : s.bricksApart) {x : Brick × BrickPlace} (hx : x ∈ s.purgeable) :
    s.withdrawn s.purged x .purged :=
  s.withdraw_fold .purged rfl ha _ (State.purgeable_separate ha) (fun _ hy => s.mem_purgeable.mp hy) s ha
    (fun y _ => s.heldAs_refl y) x hx

/-- The slots of the bricks withdrawn return, and no others change. -/
theorem State.purged_slots (ha : s.bricksApart) :
    (∀ x ∈ s.purgeable, ∀ sl, s.slot? x.1.bank x.1.slot = some sl → sl.status.isFed = true →
      s.purged.slot? x.1.bank x.1.slot = some (sl.afterReject .purged)) ∧
    (∀ b i, (∀ x ∈ s.purgeable, b ≠ x.1.bank ∨ i ≠ x.1.slot) → s.purged.slot? b i = s.slot? b i) :=
  s.withdraw_fold_slots .purged rfl ha _ (State.purgeable_separate ha) (fun _ hy => s.mem_purgeable.mp hy) s ha
    (fun y _ => s.heldAs_refl y) rfl

theorem State.purged_returnedTo (ha : s.bricksApart) : s.returnedTo s.purged fun b i => ∃ x ∈ s.liveBricks,
    s.withdrawable x = true ∧ x.1.bank = b ∧ x.1.slot = i ∧ ∃ sl, s.slot? b i = some sl ∧ sl.status = .fed := by
  have hreturned := s.purge_returned ha (fun b => ∃ i, s.fedOf s.purgeable b i) s.purgeable (State.purgeable_separate ha)
    (fun _ hy => s.mem_purgeable.mp hy) (fun b i hfed => ⟨i, hfed⟩) s (fun _ _ => False) ha (fun y _ => s.heldAs_refl y) rfl
    (Returned.start s _) nofun (fun _ _ _ => rfl) (by
      rintro c ⟨i, -, -, -, -, sl, hslot, hfed⟩
      exact ⟨i, sl, hslot, by rw [hfed]; rfl⟩)
  refine hreturned.returnedTo fun b i => ?_
  simp only [false_or, State.fedOf, State.mem_purgeable, and_assoc]

theorem State.purged_raises (ha : s.bricksApart) : Raises s s.purged
    ((s.purgeable.filter s.rejectedAtOnce).map fun x => .rejected x.1.tag x.1.bank x.1.slot .purged) :=
  s.withdraw_fold_raises .purged rfl _ (State.purgeable_separate ha) s.purgeable_live s ha
    (fun y _ => s.heldAs_refl y) rfl

/-- The brick in the gripper is withdrawn in APPROACH and SETTLING only. -/
theorem State.purgeable_not_gripper (happroach : s.place.state ≠ .approach) (hsettling : s.place.state ≠ .settling)
    {x : Brick × BrickPlace} (hx : x ∈ s.purgeable) : x.2 ≠ .gripper := by
  intro hgripper
  have hholds := (s.mem_purgeable.mp hx).2
  rw [State.withdrawable, hgripper] at hholds
  cases hstate : s.place.state <;> simp_all [PlacementState.holdsBrick]

end Purge

/-- Settles O31: PURGE is the run of withdrawals `State.purged`, read item by item from the laws of such a run. -/
theorem purgeReturnsTheSlotsOfTheBricksInFlight : Obligations.PurgeReturnsTheSlotsOfTheBricksInFlight := by
  unfold Obligations.PurgeReturnsTheSlotsOfTheBricksInFlight
  refine fun s tag hidle => ⟨fun hpaused hstowed => exec_purge_of_take hidle (s.takePurge_refused hpaused hstowed),
    fun hmode => ⟨s.purged, s.purgeable.length, exec_purge_of_take hidle (s.takePurge_accepted hmode), rfl, fun hnone => ?none,
      fun ha => ⟨fun x hlive hwithdrawable => ?brick, fun e he hmark => ?entry, fun b i hother => ?other,
        State.purged_returnedTo ha, State.purged_raises ha⟩, fun c cb hcradle hmark => ?cradle,
      fun happroach hsettling => ?placement, fun b i sl hslot => ?slots, ?frame⟩⟩
  case none => rw [State.purged, List.length_eq_zero_iff.mp hnone, List.foldl_nil]
  case brick =>
    have hx := s.mem_purgeable.mpr ⟨hlive, hwithdrawable⟩
    exact ⟨State.purged_withdrawn ha hx, fun sl hslot hfed =>
      (State.purged_slots ha).1 x hx sl hslot ((SlotStatus.isFed_iff _).mpr hfed)⟩
  case entry => exact State.withdraw_fold_keepsMarkedEntry rfl ha s.purgeable_live he hmark
  case other =>
    exact (State.purged_slots ha).2 b i fun x hx => hother x (s.mem_purgeable.mp hx).1 (s.mem_purgeable.mp hx).2
  case cradle => exact State.withdraw_fold_keepsMarkedCradle rfl s.purgeable_live hcradle hmark
  case placement =>
    exact State.withdraw_fold_keepsPlacement rfl fun x hx => State.purgeable_not_gripper happroach hsettling hx
  case slots =>
    exact (s.purged_slotsRejected b i sl hslot).imp_right fun ⟨hfed, hreturned⟩ =>
      ⟨hreturned, (SlotStatus.isFed_iff _).mp hfed⟩
  case frame =>
    have hmove := s.purged_withdrawMove
    exact ⟨hmove.datum, hmove.zone, hmove.adhesive, hmove.pose, hmove.clock, hmove.mode_mode,
      (congrArg ModeControl.fault hmove.mode :), (congrArg PlacementSequencer.grip hmove.place :)⟩

end Sys2Proof.Machine
end

