-- ==== Sys2Proof/Proofs/CourseSlots.lean ====
section
/-! END COURSE on the slots of a course (R66, R67): what each slot's step can be, and what a run of steps leaves of the plan,
the pointer and the cursor. -/

namespace Sys2Proof.Machine

/-! ## A run over a list, step by step -/

theorem foldl_of_step_from {α β : Type} {f : β → α → β} {P : List α → β → Prop}
    (hstep : ∀ done a x, a ∉ done → P done x → P (done ++ [a]) (f x a)) (l done : List α) (x : β)
    (hnodup : (done ++ l).Nodup) (h : P done x) : P (done ++ l) (l.foldl f x) := by
  induction l generalizing done x with
  | nil => rwa [List.append_nil]
  | cons a l ih =>
    have hsplit : done ++ a :: l = (done ++ [a]) ++ l := by simp
    have hnew : a ∉ done := fun hmem => (List.nodup_append.mp hnodup).2.2 a hmem a (by simp) rfl
    rw [hsplit] at hnodup ⊢
    exact ih (done ++ [a]) (f x a) hnodup (hstep done a x hnew h)

/-- What every step carries from the elements done to one more holds after a run over distinct elements. -/
theorem foldl_of_step {α β : Type} {f : β → α → β} (P : List α → β → Prop)
    (hstep : ∀ done a x, a ∉ done → P done x → P (done ++ [a]) (f x a)) (l : List α) (x : β) (hnodup : l.Nodup) (h : P [] x) :
    P l (l.foldl f x) :=
  foldl_of_step_from hstep l [] x hnodup h

/-! ## The step of one slot -/

/-- What END COURSE does with a slot: a PENDING one is SKIPPED, the brick of a FED one is withdrawn where it can be, and every
other slot stays. -/
inductive CourseStep (b : BankId) (i : Nat) (f : CourseResult) : CourseResult → Prop
  | stays (pending : ∀ sl, f.state.slot? b i = some sl → sl.status ≠ .pending)
      (brick : ∀ sl x, f.state.slot? b i = some sl → sl.status = .fed → f.state.brickFor b i = some x →
        f.state.withdrawable x = false) : CourseStep b i f f
  | skips (sl : Slot) (slot : f.state.slot? b i = some sl) (pending : sl.status = .pending) :
      CourseStep b i f ⟨f.state.recordStatus b i .skipped, f.skipped + 1, f.rejected⟩
  | withdraws (sl : Slot) (x : Brick × BrickPlace) (slot : f.state.slot? b i = some sl) (fed : sl.status = .fed)
      (brick : f.state.brickFor b i = some x) (withdrawable : f.state.withdrawable x = true) :
      CourseStep b i f ⟨f.state.withdraw x .courseEnded, f.skipped + 1, f.rejected + 1⟩

theorem CourseResult.slot_step (b : BankId) (f : CourseResult) (i : Nat) : CourseStep b i f (f.slot b i) := by
  have stays (sl : Slot) (hslot : f.state.slot? b i = some sl) (hpending : sl.status ≠ .pending)
      (hbrick : sl.status = .fed → ∀ x, f.state.brickFor b i = some x → f.state.withdrawable x = false) :
      CourseStep b i f f :=
    .stays (fun y hy => by rw [hslot] at hy; cases hy; exact hpending)
      (fun y x hy hfed hx => by rw [hslot] at hy; cases hy; exact hbrick hfed x hx)
  unfold CourseResult.slot
  split
  next hslot => exact .stays (fun _ h => by rw [hslot] at h; cases h) (fun _ _ h => by rw [hslot] at h; cases h)
  next sl hslot =>
    split
    next hstatus => exact .skips sl hslot hstatus
    next hstatus =>
      split
      next x hbrick =>
        split
        next hwithdrawable => exact .withdraws sl x hslot hstatus hbrick hwithdrawable
        next hnot =>
          refine stays sl hslot (by simp [hstatus]) fun _ y hy => ?_
          rw [hbrick] at hy
          cases hy
          simpa using hnot
      next hnone => exact stays sl hslot (by simp [hstatus]) (by simp [hnone])
    next hstatus => exact stays sl hslot (by simp [hstatus]) (by simp [hstatus])
    next hstatus => exact stays sl hslot (by simp [hstatus]) (by simp [hstatus])
    next hstatus => exact stays sl hslot (by simp [hstatus]) (by simp [hstatus])

/-- The live brick that END COURSE finds for a slot. -/
theorem State.brickFor_mem {u : State} {b : BankId} {i : Nat} {x : Brick × BrickPlace} (h : u.brickFor b i = some x) :
    x ∈ u.liveBricks ∧ x.1.bank = b ∧ x.1.slot = i := by
  refine ⟨List.mem_of_find?_eq_some h, ?_⟩
  simpa using List.find?_some h

section Step
variable {b : BankId} {i : Nat} {f g : CourseResult}

theorem CourseStep.other (h : CourseStep b i f g) : f.state.slotsKeptBut g.state b i := by
  cases h with
  | stays => exact fun _ _ _ => rfl
  | skips => exact State.recordStatus_other _ _ _ _
  | withdraws sl x slot fed brick withdrawable =>
    obtain ⟨hlive, rfl, rfl⟩ := State.brickFor_mem brick
    exact f.state.withdraw_other x _ rfl (List.mem_filter.mp hlive).1

theorem CourseStep.move (h : CourseStep b i f g) : WithdrawMove f.state g.state := by
  cases h with
  | stays => exact .refl _
  | skips => exact (State.recordStatus_planMove _ _ _ _).toPathMove.toWithdrawMove
  | withdraws sl x => exact f.state.withdraw_withdrawMove x _

/-- A step makes no live brick. -/
theorem CourseStep.noNewLive (h : CourseStep b i f g) : f.state.noNewLive g.state := by
  cases h with
  | stays => exact fun _ hx => hx
  | skips => exact (State.recordStatus_planMove _ _ _ _).noNewLive
  | withdraws sl x => exact f.state.withdraw_noNewLive x _ rfl

/-- The bricks of other slots keep their records. -/
theorem CourseStep.heldAs (h : CourseStep b i f g) {s : State} (ha : s.bricksApart) (hfresh : s.noNewLive f.state)
    {x : Brick × BrickPlace} (hx : x ∈ s.liveBricks) (hother : x.1.bank ≠ b ∨ x.1.slot ≠ i) : f.state.heldAs g.state x := by
  cases h with
  | stays => exact f.state.heldAs_refl x
  | skips => exact (State.recordStatus_planMove _ _ _ _).heldAs x
  | withdraws sl y slot fed brick withdrawable =>
    obtain ⟨hlive, rfl, rfl⟩ := State.brickFor_mem brick
    have hne : x ≠ y := by
      rintro rfl
      exact hother.elim (fun h => h rfl) (fun h => h rfl)
    exact f.state.withdraw_heldAs x y _ rfl (s.liveBricks_separate ha hx (hfresh y hlive) hne)

end Step

/-- The report of COURSE ENDED for a FED slot is the record of SKIPPED. -/
theorem State.reportReject_courseEnded {u : State} {y : Brick} {sl : Slot} (hslot : u.slot? y.bank y.slot = some sl)
    (hfed : sl.status = .fed) : u.reportReject y .courseEnded = u.recordStatus y.bank y.slot .skipped := by
  simp [State.reportReject, State.rejectReturns, State.recordReject, State.recordStatus, hslot, hfed, SlotStatus.isFed,
    Slot.afterReject, SlotStatus.isPending]

/-! ## Pointer, cursor and bank states -/

/-- Where a run of END COURSE over slots of a bank leaves pointer, cursor and bank states: as they were; with the bank SPENT; or,
where an ENDED walk waited for it, on the bank. -/
inductive CoursePoint (s : State) (b : BankId) (u : State) : Prop
  | kept (pointer : u.feed.pointer = s.feed.pointer) (cursor : u.feed.cursor = s.feed.cursor)
      (state : ∀ c, (u.bank c).state = (s.bank c).state) (walk : ∀ c, WalkKept (s.bank c) (u.bank c))
      (order : u.plan.order = s.plan.order)
  | spent (pointer : u.feed.pointer = s.feed.pointer) (cursor : u.feed.cursor = s.feed.cursor)
      (now : (u.bank b).state = .spent)
      (here : b = s.feed.pointer → (s.bank b).slots.length ≤ s.feed.cursor) (away : b ≠ s.feed.pointer → s.feedState ≠ .ended)
  | moved (away : s.feed.pointer ≠ b) (ended : s.feedState = .ended) (was : (s.bank b).state = .active)
      (now : (u.bank b).state = .spent) (pointer : u.feed.pointer = b) (cursor : u.feed.cursor = 0)

section Point
variable {s u v : State} {b : BankId}

theorem CoursePoint.start (s : State) (b : BankId) : CoursePoint s b s :=
  .kept rfl rfl (fun _ => rfl) (fun _ => .refl _) rfl

theorem CoursePoint.congr (h : CoursePoint s b u) (hplan : v.plan = u.plan) (hfeed : v.feed = u.feed) : CoursePoint s b v := by
  have hbank := State.bank_of_plan u v hplan
  cases h with
  | kept pointer cursor state walk order =>
    exact .kept (by rw [hfeed, pointer]) (by rw [hfeed, cursor]) (fun c => by rw [hbank, state])
      (fun c => by rw [hbank]; exact walk c) (by rw [hplan, order])
  | spent pointer cursor now here away =>
    exact .spent (by rw [hfeed, pointer]) (by rw [hfeed, cursor]) (by rw [hbank, now]) here away
  | moved away ended was now pointer cursor =>
    exact .moved away ended was (by rw [hbank, now]) (by rw [hfeed, pointer]) (by rw [hfeed, cursor])

/-- A bank that is SPENT already is not spent again. -/
theorem State.recordStatus_skipped_of_spent {i : Nat} {sl : Slot} (hslot : u.slot? b i = some sl)
    (hspent : (u.bank b).state = .spent) : u.recordStatus b i .skipped = u.slotSkipped b i sl := by
  refine (State.recordStatus_skipped hslot).trans ((State.spendIfDue_point _ b).1 ?_)
  rw [State.spentDue, u.slotSkipped_state b i sl, hspent]
  rfl

/-- A slot recorded SKIPPED: the bank is spent where it was the last one, and an ENDED walk then moves to it (R14, R58). -/
theorem CoursePoint.record (h : CoursePoint s b u) {i : Nat} {sl : Slot} (hslot : u.slot? b i = some sl) :
    CoursePoint s b (u.recordStatus b i .skipped) := by
  obtain ⟨hpointer, hcursor, -⟩ := u.slotSkipped_point b i sl
  have hstate := u.slotSkipped_state b i sl
  cases h with
  | spent pointer cursor now here away =>
    rw [State.recordStatus_skipped_of_spent hslot now]
    exact .spent (hpointer.trans pointer) (hcursor.trans cursor) ((hstate b).trans now) here away
  | moved away ended was now pointer cursor =>
    rw [State.recordStatus_skipped_of_spent hslot now]
    exact .moved away ended was ((hstate b).trans now) (hpointer.trans pointer) (hcursor.trans cursor)
  | kept pointer cursor state walk order =>
    rw [State.recordStatus_skipped hslot]
    have hwalk (c : BankId) : WalkKept (s.bank c) ((u.slotSkipped b i sl).bank c) := by
      rw [u.slotSkipped_bank b i sl c]
      exact (walk c).trans (u.setSlot_walkKept b i { sl with status := .skipped } sl hslot rfl c)
    have hended : (u.slotSkipped b i sl).feedState = .ended ↔ s.feedState = .ended := by
      rw [State.feedState_ended, State.feedState_ended, hpointer, pointer, hcursor, cursor, hstate, state,
        (hwalk s.feed.pointer).length]
    obtain ⟨hnot, hspends, hmoves⟩ := (u.slotSkipped b i sl).spendIfDue_point b
    cases hdue : (u.slotSkipped b i sl).spentDue b with
    | false =>
      rw [hnot hdue]
      exact .kept (hpointer.trans pointer) (hcursor.trans cursor) (fun c => (hstate c).trans (state c)) hwalk
        ((u.slotSkipped_order b i sl).trans order)
    | true =>
      have hactive : (s.bank b).state = .active := ((hstate b).trans (state b)).symm.trans (State.spentDue_active hdue)
      by_cases hwaits : b ≠ s.feed.pointer ∧ s.feedState = .ended
      · obtain ⟨haway, hend⟩ := hwaits
        obtain ⟨mpointer, mcursor, mbank⟩ := hmoves hdue (by rwa [hpointer, pointer]) (hended.mpr hend)
        exact .moved haway.symm hend hactive (by rw [mbank]) mpointer mcursor
      · have hstays : b = (u.slotSkipped b i sl).feed.pointer ∨ (u.slotSkipped b i sl).feedState ≠ .ended := by
          rw [hpointer, pointer, ne_eq, hended]
          tauto
        obtain ⟨spointer, scursor, sbank, -⟩ := hspends hdue hstays
        refine .spent (spointer.trans (hpointer.trans pointer)) (scursor.trans (hcursor.trans cursor)) (by rw [sbank])
          (fun hhere => ?_) (fun haway hend => hwaits ⟨haway, hend⟩)
        simp only [State.spentDue, Bool.and_eq_true, Bool.or_eq_true, decide_eq_true_eq, hpointer, hcursor, pointer, cursor,
          (hwalk b).length] at hdue
        exact hdue.2.resolve_left fun hne => hne hhere

end Point

/-! ## The slots of the course -/

/-- What a run of END COURSE over slots of a bank leaves, whatever bricks are held. -/
structure CourseSlots (s : State) (b : BankId) (done : List Nat) (u : State) : Prop where
  other : ∀ c j, (c ≠ b ∨ j ∉ done) → u.slot? c j = s.slot? c j
  slot  : ∀ j ∈ done, ∀ sl, s.slot? b j = some sl → u.slot? b j = some sl ∧ sl.status ≠ .pending ∨
    u.slot? b j = some { sl with status := .skipped } ∧ (sl.status = .pending ∨ sl.status = .fed)
  move  : WithdrawMove s u
  point : CoursePoint s b u

theorem CourseSlots.start (s : State) (b : BankId) : CourseSlots s b [] s :=
  ⟨fun _ _ _ => rfl, nofun, .refl s, .start s b⟩

section Slots
variable {s : State} {b : BankId} {done : List Nat} {i : Nat} {u v : State}

/-- A step that changes only its own slot. -/
theorem CourseSlots.step (h : CourseSlots s b done u) (hi : i ∉ done) (hother : u.slotsKeptBut v b i)
    (hslot : ∀ sl, u.slot? b i = some sl → v.slot? b i = some sl ∧ sl.status ≠ .pending ∨
      v.slot? b i = some { sl with status := .skipped } ∧ (sl.status = .pending ∨ sl.status = .fed))
    (hmove : WithdrawMove u v) (hpoint : CoursePoint s b v) : CourseSlots s b (done ++ [i]) v where
  other c j hj := by
    have hapart : c ≠ b ∨ j ≠ i := hj.imp_right fun hmem heq => hmem (by simp [heq])
    have hbefore : c ≠ b ∨ j ∉ done := hj.imp_right fun hmem hdone => hmem (by simp [hdone])
    rw [hother c j hapart, h.other c j hbefore]
  slot j hj sl hsl := by
    rcases List.mem_append.mp hj with hdone | hnew
    · rw [hother b j (.inr fun heq => hi (heq ▸ hdone))]
      exact h.slot j hdone sl hsl
    · obtain rfl : j = i := by simpa using hnew
      exact hslot sl ((h.other b j (.inr hi)).trans hsl)
  move := h.move.trans hmove
  point := hpoint

/-- The withdrawal of the brick of a FED slot, seen from the slots. -/
theorem State.withdraw_courseEnded_record {x : Brick × BrickPlace} {sl : Slot} (hx : x ∈ u.bricks)
    (hslot : u.slot? x.1.bank x.1.slot = some sl) (hfed : sl.status = .fed) : u.withdraw x .courseEnded = u ∨
      ∃ w : State, w.plan = u.plan ∧ w.feed = u.feed ∧
        u.withdraw x .courseEnded = w.recordStatus x.1.bank x.1.slot .skipped := by
  refine (u.withdraw_reports x .courseEnded rfl hx).imp_right ?_
  rintro ⟨w, y, hplan, hfeed, -, hbank, hyslot, hreport⟩
  refine ⟨w, hplan, hfeed, hreport.trans ?_⟩
  have hw : w.slot? y.bank y.slot = some sl := by rw [hbank, hyslot, State.slotsKept_of_plan hplan, hslot]
  rw [State.reportReject_courseEnded hw hfed, hbank, hyslot]

theorem CourseSlots.slotStep (h : CourseSlots s b done u) (hi : i ∉ done) {f g : CourseResult} (hf : f.state = u)
    (hstep : CourseStep b i f g) : CourseSlots s b (done ++ [i]) g.state := by
  subst hf
  refine h.step hi hstep.other (fun y hy => ?_) hstep.move ?_
  case refine_1 =>
    cases hstep with
    | stays pending brick => exact .inl ⟨hy, pending y hy⟩
    | skips sl slot pending =>
      rw [slot] at hy
      cases hy
      exact .inr ⟨State.recordStatus_self _ _ _ _ _ slot, .inl pending⟩
    | withdraws sl x slot fed brick withdrawable =>
      rw [slot] at hy
      cases hy
      refine (f.state.withdraw_slotsRejected x .courseEnded rfl _ _ _ slot).imp (fun hsame => ⟨hsame, by simp [fed]⟩) ?_
      exact fun ⟨_, hskipped⟩ => ⟨hskipped, .inr fed⟩
  case refine_2 =>
    cases hstep with
    | stays pending brick => exact h.point
    | skips sl slot pending => exact h.point.record slot
    | withdraws sl x slot fed brick withdrawable =>
      obtain ⟨hlive, rfl, rfl⟩ := State.brickFor_mem brick
      rcases State.withdraw_courseEnded_record (List.mem_filter.mp hlive).1 slot fed with hsame | ⟨w, hplan, hfeed, hrecord⟩
      · exact h.point.congr (by rw [hsame]) (by rw [hsame])
      · have hw : w.slot? x.1.bank x.1.slot = some sl := (State.slotsKept_of_plan hplan _ _).trans slot
        exact hrecord ▸ (h.point.congr hplan hfeed).record hw

end Slots

/-- END COURSE over a run of slots. -/
theorem CourseSlots.run (s : State) (b : BankId) (run : List Nat) (hnodup : run.Nodup) :
    CourseSlots s b run (run.foldl (CourseResult.slot b) ⟨s, 0, 0⟩).state :=
  foldl_of_step (fun done (f : CourseResult) => CourseSlots s b done f.state)
    (fun _ i f hi h => h.slotStep hi rfl (f.slot_step b i)) run ⟨s, 0, 0⟩ hnodup (.start s b)

end Sys2Proof.Machine
end

