-- ==== Sys2Proof/Proofs/CourseBricks.lean ====
section
/-! END COURSE on the bricks of a course (R15, R66): which bricks are withdrawn, what is counted and which REJECTED are
raised. -/

namespace Sys2Proof.Machine

/-! ## The live brick of a slot -/

/-- Of a list with one candidate at most, a search finds that one where it meets the condition. -/
theorem find?_of_unique {α : Type} {p : α → Bool} {l : List α} {x : α} (hx : x ∈ l) (hunique : ∀ y ∈ l, p y = true → y = x) :
    l.find? p = if p x then some x else none := by
  cases hfind : l.find? p with
  | none =>
    have hnot : ¬ p x = true := List.find?_eq_none.mp hfind x hx
    rw [if_neg hnot]
  | some y =>
    obtain rfl := hunique y (List.mem_of_find?_eq_some hfind) (List.find?_some hfind)
    rw [if_pos (List.find?_some hfind)]

theorem State.heldAs.withdrawable {s u : State} {x : Brick × BrickPlace} (h : s.heldAs u x) :
    u.withdrawable x = s.withdrawable x := by
  obtain ⟨b, place⟩ := x
  cases place with
  | gripper => rw [State.withdrawable, State.withdrawable, h.2.2.1]
  | cradle c => rfl
  | train => rfl

/-- The one live brick of the slot, where it still is live, is the brick that END COURSE finds. -/
theorem State.brickFor_of_unique {s u : State} (hfresh : s.noNewLive u) {x : Brick × BrickPlace} (hlive : x ∈ u.liveBricks)
    (hunique : ∀ y ∈ s.liveBricks, y.1.bank = x.1.bank → y.1.slot = x.1.slot → y = x) :
    u.brickFor x.1.bank x.1.slot = some x := by
  rw [State.brickFor, find?_of_unique hlive fun y hy hp => ?_]
  · simp
  · simp only [Bool.and_eq_true, decide_eq_true_eq] at hp
    exact hunique y (hfresh y hy) hp.1 hp.2

/-! ## What is counted and raised -/

/-- The step of a slot has changed it. -/
def State.courseChanged (s u : State) (b : BankId) (i : Nat) : Bool := decide (u.slot? b i ≠ s.slot? b i)

/-- The slot was FED. -/
def State.wasFed (s : State) (b : BankId) (i : Nat) : Bool := (s.slot? b i).any (·.status.isFed)

/-- The brick of the slot for which END COURSE raises REJECTED in the same event. -/
def State.courseRejects (s : State) (b : BankId) (i : Nat) : Option (Brick × BrickPlace) :=
  s.liveBricks.find? fun x => x.1.bank = b && x.1.slot = i &&
    (s.slot? b i).any (·.status.isFed) && s.withdrawable x && s.rejectedAtOnce x

/-- The REJECTED notice of a withdrawn brick. -/
def courseNotice (x : Brick × BrickPlace) : Notice := .rejected x.1.tag x.1.bank x.1.slot .courseEnded

/-- No two live bricks stand for one slot of the bank. -/
def State.bricksOwnSlots (s : State) (b : BankId) : Prop :=
  ∀ x ∈ s.liveBricks, ∀ y ∈ s.liveBricks, x.1.bank = b → y.1.bank = b → x.1.slot = y.1.slot → x = y

/-- What END COURSE leaves of the one live brick of a FED slot: withdrawn with its slot SKIPPED where it can be, as it was
otherwise. -/
def State.courseOwn (s u : State) (b : BankId) (x : Brick × BrickPlace) (sl : Slot) : Prop :=
  (s.withdrawable x = true → s.withdrawn u x .courseEnded ∧ u.slot? b x.1.slot = some { sl with status := .skipped }) ∧
  (s.withdrawable x = false → u.slot? b x.1.slot = some sl)

theorem State.courseRejects_of_not_fed {s : State} {b : BankId} {i : Nat} {sl : Slot} (hslot : s.slot? b i = some sl)
    (hfed : sl.status ≠ .fed) : s.courseRejects b i = none := by
  have hnot : ¬ sl.status.isFed = true := fun h => hfed ((SlotStatus.isFed_iff _).mp h)
  rw [State.courseRejects, List.find?_eq_none]
  simp [hslot, hnot]

/-! ## One step -/

/-- What one step changes and raises at its own slot. -/
structure CourseEffect (s : State) (b : BankId) (i : Nat) (f g : CourseResult) : Prop where
  own : ∀ x ∈ s.liveBricks, ∀ sl, x.1.bank = b → x.1.slot = i → s.slot? b i = some sl → sl.status = .fed →
    (∀ y ∈ s.liveBricks, y.1.bank = b → y.1.slot = i → y = x) → s.courseOwn g.state b x sl
  skipped  : g.skipped = f.skipped + if s.courseChanged g.state b i then 1 else 0
  rejected : g.rejected = f.rejected + if s.courseChanged g.state b i && s.wasFed b i then 1 else 0
  raises   : s.bricksOwnSlots b → Raises f.state g.state ((s.courseRejects b i).toList.map courseNotice)

section Effect
variable {s : State} {b : BankId} {i : Nat} {f g : CourseResult}

/-- A slot that became SKIPPED from another status has changed. -/
theorem State.courseChanged_of_skipped {u : State} {sl : Slot} (hslot : s.slot? b i = some sl)
    (hskipped : u.slot? b i = some { sl with status := .skipped }) (hstatus : sl.status ≠ .skipped) :
    s.courseChanged u b i = true := by
  rw [State.courseChanged, hslot, hskipped, decide_eq_true_eq]
  intro hsame
  exact hstatus (congrArg Slot.status (Option.some.inj hsame)).symm

theorem CourseStep.effect (h : CourseStep b i f g) (ha : s.bricksApart) (hf : f.state.bricksApart)
    (hcount : f.state.mode.cradleCount = s.mode.cradleCount) (hfresh : s.noNewLive f.state)
    (hslot : f.state.slot? b i = s.slot? b i)
    (hheld : ∀ x ∈ s.liveBricks, x.1.bank = b → x.1.slot = i → s.heldAs f.state x) : CourseEffect s b i f g := by
  cases h with
  | stays pending brick =>
    have hstays (x : Brick × BrickPlace) (hx : x ∈ s.liveBricks) (sl : Slot) (hbank : x.1.bank = b) (hxi : x.1.slot = i)
        (hsl : s.slot? b i = some sl) (hfed : sl.status = .fed)
        (hunique : ∀ y ∈ s.liveBricks, y.1.bank = b → y.1.slot = i → y = x) : s.withdrawable x = false := by
      have hkept := hheld x hx hbank hxi
      have hfound : f.state.brickFor b i = some x := by
        subst hbank hxi
        exact State.brickFor_of_unique hfresh (hkept.live hcount hx) hunique
      rw [← hkept.withdrawable]
      exact brick sl x (hslot.trans hsl) hfed hfound
    have hunchanged : s.courseChanged f.state b i = false := by simp [State.courseChanged, hslot]
    refine ⟨fun x hx sl hbank hxi hsl hfed hunique => ⟨fun hw => ?_, fun _ => ?_⟩, by simp [hunchanged], by simp [hunchanged],
      fun hown => ?_⟩
    · rw [hstays x hx sl hbank hxi hsl hfed hunique] at hw
      cases hw
    · rw [hxi, hslot, hsl]
    · have hnone : s.courseRejects b i = none := by
        rw [State.courseRejects, List.find?_eq_none]
        intro x hx hp
        simp only [Bool.and_eq_true, decide_eq_true_eq, Option.any_eq_true] at hp
        obtain ⟨⟨⟨⟨hbank, hxi⟩, sl, hsl, hfed⟩, hw⟩, -⟩ := hp
        rw [hstays x hx sl hbank hxi hsl ((SlotStatus.isFed_iff _).mp hfed) fun y hy hybank hyi =>
          hown y hy x hx hybank hbank (hyi.trans hxi.symm)] at hw
        cases hw
      rw [hnone]
      exact (PlanRaises.of_eq rfl).raises
  | skips sl slot pending =>
    have hsl : s.slot? b i = some sl := hslot.symm.trans slot
    have hchanged : s.courseChanged (f.state.recordStatus b i .skipped) b i = true :=
      State.courseChanged_of_skipped hsl (State.recordStatus_self _ _ _ _ _ slot) (by simp [pending])
    refine ⟨fun x hx y hbank hxi hy hfed => ?_, by simp [hchanged], ?_, fun _ => ?_⟩
    · rw [hsl] at hy
      cases hy
      rw [pending] at hfed
      cases hfed
    · simp [State.wasFed, hsl, pending, SlotStatus.isFed]
    · rw [State.courseRejects_of_not_fed hsl (by simp [pending])]
      exact (State.recordStatus_planRaises _ _ _ _).raises
  | withdraws sl x slot fed brick withdrawable =>
    obtain ⟨hlive, hbank, hxi⟩ := State.brickFor_mem brick
    have hsl : s.slot? b i = some sl := hslot.symm.trans slot
    have hx := hfresh x hlive
    have hkept := hheld x hx hbank hxi
    have hw : s.withdrawable x = true := hkept.withdrawable ▸ withdrawable
    have hisFed : sl.status.isFed = true := (SlotStatus.isFed_iff _).mpr fed
    have hskipped : (f.state.withdraw x .courseEnded).slot? b i = some { sl with status := .skipped } := by
      subst hbank hxi
      have hself := State.withdraw_self s f.state x .courseEnded rfl ha hf hx hw hkept sl slot
      rwa [if_pos hisFed] at hself
    have hchanged := State.courseChanged_of_skipped hsl hskipped (by simp [fed])
    refine ⟨fun y hy z hybank hyi hz hzfed hunique => ?_, by simp [hchanged], ?_, fun hown => ?_⟩
    · obtain rfl := hunique x hx hbank hxi
      rw [hsl] at hz
      cases hz
      exact ⟨fun _ => ⟨State.withdraw_withdrawn s f.state x .courseEnded rfl ha hf hx hw hkept, hxi ▸ hskipped⟩,
        fun hnot => by rw [hw] at hnot; cases hnot⟩
    · simp [hchanged, State.wasFed, hsl, hisFed]
    · have hfind : s.courseRejects b i = if s.rejectedAtOnce x then some x else none := by
        rw [State.courseRejects, find?_of_unique hx fun y hy hp => ?_]
        · simp [hbank, hxi, hsl, hisFed, hw]
        · simp only [Bool.and_eq_true, decide_eq_true_eq] at hp
          obtain ⟨⟨⟨⟨hybank, hyi⟩, -⟩, -⟩, -⟩ := hp
          exact hown y hy x hx hybank hbank (hyi.trans hxi.symm)
      have hraises := f.state.withdraw_raises x .courseEnded rfl hf hlive
      rw [hkept.rejectedAtOnce] at hraises
      rw [hfind]
      cases hnow : s.rejectedAtOnce x with
      | true => simpa [hnow, courseNotice] using hraises
      | false => simpa [hnow] using hraises

end Effect

/-! ## The run -/

/-- What a run of END COURSE over slots of a bank leaves of the bricks, where these have records of their own. -/
structure CourseBricks (s : State) (b : BankId) (done : List Nat) (f : CourseResult) : Prop where
  slots : CourseSlots s b done f.state
  fresh : s.noNewLive f.state
  held  : ∀ x ∈ s.liveBricks, (x.1.bank ≠ b ∨ x.1.slot ∉ done) → s.heldAs f.state x
  own   : ∀ x ∈ s.liveBricks, ∀ sl, x.1.bank = b → x.1.slot ∈ done → s.slot? b x.1.slot = some sl → sl.status = .fed →
    (∀ y ∈ s.liveBricks, y.1.bank = b → y.1.slot = x.1.slot → y = x) → s.courseOwn f.state b x sl
  skipped  : f.skipped = done.countP fun i => s.courseChanged f.state b i
  rejected : f.rejected = done.countP fun i => s.courseChanged f.state b i && s.wasFed b i
  raises   : s.bricksOwnSlots b → Raises s f.state ((done.filterMap (s.courseRejects b)).map courseNotice)

theorem CourseBricks.start (s : State) (b : BankId) : CourseBricks s b [] ⟨s, 0, 0⟩ where
  slots := .start s b
  fresh _ hx := hx
  held x _ _ := s.heldAs_refl x
  own _ _ _ _ hmem := by cases hmem
  skipped := rfl
  rejected := rfl
  raises _ := (PlanRaises.of_eq rfl).raises

/-- A count over a list with one more element. -/
theorem countP_snoc {p q : Nat → Bool} {done : List Nat} (i : Nat) (h : ∀ j ∈ done, q j = p j) :
    (done ++ [i]).countP q = done.countP p + if q i then 1 else 0 := by
  rw [List.countP_append, List.countP_congr fun j hj => by rw [h j hj], List.countP_singleton]

theorem CourseBricks.step {s : State} {b : BankId} {done : List Nat} {i : Nat} {f g : CourseResult} (ha : s.bricksApart)
    (h : CourseBricks s b done f) (hi : i ∉ done) (hstep : CourseStep b i f g) : CourseBricks s b (done ++ [i]) g := by
  have heffect := hstep.effect ha (h.slots.move.apart ha) (by rw [h.slots.move.mode]) h.fresh (h.slots.other b i (.inr hi))
    fun x hx _ hxi => h.held x hx (.inr (hxi ▸ hi))
  have hsame : ∀ j ∈ done, s.courseChanged g.state b j = s.courseChanged f.state b j := fun j hj => by
    rw [State.courseChanged, State.courseChanged, hstep.other b j (.inr fun heq => hi (heq ▸ hj))]
  refine ⟨h.slots.slotStep hi rfl hstep, h.fresh.trans hstep.noNewLive, fun x hx hother => ?_,
    fun x hx sl hbank hmem hsl hfed hunique => ?_, ?_, ?_, fun hown => ?_⟩
  · have hbefore : x.1.bank ≠ b ∨ x.1.slot ∉ done := hother.imp_right fun hmem hdone => hmem (by simp [hdone])
    exact (h.held x hx hbefore).trans (hstep.heldAs ha h.fresh hx (hother.imp_right fun hmem heq => hmem (by simp [heq])))
  · rcases List.mem_append.mp hmem with hdone | hnew
    · have hne : x.1.slot ≠ i := fun heq => hi (heq ▸ hdone)
      obtain ⟨hwithdrawn, hkept⟩ := h.own x hx sl hbank hdone hsl hfed hunique
      rw [State.courseOwn, hstep.other b x.1.slot (.inr hne)]
      exact ⟨fun hw => ⟨State.withdrawn_of_heldAs (hwithdrawn hw).1 (hstep.heldAs ha h.fresh hx (.inr hne)), (hwithdrawn hw).2⟩,
        hkept⟩
    · obtain rfl : x.1.slot = i := by simpa using hnew
      exact heffect.own x hx sl hbank rfl hsl hfed hunique
  · rw [heffect.skipped, h.skipped, countP_snoc i hsame]
  · rw [heffect.rejected, h.rejected, countP_snoc i fun j hj => by rw [hsame j hj]]
  · have hraises := (h.raises hown).trans (heffect.raises hown)
    rw [← List.map_append] at hraises
    have hsnoc : (done ++ [i]).filterMap (s.courseRejects b) =
        done.filterMap (s.courseRejects b) ++ (s.courseRejects b i).toList := by
      rw [List.filterMap_append]
      cases hreject : s.courseRejects b i <;> simp [hreject]
    rwa [hsnoc]

theorem CourseBricks.run {s : State} (ha : s.bricksApart) (b : BankId) (run : List Nat) (hnodup : run.Nodup) :
    CourseBricks s b run (run.foldl (CourseResult.slot b) ⟨s, 0, 0⟩) :=
  foldl_of_step (CourseBricks s b) (fun _ i f hi h => h.step ha hi (f.slot_step b i)) run ⟨s, 0, 0⟩ hnodup (.start s b)

end Sys2Proof.Machine
end

