-- ==== Sys2Proof/Proofs/EndCourse.lean ====
section
/-! END COURSE (R66, R67): the refusals, the run over the slots of the lay course, and the cursor placed behind it. -/

namespace Sys2Proof.Machine

/-! ## The cursor placed behind the course (R67) -/

section Leaving
variable {u : State} {b : BankId} {run : List Nat}

theorem State.leaveCourse_slot? (c : BankId) (i : Nat) : (u.leaveCourse b run).slot? c i = u.slot? c i := by
  unfold State.leaveCourse
  dsimp only
  split
  · split
    · exact State.advanceCursor_slot? _ _ _ _
    · rfl
  · rfl

theorem State.leaveCourse_planRaises : PlanRaises u (u.leaveCourse b run) := by
  unfold State.leaveCourse
  dsimp only
  split
  · split
    · exact (u.advanceCursor_spendMove _).planRaises
    · exact .of_eq rfl
  · exact .of_eq rfl

/-- A cursor outside the course stays. -/
theorem State.leaveCourse_of_outside (h : u.feed.pointer ≠ b ∨ (u.bank b).state ≠ .ready ∧ (u.bank b).state ≠ .active ∨
    ∀ i ∈ run, (u.bank b).walkOrder[u.feed.cursor]? ≠ some i) : u.leaveCourse b run = u := by
  refine if_neg ?_
  rintro ⟨hpointer, hstate, hwithin⟩
  obtain ⟨i, hi, hmem⟩ := Option.any_eq_true _ _ |>.mp hwithin
  rcases h with h | ⟨hready, hactive⟩ | h
  · exact h hpointer
  · exact hstate.elim hready hactive
  · exact h i (by simpa using hmem) hi

/-- A cursor within the course goes behind it. -/
theorem State.leaveCourse_of_within {i j last : Nat} (hpointer : u.feed.pointer = b)
    (hstate : (u.bank b).state = .ready ∨ (u.bank b).state = .active)
    (hat : (u.bank b).walkOrder[u.feed.cursor]? = some i) (hmem : i ∈ run) (hlast : run.getLast? = some j)
    (hposition : (u.bank b).walkPosition j = some last) : u.leaveCourse b run = u.advanceCursor (last + 1) := by
  have hwithin : ((u.bank b).walkOrder[u.feed.cursor]?.any fun i => run.contains i) = true := by simp [hat, hmem]
  simp only [State.leaveCourse]
  rw [if_pos ⟨hpointer, hstate, hwithin⟩, hlast]
  simp [hposition]

end Leaving

theorem Bank.courseRun_nodup (b : Bank) (c : Nat) : (b.courseRun c).Nodup := b.walkOrder_nodup.sublist (b.courseRun_sublist c)

/-! ## The command -/

/-- END COURSE over the slots of a course. -/
def State.courseEnded (s : State) (b : BankId) (run : List Nat) : CourseResult := run.foldl (CourseResult.slot b) ⟨s, 0, 0⟩

section Command
variable {s : State}

theorem State.takeEndCourse_refused (h : s.mode.mode = .setup ∨ s.mode.mode = .faulted ∨ s.lacksLayCourse) :
    s.takeEndCourse = (s, .refuse .state []) := by
  unfold State.takeEndCourse
  by_cases hmode : s.mode.mode = .setup ∨ s.mode.mode = .faulted
  · rw [if_pos hmode]
  · have hnone : s.layCourse = none := State.layCourse_of_lacksLayCourse (by tauto)
    rw [if_neg hmode, hnone]

theorem State.takeEndCourse_accepted {b : BankId} {c : Nat} (hsetup : s.mode.mode ≠ .setup) (hfaulted : s.mode.mode ≠ .faulted)
    (hlay : s.isLayCourse b c) {run : List Nat} (hrun : run = (s.bank b).courseRun c) :
    s.takeEndCourse = ((s.courseEnded b run).state.leaveCourse b run,
      .ok [⟨1, b.code⟩, ⟨1, c⟩, ⟨1, (s.courseEnded b run).skipped⟩, ⟨1, (s.courseEnded b run).rejected⟩]) := by
  subst hrun
  unfold State.takeEndCourse
  rw [if_neg (by simp [hsetup, hfaulted]), State.layCourse_of_isLayCourse hlay]
  rfl

end Command

/-! ## Pointer and cursor -/

section Point
variable {s u : State} {b : BankId} {run : List Nat}

/-- With the cursor within the course the run moves neither pointer nor cursor, and spends nothing. -/
theorem CoursePoint.within (h : CoursePoint s b u) (hpointer : s.feed.pointer = b)
    (hat : (s.bank b).walkOrder[s.feed.cursor]? ≠ none) : u.feed.pointer = b ∧ u.feed.cursor = s.feed.cursor ∧
      (∀ c, (u.bank c).state = (s.bank c).state) ∧ WalkKept (s.bank b) (u.bank b) ∧ u.plan.order = s.plan.order := by
  cases h with
  | kept pointer cursor state walk order => exact ⟨pointer.trans hpointer, cursor, state, walk b, order⟩
  | spent pointer cursor now here away =>
    have hbeyond : (s.bank b).walkOrder.length ≤ s.feed.cursor := (s.bank b).walkOrder_length_le.trans (here hpointer.symm)
    exact absurd (List.getElem?_eq_none hbeyond) hat
  | moved away => exact absurd hpointer away

/-- The last slot of the course within the walk: the next walk position, or the walk end where there is none (R58, R67). -/
theorem CoursePoint.leave_within (h : CoursePoint s b u) {i j last : Nat} (hpointer : s.feed.pointer = b)
    (hstate : (s.bank b).state = .ready ∨ (s.bank b).state = .active)
    (hat : (s.bank b).walkOrder[s.feed.cursor]? = some i) (hmem : i ∈ run) (hlast : run.getLast? = some j)
    (hposition : (s.bank b).walkPosition j = some last) :
    (last + 1 < (s.bank b).slots.length →
      (u.leaveCourse b run).feed.pointer = b ∧ (u.leaveCourse b run).feed.cursor = last + 1) ∧
    ((s.bank b).slots.length ≤ last + 1 →
      if (s.bank b.other).state = .active ∧ s.plan.order.head? = some b.other then
        (u.leaveCourse b run).feed.pointer = b ∧ (u.leaveCourse b run).feed.cursor = last + 1
      else (u.leaveCourse b run).feed.pointer = b.other ∧ (u.leaveCourse b run).feed.cursor = 0) := by
  obtain ⟨upointer, ucursor, ustate, uwalk, uorder⟩ := h.within hpointer (by simp [hat])
  have hadvance : u.leaveCourse b run = u.advanceCursor (last + 1) :=
    State.leaveCourse_of_within upointer (by rwa [ustate]) (by rwa [uwalk.walkOrder, ucursor]) hmem hlast
      (by rwa [uwalk.walkPosition])
  obtain ⟨hnext, hend⟩ := u.advanceCursor_point (last + 1)
  rw [upointer, uwalk.length, ustate, uorder] at hend
  rw [upointer, uwalk.length] at hnext
  rw [hadvance]
  refine ⟨hnext, fun hbeyond => ?_⟩
  obtain ⟨hstays, hleaves⟩ := hend hbeyond
  split
  next holder => exact hstays holder
  next hnewer => exact hleaves (by tauto)

/-- A cursor outside the course stays, but where an ENDED walk waited for the bank. -/
theorem CoursePoint.leave_outside (h : CoursePoint s b u)
    (houtside : s.feed.pointer ≠ b ∨ (s.bank b).state ≠ .ready ∧ (s.bank b).state ≠ .active ∨
      ∀ i ∈ run, (s.bank b).walkOrder[s.feed.cursor]? ≠ some i) :
    if s.feed.pointer ≠ b ∧ s.feedState = .ended ∧ (s.bank b).state = .active ∧
        ((u.leaveCourse b run).bank b).state = .spent then
      (u.leaveCourse b run).feed.pointer = b ∧ (u.leaveCourse b run).feed.cursor = 0
    else (u.leaveCourse b run).feed.pointer = s.feed.pointer ∧ (u.leaveCourse b run).feed.cursor = s.feed.cursor := by
  cases h with
  | kept pointer cursor state walk order =>
    rw [State.leaveCourse_of_outside (by rwa [pointer, state, (walk b).walkOrder, cursor]), if_neg]
    · exact ⟨pointer, cursor⟩
    · rintro ⟨-, -, hactive, hspent⟩
      rw [state, hactive] at hspent
      cases hspent
  | spent pointer cursor now here away =>
    rw [State.leaveCourse_of_outside (.inr (.inl (by simp [now]))), if_neg fun h => away h.1.symm h.2.1]
    exact ⟨pointer, cursor⟩
  | moved away ended was now pointer cursor =>
    rw [State.leaveCourse_of_outside (.inr (.inl (by simp [now]))), if_pos ⟨away, ended, was, now⟩]
    exact ⟨pointer, cursor⟩

end Point

/-- Settles O30: the run over the slots (`CourseSlots`, `CourseBricks`), then the cursor placed behind the course. -/
theorem endCourseSkipsTheLayCourse : Obligations.EndCourseSkipsTheLayCourse := by
  unfold Obligations.EndCourseSkipsTheLayCourse
  refine fun s tag hidle => ⟨fun hrefused => exec_endCourse_of_take hidle (State.takeEndCourse_refused hrefused),
    fun b c run hsetup hfaulted hlay hrun => ⟨_, _, _,
      exec_endCourse_of_take hidle (State.takeEndCourse_accepted hsetup hfaulted hlay hrun), ?_⟩⟩
  have hnodup : run.Nodup := hrun ▸ (s.bank b).courseRun_nodup c
  have hslots : CourseSlots s b run (s.courseEnded b run).state := .run s b run hnodup
  have hleave : PlanMove (s.courseEnded b run).state ((s.courseEnded b run).state.leaveCourse b run) :=
    State.leaveCourse_planMove _ _ _
  have hmove : WithdrawMove s ((s.courseEnded b run).state.leaveCourse b run) :=
    hslots.move.trans hleave.toPathMove.toWithdrawMove
  simp only [State.leaveCourse_slot?]
  refine ⟨fun i hi sl hsl hpending => ?pending, fun ha => ?bricks, fun b' i sl hsl => ?slots,
    fun i j last hpointer hstate hat hmem hlast hposition =>
      hslots.point.leave_within hpointer hstate hat hmem hlast hposition,
    fun houtside => hslots.point.leave_outside houtside, hmove.datum, hmove.zone, hmove.adhesive, hmove.pose, hmove.clock,
    hmove.mode_mode, (congrArg ModeControl.fault hmove.mode :), (congrArg TrainList.timeout hmove.train :),
    (congrArg PlacementSequencer.grip hmove.place :)⟩
  case pending =>
    exact ((hslots.slot i hi sl hsl).resolve_left fun hkept => hkept.2 hpending).1
  case slots =>
    by_cases hrunSlot : b' = b ∧ i ∈ run
    · obtain ⟨rfl, hi⟩ := hrunSlot
      exact (hslots.slot i hi sl hsl).imp And.left fun ⟨hskipped, hwas⟩ => ⟨hskipped, rfl, hi, hwas⟩
    · exact .inl ((hslots.other b' i (by tauto)).trans hsl)
  case bricks =>
    have hbricks : CourseBricks s b run (s.courseEnded b run) := .run ha b run hnodup
    refine ⟨fun x hx sl hbank hmem hsl hfed hunique => ?own, fun x hx hother => ?others, hbricks.skipped, hbricks.rejected,
      fun hown => ?raises⟩
    case own =>
      obtain ⟨hwithdrawn, hkept⟩ := hbricks.own x hx sl hbank hmem hsl hfed hunique
      exact ⟨fun hw => ⟨State.withdrawn_of_heldAs (hwithdrawn hw).1 (hleave.heldAs x), (hwithdrawn hw).2⟩, hkept⟩
    case others =>
      have hheld := (hbricks.held x hx hother).trans (hleave.heldAs x)
      exact hheld.live (congrArg ModeControl.cradleCount hmove.mode :) hx
    case raises =>
      have hraises := (hbricks.raises hown).trans (State.leaveCourse_planRaises (b := b) (run := run)).raises
      rwa [List.append_nil] at hraises

end Sys2Proof.Machine
end

