-- ==== Sys2Proof/Proofs/WalkOver.lean ====
section
/-! The feed bank activated (R13), its walk ended with no PENDING slot left (R58), and the feed state of the bank that the walk
goes on in (R53). -/

namespace Sys2Proof.Machine

/-! ## Order-blocked slots and the feed state (R53, R56) -/

theorem SlotStatus.isFedOrLaid_iff (st : SlotStatus) : st.isFedOrLaid = true ↔ st = .fed ∨ ∃ outcome, st = .laid outcome := by
  cases st <;> simp [SlotStatus.isFedOrLaid, SlotStatus.isFed, SlotStatus.isLaid]

/-- With no FED and no LAID slot in it, a bank that no second one follows has no order-blocked slot. -/
theorem State.orderBlocked_eq_false {v : State} {c : BankId} (p : Nat)
    (hslots : ∀ x ∈ (v.bank c).slots, x.status.isFedOrLaid = false) (horder : ∀ second rest, v.plan.order ≠ c :: second :: rest) :
    v.orderBlocked c p = false := by
  have hlater : ((v.bank c).walkOrder.drop (p + 1)).any
      (fun i => ((v.bank c).slots[i]?.map fun sl => sl.status.isFedOrLaid).getD false) = false := by
    rw [List.any_eq_false]
    intro i _
    cases hi : (v.bank c).slots[i]? with
    | none => simp
    | some x => simp [hslots x (List.mem_of_getElem? hi)]
  simp only [State.orderBlocked, hlater, Bool.false_or]
  split
  next first second rest horder' =>
    have hfirst : first ≠ c := fun h => horder second rest (h ▸ horder')
    simp [hfirst]
  next => rfl

theorem State.feedState_of_ready {v : State} (hready : (v.bank v.feed.pointer).state = .ready) : v.feedState = .feeding := by
  simp only [State.feedState, hready]

theorem State.feedState_of_idle {v : State} (hready : (v.bank v.feed.pointer).state ≠ .ready)
    (hactive : (v.bank v.feed.pointer).state ≠ .active) : v.feedState = .waiting := by
  cases hstate : (v.bank v.feed.pointer).state <;> simp_all [State.feedState]

theorem Bank.firstPending_lt {b : Bank} {n p : Nat} (h : b.firstPending n = some p) : n < b.slots.length := by
  obtain ⟨k, hk, -⟩ := Option.map_eq_some_iff.mp h
  have hlt := (List.findIdx?_eq_some_iff_getElem.mp hk).1
  rw [List.length_drop] at hlt
  have hwalk := b.walkOrder_length_le
  omega

/-- An ACTIVE feed bank with a PENDING slot that is not order-blocked is FEEDING. -/
theorem State.feedState_of_pending {v : State} {p : Nat} (hactive : (v.bank v.feed.pointer).state = .active)
    (hpending : (v.bank v.feed.pointer).firstPending v.feed.cursor = some p)
    (hfree : v.orderBlocked v.feed.pointer p = false) : v.feedState = .feeding := by
  simp only [State.feedState, hactive, if_pos (Bank.firstPending_lt hpending), hpending, hfree, Bool.false_eq_true, if_false]

/-- Where the feed state is FEEDING the feed bank is READY or ACTIVE. -/
theorem State.bank_of_feeding {s : State} (h : s.feedState = .feeding) :
    (s.bank s.feed.pointer).state = .ready ∨ (s.bank s.feed.pointer).state = .active := by
  by_contra hnot
  rw [not_or] at hnot
  rw [State.feedState_of_idle hnot.1 hnot.2] at h
  cases h

/-! ## The feed bank activated (R13) -/

/-- What step 1 of a feed request leaves: the feed bank ACTIVE. -/
structure FeedActive (s u : State) (b : BankId) : Prop where
  move    : PlanMove s u
  slots   : s.slotsKept u
  feed    : FeedKept s u
  raises  : PlanRaises s u
  pointer : u.feed.pointer = b
  bank    : u.bank b = { s.bank b with state := .active }
  other   : u.bank b.other = s.bank b.other
  order   : u.plan.order = if (s.bank b).state = .ready then s.plan.order ++ [b] else s.plan.order
  switch0 : (s.bank b).state = .ready → b = .bank0 → u.mode.bankSwitch0 = true
  switch1 : (s.bank b).state = .ready → b = .bank1 → u.mode.bankSwitch1 = true
  first   : (s.bank b).state = .ready → u.feed.cursor = 0
  still   : (s.bank b).state = .active → u = s

theorem State.activateIfReady_feedActive {s : State} {b : BankId} (hb : s.feed.pointer = b)
    (hstate : (s.bank b).state = .ready ∨ (s.bank b).state = .active) : FeedActive s s.activateIfReady b := by
  rcases hstate with hready | hactive
  · have hactivate : s.activateIfReady = s.activate b := by simp only [State.activateIfReady, hb, hready]
    obtain ⟨move, slots, pointer, feed, order, bank, other, cursor, mode⟩ := State.activate_moves s b hb.symm _ hactivate
    have hnot : (s.bank b).state ≠ .active := by simp [hready]
    exact ⟨move, slots, feed, s.activateIfReady_planRaises, pointer, bank, other _ b.other_ne, by rw [order, if_pos hready],
      fun _ h => by rw [mode]; exact if_pos h, fun _ h => by rw [mode]; exact if_pos h, fun _ => cursor, fun h => absurd h hnot⟩
  · have hsame : s.activateIfReady = s := by simp only [State.activateIfReady, hb, hactive]
    have hnot : (s.bank b).state ≠ .ready := by simp [hactive]
    rw [hsame]
    exact ⟨.refl s, s.slotsKept_refl, .refl s, .of_eq rfl, hb, by rw [← hactive], rfl, by rw [if_neg hnot],
      fun h => absurd h hnot, fun h => absurd h hnot, fun h => absurd h hnot, fun _ => rfl⟩

section FeedActive
variable {s u : State} {b : BankId} (h : FeedActive s u b)
include h

theorem FeedActive.datumOf (c : BankId) : u.datumOf c = s.datumOf c := by
  have hsetup : (u.bank c).setup = (s.bank c).setup := by
    by_cases hc : c = b
    · rw [hc, h.bank]
    · rw [BankId.eq_other hc, h.other]
  rw [State.datumOf, State.datumOf, hsetup, h.move.datum]

theorem FeedActive.active : (u.bank b).state = .active := by rw [h.bank]

theorem FeedActive.length : (u.bank b).slots.length = (s.bank b).slots.length := by rw [h.bank]

theorem FeedActive.count (f : SlotStatus → Bool) : (u.bank b).count f = (s.bank b).count f := by
  rw [h.bank]
  rfl

end FeedActive

/-! ## The walk ended (R14, R58, R59) -/

/-- The walk of the feed bank ended: the cursor past its last walk position, and the walk-end step. -/
def State.walkedOver (u : State) (b : BankId) : State := (u.placeCursor b (u.bank b).slots.length).walkEnd

/-- The state of a bank whose walk has ended: SPENT, where nothing in it is still to be laid. -/
def Bank.endState (x : Bank) : BankState := if x.count SlotStatus.isOpen = 0 then .spent else .active

/-- What the end of the walk of an ACTIVE feed bank leaves. -/
structure WalkOver (u e : State) (b : BankId) : Prop where
  move   : PlanMove u e
  slots  : u.slotsKept e
  feed   : FeedKept u e
  raises : PlanRaises u e
  state  : (e.bank b).state = (u.bank b).endState
  other  : e.bank b.other = u.bank b.other
  order  : e.plan.order = if (u.bank b).count SlotStatus.isOpen = 0 then u.plan.order.erase b else u.plan.order
  quiet  : e.awaitsSpent b = false

section WalkOver
variable {u : State} {b : BankId}

theorem State.advanceCursor_walkedOver (hb : u.feed.pointer = b) :
    u.advanceCursor (u.bank b).slots.length = u.walkedOver b := by
  rw [State.advanceCursor, hb, if_pos (le_refl _)]
  rfl

theorem State.walkedOver_walkOver (hactive : (u.bank b).state = .active) : WalkOver u (u.walkedOver b) b := by
  have hplan := State.placeCursor_plan u b (u.bank b).slots.length
  have hbank := State.bank_of_plan _ _ hplan
  have hfeed := State.placeCursor_feed u b (u.bank b).slots.length
  have hpointer : (u.placeCursor b (u.bank b).slots.length).feed.pointer = b := by rw [hfeed]
  have hcursor : (u.placeCursor b (u.bank b).slots.length).feed.cursor = (u.bank b).slots.length := by rw [hfeed]
  obtain ⟨hspent, hopen, hother⟩ := (u.placeCursor b (u.bank b).slots.length).walkEnd_left
    (by rw [hpointer, hbank]; exact hactive) (by rw [hpointer, hbank, hcursor])
  rw [hpointer, hbank, hplan] at hspent
  rw [hpointer, hbank, hplan] at hopen
  rw [hpointer, hbank] at hother
  have hstate : ((u.walkedOver b).bank b).state = (u.bank b).endState := by
    rw [Bank.endState]
    split
    next hnone => exact congrArg Bank.state (hspent hnone).1
    next hsome => exact (congrArg Bank.state (State.bank_of_plan u _ (hopen hsome) b)).trans hactive
  refine ⟨(u.placeCursor_planMove _ _).trans (State.walkEnd_planMove _), fun c i => ?_,
    (u.placeCursor_feedKept _ _).trans (State.walkEnd_feedKept _),
    ((u.placeCursor_spendMove _ _).trans (State.walkEnd_spendMove _)).planRaises, hstate, hother, ?_, ?_⟩
  · rw [State.walkedOver, State.walkEnd_slot?, State.placeCursor_slot?]
  · split
    next hnone => exact (hspent hnone).2
    next hsome => exact congrArg PlanStore.order (hopen hsome)
  · rw [State.awaitsSpent, hstate, Bank.endState]
    by_cases hnone : (u.bank b).count SlotStatus.isOpen = 0
    · rw [if_pos hnone]
      rfl
    · have hsame : (u.walkedOver b).bank b = u.bank b := State.bank_of_plan u _ (hopen hnone) b
      rw [hsame, decide_eq_false hnone, Bool.and_false]

/-- Behind an older ACTIVE bank pointer and cursor stay, past the last walk position. -/
theorem State.walkedOver_stays (hactive : (u.bank b.other).state = .active) (hhead : u.plan.order.head? = some b.other) :
    (u.walkedOver b).feed.pointer = b ∧ (u.walkedOver b).feed.cursor = (u.bank b).slots.length := by
  have hplan := State.placeCursor_plan u b (u.bank b).slots.length
  have hfeed := State.placeCursor_feed u b (u.bank b).slots.length
  obtain ⟨hstays, -⟩ := (u.placeCursor b (u.bank b).slots.length).walkEnd_point
  rw [hplan, State.bank_of_plan _ _ hplan, hfeed] at hstays
  exact hstays ⟨hactive, hhead⟩

/-- Otherwise the pointer goes to the other bank. -/
theorem State.walkedOver_leaves (h : (u.bank b.other).state ≠ .active ∨ u.plan.order.head? ≠ some b.other) :
    (u.walkedOver b).feed.pointer = b.other ∧ (u.walkedOver b).feed.cursor = 0 := by
  have hplan := State.placeCursor_plan u b (u.bank b).slots.length
  have hfeed := State.placeCursor_feed u b (u.bank b).slots.length
  obtain ⟨-, hleaves⟩ := (u.placeCursor b (u.bank b).slots.length).walkEnd_point
  rw [hplan, State.bank_of_plan _ _ hplan, hfeed] at hleaves
  exact hleaves h

/-- A walk-end step towards a bank that is neither READY nor ACTIVE asks for a bank in LAYING (R58, R59). -/
theorem State.walkEnd_asks {w : State} (hpointer : w.feed.pointer = b) (hready : (w.bank b.other).state ≠ .ready)
    (hactive : (w.bank b.other).state ≠ .active) (hlaying : w.mode.mode = .laying) :
    w.walkEnd.feed.bankNeeded = true ∧
      ∃ ns, (∀ n ∈ ns, n.ofPlan = true) ∧ .bankNeeded b.other ∈ ns ∧ w.walkEnd.link = w.raisedLink ns := by
  have hend : w.walkEnd = (w.moveCursor b.other 0).needBank := by
    simp only [State.walkEnd, hpointer]
    cases hstate : (w.bank b.other).state <;> simp_all
  have hbank := (w.moveCursor_bankKept b.other 0).bank
  have hmode := (w.moveCursor_planMove b.other 0).mode_mode
  obtain ⟨hto, -⟩ := w.moveCursor_point b.other 0
  have hclear : (w.moveCursor b.other 0).feed.bankNeeded = false := by
    rw [State.moveCursor, State.testSpent_feed]
    exact (State.placeCursor_needed _ _ _).trans (if_neg (by rw [hpointer]; exact b.other_ne))
  have hwaits : (w.moveCursor b.other 0).feedState = .waiting :=
    State.feedState_of_idle (by rwa [hto, hbank]) (by rwa [hto, hbank])
  obtain ⟨ns, hns, hlink⟩ := (w.moveCursor_spendMove b.other 0).planRaises
  rw [hend, State.needBank_of_due (hmode.trans hlaying) hwaits hclear, hto]
  refine ⟨by simp, ns ++ [.bankNeeded b.other], fun n hn => ?_, by simp, ?_⟩
  · rcases List.mem_append.mp hn with hbefore | hlast
    · exact hns n hbefore
    · rw [List.mem_singleton.mp hlast]
      rfl
  · rw [← State.raisedLink_append ns _ hlink]
    exact State.raise_link_congr _ rfl

theorem State.walkedOver_asks (hready : (u.bank b.other).state ≠ .ready) (hactive : (u.bank b.other).state ≠ .active)
    (hlaying : u.mode.mode = .laying) : (u.walkedOver b).feed.bankNeeded = true ∧
      ∃ ns, (∀ n ∈ ns, n.ofPlan = true) ∧ .bankNeeded b.other ∈ ns ∧ (u.walkedOver b).link = u.raisedLink ns := by
  have hplan := State.placeCursor_plan u b (u.bank b).slots.length
  have hbank := State.bank_of_plan _ _ hplan b.other
  obtain ⟨hneeded, ns, hns, hmem, hlink⟩ := State.walkEnd_asks (b := b) (w := u.placeCursor b (u.bank b).slots.length)
    (by rw [State.placeCursor_feed]) (by rwa [hbank]) (by rwa [hbank])
    (by rw [(u.placeCursor_planMove _ _).mode_mode]; exact hlaying)
  obtain ⟨before, hbefore, hfirst⟩ := (u.placeCursor_spendMove b (u.bank b).slots.length).planRaises
  exact ⟨hneeded, before ++ ns, fun n hn => (List.mem_append.mp hn).elim (hbefore n) (hns n),
    List.mem_append_right _ hmem, hlink.trans (State.raisedLink_append before ns hfirst)⟩

end WalkOver

end Sys2Proof.Machine
end

