-- ==== Sys2Proof/Proofs/FeedRequests.lean ====
section
/-! Feed requests (R34, R46, R54 to R59): the round that feeds a slot, the walk that ends, and the round in the other bank. -/

namespace Sys2Proof.Machine

/-! ## The rounds of a request -/

section Rounds
variable {s : State}

theorem exec_feedRequest : exec .feedRequest s = .next s.feedRequest.beginFrame := rfl

theorem State.feedRequest_of_not_due (h : ¬ s.mayFeed) : s.feedRequest = s :=
  if_neg fun hdue => h (s.feedRequestDue_iff.mp hdue)

/-- A request whose conditions hold has rounds enough for two banks. -/
theorem State.feedRequest_rounds (h : s.mayFeed) : ∃ n, s.feedRequest = State.feedSteps (n + 2) s :=
  ⟨_, if_pos (s.feedRequestDue_iff.mpr h)⟩

theorem State.feedRequest_feedMove (s : State) : FeedMove s s.feedRequest := by
  unfold State.feedRequest
  split
  · exact State.feedSteps_feedMove _ s
  · exact .refl s

theorem State.mayFeed_active {b : BankId} (h : s.mayFeed) (hb : b = s.feed.pointer) :
    FeedActive s s.activateIfReady b := by
  obtain ⟨-, hfeeding, -⟩ := h
  subst hb
  exact State.activateIfReady_feedActive rfl (State.bank_of_feeding hfeeding)

/-- With no PENDING slot left the round ends the walk, and another one follows where the feed state is FEEDING (R55, R58). -/
theorem State.feedSteps_walkedOver {b : BankId} (n : Nat) (hpointer : s.activateIfReady.feed.pointer = b)
    (hnone : (s.activateIfReady.bank b).firstPending s.activateIfReady.feed.cursor = none) :
    State.feedSteps (n + 1) s = if (s.activateIfReady.walkedOver b).feedState = .feeding then
      State.feedSteps n (s.activateIfReady.walkedOver b) else s.activateIfReady.walkedOver b := by
  rw [State.feedSteps]
  simp only [hpointer, hnone, State.advanceCursor_walkedOver hpointer]

end Rounds

/-! ## A round that feeds its slot -/

/-- What a round that finds its slot in the feed bank leaves, told from a state whose train, tag and notices were the same: the slot
fed with its target, its entry in the train, the next walk position or the walk end, and FEED among the notices of the plan. -/
structure RoundFeeds (s u t : State) (b : BankId) (p i : Nat) (sl : Slot) (target : Vec3) : Prop where
  slot  : t.slot? b i = some { sl with target := some target, status := .fed }
  train : t.train = { s.train with
    nextSerial := s.train.nextSerial + 1
    entries := s.train.entries ++
      [{ brick := { serial := s.train.nextSerial, tag := s.feed.nextTag, bank := b, slot := i, mark := none }
         planned := sl.planned, measured := none, state := .requested, deadline := none, lost := false }] }
  tag   : t.feed.nextTag = s.feed.nextTag + 1
  point : p + 1 < (u.bank b).slots.length → t.feed.pointer = b ∧ t.feed.cursor = p + 1
  links : ∃ before after, (∀ n ∈ before ++ after, n.ofPlan = true) ∧
    t.link = s.raisedLink (before ++ .feed s.feed.nextTag b i sl.kind sl.planned sl.rotation :: after) ∧
    ((u.bank b).slots.length ≤ p + 1 → ((u.bank b.other).state = .active → u.awaitsSpent b.other = false) →
      t.walkEndsBy b (p + 1) (u.bank b.other).state u.plan.order.head? ∧
      ((u.bank b.other).state ≠ .ready → (u.bank b.other).state ≠ .active → .bankNeeded b.other ∈ after))

section Round
variable {s y u : State} {b : BankId} {p i : Nat} {sl : Slot} {d : DatumEntry} {target : Vec3}

/-- The entry a feed makes is told by the train and the next tag alone. -/
theorem State.newEntry_congr (htrain : u.train = s.train) (htag : u.feed.nextTag = s.feed.nextTag) :
    u.newEntry b i sl =
      { brick := { serial := s.train.nextSerial, tag := s.feed.nextTag, bank := b, slot := i, mark := none }
        planned := sl.planned, measured := none, state := .requested, deadline := none, lost := false } := by
  rw [State.newEntry, htrain, htag]

/-- What the whole of a round's law gives, from a state that reached it by plan moves. -/
theorem State.feedSteps_roundFeeds (n : Nat) (hs : PlanMove s u) (hfeed : FeedKept s u) (hraises : PlanRaises s u)
    (hu : u = y.activateIfReady) (hb : u.feed.pointer = b) (hp : (u.bank b).firstPending u.feed.cursor = some p)
    (ho : (u.cursorTo p).orderBlocked b p = false) (hw : (u.bank b).walkOrder[p]? = some i) (hsl : u.slot? b i = some sl)
    (hd : u.datumOf b = some d) (ht : target = sl.target.getD (targetOn d sl)) (hm : u.mode.mode = .laying)
    (ha : (u.bank b).state = .active) (hadmits : u.zone.admits target = true) :
    RoundFeeds s u (State.feedSteps (n + 1) y) b p i sl target ∧ u.slotsKeptBut (State.feedSteps (n + 1) y) b i ∧
      ((State.feedSteps (n + 1) y).bank b).state = .active ∧
      (u.awaitsSpent b.other = false → (State.feedSteps (n + 1) y).plan.order = u.plan.order ∧
        (State.feedSteps (n + 1) y).bank b.other = u.bank b.other) ∧
      (b = .bank0 → (State.feedSteps (n + 1) y).mode.bankSwitch0 = u.mode.bankSwitch0) ∧
      (b = .bank1 → (State.feedSteps (n + 1) y).mode.bankSwitch1 = u.mode.bankSwitch1) := by
  obtain ⟨-, hfound⟩ := State.feedSteps_found n y u b p i sl d target hu hb hp ho hw hsl hd ht hm ha
  obtain ⟨hslot, hkept, htrain, htag, hpoint, hstate, hquiet, hswitch0, hswitch1, before, after, hofPlan, hlink, hend⟩ :=
    hfound hadmits
  obtain ⟨ns, hns, hfirst⟩ := hraises
  refine ⟨⟨hslot, ?_, htag.trans (by rw [hfeed.1]), hpoint, ns ++ before, after, fun n hn => ?_, ?_, hend⟩, hkept,
    hstate.trans ha, hquiet, hswitch0, hswitch1⟩
  · rw [htrain, State.newEntry_congr hs.train hfeed.1, hs.train]
  · rw [List.append_assoc] at hn
    exact (List.mem_append.mp hn).elim (hns n) (hofPlan n)
  · rw [hlink, hfeed.1, State.raisedLink_append ns _ hfirst, List.append_assoc]

end Round

/-! ## The request that finds its slot in the feed bank -/

section Found
variable {s : State} {b : BankId} {p i : Nat} {sl : Slot} {d : DatumEntry} {target : Vec3}

/-- A slot that fails the zone check is REFUSED, and stays so in the rounds that follow (R46, R55). -/
theorem State.feedRequest_refused (hmay : s.mayFeed) (hb : b = s.feed.pointer)
    (hp : (s.activateIfReady.bank b).firstPending s.activateIfReady.feed.cursor = some p)
    (ho : (s.activateIfReady.cursorTo p).orderBlocked b p = false) (hw : (s.activateIfReady.bank b).walkOrder[p]? = some i)
    (hsl : s.activateIfReady.slot? b i = some sl) (hd : s.datumOf b = some d) (ht : target = sl.target.getD (targetOn d sl))
    (hadmits : s.zone.admits target = false) :
    s.feedRequest.slot? b i = some { sl with target := some target, status := .refused .zone } := by
  have hactive := State.mayFeed_active hmay hb
  obtain ⟨n, hrounds⟩ := State.feedRequest_rounds hmay
  rw [hrounds]
  exact (State.feedSteps_found (n + 1) s _ b p i sl d target rfl hactive.pointer hp ho hw hsl ((hactive.datumOf b).trans hd) ht
    (hactive.move.mode_mode.trans hmay.1) hactive.active).1 (by rwa [hactive.move.zone])

/-- A slot that passes it is fed in the first round. -/
theorem State.feedRequest_fed (hmay : s.mayFeed) (hb : b = s.feed.pointer)
    (hp : (s.activateIfReady.bank b).firstPending s.activateIfReady.feed.cursor = some p)
    (ho : (s.activateIfReady.cursorTo p).orderBlocked b p = false) (hw : (s.activateIfReady.bank b).walkOrder[p]? = some i)
    (hsl : s.activateIfReady.slot? b i = some sl) (hd : s.datumOf b = some d) (ht : target = sl.target.getD (targetOn d sl))
    (hadmits : s.zone.admits target = true) :
    RoundFeeds s s.activateIfReady s.feedRequest b p i sl target ∧ s.activateIfReady.slotsKeptBut s.feedRequest b i ∧
      (s.feedRequest.bank b).state = .active ∧
      (s.activateIfReady.awaitsSpent b.other = false → s.feedRequest.plan.order = s.activateIfReady.plan.order ∧
        s.feedRequest.bank b.other = s.activateIfReady.bank b.other) ∧
      (b = .bank0 → s.feedRequest.mode.bankSwitch0 = s.activateIfReady.mode.bankSwitch0) ∧
      (b = .bank1 → s.feedRequest.mode.bankSwitch1 = s.activateIfReady.mode.bankSwitch1) := by
  have hactive := State.mayFeed_active hmay hb
  obtain ⟨n, hrounds⟩ := State.feedRequest_rounds hmay
  rw [hrounds]
  exact State.feedSteps_roundFeeds (n + 1) hactive.move hactive.feed hactive.raises rfl hactive.pointer hp ho hw hsl
    ((hactive.datumOf b).trans hd) ht (hactive.move.mode_mode.trans hmay.1) hactive.active (by rwa [hactive.move.zone])

end Found

/-! ## The request that finds no slot in the feed bank -/

section Over
variable {s u e v : State} {b : BankId}

/-- The walk goes on in the other bank: a READY one, or a newer ACTIVE one (R58). -/
def State.goesOnIn (s u : State) (b : BankId) : Prop :=
  (s.bank b.other).state = .ready ∧ u.plan.order = [b] ∨ (s.bank b.other).state = .active ∧ u.plan.order = [b, b.other]

theorem State.feedRequest_over (hmay : s.mayFeed) (hb : b = s.feed.pointer)
    (hnone : (s.activateIfReady.bank b).firstPending s.activateIfReady.feed.cursor = none) : ∃ n, s.feedRequest =
      if (s.activateIfReady.walkedOver b).feedState = .feeding then State.feedSteps (n + 1) (s.activateIfReady.walkedOver b)
      else s.activateIfReady.walkedOver b := by
  obtain ⟨n, hrounds⟩ := State.feedRequest_rounds hmay
  exact ⟨n, hrounds.trans (State.feedSteps_walkedOver (n + 1) (State.mayFeed_active hmay hb).pointer hnone)⟩

variable (hu : FeedActive s u b) (he : WalkOver u e b)
include hu he

theorem WalkOver.endState : (e.bank b).state = if (s.bank b).count SlotStatus.isOpen = 0 then .spent else .active := by
  rw [he.state, Bank.endState, hu.count]

theorem WalkOver.length : (e.bank b).slots.length = (s.bank b).slots.length := by
  have hslots : (e.bank b).slots = (u.bank b).slots := List.ext_getElem? (he.slots b)
  rw [hslots, hu.length]

theorem WalkOver.otherBank : e.bank b.other = s.bank b.other := he.other.trans hu.other

/-- Where the walk goes on, the banks still to be laid stand in this order. -/
theorem WalkOver.order_goesOn (hgoes : s.goesOnIn u b) (hv : FeedActive e v b.other) :
    v.plan.order = if (s.bank b).count SlotStatus.isOpen = 0 then [b.other] else [b, b.other] := by
  have hne : b ≠ b.other := b.other_ne.symm
  rw [hv.order, he.otherBank hu, he.order, hu.count]
  rcases hgoes with ⟨hready, horder⟩ | ⟨hactive, horder⟩
  · rw [if_pos hready, horder]
    split <;> simp
  · rw [if_neg (by simp [hactive]), horder]
    split <;> simp

/-- Where the walk goes on to a bank with a PENDING slot and nothing FED or LAID, the feed state is FEEDING. -/
theorem WalkOver.feeding (hgoes : s.goesOnIn u b) (hpointer : e.feed.pointer = b.other) (hcursor : e.feed.cursor = 0)
    (hslots : ∀ x ∈ (s.bank b.other).slots, x.status.isFedOrLaid = false) {p : Nat}
    (hpending : (s.bank b.other).firstPending 0 = some p) : e.feedState = .feeding := by
  have hbank := he.otherBank hu
  rcases hgoes with ⟨hready, -⟩ | ⟨hactive, horder⟩
  · exact State.feedState_of_ready (by rw [hpointer, hbank, hready])
  · refine State.feedState_of_pending (p := p) (by rw [hpointer, hbank, hactive]) (by rw [hpointer, hbank, hcursor, hpending]) ?_
    refine State.orderBlocked_eq_false p (by rwa [hpointer, hbank]) fun second rest => ?_
    rw [hpointer, he.order, horder]
    have hne : b ≠ b.other := b.other_ne.symm
    split <;> simp [hne]

/-- In the bank the walk goes on in no slot is order-blocked, wherever the cursor is put. -/
theorem WalkOver.cursorTo_free (hgoes : s.goesOnIn u b) (hv : FeedActive e v b.other)
    (hslots : ∀ x ∈ (s.bank b.other).slots, x.status.isFedOrLaid = false) (p : Nat) :
    (v.cursorTo p).orderBlocked b.other p = false := by
  have hquiet : v.awaitsSpent b = false := by
    have hbank : v.bank b = e.bank b := by simpa only [BankId.other_other] using hv.other
    rw [State.awaitsSpent, hbank]
    exact he.quiet
  obtain ⟨-, -, hkept, -⟩ := v.cursorTo_moves p
  rw [hv.pointer] at hkept
  have hplan : (v.cursorTo p).plan = v.plan := (hkept.quiet (by rwa [BankId.other_other])).1
  refine State.orderBlocked_eq_false p ?_ fun second rest => ?_
  · rw [hkept.bank, hv.bank, he.otherBank hu]
    exact hslots
  · have hne : b ≠ b.other := b.other_ne.symm
    rw [hplan, he.order_goesOn hu hgoes hv]
    split <;> simp [hne]

end Over

/-- The walk of the feed bank ended, a slot of the other bank is fed in the same request: where its own walk ends too, and in which
states the banks stand (R14, R58). -/
theorem RoundFeeds.banks {s u e v t : State} {b : BankId} {p i : Nat} {sl : Slot} {target : Vec3} (hu : FeedActive s u b)
    (he : WalkOver u e b) (hgoes : s.goesOnIn u b) (hv : FeedActive e v b.other)
    (hround : RoundFeeds s v t b.other p i sl target)
    (hkept : v.awaitsSpent b.other.other = false → t.plan.order = v.plan.order ∧ t.bank b.other.other = v.bank b.other.other) :
    ((s.bank b.other).slots.length ≤ p + 1 →
      ((s.bank b).count SlotStatus.isOpen = 0 →
        t.feed.pointer = b ∧ t.feed.cursor = 0 ∧ t.feedState = .waiting ∧ t.feed.bankNeeded = true) ∧
      ((s.bank b).count SlotStatus.isOpen ≠ 0 →
        t.feed.pointer = b.other ∧ t.feed.cursor = p + 1 ∧ t.feedState = .ended)) ∧
    (∃ before after, (∀ n ∈ before ++ after, n.ofPlan = true) ∧
      t.link = s.raisedLink (before ++ .feed s.feed.nextTag b.other i sl.kind sl.planned sl.rotation :: after) ∧
      ((s.bank b.other).slots.length ≤ p + 1 → (s.bank b).count SlotStatus.isOpen = 0 → .bankNeeded b ∈ after)) ∧
    (t.bank b).state = (if (s.bank b).count SlotStatus.isOpen = 0 then .spent else .active) ∧
    t.plan.order = (if (s.bank b).count SlotStatus.isOpen = 0 then [b.other] else [b, b.other]) := by
  have hbank : v.bank b = e.bank b := by simpa only [BankId.other_other] using hv.other
  have hstate : (v.bank b).state = if (s.bank b).count SlotStatus.isOpen = 0 then .spent else .active := by
    rw [hbank, he.endState hu]
  have hquiet : v.awaitsSpent b = false := by
    rw [State.awaitsSpent, hbank]
    exact he.quiet
  have horder := he.order_goesOn hu hgoes hv
  have hlength : (v.bank b.other).slots.length = (s.bank b.other).slots.length := by rw [hv.length, he.otherBank hu]
  obtain ⟨before, after, hofPlan, hlink, hend⟩ := hround.links
  rw [BankId.other_other, hlength] at hend
  rw [BankId.other_other] at hkept
  obtain ⟨torder, tbank⟩ := hkept hquiet
  refine ⟨fun hlast => ?_, ⟨before, after, hofPlan, hlink, fun hlast hnone => ?_⟩, by rw [tbank, hstate], by rw [torder, horder]⟩
  · obtain ⟨⟨-, hstays, -, hasks⟩, -⟩ := hend hlast fun _ => hquiet
    rw [BankId.other_other] at hstays hasks
    refine ⟨fun hnone => ?_, fun hsome => ?_⟩
    · rw [hstate, if_pos hnone] at hasks
      exact hasks nofun nofun
    · rw [hstate, if_neg hsome, horder, if_neg hsome] at hstays
      exact hstays rfl rfl
  · have hmem := (hend hlast fun _ => hquiet).2
    rw [hstate, if_pos hnone] at hmem
    exact hmem nofun nofun

/-! ## The obligation -/

section Cases
variable {s : State} {b : BankId}

/-- An order-blocked slot holds the feed (R53, R56). -/
theorem State.feedRequest_held {p : Nat} (hb : b = s.feed.pointer) (hactive : (s.bank b).state = .active)
    (hpending : (s.bank b).firstPending s.feed.cursor = some p) (hblocked : s.orderBlocked b p = true) :
    s.feedState = .held ∧ exec .feedRequest s = .next s.beginFrame := by
  subst hb
  have hheld := s.feedState_held p hactive hpending hblocked
  refine ⟨hheld, next_beginFrame_congr (State.feedRequest_of_not_due fun hmay => ?_)⟩
  exact nomatch hheld.symm.trans hmay.2.1

variable (hmay : s.mayFeed) (hb : b = s.feed.pointer)
  (hnone : (s.activateIfReady.bank b).firstPending s.activateIfReady.feed.cursor = none)
include hmay hb hnone

/-- A request that leaves the feed state other than FEEDING at the walk end stops there. -/
theorem State.feedRequest_stops (hnot : (s.activateIfReady.walkedOver b).feedState ≠ .feeding) :
    s.feedRequest = s.activateIfReady.walkedOver b := by
  obtain ⟨n, hover⟩ := State.feedRequest_over hmay hb hnone
  rw [hover, if_neg hnot]

/-- Behind an older ACTIVE bank the walk stays ENDED, or the bank becomes SPENT (R14, R58). -/
theorem State.feedRequest_ended (hother : (s.bank b.other).state = .active)
    (hhead : s.activateIfReady.plan.order.head? = some b.other) :
    s.feedRequest.feed.pointer = b ∧ s.feedRequest.feed.cursor = (s.bank b).slots.length ∧ s.feedRequest.train = s.train ∧
      s.slotsKept s.feedRequest ∧
      ((s.bank b).count SlotStatus.isOpen = 0 →
        (s.feedRequest.bank b).state = .spent ∧ s.feedRequest.feedState = .waiting) ∧
      ((s.bank b).count SlotStatus.isOpen ≠ 0 →
        (s.feedRequest.bank b).state = .active ∧ s.feedRequest.feedState = .ended) := by
  have hu := State.mayFeed_active hmay hb
  have he := State.walkedOver_walkOver hu.active
  obtain ⟨hpointer, hcursor⟩ := State.walkedOver_stays (hu.other ▸ hother) hhead
  have hstate := he.endState hu
  have hspent (hempty : (s.bank b).count SlotStatus.isOpen = 0) :
      ((s.activateIfReady.walkedOver b).bank b).state = .spent ∧ (s.activateIfReady.walkedOver b).feedState = .waiting := by
    rw [if_pos hempty] at hstate
    exact ⟨hstate, State.feedState_of_spent (by rw [hpointer, hstate])⟩
  have hended (hsome : (s.bank b).count SlotStatus.isOpen ≠ 0) :
      ((s.activateIfReady.walkedOver b).bank b).state = .active ∧ (s.activateIfReady.walkedOver b).feedState = .ended := by
    rw [if_neg hsome] at hstate
    refine ⟨hstate, (State.feedState_ended _).mpr ?_⟩
    rw [hpointer, hcursor, he.length hu, hu.length]
    exact ⟨hstate, le_refl _⟩
  have hnot : (s.activateIfReady.walkedOver b).feedState ≠ .feeding := by
    by_cases hempty : (s.bank b).count SlotStatus.isOpen = 0
    · simp [(hspent hempty).2]
    · simp [(hended hempty).2]
  rw [State.feedRequest_stops hmay hb hnone hnot]
  exact ⟨hpointer, hcursor.trans hu.length, he.move.train.trans hu.move.train, hu.slots.trans he.slots, hspent, hended⟩

/-- With nothing to go on in, the walk waits for a bank, and asks for it (R58, R59). -/
theorem State.feedRequest_waits (hactive : (s.bank b.other).state ≠ .active) (hready : (s.bank b.other).state ≠ .ready) :
    s.feedRequest.feed.pointer = b.other ∧ s.feedRequest.feed.cursor = 0 ∧ s.feedRequest.feedState = .waiting ∧
      s.feedRequest.feed.bankNeeded = true ∧ s.feedRequest.train = s.train ∧ s.slotsKept s.feedRequest ∧
      (s.feedRequest.bank b).state = (if (s.bank b).count SlotStatus.isOpen = 0 then .spent else .active) ∧
      ∃ ns, (∀ n ∈ ns, n.ofPlan = true) ∧ .bankNeeded b.other ∈ ns ∧ s.feedRequest.link = s.raisedLink ns := by
  have hu := State.mayFeed_active hmay hb
  have he := State.walkedOver_walkOver hu.active
  have uready : (s.activateIfReady.bank b.other).state ≠ .ready := by rwa [hu.other]
  have uactive : (s.activateIfReady.bank b.other).state ≠ .active := by rwa [hu.other]
  obtain ⟨hpointer, hcursor⟩ := State.walkedOver_leaves (.inl uactive)
  have hwaits : (s.activateIfReady.walkedOver b).feedState = .waiting :=
    State.feedState_of_idle (by rwa [hpointer, he.otherBank hu]) (by rwa [hpointer, he.otherBank hu])
  obtain ⟨hneeded, ns, hns, hmem, hlink⟩ := State.walkedOver_asks uready uactive (hu.move.mode_mode.trans hmay.1)
  obtain ⟨before, hbefore, hfirst⟩ := hu.raises
  rw [State.feedRequest_stops hmay hb hnone (by simp [hwaits])]
  exact ⟨hpointer, hcursor, hwaits, hneeded, he.move.train.trans hu.move.train, hu.slots.trans he.slots, he.endState hu,
    before ++ ns, fun n hn => (List.mem_append.mp hn).elim (hbefore n) (hns n), List.mem_append_right _ hmem,
    hlink.trans (State.raisedLink_append before ns hfirst)⟩

/-- The request goes on in the other bank, and feeds its first PENDING slot there (R55, R58). -/
theorem State.feedRequest_goesOn {p i : Nat} {sl : Slot} {d : DatumEntry} {target : Vec3}
    (hgoes : s.goesOnIn s.activateIfReady b) (hslots : ∀ x ∈ (s.bank b.other).slots, x.status.isFedOrLaid = false)
    (hpending : (s.bank b.other).firstPending 0 = some p) (hwalk : (s.bank b.other).walkOrder[p]? = some i)
    (hslot : s.slot? b.other i = some sl) (hd : s.datumOf b.other = some d) (ht : target = sl.target.getD (targetOn d sl))
    (hadmits : s.zone.admits target = true) : ∃ v : State,
      FeedActive (s.activateIfReady.walkedOver b) v b.other ∧ RoundFeeds s v s.feedRequest b.other p i sl target ∧
      (s.feedRequest.bank b.other).state = .active ∧
      (v.awaitsSpent b.other.other = false → s.feedRequest.plan.order = v.plan.order ∧
        s.feedRequest.bank b.other.other = v.bank b.other.other) := by
  have hu := State.mayFeed_active hmay hb
  have he := State.walkedOver_walkOver hu.active
  have hbank := he.otherBank hu
  have hleaves : (s.activateIfReady.bank b.other).state ≠ .active ∨ s.activateIfReady.plan.order.head? ≠ some b.other := by
    rw [hu.other]
    rcases hgoes with ⟨hready, -⟩ | ⟨-, horder⟩
    · exact .inl (by simp [hready])
    · exact .inr (by simp [horder, b.other_ne.symm])
  obtain ⟨hpointer, hcursor⟩ := State.walkedOver_leaves hleaves
  have hfeeding := he.feeding hu hgoes hpointer hcursor hslots hpending
  have hstate : ((s.activateIfReady.walkedOver b).bank b.other).state = .ready ∨
      ((s.activateIfReady.walkedOver b).bank b.other).state = .active := by
    rw [hbank]
    exact hgoes.imp And.left And.left
  have hv := State.activateIfReady_feedActive hpointer hstate
  have hfirst : (s.activateIfReady.walkedOver b).activateIfReady.feed.cursor = 0 := by
    rcases hstate with hready | hactive
    · exact hv.first hready
    · rw [hv.still hactive, hcursor]
  have hmove := (hu.move.trans he.move).trans hv.move
  obtain ⟨n, hover⟩ := State.feedRequest_over hmay hb hnone
  rw [if_pos hfeeding] at hover
  obtain ⟨hround, -, hlaid, hkept, -⟩ := State.feedSteps_roundFeeds (s := s) (y := s.activateIfReady.walkedOver b)
    (b := b.other) (p := p) (i := i) (sl := sl) (d := d) (target := target) n hmove ((hu.feed.trans he.feed).trans hv.feed)
    ((hu.raises.trans he.raises).trans hv.raises) rfl hv.pointer
    (by rw [hfirst, hv.bank, hbank]; exact hpending) (he.cursorTo_free hu hgoes hv hslots p)
    (by rw [hv.bank, hbank]; exact hwalk) (((hu.slots.trans he.slots).trans hv.slots b.other i).trans hslot)
    (by
      rw [hv.datumOf, State.datumOf, hbank, he.move.datum, hu.move.datum]
      exact hd)
    ht (hmove.mode_mode.trans hmay.1) hv.active (by rwa [hmove.zone])
  rw [← hover] at hround hlaid hkept
  exact ⟨_, hv, hround, hlaid, hkept⟩

end Cases

/-- Settles O54: no request where its conditions fail; otherwise the round that finds its slot, or the walk ended and, where the
other bank is to be fed, the round in that bank. -/
theorem feedRequestFeedsTheNextPendingSlot : Obligations.FeedRequestFeedsTheNextPendingSlot := by
  unfold Obligations.FeedRequestFeedsTheNextPendingSlot
  refine fun s => ⟨fun hnot => next_beginFrame_congr (State.feedRequest_of_not_due hnot),
    fun b p i sl hb hactive hpending hstatus hwhere => State.feedRequest_held hb hactive hpending ?blocked,
    fun u b p i sl d target hmay hu hb hp ho hw hsl hd ht => ⟨s.feedRequest, rfl, fun hadmits => ?refused,
      fun hadmits => ?fed, s.feedRequest_feedMove.frame⟩,
    fun u b hmay hu hb hnone => ⟨s.feedRequest, rfl, fun hother hhead => ?ended, fun hactive hready => ?waits,
      fun p i sl d target hgoes hslots hpending hwalk hslot hd ht hadmits => ?goesOn, s.feedRequest_feedMove.frame⟩⟩
  case blocked =>
    have hfed := (SlotStatus.isFedOrLaid_iff _).mpr hstatus
    rcases hwhere with ⟨q, hlater, hwalk, hslot⟩ | ⟨⟨rest, horder⟩, hslot⟩
    · exact s.orderBlocked_later b p q i sl hlater hwalk hslot hfed
    · exact s.orderBlocked_second b p i sl rest horder hslot hfed
  case refused =>
    subst hu
    exact State.feedRequest_refused hmay hb hp ho hw hsl hd ht hadmits
  case fed =>
    subst hu
    have hu := State.mayFeed_active hmay hb
    obtain ⟨⟨hslot, htrain, htag, hpoint, before, after, hofPlan, hlink, hend⟩, hkept, hstate, hquiet, hswitch0, hswitch1⟩ :=
      State.feedRequest_fed hmay hb hp ho hw hsl hd ht hadmits
    rw [hu.length, hu.other] at hend
    rw [hu.length] at hpoint
    refine ⟨hslot, State.slotsKeptBut_of_kept hu.slots hkept, htrain, htag, hpoint,
      fun hlast hawaits => (hend hlast hawaits).1, hstate, fun hawaits => ((hquiet hawaits).1.trans hu.order),
      fun hready h0 => (hswitch0 h0).trans (hu.switch0 hready h0), fun hready h1 => (hswitch1 h1).trans (hu.switch1 hready h1),
      before, after, hofPlan, hlink, fun hlast hready hactive => ?_⟩
    exact (hend hlast fun h => absurd h hactive).2 hready hactive
  case ended =>
    subst hu
    exact State.feedRequest_ended hmay hb hnone hother hhead
  case waits =>
    subst hu
    exact State.feedRequest_waits hmay hb hnone hactive hready
  case goesOn =>
    subst hu
    have hu := State.mayFeed_active hmay hb
    have he := State.walkedOver_walkOver hu.active
    have hunlaid : ∀ x ∈ (s.bank b.other).slots, x.status.isFedOrLaid = false := fun x hx => by
      rw [Bool.eq_false_iff, ne_eq, SlotStatus.isFedOrLaid_iff, not_or, not_exists]
      exact hslots x hx
    obtain ⟨v, hv, hround, hlaid, hkept⟩ :=
      State.feedRequest_goesOn hmay hb hnone hgoes hunlaid hpending hwalk hslot hd ht hadmits
    obtain ⟨hend, hlinks, hbank, horder⟩ := hround.banks hu he hgoes hv hkept
    have hpoint := hround.point
    rw [hv.length, he.otherBank hu] at hpoint
    exact ⟨hround.slot, hround.train, hround.tag, hpoint, hend, hlinks, hlaid, hbank, horder⟩

end Sys2Proof.Machine
end
